-- ==== Sys2Proof/Machine/Sparse.lean ====
section
/-! DEFINITION. Sparse tables: lists of key and value pairs by strictly rising key, in which no value equals the value
`d` of an unlisted key. The memory's cells and a cache level's sets are such tables. -/

namespace Sys2Proof.Machine

/-- The value at a key: the listed one, else `d`. -/
def sparseGet {β : Type} (d : β) (k : Nat) : List (Nat × β) → β
  | [] => d
  | (k', v) :: t => if k' = k then v else sparseGet d k t

/-- Set the value at a key; setting it to `d` removes the entry, so that equal tables are equal lists. -/
def sparsePut {β : Type} [DecidableEq β] (d : β) (k : Nat) (v : β) : List (Nat × β) → List (Nat × β)
  | [] => if v = d then [] else [(k, v)]
  | (k', v') :: t =>
    if k < k' then (if v = d then (k', v') :: t else (k, v) :: (k', v') :: t)
    else if k = k' then (if v = d then t else (k, v) :: t)
    else (k', v') :: sparsePut d k v t

/-- Insert a key into a strictly rising list of keys. -/
def keyInsert (k : Nat) : List Nat → List Nat
  | [] => [k]
  | k' :: t => if k < k' then k :: k' :: t else if k = k' then k' :: t else k' :: keyInsert k t

/-- Remove a key from a list of keys. -/
def keyErase (k : Nat) (l : List Nat) : List Nat := l.filter (fun k' => k' != k)

/-- The canonical form of a sparse table. -/
abbrev sparseWf {β : Type} (d : β) (t : List (Nat × β)) : Prop :=
  t.Pairwise (fun p q => p.1 < q.1) ∧ ∀ p ∈ t, p.2 ≠ d

end Sys2Proof.Machine
end

