-- ==== Sys2Proof/Word.lean ====
section
/-! DEFINITION. The word types of the machine (spec/00_scope.md rules R6, R7; spec/10_state.md rules R10, R15). -/

namespace Sys2Proof

/-- Every register value, address and immediate is a 64-bit word; arithmetic on it is modulo 2^64 (R7). -/
abbrev Word := BitVec 64

/-- One addressable unit of the address space (R26). -/
abbrev Byte := BitVec 8

/-- A register index field of 5 bits, naming x0 to x31 (R10, R15). -/
abbrev Reg := BitVec 5

/-- A primed register field of 3 bits, naming x8 to x15 (R110, R251). -/
abbrev CReg := BitVec 3

end Sys2Proof
end

