-- ==== Sys2Proof/Config.lean ====
section
/-! DEFINITION. What is fixed for a machine before it is launched (spec/00_scope.md rule R6, spec/60_exceptions.md
rule R374) and the free values of the model: the answers of the host. -/

namespace Sys2Proof

/-- The page size of the address space in bytes (R6, R26). -/
def pageSize : Nat := 4096

/-- The thirteen services of ECALL, in the source's order (R224). -/
inductive Service where
  | exit | printChar | printInt | printLong | printString | readChar | readInt | readLong | readString
  | seedRandom | random | heapAllocate | wallClockTime
  deriving DecidableEq, Repr

/-- All services, in the source's order. -/
def Service.all : List Service :=
  [.exit, .printChar, .printInt, .printLong, .printString, .readChar, .readInt, .readLong, .readString,
   .seedRandom, .random, .heapAllocate, .wallClockTime]

/-- The OPEN parameter SYSNUM (R6, R224): the 64-bit number of each service. -/
structure SysNum where
  exit : Word
  printChar : Word
  printInt : Word
  printLong : Word
  printString : Word
  readChar : Word
  readInt : Word
  readLong : Word
  readString : Word
  seedRandom : Word
  random : Word
  heapAllocate : Word
  wallClockTime : Word
  deriving DecidableEq, Repr

/-- The number a table gives to a service. -/
def SysNum.num (t : SysNum) : Service → Word
  | .exit => t.exit
  | .printChar => t.printChar
  | .printInt => t.printInt
  | .printLong => t.printLong
  | .printString => t.printString
  | .readChar => t.readChar
  | .readInt => t.readInt
  | .readLong => t.readLong
  | .readString => t.readString
  | .seedRandom => t.seedRandom
  | .random => t.random
  | .heapAllocate => t.heapAllocate
  | .wallClockTime => t.wallClockTime

/-- SYSNUM is injective (R6, R224). -/
abbrev SysNum.Injective (t : SysNum) : Prop := (Service.all.map t.num).Nodup

/-- The default numbering: the position in the source's list (R224). -/
def SysNum.ordinal : SysNum :=
  { exit := 0, printChar := 1, printInt := 2, printLong := 3, printString := 4, readChar := 5, readInt := 6,
    readLong := 7, readString := 8, seedRandom := 9, random := 10, heapAllocate := 11, wallClockTime := 12 }

/-- The two parameters of the decoder and of ECALL that a launch fixes (R6): is the M extension present, and
the service numbers. -/
structure Config where
  hasM : Bool
  sysnum : SysNum
  deriving DecidableEq, Repr

/-- The spec's defaults: HAS_M false, SYSNUM ordinal (R6). -/
def Config.default : Config := { hasM := false, sysnum := SysNum.ordinal }

/-- The configuration of one cache level (R6, R22, R374). -/
structure CacheConfig where
  size : Nat
  blockSize : Nat
  associativity : Nat
  writeThrough : Bool
  writeAllocate : Bool
  busLatency : Nat
  hitLatency : Nat
  deriving DecidableEq, Repr

/-- `set_count = size / (block_size * associativity)` (R6). -/
def CacheConfig.setCount (c : CacheConfig) : Nat := c.size / (c.blockSize * c.associativity)

/-- `offset_bits = log2(block_size)` (R6, R64). -/
def CacheConfig.offsetBits (c : CacheConfig) : Nat := Nat.log2 c.blockSize

/-- `index_bits = log2(set_count)` (R6, R64). -/
def CacheConfig.indexBits (c : CacheConfig) : Nat := Nat.log2 c.setCount

/-- The invariant of a cache configuration (R22): the size is the product, and block size and set count are powers
of two matching the bit widths. The bound on the widths says that a tag has at least one bit of the address. -/
abbrev CacheConfig.Ok (c : CacheConfig) : Prop :=
  c.size = c.blockSize * c.associativity * c.setCount ∧ 0 < c.associativity ∧
  c.blockSize = 2 ^ c.offsetBits ∧ c.setCount = 2 ^ c.indexBits ∧ c.offsetBits + c.indexBits ≤ 64

/-- The configuration of the backing memory (R6, R62). -/
structure BackingConfig where
  busLatency : Nat
  hitLatency : Nat
  deriving DecidableEq, Repr

/-- L1 of the default hierarchy (R80). -/
def CacheConfig.defaultL1 : CacheConfig :=
  { size := 32768, blockSize := 64, associativity := 8, writeThrough := false, writeAllocate := true,
    busLatency := 0, hitLatency := 1 }

/-- L2 of the default hierarchy (R80). -/
def CacheConfig.defaultL2 : CacheConfig :=
  { size := 262144, blockSize := 64, associativity := 8, writeThrough := false, writeAllocate := true,
    busLatency := 0, hitLatency := 8 }

/-- L3 of the default hierarchy (R80). -/
def CacheConfig.defaultL3 : CacheConfig :=
  { size := 8388608, blockSize := 64, associativity := 8, writeThrough := false, writeAllocate := true,
    busLatency := 0, hitLatency := 20 }

/-- The default backing memory (R80). -/
def BackingConfig.default : BackingConfig := { busLatency := 0, hitLatency := 100 }

/-- FREE VALUE (log entry 6): the 64-bit word the host answers to the n-th reading service of a run, where the state
does not list that answer. The spec puts no constraint on it (R222). -/
opaque Config.hostWord : Nat → Word

/-- FREE VALUE (log entry 6): the byte string the host answers to the n-th reading service of a run, where the state
does not list that answer. What the machine uses of it is cut before its first zero byte (R222). -/
opaque Config.hostBytes : Nat → List Byte

end Sys2Proof
end

