-- ==== Sys2Proof/Syntax.lean ====
section
/-! DEFINITION. The instructions: one constructor per row of spec/opcode_table.json, and the two classifications an
instruction record carries, its operation kind (spec/10_state.md rule R16) and its format category (R15). -/

namespace Sys2Proof

/-- The format categories of an instruction record (R15, R93, R110). -/
inductive Format where
  | R | I | S | SB | U | UJ
  | CR | CI | CSS | CIW | CL | CS | CB | CJ
  deriving DecidableEq, Repr

/-- The operation kinds of R16: 51 that are always present and 13 that are present when HAS_M. -/
inductive Kind where
  | lui | auipc | jal | jalr
  | beq | bne | blt | bge | bltu | bgeu
  | lb | lh | lw | ld | lbu | lhu | lwu
  | sb | sh | sw | sd
  | addi | slti | sltiu | xori | ori | andi | slli | srli | srai
  | add | sub | sll | slt | sltu | xor | srl | sra | or | and
  | addiw | slliw | srliw | sraiw
  | addw | subw | sllw | srlw | sraw
  | ecall | mv
  | mul | mulh | mulhsu | mulhu | div | divu | rem | remu
  | mulw | divw | divuw | remw | remuw
  deriving DecidableEq, Repr

/-- The instructions of the opcode table with their operand fields. An immediate field has the width R94 and R112
give the immediate before it is extended to 64 bits, low bits that the encoding fixes at zero included. -/
inductive Instr where
  -- upper immediate (R132, R133): imm20 = code[31:12]
  | lui (rd : Reg) (imm20 : BitVec 20)
  | auipc (rd : Reg) (imm20 : BitVec 20)
  -- jumps (R182, R183)
  | jal (rd : Reg) (imm : BitVec 21)
  | jalr (rd rs1 : Reg) (imm : BitVec 12)
  -- branches (R184 to R190)
  | beq (rs1 rs2 : Reg) (imm : BitVec 13)
  | bne (rs1 rs2 : Reg) (imm : BitVec 13)
  | blt (rs1 rs2 : Reg) (imm : BitVec 13)
  | bge (rs1 rs2 : Reg) (imm : BitVec 13)
  | bltu (rs1 rs2 : Reg) (imm : BitVec 13)
  | bgeu (rs1 rs2 : Reg) (imm : BitVec 13)
  -- loads (R204 to R210)
  | lb (rd rs1 : Reg) (imm : BitVec 12)
  | lh (rd rs1 : Reg) (imm : BitVec 12)
  | lw (rd rs1 : Reg) (imm : BitVec 12)
  | ld (rd rs1 : Reg) (imm : BitVec 12)
  | lbu (rd rs1 : Reg) (imm : BitVec 12)
  | lhu (rd rs1 : Reg) (imm : BitVec 12)
  | lwu (rd rs1 : Reg) (imm : BitVec 12)
  -- stores (R211 to R214)
  | sb (rs1 rs2 : Reg) (imm : BitVec 12)
  | sh (rs1 rs2 : Reg) (imm : BitVec 12)
  | sw (rs1 rs2 : Reg) (imm : BitVec 12)
  | sd (rs1 rs2 : Reg) (imm : BitVec 12)
  -- register-immediate (R134 to R142)
  | addi (rd rs1 : Reg) (imm : BitVec 12)
  | slti (rd rs1 : Reg) (imm : BitVec 12)
  | sltiu (rd rs1 : Reg) (imm : BitVec 12)
  | xori (rd rs1 : Reg) (imm : BitVec 12)
  | ori (rd rs1 : Reg) (imm : BitVec 12)
  | andi (rd rs1 : Reg) (imm : BitVec 12)
  | slli (rd rs1 : Reg) (shamt : BitVec 6)
  | srli (rd rs1 : Reg) (shamt : BitVec 6)
  | srai (rd rs1 : Reg) (shamt : BitVec 6)
  -- register-register (R143 to R152)
  | add (rd rs1 rs2 : Reg)
  | sub (rd rs1 rs2 : Reg)
  | sll (rd rs1 rs2 : Reg)
  | slt (rd rs1 rs2 : Reg)
  | sltu (rd rs1 rs2 : Reg)
  | xor (rd rs1 rs2 : Reg)
  | srl (rd rs1 rs2 : Reg)
  | sra (rd rs1 rs2 : Reg)
  | or (rd rs1 rs2 : Reg)
  | and (rd rs1 rs2 : Reg)
  -- word forms (R153 to R161)
  | addiw (rd rs1 : Reg) (imm : BitVec 12)
  | slliw (rd rs1 : Reg) (shamt : BitVec 5)
  | srliw (rd rs1 : Reg) (shamt : BitVec 5)
  | sraiw (rd rs1 : Reg) (shamt : BitVec 5)
  | addw (rd rs1 rs2 : Reg)
  | subw (rd rs1 rs2 : Reg)
  | sllw (rd rs1 rs2 : Reg)
  | srlw (rd rs1 rs2 : Reg)
  | sraw (rd rs1 rs2 : Reg)
  -- system (R220)
  | ecall
  -- multiply and divide, present when HAS_M (R300 to R314)
  | mul (rd rs1 rs2 : Reg)
  | mulh (rd rs1 rs2 : Reg)
  | mulhsu (rd rs1 rs2 : Reg)
  | mulhu (rd rs1 rs2 : Reg)
  | div (rd rs1 rs2 : Reg)
  | divu (rd rs1 rs2 : Reg)
  | rem (rd rs1 rs2 : Reg)
  | remu (rd rs1 rs2 : Reg)
  | mulw (rd rs1 rs2 : Reg)
  | divw (rd rs1 rs2 : Reg)
  | divuw (rd rs1 rs2 : Reg)
  | remw (rd rs1 rs2 : Reg)
  | remuw (rd rs1 rs2 : Reg)
  -- compressed, quadrant 0 (R252 to R256)
  | cAddi4spn (rdp : CReg) (imm : BitVec 10)
  | cLw (rdp rs1p : CReg) (imm : BitVec 7)
  | cLd (rdp rs1p : CReg) (imm : BitVec 8)
  | cSw (rs1p rs2p : CReg) (imm : BitVec 7)
  | cSd (rs1p rs2p : CReg) (imm : BitVec 8)
  -- compressed, quadrant 1 (R257 to R274)
  | cNop (imm : BitVec 6)
  | cAddi (rd : Reg) (imm : BitVec 6)
  | cAddiw (rd : Reg) (imm : BitVec 6)
  | cLi (rd : Reg) (imm : BitVec 6)
  | cAddi16sp (imm : BitVec 10)
  | cLui (rd : Reg) (imm : BitVec 18)
  | cSrli (rdp : CReg) (shamt : BitVec 6)
  | cSrai (rdp : CReg) (shamt : BitVec 6)
  | cAndi (rdp : CReg) (imm : BitVec 6)
  | cSub (rdp rs2p : CReg)
  | cXor (rdp rs2p : CReg)
  | cOr (rdp rs2p : CReg)
  | cAnd (rdp rs2p : CReg)
  | cSubw (rdp rs2p : CReg)
  | cAddw (rdp rs2p : CReg)
  | cJ (imm : BitVec 12)
  | cBeqz (rs1p : CReg) (imm : BitVec 9)
  | cBnez (rs1p : CReg) (imm : BitVec 9)
  -- compressed, quadrant 2 (R275 to R283)
  | cSlli (rd : Reg) (shamt : BitVec 6)
  | cJr (rs1 : Reg)
  | cMv (rd rs2 : Reg)
  | cAdd (rd rs2 : Reg)
  | cJalr (rs1 : Reg)
  | cLwsp (rd : Reg) (imm : BitVec 8)
  | cLdsp (rd : Reg) (imm : BitVec 9)
  | cSwsp (rs2 : Reg) (imm : BitVec 8)
  | cSdsp (rs2 : Reg) (imm : BitVec 9)
  deriving DecidableEq, Repr

end Sys2Proof
end

