-- ==== Sys2Proof/WellFormed.lean ====
section
/-! DEFINITION. The operand values an encoding can carry: what the encoding fixes (the zero low bits of a scaled
immediate, R94 and R112) and what it reserves (R111, R114). Every check is a Bool. -/

namespace Sys2Proof

/-- The low `k` bits of `b` are zero: `b` is a multiple of `2^k`. -/
def lowZero {n : Nat} (b : BitVec n) (k : Nat) : Bool := b.toNat % 2 ^ k == 0

/-- Can the operands of the instruction be encoded? -/
def Instr.wf : Instr → Bool
  -- the SB and UJ immediates are even (R94)
  | .jal _ imm => lowZero imm 1
  | .beq _ _ imm | .bne _ _ imm | .blt _ _ imm | .bge _ _ imm | .bltu _ _ imm | .bgeu _ _ imm => lowZero imm 1
  -- compressed immediates are scaled, and some exclude zero (R112)
  | .cAddi4spn _ imm => lowZero imm 2 && imm != 0
  | .cLw _ _ imm | .cSw _ _ imm => lowZero imm 2
  | .cLd _ _ imm | .cSd _ _ imm => lowZero imm 3
  | .cAddi16sp imm => lowZero imm 4 && imm != 0
  | .cLui rd imm => lowZero imm 12 && imm != 0 && rd != 2
  | .cJ imm => lowZero imm 1
  | .cBeqz _ imm | .cBnez _ imm => lowZero imm 1
  | .cLwsp rd imm => lowZero imm 2 && rd != 0
  | .cLdsp rd imm => lowZero imm 3 && rd != 0
  | .cSwsp _ imm => lowZero imm 2
  | .cSdsp _ imm => lowZero imm 3
  -- reserved register fields (R111, R114)
  | .cAddi rd _ | .cAddiw rd _ => rd != 0
  | .cJr rs1 | .cJalr rs1 => rs1 != 0
  | .cMv _ rs2 | .cAdd _ rs2 => rs2 != 0
  -- every value of every field can be encoded
  | .lui .. | .auipc .. | .jalr .. => true
  | .lb .. | .lh .. | .lw .. | .ld .. | .lbu .. | .lhu .. | .lwu .. | .sb .. | .sh .. | .sw .. | .sd .. => true
  | .addi .. | .slti .. | .sltiu .. | .xori .. | .ori .. | .andi .. | .slli .. | .srli .. | .srai .. => true
  | .add .. | .sub .. | .sll .. | .slt .. | .sltu .. | .xor .. | .srl .. | .sra .. | .or .. | .and .. => true
  | .addiw .. | .slliw .. | .srliw .. | .sraiw .. | .addw .. | .subw .. | .sllw .. | .srlw .. | .sraw .. => true
  | .ecall => true
  | .mul .. | .mulh .. | .mulhsu .. | .mulhu .. | .div .. | .divu .. | .rem .. | .remu .. => true
  | .mulw .. | .divw .. | .divuw .. | .remw .. | .remuw .. => true
  | .cNop .. | .cLi .. | .cSrli .. | .cSrai .. | .cAndi .. | .cSlli .. => true
  | .cSub .. | .cXor .. | .cOr .. | .cAnd .. | .cSubw .. | .cAddw .. => true

/-- Is the instruction one of the thirteen of the M extension (R300)? -/
def Instr.isM : Instr → Bool
  | .mul .. | .mulh .. | .mulhsu .. | .mulhu .. | .div .. | .divu .. | .rem .. | .remu ..
  | .mulw .. | .divw .. | .divuw .. | .remw .. | .remuw .. => true
  | .lui .. | .auipc .. | .jal .. | .jalr .. | .beq .. | .bne .. | .blt .. | .bge .. | .bltu .. | .bgeu ..
  | .lb .. | .lh .. | .lw .. | .ld .. | .lbu .. | .lhu .. | .lwu .. | .sb .. | .sh .. | .sw .. | .sd ..
  | .addi .. | .slti .. | .sltiu .. | .xori .. | .ori .. | .andi .. | .slli .. | .srli .. | .srai ..
  | .add .. | .sub .. | .sll .. | .slt .. | .sltu .. | .xor .. | .srl .. | .sra .. | .or .. | .and ..
  | .addiw .. | .slliw .. | .srliw .. | .sraiw .. | .addw .. | .subw .. | .sllw .. | .srlw .. | .sraw ..
  | .ecall
  | .cAddi4spn .. | .cLw .. | .cLd .. | .cSw .. | .cSd .. | .cNop .. | .cAddi .. | .cAddiw .. | .cLi ..
  | .cAddi16sp .. | .cLui .. | .cSrli .. | .cSrai .. | .cAndi .. | .cSub .. | .cXor .. | .cOr .. | .cAnd ..
  | .cSubw .. | .cAddw .. | .cJ .. | .cBeqz .. | .cBnez .. | .cSlli .. | .cJr .. | .cMv .. | .cAdd .. | .cJalr ..
  | .cLwsp .. | .cLdsp .. | .cSwsp .. | .cSdsp .. => false

end Sys2Proof
end

