-- ==== Sys2Proof/Decode.lean ====
section
/-! DEFINITION. The decoder (spec/30_encoding.md): total on every code word, rejecting by name; after it the encoder,
written from the same tables, and the record fields that decoding fills (spec/10_state.md rule R15). -/

namespace Sys2Proof

/-! ## Fields of a 32-bit word (R93) -/

/-- `code[lo+n-1 : lo]`. -/
abbrev slice {w : Nat} (code : BitVec w) (lo n : Nat) : BitVec n := code.extractLsb' lo n

abbrev opcodeOf (code : BitVec 32) : BitVec 7 := slice code 0 7
abbrev rdOf (code : BitVec 32) : Reg := slice code 7 5
abbrev funct3Of (code : BitVec 32) : BitVec 3 := slice code 12 3
abbrev rs1Of (code : BitVec 32) : Reg := slice code 15 5
abbrev rs2Of (code : BitVec 32) : Reg := slice code 20 5
abbrev funct7Of (code : BitVec 32) : BitVec 7 := slice code 25 7

/-! ## Immediates of a 32-bit word, before extension (R94) -/

/-- Format I: `code[31:20]`. -/
abbrev immIOf (code : BitVec 32) : BitVec 12 := slice code 20 12
/-- The 64-bit immediate shifts: the function code `code[31:26]` ... -/
abbrev funct6Of (code : BitVec 32) : BitVec 6 := slice code 26 6
/-- ... and the shift amount `code[25:20]` (R101). -/
abbrev shamt6Of (code : BitVec 32) : BitVec 6 := slice code 20 6
/-- Format S: `code[31:25] ++ code[11:7]`. -/
abbrev immSOf (code : BitVec 32) : BitVec 12 := slice code 25 7 ++ slice code 7 5
/-- Format SB: `code[31] ++ code[7] ++ code[30:25] ++ code[11:8] ++ 0b0`. -/
abbrev immBOf (code : BitVec 32) : BitVec 13 :=
  slice code 31 1 ++ slice code 7 1 ++ slice code 25 6 ++ slice code 8 4 ++ 0#1
/-- Format U: `code[31:12]`. -/
abbrev immUOf (code : BitVec 32) : BitVec 20 := slice code 12 20
/-- Format UJ: `code[31] ++ code[19:12] ++ code[20] ++ code[30:21] ++ 0b0`. -/
abbrev immJOf (code : BitVec 32) : BitVec 21 :=
  slice code 31 1 ++ slice code 12 8 ++ slice code 20 1 ++ slice code 21 10 ++ 0#1

/-! ## Fields and immediates of a compressed halfword (R110, R112) -/

/-- The unprimed `rd`/`rs1` field `c[11:7]`. -/
abbrev cRdOf (c : BitVec 16) : Reg := slice c 7 5
/-- The unprimed `rs2` field `c[6:2]`. -/
abbrev cRs2Of (c : BitVec 16) : Reg := slice c 2 5
/-- The primed field `c[4:2]` (rd' or rs2'). -/
abbrev cLowpOf (c : BitVec 16) : CReg := slice c 2 3
/-- The primed field `c[9:7]` (rs1', and rd' of the arithmetic forms). -/
abbrev cHighpOf (c : BitVec 16) : CReg := slice c 7 3
/-- C.ADDI4SPN: imm[5:4] = c[12:11], imm[9:6] = c[10:7], imm[2] = c[6], imm[3] = c[5]. -/
abbrev cImm4spnOf (c : BitVec 16) : BitVec 10 :=
  slice c 7 4 ++ slice c 11 2 ++ slice c 5 1 ++ slice c 6 1 ++ 0#2
/-- C.LW, C.SW: imm[5:3] = c[12:10], imm[2] = c[6], imm[6] = c[5]. -/
abbrev cImmWOf (c : BitVec 16) : BitVec 7 := slice c 5 1 ++ slice c 10 3 ++ slice c 6 1 ++ 0#2
/-- C.LD, C.SD: imm[5:3] = c[12:10], imm[7:6] = c[6:5]. -/
abbrev cImmDOf (c : BitVec 16) : BitVec 8 := slice c 5 2 ++ slice c 10 3 ++ 0#3
/-- The 6-bit immediate and shift amount of the CI and CB forms: imm[5] = c[12], imm[4:0] = c[6:2]. -/
abbrev cImm6Of (c : BitVec 16) : BitVec 6 := slice c 12 1 ++ slice c 2 5
/-- C.ADDI16SP: imm[9] = c[12], imm[4] = c[6], imm[6] = c[5], imm[8:7] = c[4:3], imm[5] = c[2]. -/
abbrev cImm16spOf (c : BitVec 16) : BitVec 10 :=
  slice c 12 1 ++ slice c 3 2 ++ slice c 5 1 ++ slice c 2 1 ++ slice c 6 1 ++ 0#4
/-- C.LUI: imm[17] = c[12], imm[16:12] = c[6:2]. -/
abbrev cImmLuiOf (c : BitVec 16) : BitVec 18 := slice c 12 1 ++ slice c 2 5 ++ 0#12
/-- C.J: imm[11] = c[12], imm[4] = c[11], imm[9:8] = c[10:9], imm[10] = c[8], imm[6] = c[7], imm[7] = c[6],
imm[3:1] = c[5:3], imm[5] = c[2]. -/
abbrev cImmJOf (c : BitVec 16) : BitVec 12 :=
  slice c 12 1 ++ slice c 8 1 ++ slice c 9 2 ++ slice c 6 1 ++ slice c 7 1 ++ slice c 2 1 ++ slice c 11 1 ++
    slice c 3 3 ++ 0#1
/-- C.BEQZ, C.BNEZ: imm[8] = c[12], imm[4:3] = c[11:10], imm[7:6] = c[6:5], imm[2:1] = c[4:3], imm[5] = c[2]. -/
abbrev cImmBOf (c : BitVec 16) : BitVec 9 :=
  slice c 12 1 ++ slice c 5 2 ++ slice c 2 1 ++ slice c 10 2 ++ slice c 3 2 ++ 0#1
/-- C.LWSP: imm[5] = c[12], imm[4:2] = c[6:4], imm[7:6] = c[3:2]. -/
abbrev cImmLwspOf (c : BitVec 16) : BitVec 8 := slice c 2 2 ++ slice c 12 1 ++ slice c 4 3 ++ 0#2
/-- C.LDSP: imm[5] = c[12], imm[4:3] = c[6:5], imm[8:6] = c[4:2]. -/
abbrev cImmLdspOf (c : BitVec 16) : BitVec 9 := slice c 2 3 ++ slice c 12 1 ++ slice c 5 2 ++ 0#3
/-- C.SWSP: imm[5:2] = c[12:9], imm[7:6] = c[8:7]. -/
abbrev cImmSwspOf (c : BitVec 16) : BitVec 8 := slice c 7 2 ++ slice c 9 4 ++ 0#2
/-- C.SDSP: imm[5:3] = c[12:10], imm[8:6] = c[9:7]. -/
abbrev cImmSdspOf (c : BitVec 16) : BitVec 9 := slice c 7 3 ++ slice c 10 3 ++ 0#3

/-! ## The decoder -/

/-- Why a code word is a decode failure. The machine reports only DecodeFailure (R361); the names follow the rows of
R104 and R114 (log entry 23). -/
inductive DecodeReject where
  /-- `code[6:0]` is no accepted major opcode (R100, R104). -/
  | majorOpcode
  /-- An unlisted funct3 or funct7, or other upper bits of a shift, under an accepted opcode (R100 to R102). -/
  | unlistedFunct
  /-- A SYSTEM word other than ECALL (R103). -/
  | systemNotEcall
  /-- A multiply or divide while HAS_M is false (R102). -/
  | multiplyDivideAbsent
  /-- A compressed floating-point load or store (R114). -/
  | floatingPointCompressed
  /-- A reserved compressed encoding (R114). -/
  | reservedCompressed
  /-- C.EBREAK (R114). -/
  | compressedEbreak
  deriving DecidableEq, Repr

/-- The decoder's answer: an instruction or a decode failure (R90). -/
inductive DecodeResult where
  | instr (i : Instr)
  | failure (why : DecodeReject)
  deriving DecidableEq, Repr

/-- The instruction of an answer, if there is one. -/
def DecodeResult.toOption : DecodeResult → Option Instr
  | .instr i => some i
  | .failure _ => none

/-- BRANCH, opcode 0x63 (R100). -/
def decodeBranch (code : BitVec 32) : DecodeResult :=
  let rs1 := rs1Of code
  let rs2 := rs2Of code
  let imm := immBOf code
  match funct3Of code with
  | 0b000#3 => .instr (.beq rs1 rs2 imm)
  | 0b001#3 => .instr (.bne rs1 rs2 imm)
  | 0b100#3 => .instr (.blt rs1 rs2 imm)
  | 0b101#3 => .instr (.bge rs1 rs2 imm)
  | 0b110#3 => .instr (.bltu rs1 rs2 imm)
  | 0b111#3 => .instr (.bgeu rs1 rs2 imm)
  | _ => .failure .unlistedFunct

/-- LOAD, opcode 0x03 (R100). -/
def decodeLoad (code : BitVec 32) : DecodeResult :=
  let rd := rdOf code
  let rs1 := rs1Of code
  let imm := immIOf code
  match funct3Of code with
  | 0b000#3 => .instr (.lb rd rs1 imm)
  | 0b001#3 => .instr (.lh rd rs1 imm)
  | 0b010#3 => .instr (.lw rd rs1 imm)
  | 0b011#3 => .instr (.ld rd rs1 imm)
  | 0b100#3 => .instr (.lbu rd rs1 imm)
  | 0b101#3 => .instr (.lhu rd rs1 imm)
  | 0b110#3 => .instr (.lwu rd rs1 imm)
  | _ => .failure .unlistedFunct

/-- STORE, opcode 0x23 (R100). -/
def decodeStore (code : BitVec 32) : DecodeResult :=
  let rs1 := rs1Of code
  let rs2 := rs2Of code
  let imm := immSOf code
  match funct3Of code with
  | 0b000#3 => .instr (.sb rs1 rs2 imm)
  | 0b001#3 => .instr (.sh rs1 rs2 imm)
  | 0b010#3 => .instr (.sw rs1 rs2 imm)
  | 0b011#3 => .instr (.sd rs1 rs2 imm)
  | _ => .failure .unlistedFunct

/-- OP-IMM, opcode 0x13 (R100, R101). -/
def decodeOpImm (code : BitVec 32) : DecodeResult :=
  let rd := rdOf code
  let rs1 := rs1Of code
  let imm := immIOf code
  match funct3Of code with
  | 0b000#3 => .instr (.addi rd rs1 imm)
  | 0b010#3 => .instr (.slti rd rs1 imm)
  | 0b011#3 => .instr (.sltiu rd rs1 imm)
  | 0b100#3 => .instr (.xori rd rs1 imm)
  | 0b110#3 => .instr (.ori rd rs1 imm)
  | 0b111#3 => .instr (.andi rd rs1 imm)
  | 0b001#3 =>
    if funct6Of code = 0b000000#6 then .instr (.slli rd rs1 (shamt6Of code))
    else .failure .unlistedFunct
  | _ =>
    if funct6Of code = 0b000000#6 then .instr (.srli rd rs1 (shamt6Of code))
    else if funct6Of code = 0b010000#6 then .instr (.srai rd rs1 (shamt6Of code))
    else .failure .unlistedFunct

/-- OP-IMM-32, opcode 0x1B (R100, R101). -/
def decodeOpImm32 (code : BitVec 32) : DecodeResult :=
  let rd := rdOf code
  let rs1 := rs1Of code
  let shamt := rs2Of code
  match funct3Of code with
  | 0b000#3 => .instr (.addiw rd rs1 (immIOf code))
  | 0b001#3 =>
    if funct7Of code = 0b0000000#7 then .instr (.slliw rd rs1 shamt) else .failure .unlistedFunct
  | 0b101#3 =>
    if funct7Of code = 0b0000000#7 then .instr (.srliw rd rs1 shamt)
    else if funct7Of code = 0b0100000#7 then .instr (.sraiw rd rs1 shamt)
    else .failure .unlistedFunct
  | _ => .failure .unlistedFunct

/-- OP, opcode 0x33 (R102). -/
def decodeOp (hasM : Bool) (code : BitVec 32) : DecodeResult :=
  let rd := rdOf code
  let rs1 := rs1Of code
  let rs2 := rs2Of code
  if funct7Of code = 0b0000000#7 then
    match funct3Of code with
    | 0b000#3 => .instr (.add rd rs1 rs2)
    | 0b001#3 => .instr (.sll rd rs1 rs2)
    | 0b010#3 => .instr (.slt rd rs1 rs2)
    | 0b011#3 => .instr (.sltu rd rs1 rs2)
    | 0b100#3 => .instr (.xor rd rs1 rs2)
    | 0b101#3 => .instr (.srl rd rs1 rs2)
    | 0b110#3 => .instr (.or rd rs1 rs2)
    | _ => .instr (.and rd rs1 rs2)
  else if funct7Of code = 0b0100000#7 then
    match funct3Of code with
    | 0b000#3 => .instr (.sub rd rs1 rs2)
    | 0b101#3 => .instr (.sra rd rs1 rs2)
    | _ => .failure .unlistedFunct
  else if funct7Of code = 0b0000001#7 then
    if hasM then
      match funct3Of code with
      | 0b000#3 => .instr (.mul rd rs1 rs2)
      | 0b001#3 => .instr (.mulh rd rs1 rs2)
      | 0b010#3 => .instr (.mulhsu rd rs1 rs2)
      | 0b011#3 => .instr (.mulhu rd rs1 rs2)
      | 0b100#3 => .instr (.div rd rs1 rs2)
      | 0b101#3 => .instr (.divu rd rs1 rs2)
      | 0b110#3 => .instr (.rem rd rs1 rs2)
      | _ => .instr (.remu rd rs1 rs2)
    else .failure .multiplyDivideAbsent
  else .failure .unlistedFunct

/-- OP-32, opcode 0x3B (R102). -/
def decodeOp32 (hasM : Bool) (code : BitVec 32) : DecodeResult :=
  let rd := rdOf code
  let rs1 := rs1Of code
  let rs2 := rs2Of code
  if funct7Of code = 0b0000000#7 then
    match funct3Of code with
    | 0b000#3 => .instr (.addw rd rs1 rs2)
    | 0b001#3 => .instr (.sllw rd rs1 rs2)
    | 0b101#3 => .instr (.srlw rd rs1 rs2)
    | _ => .failure .unlistedFunct
  else if funct7Of code = 0b0100000#7 then
    match funct3Of code with
    | 0b000#3 => .instr (.subw rd rs1 rs2)
    | 0b101#3 => .instr (.sraw rd rs1 rs2)
    | _ => .failure .unlistedFunct
  else if funct7Of code = 0b0000001#7 then
    if hasM then
      match funct3Of code with
      | 0b000#3 => .instr (.mulw rd rs1 rs2)
      | 0b100#3 => .instr (.divw rd rs1 rs2)
      | 0b101#3 => .instr (.divuw rd rs1 rs2)
      | 0b110#3 => .instr (.remw rd rs1 rs2)
      | 0b111#3 => .instr (.remuw rd rs1 rs2)
      | _ => .failure .unlistedFunct
    else .failure .multiplyDivideAbsent
  else .failure .unlistedFunct

/-- A full 32-bit word, by its major opcode (R100, R103). -/
def decode32 (hasM : Bool) (code : BitVec 32) : DecodeResult :=
  if opcodeOf code = 0b0110111#7 then .instr (.lui (rdOf code) (immUOf code))
  else if opcodeOf code = 0b0010111#7 then .instr (.auipc (rdOf code) (immUOf code))
  else if opcodeOf code = 0b1101111#7 then .instr (.jal (rdOf code) (immJOf code))
  else if opcodeOf code = 0b1100111#7 then
    if funct3Of code = 0b000#3 then .instr (.jalr (rdOf code) (rs1Of code) (immIOf code))
    else .failure .unlistedFunct
  else if opcodeOf code = 0b1100011#7 then decodeBranch code
  else if opcodeOf code = 0b0000011#7 then decodeLoad code
  else if opcodeOf code = 0b0100011#7 then decodeStore code
  else if opcodeOf code = 0b0010011#7 then decodeOpImm code
  else if opcodeOf code = 0b0011011#7 then decodeOpImm32 code
  else if opcodeOf code = 0b0110011#7 then decodeOp hasM code
  else if opcodeOf code = 0b0111011#7 then decodeOp32 hasM code
  else if opcodeOf code = 0b1110011#7 then
    if code = 0x00000073#32 then .instr .ecall else .failure .systemNotEcall
  else .failure .majorOpcode

/-- Quadrant 0, `c[1:0] = 00` (R111, R114). -/
def decodeQ0 (c : BitVec 16) : DecodeResult :=
  match slice c 13 3 with
  | 0b000#3 =>
    if cImm4spnOf c = 0 then .failure .reservedCompressed else .instr (.cAddi4spn (cLowpOf c) (cImm4spnOf c))
  | 0b010#3 => .instr (.cLw (cLowpOf c) (cHighpOf c) (cImmWOf c))
  | 0b011#3 => .instr (.cLd (cLowpOf c) (cHighpOf c) (cImmDOf c))
  | 0b110#3 => .instr (.cSw (cHighpOf c) (cLowpOf c) (cImmWOf c))
  | 0b111#3 => .instr (.cSd (cHighpOf c) (cLowpOf c) (cImmDOf c))
  | 0b100#3 => .failure .reservedCompressed
  | _ => .failure .floatingPointCompressed

/-- The arithmetic forms of quadrant 1, `c[15:13] = 100` (R111, R114). -/
def decodeQ1Arith (c : BitVec 16) : DecodeResult :=
  let rdp := cHighpOf c
  let rs2p := cLowpOf c
  match slice c 10 2 with
  | 0b00#2 => .instr (.cSrli rdp (cImm6Of c))
  | 0b01#2 => .instr (.cSrai rdp (cImm6Of c))
  | 0b10#2 => .instr (.cAndi rdp (cImm6Of c))
  | _ =>
    if slice c 12 1 = 0b0#1 then
      match slice c 5 2 with
      | 0b00#2 => .instr (.cSub rdp rs2p)
      | 0b01#2 => .instr (.cXor rdp rs2p)
      | 0b10#2 => .instr (.cOr rdp rs2p)
      | _ => .instr (.cAnd rdp rs2p)
    else
      match slice c 5 2 with
      | 0b00#2 => .instr (.cSubw rdp rs2p)
      | 0b01#2 => .instr (.cAddw rdp rs2p)
      | _ => .failure .reservedCompressed

/-- Quadrant 1, `c[1:0] = 01` (R111, R114). -/
def decodeQ1 (c : BitVec 16) : DecodeResult :=
  match slice c 13 3 with
  | 0b000#3 => if cRdOf c = 0 then .instr (.cNop (cImm6Of c)) else .instr (.cAddi (cRdOf c) (cImm6Of c))
  | 0b001#3 => if cRdOf c = 0 then .failure .reservedCompressed else .instr (.cAddiw (cRdOf c) (cImm6Of c))
  | 0b010#3 => .instr (.cLi (cRdOf c) (cImm6Of c))
  | 0b011#3 =>
    if cImm6Of c = 0 then .failure .reservedCompressed
    else if cRdOf c = 2 then .instr (.cAddi16sp (cImm16spOf c))
    else .instr (.cLui (cRdOf c) (cImmLuiOf c))
  | 0b100#3 => decodeQ1Arith c
  | 0b101#3 => .instr (.cJ (cImmJOf c))
  | 0b110#3 => .instr (.cBeqz (cHighpOf c) (cImmBOf c))
  | _ => .instr (.cBnez (cHighpOf c) (cImmBOf c))

/-- Quadrant 2, `c[1:0] = 10` (R111, R114). -/
def decodeQ2 (c : BitVec 16) : DecodeResult :=
  match slice c 13 3 with
  | 0b000#3 => .instr (.cSlli (cRdOf c) (cImm6Of c))
  | 0b010#3 => if cRdOf c = 0 then .failure .reservedCompressed else .instr (.cLwsp (cRdOf c) (cImmLwspOf c))
  | 0b011#3 => if cRdOf c = 0 then .failure .reservedCompressed else .instr (.cLdsp (cRdOf c) (cImmLdspOf c))
  | 0b100#3 =>
    if slice c 12 1 = 0b0#1 then
      if cRs2Of c = 0 then
        if cRdOf c = 0 then .failure .reservedCompressed else .instr (.cJr (cRdOf c))
      else .instr (.cMv (cRdOf c) (cRs2Of c))
    else
      if cRs2Of c = 0 then
        if cRdOf c = 0 then .failure .compressedEbreak else .instr (.cJalr (cRdOf c))
      else .instr (.cAdd (cRdOf c) (cRs2Of c))
  | 0b110#3 => .instr (.cSwsp (cRs2Of c) (cImmSwspOf c))
  | 0b111#3 => .instr (.cSdsp (cRs2Of c) (cImmSdspOf c))
  | _ => .failure .floatingPointCompressed

/-- A compressed halfword, by its quadrant; 11 is no quadrant and never reaches this function (R91). -/
def decode16 (c : BitVec 16) : DecodeResult :=
  if slice c 0 2 = 0b00#2 then decodeQ0 c
  else if slice c 0 2 = 0b01#2 then decodeQ1 c
  else if slice c 0 2 = 0b10#2 then decodeQ2 c
  else .failure .reservedCompressed

/-- `decode(code)`: a pure function of the code word and HAS_M (R90). A word with low bits other than 11 is decoded
from its low halfword alone (R91, R92). -/
def decode (hasM : Bool) (code : BitVec 32) : DecodeResult :=
  if slice code 0 2 = 0b11#2 then decode32 hasM code else decode16 (slice code 0 16)

/-- The length Fetch gives a code word: 4 if `code[1:0] = 11`, else 2 (R91, R341). -/
def codeLen (code : BitVec 32) : Nat := if slice code 0 2 = 0b11#2 then 4 else 2

/-! ## The encoder, from the same tables -/

/-- Format R (R93). -/
def encR (funct7 : BitVec 7) (rs2 rs1 : Reg) (funct3 : BitVec 3) (rd : Reg) (opcode : BitVec 7) : BitVec 32 :=
  funct7 ++ rs2 ++ rs1 ++ funct3 ++ rd ++ opcode

/-- Format I (R93). -/
def encI (imm : BitVec 12) (rs1 : Reg) (funct3 : BitVec 3) (rd : Reg) (opcode : BitVec 7) : BitVec 32 :=
  imm ++ rs1 ++ funct3 ++ rd ++ opcode

/-- Format I of the 64-bit immediate shifts (R101). -/
def encShift (funct6 shamt : BitVec 6) (rs1 : Reg) (funct3 : BitVec 3) (rd : Reg) (opcode : BitVec 7) : BitVec 32 :=
  funct6 ++ shamt ++ rs1 ++ funct3 ++ rd ++ opcode

/-- Format S (R93). -/
def encS (imm : BitVec 12) (rs2 rs1 : Reg) (funct3 : BitVec 3) (opcode : BitVec 7) : BitVec 32 :=
  slice imm 5 7 ++ rs2 ++ rs1 ++ funct3 ++ slice imm 0 5 ++ opcode

/-- Format SB (R93). -/
def encB (imm : BitVec 13) (rs2 rs1 : Reg) (funct3 : BitVec 3) (opcode : BitVec 7) : BitVec 32 :=
  slice imm 12 1 ++ slice imm 5 6 ++ rs2 ++ rs1 ++ funct3 ++ slice imm 1 4 ++ slice imm 11 1 ++ opcode

/-- Format U (R93). -/
def encU (imm20 : BitVec 20) (rd : Reg) (opcode : BitVec 7) : BitVec 32 := imm20 ++ rd ++ opcode

/-- Format UJ (R93). -/
def encJ (imm : BitVec 21) (rd : Reg) (opcode : BitVec 7) : BitVec 32 :=
  slice imm 20 1 ++ slice imm 1 10 ++ slice imm 11 1 ++ slice imm 12 8 ++ rd ++ opcode

/-- Format CR (R110). -/
def encCR (funct4 : BitVec 4) (rd rs2 : Reg) : BitVec 16 := funct4 ++ rd ++ rs2 ++ 0b10#2

/-- Format CI with the 6-bit immediate of R112. -/
def encCI (funct3 : BitVec 3) (imm : BitVec 6) (rd : Reg) (op : BitVec 2) : BitVec 16 :=
  funct3 ++ slice imm 5 1 ++ rd ++ slice imm 0 5 ++ op

/-- Format CB with the 6-bit immediate of R112: C.SRLI, C.SRAI, C.ANDI. -/
def encCBi (funct2 : BitVec 2) (imm : BitVec 6) (rdp : CReg) : BitVec 16 :=
  0b100#3 ++ slice imm 5 1 ++ funct2 ++ rdp ++ slice imm 0 5 ++ 0b01#2

/-- Format CS of the register-register arithmetic forms (R110). -/
def encCA (funct6 : BitVec 6) (funct2 : BitVec 2) (rdp rs2p : CReg) : BitVec 16 :=
  funct6 ++ rdp ++ funct2 ++ rs2p ++ 0b01#2

/-- CL and CS with the word offset of C.LW and C.SW (R110, R112). -/
def encCLW (funct3 : BitVec 3) (imm : BitVec 7) (rs1p lowp : CReg) : BitVec 16 :=
  funct3 ++ slice imm 3 3 ++ rs1p ++ slice imm 2 1 ++ slice imm 6 1 ++ lowp ++ 0b00#2

/-- CL and CS with the doubleword offset of C.LD and C.SD (R110, R112). -/
def encCLD (funct3 : BitVec 3) (imm : BitVec 8) (rs1p lowp : CReg) : BitVec 16 :=
  funct3 ++ slice imm 3 3 ++ rs1p ++ slice imm 6 2 ++ lowp ++ 0b00#2

/-- Format CB with a branch offset (R110, R112). -/
def encCB (funct3 : BitVec 3) (imm : BitVec 9) (rs1p : CReg) : BitVec 16 :=
  funct3 ++ slice imm 8 1 ++ slice imm 3 2 ++ rs1p ++ slice imm 6 2 ++ slice imm 1 2 ++ slice imm 5 1 ++ 0b01#2

/-- C.ADDI4SPN, format CIW (R110, R112). -/
def encCIW (imm : BitVec 10) (rdp : CReg) : BitVec 16 :=
  0b000#3 ++ slice imm 4 2 ++ slice imm 6 4 ++ slice imm 2 1 ++ slice imm 3 1 ++ rdp ++ 0b00#2

/-- C.J, format CJ (R110, R112). -/
def encCJ (imm : BitVec 12) : BitVec 16 :=
  0b101#3 ++ slice imm 11 1 ++ slice imm 4 1 ++ slice imm 8 2 ++ slice imm 10 1 ++ slice imm 6 1 ++ slice imm 7 1 ++
    slice imm 1 3 ++ slice imm 5 1 ++ 0b01#2

/-- C.ADDI16SP (R112). -/
def encC16sp (imm : BitVec 10) : BitVec 16 :=
  0b011#3 ++ slice imm 9 1 ++ 2#5 ++ slice imm 4 1 ++ slice imm 6 1 ++ slice imm 7 2 ++ slice imm 5 1 ++ 0b01#2

/-- C.LUI (R112). -/
def encCLui (imm : BitVec 18) (rd : Reg) : BitVec 16 :=
  0b011#3 ++ slice imm 17 1 ++ rd ++ slice imm 12 5 ++ 0b01#2

/-- C.LWSP (R112). -/
def encCLwsp (imm : BitVec 8) (rd : Reg) : BitVec 16 :=
  0b010#3 ++ slice imm 5 1 ++ rd ++ slice imm 2 3 ++ slice imm 6 2 ++ 0b10#2

/-- C.LDSP (R112). -/
def encCLdsp (imm : BitVec 9) (rd : Reg) : BitVec 16 :=
  0b011#3 ++ slice imm 5 1 ++ rd ++ slice imm 3 2 ++ slice imm 6 3 ++ 0b10#2

/-- C.SWSP, format CSS (R112). -/
def encCSwsp (imm : BitVec 8) (rs2 : Reg) : BitVec 16 :=
  0b110#3 ++ slice imm 2 4 ++ slice imm 6 2 ++ rs2 ++ 0b10#2

/-- C.SDSP, format CSS (R112). -/
def encCSdsp (imm : BitVec 9) (rs2 : Reg) : BitVec 16 :=
  0b111#3 ++ slice imm 3 3 ++ slice imm 6 3 ++ rs2 ++ 0b10#2

/-- A compressed halfword as the low half of a code word (R92). -/
def halfword (c : BitVec 16) : BitVec 32 := 0#16 ++ c

/-- The code word of a well-formed instruction; a compressed one stands in the low halfword, the upper one zero. -/
def encode : Instr → BitVec 32
  | .lui rd imm => encU imm rd 0b0110111
  | .auipc rd imm => encU imm rd 0b0010111
  | .jal rd imm => encJ imm rd 0b1101111
  | .jalr rd rs1 imm => encI imm rs1 0b000 rd 0b1100111
  | .beq rs1 rs2 imm => encB imm rs2 rs1 0b000 0b1100011
  | .bne rs1 rs2 imm => encB imm rs2 rs1 0b001 0b1100011
  | .blt rs1 rs2 imm => encB imm rs2 rs1 0b100 0b1100011
  | .bge rs1 rs2 imm => encB imm rs2 rs1 0b101 0b1100011
  | .bltu rs1 rs2 imm => encB imm rs2 rs1 0b110 0b1100011
  | .bgeu rs1 rs2 imm => encB imm rs2 rs1 0b111 0b1100011
  | .lb rd rs1 imm => encI imm rs1 0b000 rd 0b0000011
  | .lh rd rs1 imm => encI imm rs1 0b001 rd 0b0000011
  | .lw rd rs1 imm => encI imm rs1 0b010 rd 0b0000011
  | .ld rd rs1 imm => encI imm rs1 0b011 rd 0b0000011
  | .lbu rd rs1 imm => encI imm rs1 0b100 rd 0b0000011
  | .lhu rd rs1 imm => encI imm rs1 0b101 rd 0b0000011
  | .lwu rd rs1 imm => encI imm rs1 0b110 rd 0b0000011
  | .sb rs1 rs2 imm => encS imm rs2 rs1 0b000 0b0100011
  | .sh rs1 rs2 imm => encS imm rs2 rs1 0b001 0b0100011
  | .sw rs1 rs2 imm => encS imm rs2 rs1 0b010 0b0100011
  | .sd rs1 rs2 imm => encS imm rs2 rs1 0b011 0b0100011
  | .addi rd rs1 imm => encI imm rs1 0b000 rd 0b0010011
  | .slti rd rs1 imm => encI imm rs1 0b010 rd 0b0010011
  | .sltiu rd rs1 imm => encI imm rs1 0b011 rd 0b0010011
  | .xori rd rs1 imm => encI imm rs1 0b100 rd 0b0010011
  | .ori rd rs1 imm => encI imm rs1 0b110 rd 0b0010011
  | .andi rd rs1 imm => encI imm rs1 0b111 rd 0b0010011
  | .slli rd rs1 shamt => encShift 0b000000 shamt rs1 0b001 rd 0b0010011
  | .srli rd rs1 shamt => encShift 0b000000 shamt rs1 0b101 rd 0b0010011
  | .srai rd rs1 shamt => encShift 0b010000 shamt rs1 0b101 rd 0b0010011
  | .add rd rs1 rs2 => encR 0b0000000 rs2 rs1 0b000 rd 0b0110011
  | .sub rd rs1 rs2 => encR 0b0100000 rs2 rs1 0b000 rd 0b0110011
  | .sll rd rs1 rs2 => encR 0b0000000 rs2 rs1 0b001 rd 0b0110011
  | .slt rd rs1 rs2 => encR 0b0000000 rs2 rs1 0b010 rd 0b0110011
  | .sltu rd rs1 rs2 => encR 0b0000000 rs2 rs1 0b011 rd 0b0110011
  | .xor rd rs1 rs2 => encR 0b0000000 rs2 rs1 0b100 rd 0b0110011
  | .srl rd rs1 rs2 => encR 0b0000000 rs2 rs1 0b101 rd 0b0110011
  | .sra rd rs1 rs2 => encR 0b0100000 rs2 rs1 0b101 rd 0b0110011
  | .or rd rs1 rs2 => encR 0b0000000 rs2 rs1 0b110 rd 0b0110011
  | .and rd rs1 rs2 => encR 0b0000000 rs2 rs1 0b111 rd 0b0110011
  | .addiw rd rs1 imm => encI imm rs1 0b000 rd 0b0011011
  | .slliw rd rs1 shamt => encR 0b0000000 shamt rs1 0b001 rd 0b0011011
  | .srliw rd rs1 shamt => encR 0b0000000 shamt rs1 0b101 rd 0b0011011
  | .sraiw rd rs1 shamt => encR 0b0100000 shamt rs1 0b101 rd 0b0011011
  | .addw rd rs1 rs2 => encR 0b0000000 rs2 rs1 0b000 rd 0b0111011
  | .subw rd rs1 rs2 => encR 0b0100000 rs2 rs1 0b000 rd 0b0111011
  | .sllw rd rs1 rs2 => encR 0b0000000 rs2 rs1 0b001 rd 0b0111011
  | .srlw rd rs1 rs2 => encR 0b0000000 rs2 rs1 0b101 rd 0b0111011
  | .sraw rd rs1 rs2 => encR 0b0100000 rs2 rs1 0b101 rd 0b0111011
  | .ecall => 0x00000073
  | .mul rd rs1 rs2 => encR 0b0000001 rs2 rs1 0b000 rd 0b0110011
  | .mulh rd rs1 rs2 => encR 0b0000001 rs2 rs1 0b001 rd 0b0110011
  | .mulhsu rd rs1 rs2 => encR 0b0000001 rs2 rs1 0b010 rd 0b0110011
  | .mulhu rd rs1 rs2 => encR 0b0000001 rs2 rs1 0b011 rd 0b0110011
  | .div rd rs1 rs2 => encR 0b0000001 rs2 rs1 0b100 rd 0b0110011
  | .divu rd rs1 rs2 => encR 0b0000001 rs2 rs1 0b101 rd 0b0110011
  | .rem rd rs1 rs2 => encR 0b0000001 rs2 rs1 0b110 rd 0b0110011
  | .remu rd rs1 rs2 => encR 0b0000001 rs2 rs1 0b111 rd 0b0110011
  | .mulw rd rs1 rs2 => encR 0b0000001 rs2 rs1 0b000 rd 0b0111011
  | .divw rd rs1 rs2 => encR 0b0000001 rs2 rs1 0b100 rd 0b0111011
  | .divuw rd rs1 rs2 => encR 0b0000001 rs2 rs1 0b101 rd 0b0111011
  | .remw rd rs1 rs2 => encR 0b0000001 rs2 rs1 0b110 rd 0b0111011
  | .remuw rd rs1 rs2 => encR 0b0000001 rs2 rs1 0b111 rd 0b0111011
  | .cAddi4spn rdp imm => halfword (encCIW imm rdp)
  | .cLw rdp rs1p imm => halfword (encCLW 0b010 imm rs1p rdp)
  | .cLd rdp rs1p imm => halfword (encCLD 0b011 imm rs1p rdp)
  | .cSw rs1p rs2p imm => halfword (encCLW 0b110 imm rs1p rs2p)
  | .cSd rs1p rs2p imm => halfword (encCLD 0b111 imm rs1p rs2p)
  | .cNop imm => halfword (encCI 0b000 imm 0 0b01)
  | .cAddi rd imm => halfword (encCI 0b000 imm rd 0b01)
  | .cAddiw rd imm => halfword (encCI 0b001 imm rd 0b01)
  | .cLi rd imm => halfword (encCI 0b010 imm rd 0b01)
  | .cAddi16sp imm => halfword (encC16sp imm)
  | .cLui rd imm => halfword (encCLui imm rd)
  | .cSrli rdp shamt => halfword (encCBi 0b00 shamt rdp)
  | .cSrai rdp shamt => halfword (encCBi 0b01 shamt rdp)
  | .cAndi rdp imm => halfword (encCBi 0b10 imm rdp)
  | .cSub rdp rs2p => halfword (encCA 0b100011 0b00 rdp rs2p)
  | .cXor rdp rs2p => halfword (encCA 0b100011 0b01 rdp rs2p)
  | .cOr rdp rs2p => halfword (encCA 0b100011 0b10 rdp rs2p)
  | .cAnd rdp rs2p => halfword (encCA 0b100011 0b11 rdp rs2p)
  | .cSubw rdp rs2p => halfword (encCA 0b100111 0b00 rdp rs2p)
  | .cAddw rdp rs2p => halfword (encCA 0b100111 0b01 rdp rs2p)
  | .cJ imm => halfword (encCJ imm)
  | .cBeqz rs1p imm => halfword (encCB 0b110 imm rs1p)
  | .cBnez rs1p imm => halfword (encCB 0b111 imm rs1p)
  | .cSlli rd shamt => halfword (encCI 0b000 shamt rd 0b10)
  | .cJr rs1 => halfword (encCR 0b1000 rs1 0)
  | .cMv rd rs2 => halfword (encCR 0b1000 rd rs2)
  | .cAdd rd rs2 => halfword (encCR 0b1001 rd rs2)
  | .cJalr rs1 => halfword (encCR 0b1001 rs1 0)
  | .cLwsp rd imm => halfword (encCLwsp imm rd)
  | .cLdsp rd imm => halfword (encCLdsp imm rd)
  | .cSwsp rs2 imm => halfword (encCSwsp imm rs2)
  | .cSdsp rs2 imm => halfword (encCSdsp imm rs2)

/-! ## The record fields that decoding fills (R15, R90) -/

/-- `sext_n`: sign extension to 64 bits (R7). -/
def sext {n : Nat} (b : BitVec n) : Word := b.signExtend 64

/-- `zext_n`: zero extension to 64 bits (R7). -/
def zext {n : Nat} (b : BitVec n) : Word := b.setWidth 64

/-- The register a primed field names: 8 + the field (R110, R251). -/
def cReg (r : CReg) : Reg := 0b01#2 ++ r

/-- The U immediate: the 20 bits at 31..12, zeros below, bit 31 copied upwards (R94). -/
def immUExt (imm20 : BitVec 20) : Word := sext (imm20 ++ 0x000#12)

/-- The encoded length in bytes: 2 for the compressed rows, 4 for the others (R15, R91). -/
def Instr.len : Instr → Nat
  | .lui .. | .auipc .. | .jal .. | .jalr .. | .beq .. | .bne .. | .blt .. | .bge .. | .bltu .. | .bgeu ..
  | .lb .. | .lh .. | .lw .. | .ld .. | .lbu .. | .lhu .. | .lwu .. | .sb .. | .sh .. | .sw .. | .sd ..
  | .addi .. | .slti .. | .sltiu .. | .xori .. | .ori .. | .andi .. | .slli .. | .srli .. | .srai .. | .add ..
  | .sub .. | .sll .. | .slt .. | .sltu .. | .xor .. | .srl .. | .sra .. | .or .. | .and .. | .addiw ..
  | .slliw .. | .srliw .. | .sraiw .. | .addw .. | .subw .. | .sllw .. | .srlw .. | .sraw .. | .mul ..
  | .mulh .. | .mulhsu .. | .mulhu .. | .div .. | .divu .. | .rem .. | .remu .. | .mulw .. | .divw ..
  | .divuw .. | .remw .. | .remuw .. | .ecall => 4
  | .cAddi4spn .. | .cLw .. | .cLd .. | .cSw .. | .cSd .. | .cNop .. | .cAddi .. | .cAddiw .. | .cLi ..
  | .cAddi16sp .. | .cLui .. | .cSrli .. | .cSrai .. | .cAndi .. | .cSub .. | .cXor .. | .cOr .. | .cAnd ..
  | .cSubw .. | .cAddw .. | .cJ .. | .cBeqz .. | .cBnez .. | .cSlli .. | .cJr .. | .cMv .. | .cAdd ..
  | .cJalr .. | .cLwsp .. | .cLdsp .. | .cSwsp .. | .cSdsp .. => 2

/-- The operation kind (R16); a compressed instruction has the kind of its 32-bit equivalent, C.MV the kind MV
(R111, R250). -/
def Instr.kind : Instr → Kind
  | .lui .. | .cLui .. => .lui
  | .auipc .. => .auipc
  | .jal .. | .cJ .. => .jal
  | .jalr .. | .cJr .. | .cJalr .. => .jalr
  | .beq .. | .cBeqz .. => .beq
  | .bne .. | .cBnez .. => .bne
  | .blt .. => .blt
  | .bge .. => .bge
  | .bltu .. => .bltu
  | .bgeu .. => .bgeu
  | .lb .. => .lb
  | .lh .. => .lh
  | .lw .. | .cLw .. | .cLwsp .. => .lw
  | .ld .. | .cLd .. | .cLdsp .. => .ld
  | .lbu .. => .lbu
  | .lhu .. => .lhu
  | .lwu .. => .lwu
  | .sb .. => .sb
  | .sh .. => .sh
  | .sw .. | .cSw .. | .cSwsp .. => .sw
  | .sd .. | .cSd .. | .cSdsp .. => .sd
  | .addi .. | .cAddi4spn .. | .cNop .. | .cAddi .. | .cLi .. | .cAddi16sp .. => .addi
  | .slti .. => .slti
  | .sltiu .. => .sltiu
  | .xori .. => .xori
  | .ori .. => .ori
  | .andi .. | .cAndi .. => .andi
  | .slli .. | .cSlli .. => .slli
  | .srli .. | .cSrli .. => .srli
  | .srai .. | .cSrai .. => .srai
  | .add .. | .cAdd .. => .add
  | .sub .. | .cSub .. => .sub
  | .sll .. => .sll
  | .slt .. => .slt
  | .sltu .. => .sltu
  | .xor .. | .cXor .. => .xor
  | .srl .. => .srl
  | .sra .. => .sra
  | .or .. | .cOr .. => .or
  | .and .. | .cAnd .. => .and
  | .addiw .. | .cAddiw .. => .addiw
  | .slliw .. => .slliw
  | .srliw .. => .srliw
  | .sraiw .. => .sraiw
  | .addw .. | .cAddw .. => .addw
  | .subw .. | .cSubw .. => .subw
  | .sllw .. => .sllw
  | .srlw .. => .srlw
  | .sraw .. => .sraw
  | .ecall => .ecall
  | .mul .. => .mul
  | .mulh .. => .mulh
  | .mulhsu .. => .mulhsu
  | .mulhu .. => .mulhu
  | .div .. => .div
  | .divu .. => .divu
  | .rem .. => .rem
  | .remu .. => .remu
  | .mulw .. => .mulw
  | .divw .. => .divw
  | .divuw .. => .divuw
  | .remw .. => .remw
  | .remuw .. => .remuw
  | .cMv .. => .mv

/-- The format category (R15, R93, R110). It has no effect on execution (R331). -/
def Instr.format : Instr → Format
  | .lui .. | .auipc .. => .U
  | .jal .. => .UJ
  | .beq .. | .bne .. | .blt .. | .bge .. | .bltu .. | .bgeu .. => .SB
  | .sb .. | .sh .. | .sw .. | .sd .. => .S
  | .add .. | .sub .. | .sll .. | .slt .. | .sltu .. | .xor .. | .srl .. | .sra .. | .or .. | .and ..
  | .addw .. | .subw .. | .sllw .. | .srlw .. | .sraw .. | .mul .. | .mulh .. | .mulhsu .. | .mulhu ..
  | .div .. | .divu .. | .rem .. | .remu .. | .mulw .. | .divw .. | .divuw .. | .remw .. | .remuw .. => .R
  | .jalr .. | .lb .. | .lh .. | .lw .. | .ld .. | .lbu .. | .lhu .. | .lwu .. | .addi .. | .slti ..
  | .sltiu .. | .xori .. | .ori .. | .andi .. | .slli .. | .srli .. | .srai .. | .addiw .. | .slliw ..
  | .srliw .. | .sraiw .. | .ecall => .I
  | .cAddi4spn .. => .CIW
  | .cLw .. | .cLd .. => .CL
  | .cSw .. | .cSd .. | .cSub .. | .cXor .. | .cOr .. | .cAnd .. | .cSubw .. | .cAddw .. => .CS
  | .cNop .. | .cAddi .. | .cAddiw .. | .cLi .. | .cAddi16sp .. | .cLui .. | .cSlli .. | .cLwsp .. | .cLdsp .. => .CI
  | .cSrli .. | .cSrai .. | .cAndi .. | .cBeqz .. | .cBnez .. => .CB
  | .cJ .. => .CJ
  | .cJr .. | .cMv .. | .cAdd .. | .cJalr .. => .CR
  | .cSwsp .. | .cSdsp .. => .CSS

/-- The destination index `rd`, 0 where the instruction has none (R15, R93, R251). -/
def Instr.rd : Instr → Reg
  | .lui rd _ | .auipc rd _ | .jal rd _ => rd
  | .jalr rd _ _ | .lb rd _ _ | .lh rd _ _ | .lw rd _ _ | .ld rd _ _ | .lbu rd _ _ | .lhu rd _ _ | .lwu rd _ _
  | .addi rd _ _ | .slti rd _ _ | .sltiu rd _ _ | .xori rd _ _ | .ori rd _ _ | .andi rd _ _ | .slli rd _ _
  | .srli rd _ _ | .srai rd _ _ | .add rd _ _ | .sub rd _ _ | .sll rd _ _ | .slt rd _ _ | .sltu rd _ _
  | .xor rd _ _ | .srl rd _ _ | .sra rd _ _ | .or rd _ _ | .and rd _ _ | .addiw rd _ _ | .slliw rd _ _
  | .srliw rd _ _ | .sraiw rd _ _ | .addw rd _ _ | .subw rd _ _ | .sllw rd _ _ | .srlw rd _ _ | .sraw rd _ _
  | .mul rd _ _ | .mulh rd _ _ | .mulhsu rd _ _ | .mulhu rd _ _ | .div rd _ _ | .divu rd _ _ | .rem rd _ _
  | .remu rd _ _ | .mulw rd _ _ | .divw rd _ _ | .divuw rd _ _ | .remw rd _ _ | .remuw rd _ _ => rd
  | .beq .. | .bne .. | .blt .. | .bge .. | .bltu .. | .bgeu .. | .sb .. | .sh .. | .sw .. | .sd .. | .ecall => 0
  | .cAddi4spn rdp _ | .cSrli rdp _ | .cSrai rdp _ | .cAndi rdp _ | .cSub rdp _ | .cXor rdp _ | .cOr rdp _
  | .cAnd rdp _ | .cSubw rdp _ | .cAddw rdp _ => cReg rdp
  | .cLw rdp _ _ | .cLd rdp _ _ => cReg rdp
  | .cAddi rd _ | .cAddiw rd _ | .cLi rd _ | .cLui rd _ | .cSlli rd _ | .cMv rd _ | .cAdd rd _ | .cLwsp rd _
  | .cLdsp rd _ => rd
  | .cAddi16sp .. => 2
  | .cJalr .. => 1
  | .cSw .. | .cSd .. | .cNop .. | .cJ .. | .cBeqz .. | .cBnez .. | .cJr .. | .cSwsp .. | .cSdsp .. => 0

/-- The source index `rs1`, 0 where the instruction has none (R15, R93, R251). -/
def Instr.rs1 : Instr → Reg
  | .jalr _ rs1 _ | .lb _ rs1 _ | .lh _ rs1 _ | .lw _ rs1 _ | .ld _ rs1 _ | .lbu _ rs1 _ | .lhu _ rs1 _
  | .lwu _ rs1 _ | .addi _ rs1 _ | .slti _ rs1 _ | .sltiu _ rs1 _ | .xori _ rs1 _ | .ori _ rs1 _
  | .andi _ rs1 _ | .slli _ rs1 _ | .srli _ rs1 _ | .srai _ rs1 _ | .add _ rs1 _ | .sub _ rs1 _ | .sll _ rs1 _
  | .slt _ rs1 _ | .sltu _ rs1 _ | .xor _ rs1 _ | .srl _ rs1 _ | .sra _ rs1 _ | .or _ rs1 _ | .and _ rs1 _
  | .addiw _ rs1 _ | .slliw _ rs1 _ | .srliw _ rs1 _ | .sraiw _ rs1 _ | .addw _ rs1 _ | .subw _ rs1 _
  | .sllw _ rs1 _ | .srlw _ rs1 _ | .sraw _ rs1 _ | .mul _ rs1 _ | .mulh _ rs1 _ | .mulhsu _ rs1 _
  | .mulhu _ rs1 _ | .div _ rs1 _ | .divu _ rs1 _ | .rem _ rs1 _ | .remu _ rs1 _ | .mulw _ rs1 _
  | .divw _ rs1 _ | .divuw _ rs1 _ | .remw _ rs1 _ | .remuw _ rs1 _ => rs1
  | .beq rs1 _ _ | .bne rs1 _ _ | .blt rs1 _ _ | .bge rs1 _ _ | .bltu rs1 _ _ | .bgeu rs1 _ _ | .sb rs1 _ _
  | .sh rs1 _ _ | .sw rs1 _ _ | .sd rs1 _ _ => rs1
  | .lui .. | .auipc .. | .jal .. | .ecall => 0
  | .cLw _ rs1p _ | .cLd _ rs1p _ => cReg rs1p
  | .cSw rs1p _ _ | .cSd rs1p _ _ => cReg rs1p
  | .cBeqz rs1p _ | .cBnez rs1p _ => cReg rs1p
  | .cSrli rdp _ | .cSrai rdp _ | .cAndi rdp _ | .cSub rdp _ | .cXor rdp _ | .cOr rdp _ | .cAnd rdp _
  | .cSubw rdp _ | .cAddw rdp _ => cReg rdp
  | .cAddi rd _ | .cAddiw rd _ | .cSlli rd _ | .cAdd rd _ => rd
  | .cJr rs1 | .cJalr rs1 => rs1
  | .cAddi4spn .. | .cAddi16sp .. | .cLwsp .. | .cLdsp .. | .cSwsp .. | .cSdsp .. => 2
  | .cNop .. | .cLi .. | .cLui .. | .cJ .. | .cMv .. => 0

/-- The source index `rs2`, 0 where the instruction has none (R15, R93, R251). -/
def Instr.rs2 : Instr → Reg
  | .add _ _ rs2 | .sub _ _ rs2 | .sll _ _ rs2 | .slt _ _ rs2 | .sltu _ _ rs2 | .xor _ _ rs2 | .srl _ _ rs2
  | .sra _ _ rs2 | .or _ _ rs2 | .and _ _ rs2 | .addw _ _ rs2 | .subw _ _ rs2 | .sllw _ _ rs2 | .srlw _ _ rs2
  | .sraw _ _ rs2 | .mul _ _ rs2 | .mulh _ _ rs2 | .mulhsu _ _ rs2 | .mulhu _ _ rs2 | .div _ _ rs2
  | .divu _ _ rs2 | .rem _ _ rs2 | .remu _ _ rs2 | .mulw _ _ rs2 | .divw _ _ rs2 | .divuw _ _ rs2
  | .remw _ _ rs2 | .remuw _ _ rs2 => rs2
  | .beq _ rs2 _ | .bne _ rs2 _ | .blt _ rs2 _ | .bge _ rs2 _ | .bltu _ rs2 _ | .bgeu _ rs2 _ | .sb _ rs2 _
  | .sh _ rs2 _ | .sw _ rs2 _ | .sd _ rs2 _ => rs2
  | .lui .. | .auipc .. | .jal .. | .jalr .. | .lb .. | .lh .. | .lw .. | .ld .. | .lbu .. | .lhu .. | .lwu ..
  | .addi .. | .slti .. | .sltiu .. | .xori .. | .ori .. | .andi .. | .slli .. | .srli .. | .srai ..
  | .addiw .. | .slliw .. | .srliw .. | .sraiw .. | .ecall => 0
  | .cSw _ rs2p _ | .cSd _ rs2p _ => cReg rs2p
  | .cSub _ rs2p | .cXor _ rs2p | .cOr _ rs2p | .cAnd _ rs2p | .cSubw _ rs2p | .cAddw _ rs2p => cReg rs2p
  | .cMv _ rs2 | .cAdd _ rs2 => rs2
  | .cSwsp rs2 _ | .cSdsp rs2 _ => rs2
  | .cAddi4spn .. | .cLw .. | .cLd .. | .cNop .. | .cAddi .. | .cAddiw .. | .cLi .. | .cAddi16sp .. | .cLui ..
  | .cSrli .. | .cSrai .. | .cAndi .. | .cJ .. | .cBeqz .. | .cBnez .. | .cSlli .. | .cJr .. | .cJalr ..
  | .cLwsp .. | .cLdsp .. => 0

/-- The immediate, assembled, scaled and extended to 64 bits, 0 where the instruction has none (R94, R112). -/
def Instr.imm : Instr → Word
  | .lui _ imm20 | .auipc _ imm20 => immUExt imm20
  | .jal _ imm => sext imm
  | .jalr _ _ imm | .lb _ _ imm | .lh _ _ imm | .lw _ _ imm | .ld _ _ imm | .lbu _ _ imm | .lhu _ _ imm
  | .lwu _ _ imm | .addi _ _ imm | .slti _ _ imm | .sltiu _ _ imm | .xori _ _ imm | .ori _ _ imm
  | .andi _ _ imm | .addiw _ _ imm => sext imm
  | .beq _ _ imm | .bne _ _ imm | .blt _ _ imm | .bge _ _ imm | .bltu _ _ imm | .bgeu _ _ imm => sext imm
  | .sb _ _ imm | .sh _ _ imm | .sw _ _ imm | .sd _ _ imm => sext imm
  | .slli _ _ shamt | .srli _ _ shamt | .srai _ _ shamt => zext shamt
  | .slliw _ _ shamt | .srliw _ _ shamt | .sraiw _ _ shamt => zext shamt
  | .add .. | .sub .. | .sll .. | .slt .. | .sltu .. | .xor .. | .srl .. | .sra .. | .or .. | .and ..
  | .addw .. | .subw .. | .sllw .. | .srlw .. | .sraw .. | .mul .. | .mulh .. | .mulhsu .. | .mulhu ..
  | .div .. | .divu .. | .rem .. | .remu .. | .mulw .. | .divw .. | .divuw .. | .remw .. | .remuw .. | .ecall => 0
  | .cAddi4spn _ imm => zext imm
  | .cLw _ _ imm | .cSw _ _ imm => zext imm
  | .cLd _ _ imm | .cSd _ _ imm => zext imm
  | .cNop imm => sext imm
  | .cAddi _ imm | .cAddiw _ imm | .cLi _ imm | .cAndi _ imm => sext imm
  | .cAddi16sp imm => sext imm
  | .cLui _ imm => sext imm
  | .cSrli _ shamt | .cSrai _ shamt | .cSlli _ shamt => zext shamt
  | .cJ imm => sext imm
  | .cBeqz _ imm | .cBnez _ imm => sext imm
  | .cLwsp _ imm | .cSwsp _ imm => zext imm
  | .cLdsp _ imm | .cSdsp _ imm => zext imm
  | .cSub .. | .cXor .. | .cOr .. | .cAnd .. | .cSubw .. | .cAddw .. | .cJr .. | .cMv .. | .cAdd .. | .cJalr .. => 0

/-- The operation kinds that load (R49). -/
def Kind.isLoad : Kind → Bool
  | .lb | .lh | .lw | .ld | .lbu | .lhu | .lwu => true
  | _ => false

/-- The operation kinds that store (R49). -/
def Kind.isStore : Kind → Bool
  | .sb | .sh | .sw | .sd => true
  | _ => false

/-- The conditional branches (R184). -/
def Kind.isBranch : Kind → Bool
  | .beq | .bne | .blt | .bge | .bltu | .bgeu => true
  | _ => false

/-- The "writes register" flag that decoding sets: true for every kind but the stores, the branches and ECALL
(R106). -/
def Instr.writes (i : Instr) : Bool :=
  !(i.kind.isStore || i.kind.isBranch || i.kind == .ecall)

/-- The decoder on a word numbered as spec/opcode_table.json numbers it, every bit above `nbits` zero: the machine
stores a word little-endian and reads it back little-endian (R42, R48), so the code word is the number itself.
HAS_M is taken as true, so that every row of the table has a meaning here (log entry 3). -/
def decodeTableWord (nbits w : Nat) : Option Instr :=
  (decode true (BitVec.ofNat 32 (w % 2 ^ nbits))).toOption

end Sys2Proof
end

