-- ==== Sys2Proof/Machine/State.lean ====
section
/-! DEFINITION. The state of the machine (spec/10_state.md), the reasons a step can stop, and the launch state, which
is this hardware's only reset (spec/70_reset_and_hazards.md rules R390, R391). -/

namespace Sys2Proof.Machine

/-! ## The address space (R26, R40) -/

/-- The sparse, page-granular byte memory. `pages` lists the start addresses of the mapped pages, strictly rising;
`cells` lists the bytes that are not zero, by strictly rising address. A byte that is not listed in a mapped page reads
as zero, since a page is created zero-filled (R44); a byte of a page that is not mapped has no value (R43). -/
structure Memory where
  pages : List Nat
  cells : List Host.Cell
  deriving DecidableEq, Repr

/-- The address space with nothing mapped. -/
def Memory.empty : Memory := { pages := [], cells := [] }

/-- The canonical form: pages strictly rising, each at a multiple of the page size inside the 64-bit space; cells
strictly rising, none zero, each inside a mapped page. -/
abbrev Memory.wf (m : Memory) : Prop :=
  m.pages.Pairwise (· < ·) ∧ (∀ p ∈ m.pages, p % pageSize = 0 ∧ p < 2 ^ 64) ∧
  m.cells.Pairwise (fun c d => c.1 < d.1) ∧
  (∀ c ∈ m.cells, c.2 ≠ 0 ∧ c.1 - c.1 % pageSize ∈ m.pages)

/-! ## Instruction records and slots (R15, R17, R18)

The fields of R15 that are functions of the code word or of the decoded instruction are computed, not stored twice:
`len`, `decoded`, `format`, `kind`, `rs1`, `rs2`, `imm` (log entry 11). -/

/-- A fetched, undecoded record: what slot D holds (R18). -/
structure Fetched where
  /-- the raw code word: the four bytes read at `pc` -/
  code : BitVec 32
  /-- the address the code word was read from -/
  pc : Word
  deriving DecidableEq, Repr

/-- The encoded length, 2 or 4 (R15, R91). -/
def Fetched.len (f : Fetched) : Nat := codeLen f.code

/-- A decoded record: what slots E, M and W hold (R15, R18). -/
structure Record where
  code : BitVec 32
  pc : Word
  /-- the decoded instruction; the record's format, kind, rs1, rs2, imm and len are functions of it -/
  op : Instr
  /-- the destination index: set by Decode, and by Execute for an ECALL with a result -/
  rd : Reg
  /-- the "writes register" flag: set by Decode, and by Execute for an ECALL with a result -/
  writes : Bool
  /-- the deferred write-back value -/
  wb : Word
  /-- the effective address of a load or store -/
  addr : Word
  deriving DecidableEq, Repr

def Record.len (r : Record) : Nat := r.op.len
def Record.kind (r : Record) : Kind := r.op.kind
def Record.format (r : Record) : Format := r.op.format
def Record.rs1 (r : Record) : Reg := r.op.rs1
def Record.rs2 (r : Record) : Reg := r.op.rs2
def Record.imm (r : Record) : Word := r.op.imm

/-- The record Decode makes of a fetched word (R90, R336). The values `wb` and `addr` before Execute sets them are 0
(log entry 12). -/
def Record.decoded (f : Fetched) (i : Instr) : Record :=
  { code := f.code, pc := f.pc, op := i, rd := i.rd, writes := i.writes, wb := 0, addr := 0 }

/-! ## Run status (R21, R361) -/

/-- The fatal kinds of R361. -/
inductive FatalKind where
  | decodeFailure | unmappedRead | pageCross | badAccessSize | doubleAllocation | missingPage | unknownSyscall
  deriving DecidableEq, Repr

/-! ## Storage levels (R22 to R24, R62) -/

/-- One cache block: flags, tag and LRU stamp; no data (R23). -/
structure Block where
  valid : Bool
  dirty : Bool
  tag : Nat
  ctr : Nat
  deriving DecidableEq, Repr

/-- The launch value of a block (R23, R32). -/
def Block.invalid : Block := { valid := false, dirty := false, tag := 0, ctr := 0 }

/-- The storage statistics of a level (R24). -/
structure StorageStats where
  accessCount : Nat
  latencyTotal : Nat
  missCount : Nat
  replaceCount : Nat
  fetchCount : Nat
  deriving DecidableEq, Repr

/-- Statistics at launch (R32). -/
def StorageStats.zero : StorageStats :=
  { accessCount := 0, latencyTotal := 0, missCount := 0, replaceCount := 0, fetchCount := 0 }

/-- A cache level: its configuration, its table of sets, its sequence number and its statistics. `sets` lists, by
strictly rising set index, the sets that are not wholly at their launch value; a set that is not listed has
`associativity` invalid blocks. -/
structure CacheLevel where
  cfg : CacheConfig
  sets : List (Nat × List Block)
  seq : Nat
  stats : StorageStats
  deriving DecidableEq, Repr

/-- A cache level at launch: every block invalid, clean, tag 0, counter 0 (R23, R24, R32). -/
def CacheLevel.launch (c : CacheConfig) : CacheLevel :=
  { cfg := c, sets := [], seq := 0, stats := StorageStats.zero }

/-- The backing memory as a storage level: a latency model, not the address space (R62). -/
structure Backing where
  cfg : BackingConfig
  stats : StorageStats
  deriving DecidableEq, Repr

/-- The backing memory at launch. -/
def Backing.launch (c : BackingConfig) : Backing := { cfg := c, stats := StorageStats.zero }

/-! ## Pipeline statistics (R25) -/

/-- The engine's counters. -/
structure Counters where
  cycles : Nat
  retired : Nat
  controlStalls : Nat
  loadUseStalls : Nat
  memDelayCycles : Nat
  deriving DecidableEq, Repr

/-- Counters at launch (R25, R32). -/
def Counters.zero : Counters :=
  { cycles := 0, retired := 0, controlStalls := 0, loadUseStalls := 0, memDelayCycles := 0 }

/-! ## The host side (R31, R222) -/

/-- An answer of the host to a reading service (R222). -/
inductive HostAnswer where
  | word (v : Word)
  | bytes (s : List Byte)
  deriving DecidableEq, Repr

/-- An event of the output log (R222). -/
inductive HostEvent where
  | exit (v : Word)
  | printChar (v : Word)
  | printInt (v : Word)
  | printLong (v : Word)
  | printString (s : List Byte)
  | seedRandom (v : Word)
  deriving DecidableEq, Repr

/-! ## The state -/

/-- Everything the spec gives the machine, and the host's two queues. -/
structure State where
  /-- x[0] to x[31] (R10) -/
  regs : Vector Word 32
  /-- the fetch pointer (R13) -/
  pc : Word
  /-- the heap pointer (R14) -/
  heapPtr : Word
  /-- slot D (R18) -/
  slotD : Option Fetched
  /-- slot E (R18) -/
  slotE : Option Record
  /-- slot M (R18) -/
  slotM : Option Record
  /-- slot W (R18) -/
  slotW : Option Record
  /-- the terminal exit flag (R20) -/
  exit : Bool
  /-- none, or the fatal condition that stopped the machine (R21) -/
  fatal : Option FatalKind
  /-- the cache levels, top first (R22 to R24, R75) -/
  levels : List CacheLevel
  /-- the last storage level (R62) -/
  backing : Backing
  /-- the pipeline statistics (R25) -/
  counters : Counters
  /-- the address space (R26) -/
  mem : Memory
  /-- HAS_M and SYSNUM, constant during a run (R6) -/
  cfg : Config
  /-- the answers of the host that are listed, next one first (R222, log entry 6) -/
  input : List HostAnswer
  /-- how many answers the host has given so far: the model's own field (log entry 6) -/
  reads : Nat
  /-- the output log, in execution order (R222) -/
  output : List HostEvent
  deriving DecidableEq, Repr

/-! ## Why a step can stop outside the machine's own states

A fatal condition is not among these: the spec keeps the stopped machine as a state (R21, R360), so a fatal stop is a
next state whose `fatal` is set, and the steps after it change nothing (R320). -/

/-- The reasons for Outcome.fault. -/
inductive Fault where
  /-- Raised by execEcall for PRINT_STRING when all 2^64 addresses are mapped and none of their bytes is zero: the
  scan of R230 then has no end, and the spec gives no state after it (log entry 9). Safe: the model stops where the
  hardware never answers. -/
  | endlessString
  deriving DecidableEq, Repr

/-- The reasons for Outcome.refused. -/
inductive Refusal where
  /-- Raised by exec's arm of an instruction that has no meaning yet. Safe: nothing is claimed. -/
  | notModelled (mnemonic : String)
  /-- Raised by step in a state whose cache configuration breaks the invariant of R22 or whose SYSNUM is not
  injective (R6): no configuration of this hardware (log entry 10). Safe: nothing is claimed. -/
  | badConfiguration
  deriving DecidableEq, Repr

/-! ## Launch (R391) -/

/-- The parameters of a launch (R6, R391). `initX` gives x[1] to x[31]; its entries 0 and 2 are not used. -/
structure Launch where
  entryPc : Word
  stackTop : Word
  heapStart : Word
  image : Memory
  initX : Vector Word 32
  levels : List CacheConfig
  backing : BackingConfig
  cfg : Config
  input : List HostAnswer
  deriving DecidableEq, Repr

/-- What a launch requires of its parameters: HEAP_START a multiple of the page size (R14, R391), the image in
canonical form, every cache configuration one of this hardware (R22), SYSNUM injective (R224). -/
abbrev Launch.Ok (p : Launch) : Prop :=
  p.heapStart.toNat % pageSize = 0 ∧ p.image.wf ∧ (∀ c ∈ p.levels, c.Ok) ∧ p.cfg.sysnum.Injective

/-- `launch(params)`: the state a launch builds (R391). -/
def launch (p : Launch) : State :=
  { regs := (p.initX.set 0 0).set 2 p.stackTop
    pc := p.entryPc
    heapPtr := p.heapStart
    slotD := none
    slotE := none
    slotM := none
    slotW := none
    exit := false
    fatal := none
    levels := p.levels.map CacheLevel.launch
    backing := Backing.launch p.backing
    counters := Counters.zero
    mem := p.image
    cfg := p.cfg
    input := p.input
    reads := 0
    output := [] }

/-- The launch parameters of `State.reset`: the spec's defaults (R6, R80), and for the OPEN values without a default
the ones of the spec's test vectors (D12, log entry 1), with an empty image and no listed answer (log entry 2). -/
def Launch.default : Launch :=
  { entryPc := 0x10000
    stackTop := 0x7FFFFFF0
    heapStart := 0x100000
    image := Memory.empty
    initX := Vector.replicate 32 0
    levels := [CacheConfig.defaultL1, CacheConfig.defaultL2, CacheConfig.defaultL3]
    backing := BackingConfig.default
    cfg := Config.default
    input := [] }

/-- The machine right after reset: the launch with the default parameters. -/
def State.reset : State := launch Launch.default

end Sys2Proof.Machine
end

