-- ==== Sys2Proof/Machine/Cache.lean ====
section
/-! DEFINITION. Storage levels and the cache hierarchy (spec/25_cache.md): hits, misses, LRU replacement, latency and
statistics. A level holds no data. -/

namespace Sys2Proof.Machine

/-- The arguments of `handle_request` (R60). -/
structure Request where
  addr : Word
  size : Nat
  isRead : Bool
  deriving DecidableEq, Repr

/-- What `handle_request` returns (R60). -/
structure Reply where
  hit : Bool
  latency : Nat
  deriving DecidableEq, Repr

/-! ## The address split (R64) -/

/-- `index = address[offset_bits+index_bits-1 : offset_bits]`. -/
def indexOf (c : CacheConfig) (a : Word) : Nat := a.toNat / 2 ^ c.offsetBits % 2 ^ c.indexBits

/-- `tag = address[63 : offset_bits+index_bits]`. -/
def tagOf (c : CacheConfig) (a : Word) : Nat := a.toNat / 2 ^ (c.offsetBits + c.indexBits)

/-- `block_base(address)`: the low offset_bits bits cleared. -/
def blockBase (c : CacheConfig) (a : Word) : Word :=
  BitVec.ofNat 64 (a.toNat / 2 ^ c.offsetBits * 2 ^ c.offsetBits)

/-- `tag ++ index ++ zeros(offset_bits)`: the base address of a block (R69). -/
def blockAddress (c : CacheConfig) (tag index : Nat) : Word :=
  BitVec.ofNat 64 ((tag * 2 ^ c.indexBits + index) * 2 ^ c.offsetBits)

/-! ## Ways of a set -/

/-- The ways of a set: the listed ones, or `associativity` blocks at their launch value. -/
def CacheLevel.ways (l : CacheLevel) (index : Nat) : List Block :=
  sparseGet (List.replicate l.cfg.associativity Block.invalid) index l.sets

/-- Write the ways of a set back. -/
def CacheLevel.setWays (l : CacheLevel) (index : Nat) (ws : List Block) : CacheLevel :=
  { l with sets := sparsePut (List.replicate l.cfg.associativity Block.invalid) index ws l.sets }

/-- The block of a way. -/
def wayOf (ws : List Block) (k : Nat) : Block := ws.getD k Block.invalid

/-- The way that is valid and holds the tag (R65). -/
def hitWay (ws : List Block) (tag : Nat) : Option Nat := ws.findIdx? (fun b => b.valid && b.tag == tag)

/-- The lowest-numbered way that is not valid (R68). -/
def freeWay (ws : List Block) : Option Nat := ws.findIdx? (fun b => !b.valid)

/-- The way with the smallest access counter, the lowest-numbered one of a tie (R69). -/
def oldestWay : List Block → Nat
  | [] => 0
  | [_] => 0
  | b :: t => if b.ctr ≤ (wayOf t (oldestWay t)).ctr then 0 else oldestWay t + 1

/-! ## One cache level over a lower level

`lower` is the lower level's `handle_request` on its state `σ`. -/

/-- The start of every request: one access and the next sequence number (R63). -/
def CacheLevel.count (l : CacheLevel) : CacheLevel :=
  { l with seq := l.seq + 1, stats := { l.stats with accessCount := l.stats.accessCount + 1 } }

/-- A request without a matching way counts as a miss (R67). -/
def CacheLevel.countMiss (l : CacheLevel) : CacheLevel :=
  { l with stats := { l.stats with missCount := l.stats.missCount + 1 } }

/-- Add the level's own share of a request's latency to its statistic (R73). -/
def CacheLevel.addOwn (l : CacheLevel) (own : Nat) : CacheLevel :=
  { l with stats := { l.stats with latencyTotal := l.stats.latencyTotal + own } }

/-- An eviction counts as a replacement (R69). -/
def CacheLevel.countReplace (l : CacheLevel) : CacheLevel :=
  { l with stats := { l.stats with replaceCount := l.stats.replaceCount + 1 } }

/-- A fill from the lower level counts as a fetch (R68). -/
def CacheLevel.countFetch (l : CacheLevel) : CacheLevel :=
  { l with stats := { l.stats with fetchCount := l.stats.fetchCount + 1 } }

/-- The prefetch hook at the end of every miss path: it does nothing (R74). -/
def prefetchHook {σ : Type} (p : CacheLevel × σ) : CacheLevel × σ := p

/-- A hit in way `w` (R66). -/
def CacheLevel.onHit {σ : Type} (lower : σ → Request → σ × Reply) (l : CacheLevel) (low : σ) (q : Request) (w : Nat) :
    CacheLevel × σ × Reply :=
  let index := indexOf l.cfg q.addr
  let ws := l.ways index
  let b := wayOf ws w
  let own := l.cfg.busLatency + l.cfg.hitLatency
  if q.isRead then
    ((l.setWays index (ws.set w { b with ctr := l.seq })).addOwn own, low, ⟨true, own⟩)
  else if l.cfg.writeThrough then
    let l1 := l.setWays index (ws.set w { b with ctr := l.seq })
    let (low1, r) := lower low q
    (l1.addOwn (own + l.cfg.busLatency), low1, ⟨true, own + r.latency + l.cfg.busLatency⟩)
  else
    ((l.setWays index (ws.set w { b with ctr := l.seq, dirty := true })).addOwn own, low, ⟨true, own⟩)

/-- `choose_victim(index)` (R69): the oldest way, the write-back of a dirty victim of a write-back level, and its
latency. -/
def CacheLevel.chooseVictim {σ : Type} (lower : σ → Request → σ × Reply) (l : CacheLevel) (low : σ) (index : Nat) :
    CacheLevel × σ × Nat × Nat :=
  let ws := l.ways index
  let k := oldestWay ws
  let v := wayOf ws k
  if v.valid && v.dirty && !l.cfg.writeThrough then
    let (low1, r) := lower low { addr := blockAddress l.cfg v.tag index, size := l.cfg.blockSize, isRead := false }
    (l.countReplace, low1, k, r.latency)
  else (l.countReplace, low, k, 0)

/-- The way a miss fills: the first free way, else the victim's (R68). The last component is the latency of the
victim's write-back. -/
def CacheLevel.chooseWay {σ : Type} (lower : σ → Request → σ × Reply) (l : CacheLevel) (low : σ) (index : Nat) :
    CacheLevel × σ × Nat × Nat :=
  match freeWay (l.ways index) with
  | some k => (l, low, k, 0)
  | none => l.chooseVictim lower low index

/-- A miss with allocation (R68, R72): every read miss, and a write miss of a write-allocate level. -/
def CacheLevel.onMissAllocate {σ : Type} (lower : σ → Request → σ × Reply) (l : CacheLevel) (low : σ) (q : Request) :
    CacheLevel × σ × Reply :=
  let index := indexOf l.cfg q.addr
  let bus := l.cfg.busLatency
  let (l1, low1, k, lwb) := l.chooseWay lower low index
  let dirty := !q.isRead && !l.cfg.writeThrough
  let l2 := l1.setWays index
    ((l1.ways index).set k { valid := true, dirty := dirty, tag := tagOf l.cfg q.addr, ctr := l.seq })
  let (low2, r) := lower low1 { addr := blockBase l.cfg q.addr, size := l.cfg.blockSize, isRead := true }
  let l3 := l2.countFetch
  if !q.isRead && l.cfg.writeThrough then
    let (low3, r2) := lower low2 q
    let (l4, low4) := prefetchHook (l3, low3)
    (l4.addOwn (bus + bus), low4, ⟨false, lwb + r.latency + bus + r2.latency + bus⟩)
  else
    let (l4, low4) := prefetchHook (l3, low2)
    (l4.addOwn bus, low4, ⟨false, lwb + r.latency + bus⟩)

/-- A write miss without allocation (R70). -/
def CacheLevel.onMissBypass {σ : Type} (lower : σ → Request → σ × Reply) (l : CacheLevel) (low : σ) (q : Request) :
    CacheLevel × σ × Reply :=
  let (low1, r) := lower low q
  let (l1, low2) := prefetchHook (l, low1)
  (l1.addOwn l.cfg.busLatency, low2, ⟨false, r.latency + l.cfg.busLatency⟩)

/-- `Cache.handle_request` (R65). -/
def CacheLevel.handleRequest {σ : Type} (lower : σ → Request → σ × Reply) (l : CacheLevel) (low : σ) (q : Request) :
    CacheLevel × σ × Reply :=
  let l := l.count
  match hitWay (l.ways (indexOf l.cfg q.addr)) (tagOf l.cfg q.addr) with
  | some w => l.onHit lower low q w
  | none =>
    let l := l.countMiss
    if q.isRead || l.cfg.writeAllocate then l.onMissAllocate lower low q else l.onMissBypass lower low q

/-- `Backing.handle_request` (R62). -/
def Backing.handleRequest (b : Backing) : Backing × Reply :=
  let lat := b.cfg.busLatency + b.cfg.hitLatency
  ({ b with stats := { b.stats with
      accessCount := b.stats.accessCount + 1, latencyTotal := b.stats.latencyTotal + lat } }, ⟨true, lat⟩)

/-! ## The chain (R61, R75) -/

/-- `handle_request` on the top of a chain of levels over the backing memory. The first argument is the number of
cache levels, on which the definition recurs. -/
def chainRequest : Nat → List CacheLevel × Backing → Request → (List CacheLevel × Backing) × Reply
  | n + 1, (l :: ls, b), q =>
    let (l', (ls', b'), r) := l.handleRequest (chainRequest n) (ls, b) q
    ((l' :: ls', b'), r)
  | _, (ls, b), _ =>
    let (b', r) := b.handleRequest
    ((ls, b'), r)

/-- `Access(addr, n, is_read)`: one request to the top storage level; its latency is charged to the pipeline's
statistics (R61, R324, R325, R340). -/
def State.access (s : State) (addr : Word) (n : Nat) (isRead : Bool) : State :=
  let ((ls, b), r) := chainRequest s.levels.length (s.levels, s.backing) { addr := addr, size := n, isRead := isRead }
  { s with
    levels := ls
    backing := b
    counters := { s.counters with memDelayCycles := s.counters.memDelayCycles + r.latency } }

end Sys2Proof.Machine
end

