-- ==== Sys2Proof/Machine/Operands.lean ====
section
/-! DEFINITION. Reading and writing the general registers, and the Execute stage's operand read with forwarding
(spec/10_state.md rules R10, R11; spec/50_pipeline.md rule R330). Immediate operands are the functions `sext`, `zext`
and `immUExt` of Decode.lean. -/

namespace Sys2Proof.Machine

/-- `x[i]`: index 0 reads as zero (R10, R11). -/
def State.reg (s : State) (i : Reg) : Word := if i = 0 then 0 else s.regs[i.toNat]'(i.isLt)

/-- `x[i] <- v`: a write to index 0 changes nothing (R11). -/
def State.setReg (s : State) (i : Reg) (v : Word) : State :=
  if i = 0 then s else { s with regs := s.regs.set i.toNat v i.isLt }

/-- `fwd(i)`: the value of register `i` in the Execute stage, taken from the record in slot W if that record writes it,
else from the register file; index 0 is zero and is never forwarded (R330). -/
def State.fwd (s : State) (i : Reg) : Word :=
  if i = 0 then 0
  else
    match s.slotW with
    | some w => if w.writes ∧ w.rd = i then w.wb else s.reg i
    | none => s.reg i

/-- `v[31:0]` of a 64-bit word (R131). -/
def low32 (v : Word) : BitVec 32 := v.setWidth 32

/-- The shift amount of a 64-bit shift by register: the low six bits (R131). -/
def shift6 (v : Word) : Nat := (v.setWidth 6).toNat

/-- The shift amount of a 32-bit shift by register: the low five bits (R131). -/
def shift5 (v : Word) : Nat := (v.setWidth 5).toNat

end Sys2Proof.Machine
end

