-- ==== Sys2Proof/Machine/Flags.lean ====
section
/-! DEFINITION. This hardware has no flags and no condition codes (spec/10_state.md rule R28): no instruction computes
one. What stands in their place are the comparisons that branches and the set-less-than instructions make on register
values (spec/40_rv64i_compute.md rule R131, spec/41_rv64i_control.md rules R185 to R190). -/

namespace Sys2Proof.Machine

/-- `signed(a) < signed(b)`. -/
def ltSigned (a b : Word) : Bool := decide (a.toInt < b.toInt)

/-- `unsigned(a) < unsigned(b)`. -/
def ltUnsigned (a b : Word) : Bool := decide (a.toNat < b.toNat)

/-- A comparison as a register value, exactly 0 or 1 (R131). -/
def boolWord (c : Bool) : Word := if c then 1 else 0

/-- BEQ (R185). -/
def condEq (a b : Word) : Bool := a == b
/-- BNE (R186). -/
def condNe (a b : Word) : Bool := a != b
/-- BLT (R187). -/
def condLt (a b : Word) : Bool := ltSigned a b
/-- BGE (R188). -/
def condGe (a b : Word) : Bool := decide (a.toInt ≥ b.toInt)
/-- BLTU (R189). -/
def condLtu (a b : Word) : Bool := ltUnsigned a b
/-- BGEU (R190). -/
def condGeu (a b : Word) : Bool := decide (a.toNat ≥ b.toNat)

end Sys2Proof.Machine
end

