-- ==== Sys2Proof/Machine/Ops.lean ====
section
/-! DEFINITION. The named operations over memory, registers and slots: the address space (spec/20_memory.md), the fatal
stop, which is all this hardware has of an exception (spec/60_exceptions.md), and what the Execute stage does for every
kind (spec/50_pipeline.md rules R331 to R334). -/

namespace Sys2Proof.Machine

/-- What exec answers. -/
abbrev Result := Host.Outcome State Fault Refusal

/-! ## The address space (R40 to R45) -/

/-- `page(a)`: the start address of the page of `a` (R40). -/
def pageOf (a : Word) : Nat := a.toNat - a.toNat % pageSize

/-- `off(a)` (R40). -/
def offOf (a : Word) : Nat := a.toNat % pageSize

/-- Is the page of `a` mapped (R40)? -/
def Memory.mapped (m : Memory) (a : Word) : Bool := m.pages.contains (pageOf a)

/-- The byte at an address of a mapped page (R43). -/
def Memory.byte (m : Memory) (a : Word) : Byte := sparseGet 0 a.toNat m.cells

/-- Write the byte at an address of a mapped page (R44). -/
def Memory.putByte (m : Memory) (a : Word) (b : Byte) : Memory := { m with cells := sparsePut 0 a.toNat b m.cells }

/-- Create the page of `a`, zero-filled, if it is not mapped (R44). -/
def Memory.mapPage (m : Memory) (a : Word) : Memory := { m with pages := keyInsert (pageOf a) m.pages }

/-- `check(a, n)`: the size first, then the page crossing (R41). -/
def accessCheck (a : Word) (n : Nat) : Option FatalKind :=
  if n ∉ [1, 2, 4, 8] then some .badAccessSize
  else if offOf a + n > pageSize then some .pageCross
  else none

/-- `n` bytes from `a` upward as an unsigned number, the least significant byte at the lowest address (R42, R43). -/
def Memory.readLE (m : Memory) (a : Word) : Nat → Nat
  | 0 => 0
  | n + 1 => (m.byte a).toNat + 256 * m.readLE (a + 1) n

/-- The low `n` bytes of `v` from `a` upward, the least significant one at the lowest address (R42, R44). -/
def Memory.writeLE (m : Memory) (a : Word) : Nat → Word → Memory
  | 0, _ => m
  | n + 1, v => (m.putByte a (v.setWidth 8)).writeLE (a + 1) n (v >>> 8)

/-- `MemRead(a, n)` (R43). -/
def Memory.read (m : Memory) (a : Word) (n : Nat) : Except FatalKind Nat :=
  match accessCheck a n with
  | some k => .error k
  | none => if m.mapped a then .ok (m.readLE a n) else .error .unmappedRead

/-- `MemWrite(a, n, v)` (R44). -/
def Memory.write (m : Memory) (a : Word) (n : Nat) (v : Word) : Except FatalKind Memory :=
  match accessCheck a n with
  | some k => .error k
  | none => .ok ((m.mapPage a).writeLE a n v)

/-- `allocate(a)` (R45). -/
def Memory.allocate (m : Memory) (a : Word) : Except FatalKind Memory :=
  if m.mapped a then .error .doubleAllocation else .ok (m.mapPage a)

/-- `deallocate(a)` (R45); no instruction calls it. -/
def Memory.deallocate (m : Memory) (a : Word) : Except FatalKind Memory :=
  if m.mapped a then
    .ok { pages := keyErase (pageOf a) m.pages
          cells := m.cells.filter (fun c => c.1 - c.1 % pageSize != pageOf a) }
  else .error .missingPage

/-! ## The fatal stop (R360)

This hardware takes no exception: no state is saved, no handler is entered and nothing returns (R364, R366). What
stands in its place is the fatal stop. -/

/-- `raise Fatal(kind)`: the machine stops where it is; the rest of the state stays as it is at that point (R360). -/
def State.raiseFatal (s : State) (k : FatalKind) : State := { s with fatal := some k }

/-- Has the machine exited or stopped? Then a cycle changes nothing (R320). -/
def State.stopped (s : State) : Bool := s.exit || s.fatal.isSome

/-! ## What Execute does for every kind -/

/-- Does slot W hold a load that writes one of these registers (R332)? -/
def State.loadUseHit (s : State) (reads : List Reg) : Bool :=
  match s.slotW with
  | some w => w.kind.isLoad && w.writes && w.rd != 0 && reads.contains w.rd
  | none => false

/-- Load-use detection: a counter and nothing else (R332). -/
def State.detectLoadUse (s : State) (reads : List Reg) : State :=
  if s.loadUseHit reads then
    { s with counters := { s.counters with loadUseStalls := s.counters.loadUseStalls + 1 } }
  else s

/-- The end of Execute: the record moves on to slot M (R334). -/
def State.toMemory (s : State) (r : Record) : State := { s with slotM := some r, slotE := none }

/-- A taken control transfer: redirect, discard the fetched word, count one stall (R333). -/
def State.squash (s : State) (target : Word) : State :=
  { s with
    pc := target
    slotD := none
    counters := { s.counters with controlStalls := s.counters.controlStalls + 1 } }

/-- The frame of every meaning (R331): nothing for an empty slot E; else load-use detection on the registers the
instruction reads, then what the kind does with the record in E. -/
def inExecute (reads : List Reg) (s : State) (act : State → Record → Result) : Result :=
  match s.slotE with
  | none => .next s
  | some r => act (s.detectLoadUse reads) r

/-- A kind that computes a deferred value. -/
def computeValue (reads : List Reg) (value : State → Record → Word) (s : State) : Result :=
  inExecute reads s fun s r => .next (s.toMemory { r with wb := value s r })

/-- A value of one register and an immediate (R130). -/
def opRegImm (f : Word → Word → Word) (rs1 : Reg) (imm : Word) (s : State) : Result :=
  computeValue [rs1] (fun s _ => f (s.fwd rs1) imm) s

/-- A value of two registers (R130). -/
def opRegReg (f : Word → Word → Word) (rs1 rs2 : Reg) (s : State) : Result :=
  computeValue [rs1, rs2] (fun s _ => f (s.fwd rs1) (s.fwd rs2)) s

/-- A load or store in Execute: its effective address, and nothing else (R200). -/
def opAddress (reads : List Reg) (rs1 : Reg) (imm : Word) (s : State) : Result :=
  inExecute reads s fun s r => .next (s.toMemory { r with addr := s.fwd rs1 + imm })

/-- A conditional branch: no register is written; taken, it squashes (R184, R331, R333). -/
def opBranch (cond : Word → Word → Bool) (rs1 rs2 : Reg) (imm : Word) (s : State) : Result :=
  inExecute [rs1, rs2] s fun s r =>
    let s' := s.toMemory r
    .next (if cond (s.fwd rs1) (s.fwd rs2) then s'.squash (r.pc + imm) else s')

/-- A jump: the link value is the record's own address plus its own length; always taken (R181, R182, R183). -/
def opJump (reads : List Reg) (target : State → Record → Word) (s : State) : Result :=
  inExecute reads s fun s r =>
    .next ((s.toMemory { r with wb := r.pc + BitVec.ofNat 64 r.len }).squash (target s r))

end Sys2Proof.Machine
end

