-- ==== Sys2Proof/Machine/Compute.lean ====
section
/-! DEFINITION. Integer computational instructions (spec/40_rv64i_compute.md). The destination index and the
writes-register flag were put in the record by Decode; the value computed here waits in the record until WriteBack. -/

namespace Sys2Proof.Machine

/-! ## The values (R131 to R161) -/

def addVal (a b : Word) : Word := a + b
def subVal (a b : Word) : Word := a - b
def andVal (a b : Word) : Word := a &&& b
def orVal (a b : Word) : Word := a ||| b
def xorVal (a b : Word) : Word := a ^^^ b
def sltVal (a b : Word) : Word := boolWord (ltSigned a b)
def sltuVal (a b : Word) : Word := boolWord (ltUnsigned a b)
def sllVal (a b : Word) : Word := a <<< shift6 b
def srlVal (a b : Word) : Word := a >>> shift6 b
def sraVal (a b : Word) : Word := a.sshiftRight (shift6 b)
def addwVal (a b : Word) : Word := sext (low32 (a + b))
def subwVal (a b : Word) : Word := sext (low32 (a - b))
def sllwVal (a b : Word) : Word := sext (low32 a <<< shift5 b)
def srlwVal (a b : Word) : Word := sext (low32 a >>> shift5 b)
def srawVal (a b : Word) : Word := sext ((low32 a).sshiftRight (shift5 b))

/-! ## Upper immediates -/

/-- LUI (R132). -/
def execLui (imm20 : BitVec 20) (s : State) : Result := computeValue [] (fun _ _ => immUExt imm20) s
/-- AUIPC (R133): the address this instruction was fetched from plus the immediate. -/
def execAuipc (imm20 : BitVec 20) (s : State) : Result := computeValue [] (fun _ r => r.pc + immUExt imm20) s

/-! ## Register-immediate -/

/-- ADDI (R134). -/
def execAddi (rs1 : Reg) (imm : BitVec 12) (s : State) : Result := opRegImm addVal rs1 (sext imm) s
/-- SLTI (R135). -/
def execSlti (rs1 : Reg) (imm : BitVec 12) (s : State) : Result := opRegImm sltVal rs1 (sext imm) s
/-- SLTIU (R136): the immediate is sign-extended, then compared unsigned. -/
def execSltiu (rs1 : Reg) (imm : BitVec 12) (s : State) : Result := opRegImm sltuVal rs1 (sext imm) s
/-- XORI (R137). -/
def execXori (rs1 : Reg) (imm : BitVec 12) (s : State) : Result := opRegImm xorVal rs1 (sext imm) s
/-- ORI (R138). -/
def execOri (rs1 : Reg) (imm : BitVec 12) (s : State) : Result := opRegImm orVal rs1 (sext imm) s
/-- ANDI (R139). -/
def execAndi (rs1 : Reg) (imm : BitVec 12) (s : State) : Result := opRegImm andVal rs1 (sext imm) s
/-- SLLI (R140). -/
def execSlli (rs1 : Reg) (shamt : BitVec 6) (s : State) : Result := opRegImm sllVal rs1 (zext shamt) s
/-- SRLI (R141). -/
def execSrli (rs1 : Reg) (shamt : BitVec 6) (s : State) : Result := opRegImm srlVal rs1 (zext shamt) s
/-- SRAI (R142). -/
def execSrai (rs1 : Reg) (shamt : BitVec 6) (s : State) : Result := opRegImm sraVal rs1 (zext shamt) s

/-! ## Register-register -/

/-- ADD (R143). -/
def execAdd (rs1 rs2 : Reg) (s : State) : Result := opRegReg addVal rs1 rs2 s
/-- SUB (R144). -/
def execSub (rs1 rs2 : Reg) (s : State) : Result := opRegReg subVal rs1 rs2 s
/-- SLL (R145). -/
def execSll (rs1 rs2 : Reg) (s : State) : Result := opRegReg sllVal rs1 rs2 s
/-- SLT (R146). -/
def execSlt (rs1 rs2 : Reg) (s : State) : Result := opRegReg sltVal rs1 rs2 s
/-- SLTU (R147). -/
def execSltu (rs1 rs2 : Reg) (s : State) : Result := opRegReg sltuVal rs1 rs2 s
/-- XOR (R148). -/
def execXor (rs1 rs2 : Reg) (s : State) : Result := opRegReg xorVal rs1 rs2 s
/-- SRL (R149). -/
def execSrl (rs1 rs2 : Reg) (s : State) : Result := opRegReg srlVal rs1 rs2 s
/-- SRA (R150). -/
def execSra (rs1 rs2 : Reg) (s : State) : Result := opRegReg sraVal rs1 rs2 s
/-- OR (R151). -/
def execOr (rs1 rs2 : Reg) (s : State) : Result := opRegReg orVal rs1 rs2 s
/-- AND (R152). -/
def execAnd (rs1 rs2 : Reg) (s : State) : Result := opRegReg andVal rs1 rs2 s

/-! ## Word forms -/

/-- ADDIW (R153). -/
def execAddiw (rs1 : Reg) (imm : BitVec 12) (s : State) : Result := opRegImm addwVal rs1 (sext imm) s
/-- SLLIW (R154). -/
def execSlliw (rs1 : Reg) (shamt : BitVec 5) (s : State) : Result := opRegImm sllwVal rs1 (zext shamt) s
/-- SRLIW (R155). -/
def execSrliw (rs1 : Reg) (shamt : BitVec 5) (s : State) : Result := opRegImm srlwVal rs1 (zext shamt) s
/-- SRAIW (R156). -/
def execSraiw (rs1 : Reg) (shamt : BitVec 5) (s : State) : Result := opRegImm srawVal rs1 (zext shamt) s
/-- ADDW (R157). -/
def execAddw (rs1 rs2 : Reg) (s : State) : Result := opRegReg addwVal rs1 rs2 s
/-- SUBW (R158). -/
def execSubw (rs1 rs2 : Reg) (s : State) : Result := opRegReg subwVal rs1 rs2 s
/-- SLLW (R159). -/
def execSllw (rs1 rs2 : Reg) (s : State) : Result := opRegReg sllwVal rs1 rs2 s
/-- SRLW (R160). -/
def execSrlw (rs1 rs2 : Reg) (s : State) : Result := opRegReg srlwVal rs1 rs2 s
/-- SRAW (R161). -/
def execSraw (rs1 rs2 : Reg) (s : State) : Result := opRegReg srawVal rs1 rs2 s

end Sys2Proof.Machine
end

