-- ==== Sys2Proof/Machine/Control.lean ====
section
/-! DEFINITION. Control-transfer instructions (spec/41_rv64i_control.md). -/

namespace Sys2Proof.Machine

/-- The target of JALR: the sum with bit 0 cleared (R183). -/
def jalrTarget (base imm : Word) : Word := (base + imm) &&& ~~~1

/-- JAL (R182). -/
def execJal (imm : BitVec 21) (s : State) : Result := opJump [] (fun _ r => r.pc + sext imm) s
/-- JALR (R183). -/
def execJalr (rs1 : Reg) (imm : BitVec 12) (s : State) : Result :=
  opJump [rs1] (fun s _ => jalrTarget (s.fwd rs1) (sext imm)) s
/-- BEQ (R185). -/
def execBeq (rs1 rs2 : Reg) (imm : BitVec 13) (s : State) : Result := opBranch condEq rs1 rs2 (sext imm) s
/-- BNE (R186). -/
def execBne (rs1 rs2 : Reg) (imm : BitVec 13) (s : State) : Result := opBranch condNe rs1 rs2 (sext imm) s
/-- BLT (R187). -/
def execBlt (rs1 rs2 : Reg) (imm : BitVec 13) (s : State) : Result := opBranch condLt rs1 rs2 (sext imm) s
/-- BGE (R188). -/
def execBge (rs1 rs2 : Reg) (imm : BitVec 13) (s : State) : Result := opBranch condGe rs1 rs2 (sext imm) s
/-- BLTU (R189). -/
def execBltu (rs1 rs2 : Reg) (imm : BitVec 13) (s : State) : Result := opBranch condLtu rs1 rs2 (sext imm) s
/-- BGEU (R190). -/
def execBgeu (rs1 rs2 : Reg) (imm : BitVec 13) (s : State) : Result := opBranch condGeu rs1 rs2 (sext imm) s

end Sys2Proof.Machine
end

