-- ==== Sys2Proof/Machine/LoadStore.lean ====
section
/-! DEFINITION. Load and store instructions (spec/42_rv64i_loadstore.md). Their Execute part, here first, computes the
effective address (R200); their memory access is made in the AccessMemory stage, in the cycle after (R201, R202). -/

namespace Sys2Proof.Machine

/-! ## Execute -/

/-- LB (R204). -/
def execLb (rs1 : Reg) (imm : BitVec 12) (s : State) : Result := opAddress [rs1] rs1 (sext imm) s
/-- LH (R205). -/
def execLh (rs1 : Reg) (imm : BitVec 12) (s : State) : Result := opAddress [rs1] rs1 (sext imm) s
/-- LW (R206). -/
def execLw (rs1 : Reg) (imm : BitVec 12) (s : State) : Result := opAddress [rs1] rs1 (sext imm) s
/-- LD (R207). -/
def execLd (rs1 : Reg) (imm : BitVec 12) (s : State) : Result := opAddress [rs1] rs1 (sext imm) s
/-- LBU (R208). -/
def execLbu (rs1 : Reg) (imm : BitVec 12) (s : State) : Result := opAddress [rs1] rs1 (sext imm) s
/-- LHU (R209). -/
def execLhu (rs1 : Reg) (imm : BitVec 12) (s : State) : Result := opAddress [rs1] rs1 (sext imm) s
/-- LWU (R210). -/
def execLwu (rs1 : Reg) (imm : BitVec 12) (s : State) : Result := opAddress [rs1] rs1 (sext imm) s
/-- SB (R211); the data register counts as read for load-use detection (R332). -/
def execSb (rs1 rs2 : Reg) (imm : BitVec 12) (s : State) : Result := opAddress [rs1, rs2] rs1 (sext imm) s
/-- SH (R212). -/
def execSh (rs1 rs2 : Reg) (imm : BitVec 12) (s : State) : Result := opAddress [rs1, rs2] rs1 (sext imm) s
/-- SW (R213). -/
def execSw (rs1 rs2 : Reg) (imm : BitVec 12) (s : State) : Result := opAddress [rs1, rs2] rs1 (sext imm) s
/-- SD (R214). -/
def execSd (rs1 rs2 : Reg) (imm : BitVec 12) (s : State) : Result := opAddress [rs1, rs2] rs1 (sext imm) s

/-! ## AccessMemory -/

/-- The number of bytes a kind loads or stores; 0 for a kind that does neither (R49). -/
def accessWidth : Kind → Nat
  | .lb | .lbu | .sb => 1
  | .lh | .lhu | .sh => 2
  | .lw | .lwu | .sw => 4
  | .ld | .sd => 8
  | _ => 0

/-- The extension of a loaded value to 64 bits (R49). -/
def loadExt (k : Kind) (v : Nat) : Word :=
  match k with
  | .lb => sext (BitVec.ofNat 8 v)
  | .lh => sext (BitVec.ofNat 16 v)
  | .lw => sext (BitVec.ofNat 32 v)
  | .lbu => zext (BitVec.ofNat 8 v)
  | .lhu => zext (BitVec.ofNat 16 v)
  | .lwu => zext (BitVec.ofNat 32 v)
  | _ => BitVec.ofNat 64 v

/-- A load in AccessMemory: the Access first, then the read; on a fatal read the record stays in M (R201, R324). -/
def accessLoad (s : State) (r : Record) : State :=
  let s1 := s.access r.addr (accessWidth r.kind) true
  match s1.mem.read r.addr (accessWidth r.kind) with
  | .error k => s1.raiseFatal k
  | .ok v => { s1 with slotW := some { r with wb := loadExt r.kind v }, slotM := none }

/-- A store in AccessMemory: the Access first, then the write of the data register as the register file holds it now;
on a fatal write the record stays in M (R202, R325). -/
def accessStore (s : State) (r : Record) : State :=
  let s1 := s.access r.addr (accessWidth r.kind) false
  match s1.mem.write r.addr (accessWidth r.kind) (s1.reg r.rs2) with
  | .error k => s1.raiseFatal k
  | .ok m => { s1 with mem := m, slotW := some r, slotM := none }

end Sys2Proof.Machine
end

