-- ==== Sys2Proof/Machine/Compressed.lean ====
section
/-! DEFINITION. Compressed instructions (spec/44_rvc.md): each does what its 32-bit equivalent does on the registers its
fields name (R250, R251), with its own length of 2, which the record carries, as the link length (R279). -/

namespace Sys2Proof.Machine

/-! ## Quadrant 0 -/

/-- C.ADDI4SPN (R252). -/
def execCAddi4spn (imm : BitVec 10) (s : State) : Result := opRegImm addVal 2 (zext imm) s
/-- C.LW (R253). -/
def execCLw (rs1p : CReg) (imm : BitVec 7) (s : State) : Result := opAddress [cReg rs1p] (cReg rs1p) (zext imm) s
/-- C.LD (R254). -/
def execCLd (rs1p : CReg) (imm : BitVec 8) (s : State) : Result := opAddress [cReg rs1p] (cReg rs1p) (zext imm) s
/-- C.SW (R255). -/
def execCSw (rs1p rs2p : CReg) (imm : BitVec 7) (s : State) : Result :=
  opAddress [cReg rs1p, cReg rs2p] (cReg rs1p) (zext imm) s
/-- C.SD (R256). -/
def execCSd (rs1p rs2p : CReg) (imm : BitVec 8) (s : State) : Result :=
  opAddress [cReg rs1p, cReg rs2p] (cReg rs1p) (zext imm) s

/-! ## Quadrant 1 -/

/-- C.NOP (R257): computes 0 + imm, which WriteBack drops. -/
def execCNop (imm : BitVec 6) (s : State) : Result := opRegImm addVal 0 (sext imm) s
/-- C.ADDI (R258). -/
def execCAddi (rd : Reg) (imm : BitVec 6) (s : State) : Result := opRegImm addVal rd (sext imm) s
/-- C.ADDIW (R259). -/
def execCAddiw (rd : Reg) (imm : BitVec 6) (s : State) : Result := opRegImm addwVal rd (sext imm) s
/-- C.LI (R260). -/
def execCLi (imm : BitVec 6) (s : State) : Result := opRegImm addVal 0 (sext imm) s
/-- C.ADDI16SP (R261). -/
def execCAddi16sp (imm : BitVec 10) (s : State) : Result := opRegImm addVal 2 (sext imm) s
/-- C.LUI (R262). -/
def execCLui (imm : BitVec 18) (s : State) : Result := computeValue [] (fun _ _ => sext imm) s
/-- C.SRLI (R263). -/
def execCSrli (rdp : CReg) (shamt : BitVec 6) (s : State) : Result := opRegImm srlVal (cReg rdp) (zext shamt) s
/-- C.SRAI (R264). -/
def execCSrai (rdp : CReg) (shamt : BitVec 6) (s : State) : Result := opRegImm sraVal (cReg rdp) (zext shamt) s
/-- C.ANDI (R265). -/
def execCAndi (rdp : CReg) (imm : BitVec 6) (s : State) : Result := opRegImm andVal (cReg rdp) (sext imm) s
/-- C.SUB (R266). -/
def execCSub (rdp rs2p : CReg) (s : State) : Result := opRegReg subVal (cReg rdp) (cReg rs2p) s
/-- C.XOR (R267). -/
def execCXor (rdp rs2p : CReg) (s : State) : Result := opRegReg xorVal (cReg rdp) (cReg rs2p) s
/-- C.OR (R268). -/
def execCOr (rdp rs2p : CReg) (s : State) : Result := opRegReg orVal (cReg rdp) (cReg rs2p) s
/-- C.AND (R269). -/
def execCAnd (rdp rs2p : CReg) (s : State) : Result := opRegReg andVal (cReg rdp) (cReg rs2p) s
/-- C.SUBW (R270). -/
def execCSubw (rdp rs2p : CReg) (s : State) : Result := opRegReg subwVal (cReg rdp) (cReg rs2p) s
/-- C.ADDW (R271). -/
def execCAddw (rdp rs2p : CReg) (s : State) : Result := opRegReg addwVal (cReg rdp) (cReg rs2p) s
/-- C.J (R272). -/
def execCJ (imm : BitVec 12) (s : State) : Result := opJump [] (fun _ r => r.pc + sext imm) s
/-- C.BEQZ (R273). -/
def execCBeqz (rs1p : CReg) (imm : BitVec 9) (s : State) : Result := opBranch condEq (cReg rs1p) 0 (sext imm) s
/-- C.BNEZ (R274). -/
def execCBnez (rs1p : CReg) (imm : BitVec 9) (s : State) : Result := opBranch condNe (cReg rs1p) 0 (sext imm) s

/-! ## Quadrant 2 -/

/-- C.SLLI (R275). -/
def execCSlli (rd : Reg) (shamt : BitVec 6) (s : State) : Result := opRegImm sllVal rd (zext shamt) s
/-- C.JR (R276). -/
def execCJr (rs1 : Reg) (s : State) : Result := opJump [rs1] (fun s _ => jalrTarget (s.fwd rs1) 0) s
/-- C.MV, kind MV (R162, R277): reads rs2 only. -/
def execCMv (rs2 : Reg) (s : State) : Result := computeValue [rs2] (fun s _ => s.fwd rs2) s
/-- C.ADD (R278). -/
def execCAdd (rd rs2 : Reg) (s : State) : Result := opRegReg addVal rd rs2 s
/-- C.JALR (R279). -/
def execCJalr (rs1 : Reg) (s : State) : Result := opJump [rs1] (fun s _ => jalrTarget (s.fwd rs1) 0) s
/-- C.LWSP (R280). -/
def execCLwsp (imm : BitVec 8) (s : State) : Result := opAddress [2] 2 (zext imm) s
/-- C.LDSP (R281). -/
def execCLdsp (imm : BitVec 9) (s : State) : Result := opAddress [2] 2 (zext imm) s
/-- C.SWSP (R282). -/
def execCSwsp (rs2 : Reg) (imm : BitVec 8) (s : State) : Result := opAddress [2, rs2] 2 (zext imm) s
/-- C.SDSP (R283). -/
def execCSdsp (rs2 : Reg) (imm : BitVec 9) (s : State) : Result := opAddress [2, rs2] 2 (zext imm) s

end Sys2Proof.Machine
end

