-- ==== Sys2Proof/Machine/MulDiv.lean ====
section
/-! DEFINITION. Multiply and divide (spec/45_m_extension.md), reached only where HAS_M is true, since otherwise Decode
fails on them (R300). Products and quotients are computed exactly and narrowed at the end; division by zero is the
fixed result of R314, and so is the signed overflow, whose exact quotient narrows to the dividend. -/

namespace Sys2Proof.Machine

/-- Bits 127 to 64 of an exact product. -/
def high64 (p : Int) : Word := (BitVec.ofInt 128 p).extractLsb' 64 64

def mulVal (a b : Word) : Word := a * b
def mulhVal (a b : Word) : Word := high64 (a.toInt * b.toInt)
def mulhsuVal (a b : Word) : Word := high64 (a.toInt * (b.toNat : Int))
def mulhuVal (a b : Word) : Word := high64 ((a.toNat : Int) * (b.toNat : Int))

/-- Signed division toward zero at any width (R305, R310, R314). -/
def divSigned {n : Nat} (a b : BitVec n) : BitVec n :=
  if b = 0 then BitVec.allOnes n else BitVec.ofInt n (a.toInt.tdiv b.toInt)

/-- Unsigned division at any width (R306, R311, R314). -/
def divUnsigned {n : Nat} (a b : BitVec n) : BitVec n :=
  if b = 0 then BitVec.allOnes n else BitVec.ofNat n (a.toNat / b.toNat)

/-- Signed remainder, with the sign of the dividend, at any width (R307, R312, R314). -/
def remSigned {n : Nat} (a b : BitVec n) : BitVec n :=
  if b = 0 then a else BitVec.ofInt n (a.toInt.tmod b.toInt)

/-- Unsigned remainder at any width (R308, R313, R314). -/
def remUnsigned {n : Nat} (a b : BitVec n) : BitVec n :=
  if b = 0 then a else BitVec.ofNat n (a.toNat % b.toNat)

def mulwVal (a b : Word) : Word := sext (low32 a * low32 b)
def divwVal (a b : Word) : Word := sext (divSigned (low32 a) (low32 b))
def divuwVal (a b : Word) : Word := sext (divUnsigned (low32 a) (low32 b))
def remwVal (a b : Word) : Word := sext (remSigned (low32 a) (low32 b))
def remuwVal (a b : Word) : Word := sext (remUnsigned (low32 a) (low32 b))

/-- MUL (R301). -/
def execMul (rs1 rs2 : Reg) (s : State) : Result := opRegReg mulVal rs1 rs2 s
/-- MULH (R302). -/
def execMulh (rs1 rs2 : Reg) (s : State) : Result := opRegReg mulhVal rs1 rs2 s
/-- MULHSU (R303): rs1 signed, rs2 unsigned. -/
def execMulhsu (rs1 rs2 : Reg) (s : State) : Result := opRegReg mulhsuVal rs1 rs2 s
/-- MULHU (R304). -/
def execMulhu (rs1 rs2 : Reg) (s : State) : Result := opRegReg mulhuVal rs1 rs2 s
/-- DIV (R305). -/
def execDiv (rs1 rs2 : Reg) (s : State) : Result := opRegReg divSigned rs1 rs2 s
/-- DIVU (R306). -/
def execDivu (rs1 rs2 : Reg) (s : State) : Result := opRegReg divUnsigned rs1 rs2 s
/-- REM (R307). -/
def execRem (rs1 rs2 : Reg) (s : State) : Result := opRegReg remSigned rs1 rs2 s
/-- REMU (R308). -/
def execRemu (rs1 rs2 : Reg) (s : State) : Result := opRegReg remUnsigned rs1 rs2 s
/-- MULW (R309). -/
def execMulw (rs1 rs2 : Reg) (s : State) : Result := opRegReg mulwVal rs1 rs2 s
/-- DIVW (R310). -/
def execDivw (rs1 rs2 : Reg) (s : State) : Result := opRegReg divwVal rs1 rs2 s
/-- DIVUW (R311). -/
def execDivuw (rs1 rs2 : Reg) (s : State) : Result := opRegReg divuwVal rs1 rs2 s
/-- REMW (R312). -/
def execRemw (rs1 rs2 : Reg) (s : State) : Result := opRegReg remwVal rs1 rs2 s
/-- REMUW (R313). -/
def execRemuw (rs1 rs2 : Reg) (s : State) : Result := opRegReg remuwVal rs1 rs2 s

end Sys2Proof.Machine
end

