-- ==== Sys2Proof/Machine/System.lean ====
section
/-! DEFINITION. ECALL and its thirteen services (spec/43_system.md). -/

namespace Sys2Proof.Machine

/-! ## The host (R222) -/

/-- Append an event to the output log. -/
def State.emit (s : State) (e : HostEvent) : State := { s with output := s.output ++ [e] }

/-- The host has given one more answer. -/
def State.answered (s : State) : State := { s with input := s.input.tail, reads := s.reads + 1 }

/-- The word the host answers to the `n`-th reading service: the next listed answer if it is a word, else a free value
(R222, log entry 6). -/
def answerWord (input : List HostAnswer) (n : Nat) : Word :=
  match input with
  | .word v :: _ => v
  | _ => Config.hostWord n

/-- The byte string the host answers to the `n`-th reading service: the next listed answer if it is one, else a free
value; it holds no zero byte, so what stands from a zero byte on is not taken (R222, log entries 6 and 22). -/
def answerBytes (input : List HostAnswer) (n : Nat) : List Byte :=
  (match input with
   | .bytes t :: _ => t
   | _ => Config.hostBytes n).takeWhile (fun b => b != 0)

/-- The word the host answers next. -/
def State.nextWord (s : State) : Word := answerWord s.input s.reads

/-- The byte string the host answers next. -/
def State.nextBytes (s : State) : List Byte := answerBytes s.input s.reads

/-! ## Memory accesses of the services -/

/-- How the scan of PRINT_STRING ends. -/
inductive Scan where
  | text (bytes : List Byte)
  | failed (k : FatalKind)
  | endless
  deriving DecidableEq, Repr

/-- The scan of PRINT_STRING from `a` (R230): one MemRead of one byte after another until a zero byte. The first
argument bounds the number of reads. -/
def scanString (m : Memory) : Nat → Word → Scan
  | 0, _ => .endless
  | n + 1, a =>
    match m.read a 1 with
    | .error k => .failed k
    | .ok b =>
      if b = 0 then .text []
      else
        match scanString m n (a + 1) with
        | .text t => .text (BitVec.ofNat 8 b :: t)
        | .failed k => .failed k
        | .endless => .endless

/-- A bound that no ending scan reaches: one more read than there are mapped addresses. A scan of so many reads that
met no unmapped page has gone round the whole address space (log entry 9). -/
def scanBound (m : Memory) : Nat := pageSize * m.pages.length + 1

/-- `MemWrite(a, 1, b)`: one byte cannot cross a page, so this write has no fatal case (R234). -/
def Memory.write1 (m : Memory) (a : Word) (b : Byte) : Memory := (m.mapPage a).putByte a b

/-- The writes of READ_STRING: the bytes and one zero byte after them (R234). -/
def Memory.putString (m : Memory) (a : Word) : List Byte → Memory
  | [] => m.write1 a 0
  | b :: t => (m.write1 a b).putString (a + 1) t

/-- `allocate` on `n` pages from `a` upward; it ends at the first page that is already mapped, the pages before it
staying mapped (R236). -/
def allocatePages : Nat → Word → Memory → Memory × Option FatalKind
  | 0, _, m => (m, none)
  | n + 1, a, m =>
    match m.allocate a with
    | .error k => (m, some k)
    | .ok m' => allocatePages n (a + BitVec.ofNat 64 pageSize) m'

/-- The argument of HEAP_ALLOCATE rounded up to whole pages, modulo 2^64 (R236). -/
def roundToPages (v : Word) : Word := (v + BitVec.ofNat 64 (pageSize - 1)) &&& ~~~(BitVec.ofNat 64 (pageSize - 1))

/-! ## The services (R225 to R238) -/

/-- A service with a result: the record becomes a register write of a7 (R223). -/
def State.finishWith (s : State) (r : Record) (v : Word) : State :=
  s.toMemory { r with rd := 17, writes := true, wb := v }

/-- EXIT (R225, R335): the record stays in slot E. -/
def serviceExit (s : State) (arg : Word) : State := { s.emit (.exit arg) with exit := true }

/-- PRINT_STRING (R230). -/
def servicePrintString (s : State) (r : Record) (arg : Word) : Result :=
  match scanString s.mem (scanBound s.mem) arg with
  | .text t => .next ((s.emit (.printString t)).toMemory r)
  | .failed k => .next (s.raiseFatal k)
  | .endless => .fault .endlessString

/-- A service that answers with a word of the host: READ_CHAR, READ_INT, READ_LONG, RANDOM, WALL_CLOCK_TIME
(R231, R232, R233, R237, R238). -/
def serviceReadWord (s : State) (r : Record) : State := s.answered.finishWith r s.nextWord

/-- READ_STRING (R234). -/
def serviceReadString (s : State) (r : Record) (arg : Word) : State :=
  { s.answered with mem := s.mem.putString arg s.nextBytes }.toMemory r

/-- HEAP_ALLOCATE (R236). -/
def serviceHeapAllocate (s : State) (r : Record) (arg : Word) : State :=
  let size := roundToPages arg
  let old := s.heapPtr
  match allocatePages (size.toNat / pageSize) old s.mem with
  | (m, some k) => { s with mem := m }.raiseFatal k
  | (m, none) => { s with mem := m, heapPtr := old + size }.finishWith r old

/-- Perform a service with its argument. -/
def performService (v : Service) (s : State) (r : Record) (arg : Word) : Result :=
  match v with
  | .exit => .next (serviceExit s arg)
  | .printChar => .next ((s.emit (.printChar arg)).toMemory r)
  | .printInt => .next ((s.emit (.printInt arg)).toMemory r)
  | .printLong => .next ((s.emit (.printLong arg)).toMemory r)
  | .printString => servicePrintString s r arg
  | .readChar => .next (serviceReadWord s r)
  | .readInt => .next (serviceReadWord s r)
  | .readLong => .next (serviceReadWord s r)
  | .readString => .next (serviceReadString s r arg)
  | .seedRandom => .next ((s.emit (.seedRandom arg)).toMemory r)
  | .random => .next (serviceReadWord s r)
  | .heapAllocate => .next (serviceHeapAllocate s r arg)
  | .wallClockTime => .next (serviceReadWord s r)

/-- The service with a number, all 64 bits compared (R221, R239). -/
def serviceOf (t : SysNum) (num : Word) : Option Service := Service.all.find? (fun v => t.num v == num)

/-- ECALL (R220): the number in a7, the argument in a0, both read with forwarding. -/
def execEcall (s : State) : Result :=
  inExecute [17, 10] s fun s r =>
    match serviceOf s.cfg.sysnum (s.fwd 17) with
    | none => .next (s.raiseFatal .unknownSyscall)
    | some v => performService v s r (s.fwd 10)

end Sys2Proof.Machine
end

