-- ==== Sys2Proof/Machine/Dispatch.lean ====
section
/-! DEFINITION. The Execute stage's dispatch (spec/50_pipeline.md rule R331): one arm per instruction. A destination
field is not passed on: Decode has put it in the record. -/

namespace Sys2Proof.Machine

def exec (i : Instr) (s : State) : Host.Outcome State Fault Refusal :=
  match i with
  | .lui _ imm20 => Sys2Proof.Machine.execLui imm20 s
  | .auipc _ imm20 => Sys2Proof.Machine.execAuipc imm20 s
  | .jal _ imm => Sys2Proof.Machine.execJal imm s
  | .jalr _ rs1 imm => Sys2Proof.Machine.execJalr rs1 imm s
  | .beq rs1 rs2 imm => Sys2Proof.Machine.execBeq rs1 rs2 imm s
  | .bne rs1 rs2 imm => Sys2Proof.Machine.execBne rs1 rs2 imm s
  | .blt rs1 rs2 imm => Sys2Proof.Machine.execBlt rs1 rs2 imm s
  | .bge rs1 rs2 imm => Sys2Proof.Machine.execBge rs1 rs2 imm s
  | .bltu rs1 rs2 imm => Sys2Proof.Machine.execBltu rs1 rs2 imm s
  | .bgeu rs1 rs2 imm => Sys2Proof.Machine.execBgeu rs1 rs2 imm s
  | .lb _ rs1 imm => Sys2Proof.Machine.execLb rs1 imm s
  | .lh _ rs1 imm => Sys2Proof.Machine.execLh rs1 imm s
  | .lw _ rs1 imm => Sys2Proof.Machine.execLw rs1 imm s
  | .ld _ rs1 imm => Sys2Proof.Machine.execLd rs1 imm s
  | .lbu _ rs1 imm => Sys2Proof.Machine.execLbu rs1 imm s
  | .lhu _ rs1 imm => Sys2Proof.Machine.execLhu rs1 imm s
  | .lwu _ rs1 imm => Sys2Proof.Machine.execLwu rs1 imm s
  | .sb rs1 rs2 imm => Sys2Proof.Machine.execSb rs1 rs2 imm s
  | .sh rs1 rs2 imm => Sys2Proof.Machine.execSh rs1 rs2 imm s
  | .sw rs1 rs2 imm => Sys2Proof.Machine.execSw rs1 rs2 imm s
  | .sd rs1 rs2 imm => Sys2Proof.Machine.execSd rs1 rs2 imm s
  | .addi _ rs1 imm => Sys2Proof.Machine.execAddi rs1 imm s
  | .slti _ rs1 imm => Sys2Proof.Machine.execSlti rs1 imm s
  | .sltiu _ rs1 imm => Sys2Proof.Machine.execSltiu rs1 imm s
  | .xori _ rs1 imm => Sys2Proof.Machine.execXori rs1 imm s
  | .ori _ rs1 imm => Sys2Proof.Machine.execOri rs1 imm s
  | .andi _ rs1 imm => Sys2Proof.Machine.execAndi rs1 imm s
  | .slli _ rs1 shamt => Sys2Proof.Machine.execSlli rs1 shamt s
  | .srli _ rs1 shamt => Sys2Proof.Machine.execSrli rs1 shamt s
  | .srai _ rs1 shamt => Sys2Proof.Machine.execSrai rs1 shamt s
  | .add _ rs1 rs2 => Sys2Proof.Machine.execAdd rs1 rs2 s
  | .sub _ rs1 rs2 => Sys2Proof.Machine.execSub rs1 rs2 s
  | .sll _ rs1 rs2 => Sys2Proof.Machine.execSll rs1 rs2 s
  | .slt _ rs1 rs2 => Sys2Proof.Machine.execSlt rs1 rs2 s
  | .sltu _ rs1 rs2 => Sys2Proof.Machine.execSltu rs1 rs2 s
  | .xor _ rs1 rs2 => Sys2Proof.Machine.execXor rs1 rs2 s
  | .srl _ rs1 rs2 => Sys2Proof.Machine.execSrl rs1 rs2 s
  | .sra _ rs1 rs2 => Sys2Proof.Machine.execSra rs1 rs2 s
  | .or _ rs1 rs2 => Sys2Proof.Machine.execOr rs1 rs2 s
  | .and _ rs1 rs2 => Sys2Proof.Machine.execAnd rs1 rs2 s
  | .addiw _ rs1 imm => Sys2Proof.Machine.execAddiw rs1 imm s
  | .slliw _ rs1 shamt => Sys2Proof.Machine.execSlliw rs1 shamt s
  | .srliw _ rs1 shamt => Sys2Proof.Machine.execSrliw rs1 shamt s
  | .sraiw _ rs1 shamt => Sys2Proof.Machine.execSraiw rs1 shamt s
  | .addw _ rs1 rs2 => Sys2Proof.Machine.execAddw rs1 rs2 s
  | .subw _ rs1 rs2 => Sys2Proof.Machine.execSubw rs1 rs2 s
  | .sllw _ rs1 rs2 => Sys2Proof.Machine.execSllw rs1 rs2 s
  | .srlw _ rs1 rs2 => Sys2Proof.Machine.execSrlw rs1 rs2 s
  | .sraw _ rs1 rs2 => Sys2Proof.Machine.execSraw rs1 rs2 s
  | .ecall => Sys2Proof.Machine.execEcall s
  | .mul _ rs1 rs2 => Sys2Proof.Machine.execMul rs1 rs2 s
  | .mulh _ rs1 rs2 => Sys2Proof.Machine.execMulh rs1 rs2 s
  | .mulhsu _ rs1 rs2 => Sys2Proof.Machine.execMulhsu rs1 rs2 s
  | .mulhu _ rs1 rs2 => Sys2Proof.Machine.execMulhu rs1 rs2 s
  | .div _ rs1 rs2 => Sys2Proof.Machine.execDiv rs1 rs2 s
  | .divu _ rs1 rs2 => Sys2Proof.Machine.execDivu rs1 rs2 s
  | .rem _ rs1 rs2 => Sys2Proof.Machine.execRem rs1 rs2 s
  | .remu _ rs1 rs2 => Sys2Proof.Machine.execRemu rs1 rs2 s
  | .mulw _ rs1 rs2 => Sys2Proof.Machine.execMulw rs1 rs2 s
  | .divw _ rs1 rs2 => Sys2Proof.Machine.execDivw rs1 rs2 s
  | .divuw _ rs1 rs2 => Sys2Proof.Machine.execDivuw rs1 rs2 s
  | .remw _ rs1 rs2 => Sys2Proof.Machine.execRemw rs1 rs2 s
  | .remuw _ rs1 rs2 => Sys2Proof.Machine.execRemuw rs1 rs2 s
  | .cAddi4spn _ imm => Sys2Proof.Machine.execCAddi4spn imm s
  | .cLw _ rs1p imm => Sys2Proof.Machine.execCLw rs1p imm s
  | .cLd _ rs1p imm => Sys2Proof.Machine.execCLd rs1p imm s
  | .cSw rs1p rs2p imm => Sys2Proof.Machine.execCSw rs1p rs2p imm s
  | .cSd rs1p rs2p imm => Sys2Proof.Machine.execCSd rs1p rs2p imm s
  | .cNop imm => Sys2Proof.Machine.execCNop imm s
  | .cAddi rd imm => Sys2Proof.Machine.execCAddi rd imm s
  | .cAddiw rd imm => Sys2Proof.Machine.execCAddiw rd imm s
  | .cLi _ imm => Sys2Proof.Machine.execCLi imm s
  | .cAddi16sp imm => Sys2Proof.Machine.execCAddi16sp imm s
  | .cLui _ imm => Sys2Proof.Machine.execCLui imm s
  | .cSrli rdp shamt => Sys2Proof.Machine.execCSrli rdp shamt s
  | .cSrai rdp shamt => Sys2Proof.Machine.execCSrai rdp shamt s
  | .cAndi rdp imm => Sys2Proof.Machine.execCAndi rdp imm s
  | .cSub rdp rs2p => Sys2Proof.Machine.execCSub rdp rs2p s
  | .cXor rdp rs2p => Sys2Proof.Machine.execCXor rdp rs2p s
  | .cOr rdp rs2p => Sys2Proof.Machine.execCOr rdp rs2p s
  | .cAnd rdp rs2p => Sys2Proof.Machine.execCAnd rdp rs2p s
  | .cSubw rdp rs2p => Sys2Proof.Machine.execCSubw rdp rs2p s
  | .cAddw rdp rs2p => Sys2Proof.Machine.execCAddw rdp rs2p s
  | .cJ imm => Sys2Proof.Machine.execCJ imm s
  | .cBeqz rs1p imm => Sys2Proof.Machine.execCBeqz rs1p imm s
  | .cBnez rs1p imm => Sys2Proof.Machine.execCBnez rs1p imm s
  | .cSlli rd shamt => Sys2Proof.Machine.execCSlli rd shamt s
  | .cJr rs1 => Sys2Proof.Machine.execCJr rs1 s
  | .cMv _ rs2 => Sys2Proof.Machine.execCMv rs2 s
  | .cAdd rd rs2 => Sys2Proof.Machine.execCAdd rd rs2 s
  | .cJalr rs1 => Sys2Proof.Machine.execCJalr rs1 s
  | .cLwsp _ imm => Sys2Proof.Machine.execCLwsp imm s
  | .cLdsp _ imm => Sys2Proof.Machine.execCLdsp imm s
  | .cSwsp rs2 imm => Sys2Proof.Machine.execCSwsp rs2 imm s
  | .cSdsp rs2 imm => Sys2Proof.Machine.execCSdsp rs2 imm s

end Sys2Proof.Machine
end

