-- ==== Sys2Proof/Machine/Stages.lean ====
section
/-! DEFINITION. The stage procedures of a cycle other than Execute (spec/50_pipeline.md): WriteBack, AccessMemory,
Decode and Fetch. -/

namespace Sys2Proof.Machine

/-- The cycle count, at the start of every cycle that runs (R25, R320). -/
def State.tick (s : State) : State := { s with counters := { s.counters with cycles := s.counters.cycles + 1 } }

/-- WriteBack (R322): commit the record's value if it writes a register, retire it. -/
def writeBack (s : State) : State :=
  match s.slotW with
  | none => s
  | some w =>
    let s1 := if w.writes then s.setReg w.rd w.wb else s
    { s1 with slotW := none, counters := { s1.counters with retired := s1.counters.retired + 1 } }

/-- AccessMemory (R323 to R326): the access of a load or store, then the record moves to slot W. -/
def accessMemory (s : State) : State :=
  match s.slotM with
  | none => s
  | some r =>
    if r.kind.isLoad then accessLoad s r
    else if r.kind.isStore then accessStore s r
    else { s with slotW := some r, slotM := none }

/-- Decode (R336): fill the record in slot D and move it to slot E; on a failure it stays in D. -/
def decodeStage (s : State) : State :=
  match s.slotD with
  | none => s
  | some f =>
    match decode s.cfg.hasM f.code with
    | .failure _ => s.raiseFatal .decodeFailure
    | .instr i => { s with slotE := some (Record.decoded f i), slotD := none }

/-- Fetch (R340, R341): the Access first, then four bytes at `pc` into slot D, and `pc` past the word. -/
def fetchStage (s : State) : State :=
  let s1 := s.access s.pc 4 true
  match s1.mem.read s.pc 4 with
  | .error k => s1.raiseFatal k
  | .ok v =>
    let f : Fetched := { code := BitVec.ofNat 32 v, pc := s.pc }
    { s1 with slotD := some f, pc := s.pc + BitVec.ofNat 64 f.len }

/-- The end of a cycle after Execute: nothing after an exit or a fatal stop, else Decode, then Fetch (R320). -/
def finishCycle (s : State) : State :=
  if s.stopped then s
  else
    let s1 := decodeStage s
    if s1.stopped then s1 else fetchStage s1

end Sys2Proof.Machine
end

