-- ==== Sys2Proof/Machine/Place.lean ====
section
/-! DEFINITION. Placing an instruction word in front of the machine, as a launch with a program and two cycles of Fetch
and Decode would (log entries 2, 3 and 14). -/

namespace Sys2Proof.Machine

/-- Bytes of `v` stored one by one from `a` upward, pages mapped as needed; unlike MemWrite it may cross a page. -/
def placeBytes (m : Memory) (a : Word) : Nat → Word → Memory
  | 0, _ => m
  | n + 1, v => placeBytes ((m.mapPage a).putByte a (v.setWidth 8)) (a + 1) n (v >>> 8)

/-- Does the word decode only where HAS_M is true? -/
def needsM (code : BitVec 32) : Bool :=
  match decode false code with
  | .failure .multiplyDivideAbsent => true
  | _ => false

/-- The word's bytes at `pc`, the page of the word after it mapped (Fetch of the same cycle reads there), HAS_M set if
the word needs it, `pc` past the word, and the word's record in slot E, or in slot D if it does not decode. -/
def placeWord (s : State) (code : BitVec 32) : State :=
  let f : Fetched := { code := code, pc := s.pc }
  let next := s.pc + BitVec.ofNat 64 f.len
  let cfg := { s.cfg with hasM := s.cfg.hasM || needsM code }
  let s1 := { s with
    mem := (placeBytes s.mem s.pc 4 (code.setWidth 64)).mapPage next
    cfg := cfg
    pc := next }
  match decode cfg.hasM code with
  | .instr i => { s1 with slotD := none, slotE := some (Record.decoded f i) }
  | .failure _ => { s1 with slotD := some f, slotE := none }

end Sys2Proof.Machine
end

