-- ==== Sys2Proof/Machine/Step.lean ====
section
/-! DEFINITION. The step of the machine: one call of `step_cycle` (spec/50_pipeline.md rule R320). -/

namespace Sys2Proof.Machine

/-- Is the state's configuration one of this hardware (R22, R224)? -/
abbrev State.ConfigOk (s : State) : Prop := (∀ l ∈ s.levels, l.cfg.Ok) ∧ s.cfg.sysnum.Injective

/-- Execute (R331): nothing for an empty slot E, else the instruction of its record. -/
def execute (s : State) : Host.Outcome State Fault Refusal :=
  match s.slotE with
  | none => .next s
  | some r => exec r.op s

/-- The stages that run before Execute (R320): the cycle count, WriteBack, AccessMemory. -/
def beforeExecute (s : State) : State := accessMemory (writeBack s.tick)

/-- `step_cycle()` (R320): a stopped machine does not change; else WriteBack, AccessMemory, Execute, Decode, Fetch, and
a stage after a stop in the same cycle does not run. -/
def step (s : State) : Host.Outcome State Fault Refusal :=
  if s.ConfigOk then
    if s.stopped then .next s
    else if (beforeExecute s).stopped then .next (beforeExecute s)
    else
      match execute (beforeExecute s) with
      | .next s1 => .next (finishCycle s1)
      | .fault f => .fault f
      | .refused r => .refused r
  else .refused .badConfiguration

/-- The state with an instruction word placed so that the very next step executes it: one step runs five stages, and
the instruction it executes is the one whose record stands in slot E, so the word's bytes go to memory at `pc`, its
record goes to slot E (to slot D if it does not decode, so that the step's Decode meets it) and `pc` moves past it
(log entry 14). -/
def State.withFetchWord (s : State) (nbits w : Nat) : State := placeWord s (BitVec.ofNat 32 (w % 2 ^ nbits))

end Sys2Proof.Machine
end

