-- ==== Sys2Proof/Machine/Driver.lean ====
section
/-! DEFINITION. The driver interface (spec/60_exceptions.md rules R370 to R373); its fourth operation, `step_cycle`, is
`step`. -/

namespace Sys2Proof.Machine

/-- `is_exit()` (R371). -/
def State.isExit (s : State) : Bool := s.exit

/-- `next_instruction_pc()`: the address of the record in slot E (R373). -/
def State.nextInstructionPc (s : State) : Option Word := s.slotE.map Record.pc

/-- What `dump_state()` shows (R372). -/
structure Dump where
  pc : Word
  regs : Vector Word 32
  heapPtr : Word
  counters : Counters
  levels : List StorageStats
  backing : StorageStats
  deriving DecidableEq, Repr

/-- `dump_state()`: a pure observation; results still in slots M and W are not in it (R372). -/
def State.dumpState (s : State) : Dump :=
  { pc := s.pc
    regs := Vector.ofFn (fun i : Fin 32 => s.reg (BitVec.ofFin i))
    heapPtr := s.heapPtr
    counters := s.counters
    levels := s.levels.map CacheLevel.stats
    backing := s.backing.stats }

/-- The total simulated time a front end would report (R25). -/
def Counters.totalTime (c : Counters) : Nat := c.cycles + c.controlStalls + c.loadUseStalls + c.memDelayCycles

/-- `hits` of a level: the accesses that were no misses (R67). -/
def StorageStats.hits (t : StorageStats) : Nat := t.accessCount - t.missCount

end Sys2Proof.Machine
end

