-- ==== Sys2Proof/Machine/Sequential.lean ====
section
/-! DEFINITION. The plain sequential interpreter the pipeline is compared with (spec/50_pipeline.md rule R343): one
instruction at a time, no slots, no forwarding, no cache. It dispatches on the operation kind of R16 and takes its
operands from the record fields of R15, where Dispatch.lean dispatches on the instruction. -/

namespace Sys2Proof

/-! ## The 32-bit equivalent of a compressed instruction -/

/-- The column "exp." of R111: the 32-bit instruction whose record a compressed one decodes to (R250); none for C.MV,
which has no 32-bit twin, and for the instructions that are not compressed. -/
def Instr.expansion : Instr → Option Instr
  | .cAddi4spn rdp imm => some (.addi (cReg rdp) 2 (imm.setWidth 12))
  | .cLw rdp rs1p imm => some (.lw (cReg rdp) (cReg rs1p) (imm.setWidth 12))
  | .cLd rdp rs1p imm => some (.ld (cReg rdp) (cReg rs1p) (imm.setWidth 12))
  | .cSw rs1p rs2p imm => some (.sw (cReg rs1p) (cReg rs2p) (imm.setWidth 12))
  | .cSd rs1p rs2p imm => some (.sd (cReg rs1p) (cReg rs2p) (imm.setWidth 12))
  | .cNop imm => some (.addi 0 0 (imm.signExtend 12))
  | .cAddi rd imm => some (.addi rd rd (imm.signExtend 12))
  | .cAddiw rd imm => some (.addiw rd rd (imm.signExtend 12))
  | .cLi rd imm => some (.addi rd 0 (imm.signExtend 12))
  | .cAddi16sp imm => some (.addi 2 2 (imm.signExtend 12))
  | .cLui rd imm => some (.lui rd ((slice imm 12 6).signExtend 20))
  | .cSrli rdp shamt => some (.srli (cReg rdp) (cReg rdp) shamt)
  | .cSrai rdp shamt => some (.srai (cReg rdp) (cReg rdp) shamt)
  | .cAndi rdp imm => some (.andi (cReg rdp) (cReg rdp) (imm.signExtend 12))
  | .cSub rdp rs2p => some (.sub (cReg rdp) (cReg rdp) (cReg rs2p))
  | .cXor rdp rs2p => some (.xor (cReg rdp) (cReg rdp) (cReg rs2p))
  | .cOr rdp rs2p => some (.or (cReg rdp) (cReg rdp) (cReg rs2p))
  | .cAnd rdp rs2p => some (.and (cReg rdp) (cReg rdp) (cReg rs2p))
  | .cSubw rdp rs2p => some (.subw (cReg rdp) (cReg rdp) (cReg rs2p))
  | .cAddw rdp rs2p => some (.addw (cReg rdp) (cReg rdp) (cReg rs2p))
  | .cJ imm => some (.jal 0 (imm.signExtend 21))
  | .cBeqz rs1p imm => some (.beq (cReg rs1p) 0 (imm.signExtend 13))
  | .cBnez rs1p imm => some (.bne (cReg rs1p) 0 (imm.signExtend 13))
  | .cSlli rd shamt => some (.slli rd rd shamt)
  | .cJr rs1 => some (.jalr 0 rs1 0)
  | .cAdd rd rs2 => some (.add rd rd rs2)
  | .cJalr rs1 => some (.jalr 1 rs1 0)
  | .cLwsp rd imm => some (.lw rd 2 (imm.setWidth 12))
  | .cLdsp rd imm => some (.ld rd 2 (imm.setWidth 12))
  | .cSwsp rs2 imm => some (.sw 2 rs2 (imm.setWidth 12))
  | .cSdsp rs2 imm => some (.sd 2 rs2 (imm.setWidth 12))
  | .cMv .. => none
  | .lui .. | .auipc .. | .jal .. | .jalr .. | .beq .. | .bne .. | .blt .. | .bge .. | .bltu .. | .bgeu ..
  | .lb .. | .lh .. | .lw .. | .ld .. | .lbu .. | .lhu .. | .lwu .. | .sb .. | .sh .. | .sw .. | .sd ..
  | .addi .. | .slti .. | .sltiu .. | .xori .. | .ori .. | .andi .. | .slli .. | .srli .. | .srai ..
  | .add .. | .sub .. | .sll .. | .slt .. | .sltu .. | .xor .. | .srl .. | .sra .. | .or .. | .and ..
  | .addiw .. | .slliw .. | .srliw .. | .sraiw .. | .addw .. | .subw .. | .sllw .. | .srlw .. | .sraw ..
  | .ecall
  | .mul .. | .mulh .. | .mulhsu .. | .mulhu .. | .div .. | .divu .. | .rem .. | .remu ..
  | .mulw .. | .divw .. | .divuw .. | .remw .. | .remuw .. => none

/-! ## What a kind reads, and what it computes -/

/-- `reads(I)` by kind (R332). -/
def Instr.readSet (i : Instr) : List Reg :=
  match i.kind with
  | .lui | .auipc | .jal => []
  | .ecall => [17, 10]
  | .mv => [i.rs2]
  | .jalr | .lb | .lh | .lw | .ld | .lbu | .lhu | .lwu
  | .addi | .slti | .sltiu | .xori | .ori | .andi | .slli | .srli | .srai
  | .addiw | .slliw | .srliw | .sraiw => [i.rs1]
  | .sb | .sh | .sw | .sd | .beq | .bne | .blt | .bge | .bltu | .bgeu
  | .add | .sub | .sll | .slt | .sltu | .xor | .srl | .sra | .or | .and
  | .addw | .subw | .sllw | .srlw | .sraw
  | .mul | .mulh | .mulhsu | .mulhu | .div | .divu | .rem | .remu
  | .mulw | .divw | .divuw | .remw | .remuw => [i.rs1, i.rs2]

end Sys2Proof

namespace Sys2Proof.Machine

/-- `f_kind` (R331): what a computing kind writes, from its two register operands, its immediate and its address; none
for the kinds that do something else (files 40 and 45 of the spec). -/
def kindValue (k : Kind) (a b imm pc : Word) : Option Word :=
  match k with
  | .lui => some imm
  | .auipc => some (pc + imm)
  | .addi => some (addVal a imm)
  | .slti => some (sltVal a imm)
  | .sltiu => some (sltuVal a imm)
  | .xori => some (xorVal a imm)
  | .ori => some (orVal a imm)
  | .andi => some (andVal a imm)
  | .slli => some (sllVal a imm)
  | .srli => some (srlVal a imm)
  | .srai => some (sraVal a imm)
  | .addiw => some (addwVal a imm)
  | .slliw => some (sllwVal a imm)
  | .srliw => some (srlwVal a imm)
  | .sraiw => some (srawVal a imm)
  | .add => some (addVal a b)
  | .sub => some (subVal a b)
  | .sll => some (sllVal a b)
  | .slt => some (sltVal a b)
  | .sltu => some (sltuVal a b)
  | .xor => some (xorVal a b)
  | .srl => some (srlVal a b)
  | .sra => some (sraVal a b)
  | .or => some (orVal a b)
  | .and => some (andVal a b)
  | .addw => some (addwVal a b)
  | .subw => some (subwVal a b)
  | .sllw => some (sllwVal a b)
  | .srlw => some (srlwVal a b)
  | .sraw => some (srawVal a b)
  | .mv => some b
  | .mul => some (mulVal a b)
  | .mulh => some (mulhVal a b)
  | .mulhsu => some (mulhsuVal a b)
  | .mulhu => some (mulhuVal a b)
  | .div => some (divSigned a b)
  | .divu => some (divUnsigned a b)
  | .rem => some (remSigned a b)
  | .remu => some (remUnsigned a b)
  | .mulw => some (mulwVal a b)
  | .divw => some (divwVal a b)
  | .divuw => some (divuwVal a b)
  | .remw => some (remwVal a b)
  | .remuw => some (remuwVal a b)
  | .jal | .jalr | .beq | .bne | .blt | .bge | .bltu | .bgeu
  | .lb | .lh | .lw | .ld | .lbu | .lhu | .lwu | .sb | .sh | .sw | .sd | .ecall => none

/-- The condition of a branch kind; none for the other kinds (R185 to R190). -/
def kindCond (k : Kind) (a b : Word) : Option Bool :=
  match k with
  | .beq => some (condEq a b)
  | .bne => some (condNe a b)
  | .blt => some (condLt a b)
  | .bge => some (condGe a b)
  | .bltu => some (condLtu a b)
  | .bgeu => some (condGeu a b)
  | _ => none

/-! ## The interpreter -/

/-- What a sequential interpreter keeps: the registers, the address space, the heap pointer and the two queues of the
host. -/
structure Arch where
  regs : Vector Word 32
  mem : Memory
  heapPtr : Word
  input : List HostAnswer
  reads : Nat
  output : List HostEvent
  deriving DecidableEq, Repr

def Arch.reg (a : Arch) (i : Reg) : Word := if i = 0 then 0 else a.regs[i.toNat]'(i.isLt)

def Arch.setReg (a : Arch) (i : Reg) (v : Word) : Arch :=
  if i = 0 then a else { a with regs := a.regs.set i.toNat v i.isLt }

/-- A service that takes an answer of the host and gives it back in a7 (R223). -/
def Arch.readWord (a : Arch) : Arch :=
  ({ a with input := a.input.tail, reads := a.reads + 1 }).setReg 17 (answerWord a.input a.reads)

/-- The services of ECALL in the interpreter; none where the call ends the run (R225 to R239). -/
def seqService (v : Service) (arg : Word) (a : Arch) : Option Arch :=
  match v with
  | .exit => none
  | .printChar => some { a with output := a.output ++ [.printChar arg] }
  | .printInt => some { a with output := a.output ++ [.printInt arg] }
  | .printLong => some { a with output := a.output ++ [.printLong arg] }
  | .seedRandom => some { a with output := a.output ++ [.seedRandom arg] }
  | .printString =>
    match scanString a.mem (scanBound a.mem) arg with
    | .text t => some { a with output := a.output ++ [.printString t] }
    | .failed _ => none
    | .endless => none
  | .readChar => some a.readWord
  | .readInt => some a.readWord
  | .readLong => some a.readWord
  | .random => some a.readWord
  | .wallClockTime => some a.readWord
  | .readString =>
    some { a with
      mem := a.mem.putString arg (answerBytes a.input a.reads), input := a.input.tail, reads := a.reads + 1 }
  | .heapAllocate =>
    match allocatePages ((roundToPages arg).toNat / pageSize) a.heapPtr a.mem with
    | (_, some _) => none
    | (m, none) => some ({ a with mem := m, heapPtr := a.heapPtr + roundToPages arg }.setReg 17 a.heapPtr)

/-- One instruction of the interpreter, at address `pc`: the state after it and the address of the next instruction;
none where it ends the run, by a fatal condition or by EXIT. -/
def seqStep (t : SysNum) (i : Instr) (pc : Word) (a : Arch) : Option (Arch × Word) :=
  let next := pc + BitVec.ofNat 64 i.len
  let x := a.reg i.rs1
  let y := a.reg i.rs2
  match kindValue i.kind x y i.imm pc with
  | some v => some (a.setReg i.rd v, next)
  | none =>
    match kindCond i.kind x y with
    | some c => some (a, if c then pc + i.imm else next)
    | none =>
      if i.kind = .jal then some (a.setReg i.rd next, pc + i.imm)
      else if i.kind = .jalr then some (a.setReg i.rd next, (x + i.imm) &&& ~~~1)
      else if i.kind.isLoad then
        match a.mem.read (x + i.imm) (accessWidth i.kind) with
        | .ok v => some (a.setReg i.rd (loadExt i.kind v), next)
        | .error _ => none
      else if i.kind.isStore then
        match a.mem.write (x + i.imm) (accessWidth i.kind) y with
        | .ok m => some ({ a with mem := m }, next)
        | .error _ => none
      else
        match serviceOf t (a.reg 17) with
        | some v => (seqService v (a.reg 10) a).map (fun a' => (a', next))
        | none => none

/-- The interpreter on a list of instructions, from address `pc`. -/
def seqRun (t : SysNum) : List Instr → Word → Arch → Option (Arch × Word)
  | [], pc, a => some (a, pc)
  | i :: is, pc, a =>
    match seqStep t i pc a with
    | some (a', pc') => seqRun t is pc' a'
    | none => none

/-! ## What the pipeline still has to commit -/

/-- The parts of the pipeline's state that the interpreter keeps. -/
def State.arch (s : State) : Arch :=
  { regs := s.regs, mem := s.mem, heapPtr := s.heapPtr, input := s.input, reads := s.reads, output := s.output }

/-- The register write of the record in slot W (R322). -/
def Arch.retire (a : Arch) (w : Record) : Arch := if w.writes then a.setReg w.rd w.wb else a

/-- What the record in slot M still does: its memory access and its register write; none where the access is fatal
(R323 to R326). -/
def Arch.finish (a : Arch) (r : Record) : Option Arch :=
  if r.kind.isLoad then
    match a.mem.read r.addr (accessWidth r.kind) with
    | .ok v => some (a.retire { r with wb := loadExt r.kind v })
    | .error _ => none
  else if r.kind.isStore then
    match a.mem.write r.addr (accessWidth r.kind) (a.reg r.rs2) with
    | .ok m => some ({ a with mem := m }.retire r)
    | .error _ => none
  else some (a.retire r)

/-- The interpreter's state after every instruction that the pipeline has executed: slot W, then slot M, committed
(R343, R404). -/
def State.commit (s : State) : Option Arch :=
  let a := match s.slotW with
    | some w => s.arch.retire w
    | none => s.arch
  match s.slotM with
  | some r => a.finish r
  | none => some a

/-- The address of the next instruction of the executed path: of the record in slot E, else of the word in slot D, else
the fetch pointer (R19). -/
def State.pathPc (s : State) : Word :=
  match s.slotE with
  | some r => r.pc
  | none =>
    match s.slotD with
    | some f => f.pc
    | none => s.pc

end Sys2Proof.Machine
end

