-- ==== Sys2Proof/Safety.lean ====
section
/-! DEFINITION. The terms the statements use: a safe run, the states Execute can leave, and the invariants of the
machine. -/

namespace Sys2Proof.Machine

/-! ## Safe runs -/

/-- A state no fatal condition has stopped (R21, R360). -/
def State.Safe (s : State) : Prop := s.fatal = none

/-- The instructions that are executed in the next `n` cycles, in order: those that stand in slot E when a cycle
starts (R320, R373). -/
def executedPath : Nat → State → List Instr
  | 0, _ => []
  | n + 1, s =>
    match step s with
    | .next t =>
      match s.slotE with
      | some r => r.op :: executedPath n t
      | none => executedPath n t
    | _ => []

/-! ## One byte of memory -/

/-- What a read of the one byte at an address gives: none where its page is not mapped (R43). -/
def Memory.peek (m : Memory) (a : Word) : Option Byte := if m.mapped a then some (m.byte a) else none

/-- `m'` is `m` after the low `n` bytes of `v` have been stored from `a` upward, the least significant byte at the lowest
address: the stored bytes, then every other byte as it was, but for those of a page that the store has just mapped,
which are zero (R42, R44). -/
def StoredBytes (m m' : Memory) (a : Word) (n : Nat) (v : Word) : Prop :=
  (∀ b, (b - a).toNat < n → m'.peek b = some (slice v (8 * (b - a).toNat) 8)) ∧
  (∀ b, ¬ (b - a).toNat < n →
    m'.peek b = if m.mapped b = false ∧ pageOf b = pageOf a then some 0 else m.peek b)

/-- `v` is the number whose `n` bytes stand from `a` upward, the least significant one at the lowest address (R42,
R43). -/
def LoadedNumber (m : Memory) (a : Word) (n v : Nat) : Prop :=
  v < 2 ^ (8 * n) ∧ ∀ k < n, v / 2 ^ (8 * k) % 256 = (m.byte (a + BitVec.ofNat 64 k)).toNat

/-! ## What Decode makes of a word -/

/-- The word decodes, HAS_M or not, to the instruction, with this destination index and writes-register flag. -/
def DecodesTo (code : BitVec 32) (i : Instr) (rd : Reg) (writes : Bool) : Prop :=
  (∀ hasM, decode hasM code = .instr i) ∧ i.rd = rd ∧ i.writes = writes

/-- The word is a decode failure. -/
def Undecodable (hasM : Bool) (code : BitVec 32) : Prop := ∃ why, decode hasM code = .failure why

/-- The word decodes to the instruction where HAS_M is true and is a decode failure where it is false (R300). -/
def DecodesWithM (code : BitVec 32) (i : Instr) (rd : Reg) : Prop :=
  decode true code = .instr i ∧ Undecodable false code ∧ i.rd = rd ∧ i.writes = true

/-- The register a three-bit field names: x8 to x15 (R110, R251). -/
def primed (field : CReg) : Reg := 8 + field.setWidth 5

/-! ## What Execute leaves behind (R331 to R334) -/

/-- Slot E holds the record `r` of the instruction `i`. -/
def State.Holds (s : State) (i : Instr) (r : Record) : Prop := s.slotE = some r ∧ r.op = i

/-- What load-use detection adds to its counter, for an instruction that reads these registers (R332). -/
def State.stallsOn (s : State) (reads : List Reg) : Nat :=
  match s.slotW with
  | some w => if w.kind.isLoad = true ∧ w.writes = true ∧ w.rd ≠ 0 ∧ w.rd ∈ reads then 1 else 0
  | none => 0

/-- The record has moved from slot E to slot M, and load-use detection has counted; nothing else has changed. -/
def State.moved (s : State) (r : Record) (reads : List Reg) : State :=
  { s with
    slotE := none
    slotM := some r
    counters := { s.counters with loadUseStalls := s.counters.loadUseStalls + s.stallsOn reads } }

/-- The fetch pointer is redirected, slot D is empty and one control stall is counted; nothing else has changed
(R333). -/
def State.redirected (s : State) (target : Word) : State :=
  { s with
    pc := target
    slotD := none
    counters := { s.counters with controlStalls := s.counters.controlStalls + 1 } }

/-- The instruction stops in Execute with a fatal condition: only `fatal` and the load-use counter change. -/
def State.stuck (s : State) (k : FatalKind) (reads : List Reg) : State :=
  { s with
    fatal := some k
    counters := { s.counters with loadUseStalls := s.counters.loadUseStalls + s.stallsOn reads } }

/-- In Execute the instruction computes a value for its destination register and does nothing else (R130). -/
def Computes (i : Instr) (reads : List Reg) (value : State → Record → Word) : Prop :=
  ∀ s r, s.Holds i r → exec i s = .next (s.moved { r with wb := value s r } reads)

/-- In Execute the instruction computes an effective address and does nothing else (R200). -/
def Addresses (i : Instr) (reads : List Reg) (addr : State → Word) : Prop :=
  ∀ s r, s.Holds i r → exec i s = .next (s.moved { r with addr := addr s } reads)

/-- In Execute the instruction jumps: the link value is its address plus `len` (R181). -/
def Jumps (i : Instr) (reads : List Reg) (len : Word) (target : State → Record → Word) : Prop :=
  ∀ s r, s.Holds i r →
    exec i s = .next ((s.moved { r with wb := r.pc + len } reads).redirected (target s r))

/-- In Execute the instruction branches if `taken` holds and does nothing else otherwise (R184). -/
def Branches (i : Instr) (reads : List Reg) (taken : State → Prop) (offset : Word) : Prop :=
  ∀ s r, s.Holds i r →
    (taken s → exec i s = .next ((s.moved r reads).redirected (r.pc + offset))) ∧
    (¬ taken s → exec i s = .next (s.moved r reads))

/-! ## What AccessMemory does for a load and a store (R201, R202) -/

/-- In AccessMemory the instruction loads `n` bytes from the record's address, extended by `ext`: the Access comes
first, a page crossing is checked before the mapping, and nothing else changes. -/
def LoadsFromMemory (i : Instr) (n : Nat) (ext : Nat → Word) : Prop :=
  ∀ s r, s.slotM = some r → r.op = i →
    (offOf r.addr + n > pageSize →
      accessMemory s = { s.access r.addr n true with fatal := some .pageCross }) ∧
    (offOf r.addr + n ≤ pageSize → s.mem.mapped r.addr = false →
      accessMemory s = { s.access r.addr n true with fatal := some .unmappedRead }) ∧
    (offOf r.addr + n ≤ pageSize → s.mem.mapped r.addr = true →
      ∃ v, LoadedNumber s.mem r.addr n v ∧
        accessMemory s = { s.access r.addr n true with slotM := none, slotW := some { r with wb := ext v } })

/-- In AccessMemory the instruction stores the low `n` bytes of a register, as the register file holds it, at the
record's address: the Access comes first, a crossing store changes no memory, and nothing else changes. -/
def StoresToMemory (i : Instr) (rs2 : Reg) (n : Nat) : Prop :=
  ∀ s r, s.mem.wf → s.slotM = some r → r.op = i →
    (offOf r.addr + n > pageSize →
      accessMemory s = { s.access r.addr n false with fatal := some .pageCross }) ∧
    (offOf r.addr + n ≤ pageSize →
      ∃ m, StoredBytes s.mem m r.addr n (s.reg rs2) ∧
        accessMemory s = { s.access r.addr n false with mem := m, slotM := none, slotW := some r })

/-! ## The cache left out of sight (R27) -/

/-- The state with every storage level, and the latency the pipeline has summed, put to one fixed value. -/
def State.eraseCache (s : State) : State :=
  { s with
    levels := []
    backing := Backing.launch BackingConfig.default
    counters := { s.counters with memDelayCycles := 0 } }

/-- Two outcomes that differ in nothing but the cache. -/
def SameButCache : Host.Outcome State Fault Refusal → Host.Outcome State Fault Refusal → Prop
  | .next s, .next t => s.eraseCache = t.eraseCache
  | .fault f, .fault g => f = g
  | .refused f, .refused g => f = g
  | _, _ => False

/-! ## Invariants -/

/-- The memory has its canonical form. -/
def State.MemoryOk (s : State) : Prop := s.mem.wf

/-- The register file's cell of x0 holds zero (R11), and the heap pointer is a multiple of the page size (R14). -/
def State.RegistersOk (s : State) : Prop := s.regs[0] = 0 ∧ s.heapPtr.toNat % pageSize = 0

/-- A record that Decode made of its own code word (R336). -/
def Record.Fresh (hasM : Bool) (r : Record) : Prop :=
  decode hasM r.code = .instr r.op ∧ r = Record.decoded { code := r.code, pc := r.pc } r.op

/-- A record that Execute has made of such a record: only `wb` and `addr` differ, and, for an ECALL with a result, the
destination (R15, R223). -/
def Record.Executed (hasM : Bool) (r : Record) : Prop :=
  decode hasM r.code = .instr r.op ∧
  ((r.rd = r.op.rd ∧ r.writes = r.op.writes) ∨ (r.op = .ecall ∧ r.rd = 17 ∧ r.writes = true))

/-- Each slot holds what R18 says it holds. -/
def State.SlotsOk (s : State) : Prop :=
  (∀ r, s.slotE = some r → r.Fresh s.cfg.hasM) ∧
  (∀ r, s.slotM = some r → r.Executed s.cfg.hasM) ∧
  (∀ r, s.slotW = some r → r.Executed s.cfg.hasM)

/-- Slot E, slot D and the fetch pointer stand at consecutive words of the path (R19). -/
def State.PathOk (s : State) : Prop :=
  (∀ f, s.slotD = some f → s.pc = f.pc + BitVec.ofNat 64 f.len) ∧
  (∀ r f, s.slotE = some r → s.slotD = some f → f.pc = r.pc + BitVec.ofNat 64 r.len) ∧
  (∀ r, s.slotE = some r → s.slotD = none → s.pc = r.pc + BitVec.ofNat 64 r.len)

/-- The fetch pointer and the addresses of slots D and E are even (R13, R180). -/
def State.EvenOk (s : State) : Prop :=
  s.pc.toNat % 2 = 0 ∧ (∀ f, s.slotD = some f → f.pc.toNat % 2 = 0) ∧ (∀ r, s.slotE = some r → r.pc.toNat % 2 = 0)

/-- What holds of a cache level at all times: its table is in canonical form with ways of the right number (R23); a
stamp is at most the sequence number (R63); a tag has the tag's width (R23); a write-through level has no dirty block
(R72); no two valid ways of a set have one tag (R71); no two valid blocks of the level have one stamp (R63); and the
statistics agree (R63, R67). -/
def CacheLevel.Ok (l : CacheLevel) : Prop :=
  sparseWf (List.replicate l.cfg.associativity Block.invalid) l.sets ∧
  (∀ e ∈ l.sets, e.1 < l.cfg.setCount ∧ e.2.length = l.cfg.associativity) ∧
  (∀ (j k : Nat) (b : Block), (l.ways j)[k]? = some b → b.valid = true →
    b.ctr ≤ l.seq ∧ b.tag < 2 ^ (64 - l.cfg.offsetBits - l.cfg.indexBits)) ∧
  (∀ (j k : Nat) (b : Block), (l.ways j)[k]? = some b → l.cfg.writeThrough = true → b.dirty = false) ∧
  (∀ (j k k' : Nat) (b b' : Block), (l.ways j)[k]? = some b → (l.ways j)[k']? = some b' →
    b.valid = true → b'.valid = true → b.tag = b'.tag → k = k') ∧
  (∀ (j j' k k' : Nat) (b b' : Block), (l.ways j)[k]? = some b → (l.ways j')[k']? = some b' →
    b.valid = true → b'.valid = true → b.ctr = b'.ctr → j = j' ∧ k = k') ∧
  l.seq = l.stats.accessCount ∧ l.stats.missCount ≤ l.stats.accessCount

/-- What holds of the storage levels at all times. -/
def State.LevelsOk (s : State) : Prop := ∀ l ∈ s.levels, l.Ok

/-- The invariant of the machine. -/
structure State.Inv (s : State) : Prop where
  memory : s.MemoryOk
  registers : s.RegistersOk
  slots : s.SlotsOk
  path : s.PathOk
  even : s.EvenOk
  levels : s.LevelsOk

/-- The sum of the latency statistics of all storage levels (R73). -/
def State.totalLatency (s : State) : Nat :=
  (s.levels.map (fun l => l.stats.latencyTotal)).sum + s.backing.stats.latencyTotal

/-- A lower storage level that answers a request with a latency of its choice and keeps the requests it has seen: with
it a statement says which requests a cache level sends down, in which order. -/
def recorder (latency : Request → Nat) (log : List Request) (q : Request) : List Request × Reply :=
  (log ++ [q], { hit := true, latency := latency q })

end Sys2Proof.Machine
end

