-- ==== Sys2Proof/Certificates/Slice0/Obligations.lean ====
section
/-! DEFINITION. The statements for the provers, one def Obligations.<Name> : Prop each; OBLIGATIONS.json lists them. A
statement with basis 'stated' formalises the rules of spec/ its docstring names. -/

open Sys2Proof Sys2Proof.Machine

/-! ## Decoding and encoding -/

/-- O1 (R90, R91, R92, R93, R94, R100, R101, R102, R110, R111, R112). Decoding an encoded instruction gives it back.
Derived. -/
def Obligations.EncodeThenDecode : Prop :=
  ∀ (i : Instr) (hasM : Bool) (code : BitVec 32), i.wf = true → (i.isM = true → hasM = true) →
    (i.len = 4 → code = encode i) → (i.len = 2 → slice code 0 16 = slice (encode i) 0 16) →
    codeLen code = i.len ∧ decode hasM code = .instr i

/-- O2 (R90, R91, R92, R93, R94, R100, R101, R102, R110, R111, R112). A code word that decodes is the encoding of
what it decodes to. Derived. -/
def Obligations.DecodeThenEncode : Prop :=
  ∀ (hasM : Bool) (code : BitVec 32) (i : Instr), decode hasM code = .instr i →
    i.wf = true ∧ (i.isM = true → hasM = true) ∧ i.len = codeLen code ∧
    (i.len = 4 → encode i = code) ∧ (i.len = 2 → slice (encode i) 0 16 = slice code 0 16)

/-- O3 (R107, R93, R94, R100, R101, R102, R103, R110, R111, R112). The worked decode of the spec, and words of every
major opcode and compressed format written out field by field. Derived. -/
def Obligations.WrittenWordsDecode : Prop :=
  (decode false 0x00A00293 = .instr (.addi 5 0 10) ∧ (Instr.addi 5 0 10).kind = .addi ∧
    (Instr.addi 5 0 10).format = .I ∧ (Instr.addi 5 0 10).imm = 10 ∧ (Instr.addi 5 0 10).writes = true) ∧
  decode false (0b10000000000000000000#20 ++ 0b00101#5 ++ 0b0110111#7) = .instr (.lui 5 0x80000) ∧
  decode false (0b1111111#7 ++ 0b00110#5 ++ 0b00101#5 ++ 0b001#3 ++ 0b11001#5 ++ 0b1100011#7) =
    .instr (.bne 5 6 0x1FF8) ∧
  decode false (0b0#1 ++ 0b0000000100#10 ++ 0b0#1 ++ 0b00000000#8 ++ 0b00001#5 ++ 0b1101111#7) = .instr (.jal 1 8) ∧
  decode false (0b1111111#7 ++ 0b00111#5 ++ 0b00110#5 ++ 0b010#3 ++ 0b11000#5 ++ 0b0100011#7) =
    .instr (.sw 6 7 0xFF8) ∧
  decode false (0b0100000#7 ++ 0b00110#5 ++ 0b00101#5 ++ 0b000#3 ++ 0b00111#5 ++ 0b0110011#7) = .instr (.sub 7 5 6) ∧
  decode true (0b0000001#7 ++ 0b00110#5 ++ 0b00101#5 ++ 0b100#3 ++ 0b00111#5 ++ 0b0111011#7) = .instr (.divw 7 5 6) ∧
  decode false (0x0000#16 ++ 0b011#3 ++ 0b1#1 ++ 0b00010#5 ++ 0b01110#5 ++ 0b01#2) = .instr (.cAddi16sp 0x3C0) ∧
  decode false (0xFFFF#16 ++ 0b1001#4 ++ 0b01111#5 ++ 0b00000#5 ++ 0b10#2) = .instr (.cJalr 15) ∧
  decode false (0b00000000000000000001#20 ++ 0b00101#5 ++ 0b0010111#7) = .instr (.auipc 5 1) ∧
  decode false (0b000000000100#12 ++ 0b00101#5 ++ 0b000#3 ++ 0b00001#5 ++ 0b1100111#7) = .instr (.jalr 1 5 4) ∧
  decode false (0b111111111000#12 ++ 0b00110#5 ++ 0b011#3 ++ 0b00101#5 ++ 0b0000011#7) = .instr (.ld 5 6 0xFF8) ∧
  decode false (0b010000#6 ++ 0b111111#6 ++ 0b00101#5 ++ 0b101#3 ++ 0b00111#5 ++ 0b0010011#7) =
    .instr (.srai 7 5 63) ∧
  decode false (0b0100000#7 ++ 0b11111#5 ++ 0b00101#5 ++ 0b101#3 ++ 0b00111#5 ++ 0b0011011#7) =
    .instr (.sraiw 7 5 31) ∧
  decode false (0b0000000#7 ++ 0b00110#5 ++ 0b00101#5 ++ 0b000#3 ++ 0b00111#5 ++ 0b0111011#7) =
    .instr (.addw 7 5 6) ∧
  decode true (0b0000001#7 ++ 0b00110#5 ++ 0b00101#5 ++ 0b010#3 ++ 0b00111#5 ++ 0b0110011#7) =
    .instr (.mulhsu 7 5 6) ∧
  decode false (0b000000000000#12 ++ 0b00000#5 ++ 0b000#3 ++ 0b00000#5 ++ 0b1110011#7) = .instr .ecall ∧
  decode false (0x0000#16 ++ 0b000#3 ++ 0b00#2 ++ 0b1011#4 ++ 0b1#1 ++ 0b0#1 ++ 0b001#3 ++ 0b00#2) =
    .instr (.cAddi4spn 1 0x2C4) ∧
  decode false (0x0000#16 ++ 0b010#3 ++ 0b000#3 ++ 0b010#3 ++ 0b1#1 ++ 0b1#1 ++ 0b001#3 ++ 0b00#2) =
    .instr (.cLw 1 2 0x44) ∧
  decode false (0x0000#16 ++ 0b111#3 ++ 0b001#3 ++ 0b010#3 ++ 0b11#2 ++ 0b001#3 ++ 0b00#2) =
    .instr (.cSd 2 1 0xC8) ∧
  decode false (0x0000#16 ++ 0b100011#6 ++ 0b001#3 ++ 0b00#2 ++ 0b010#3 ++ 0b01#2) = .instr (.cSub 1 2) ∧
  decode false (0x0000#16 ++ 0b110#3 ++ 0b111#3 ++ 0b001#3 ++ 0b11#2 ++ 0b11#2 ++ 0b1#1 ++ 0b01#2) =
    .instr (.cBeqz 1 0x1FE) ∧
  decode false (0x0000#16 ++ 0b101#3 ++ 0b0000000#7 ++ 0b001#3 ++ 0b0#1 ++ 0b01#2) = .instr (.cJ 0x2) ∧
  decode false (0x0000#16 ++ 0b111#3 ++ 0b001#3 ++ 0b100#3 ++ 0b01000#5 ++ 0b10#2) = .instr (.cSdsp 8 0x108)

/-- O4 (R103). ECALL is the only SYSTEM word. -/
def Obligations.SystemWords : Prop :=
  ∀ (hasM : Bool) (code : BitVec 32), slice code 0 7 = 0b1110011#7 →
    (code = 0x00000073 → decode hasM code = .instr .ecall) ∧
    (code ≠ 0x00000073 → Undecodable hasM code) ∧
    Instr.ecall.kind = .ecall ∧ Instr.ecall.format = .I ∧ Instr.ecall.rd = 0 ∧ Instr.ecall.rs1 = 0 ∧
    Instr.ecall.rs2 = 0 ∧ Instr.ecall.imm = 0 ∧ Instr.ecall.writes = false

/-- O5 (R104). The 32-bit encodings that are decode failures. -/
def Obligations.FullWordsThatFail : Prop :=
  (∀ (hasM : Bool) (code : BitVec 32), slice code 0 2 = 0b11#2 →
    (slice code 0 7 ∉ [0x37#7, 0x17#7, 0x6F#7, 0x67#7, 0x63#7, 0x03#7, 0x23#7, 0x13#7, 0x1B#7, 0x33#7, 0x3B#7, 0x73#7] ∨
     slice code 0 7 = 0x73#7 ∧ code ≠ 0x00000073 ∨
     slice code 0 7 = 0x67#7 ∧ slice code 12 3 ≠ 0b000#3 ∨
     slice code 0 7 = 0x63#7 ∧ slice code 12 3 ∈ [0b010#3, 0b011#3] ∨
     slice code 0 7 = 0x03#7 ∧ slice code 12 3 = 0b111#3 ∨
     slice code 0 7 = 0x23#7 ∧ slice code 12 3 ∈ [0b100#3, 0b101#3, 0b110#3, 0b111#3] ∨
     slice code 0 7 = 0x13#7 ∧ slice code 12 3 = 0b001#3 ∧ slice code 26 6 ≠ 0b000000#6 ∨
     slice code 0 7 = 0x13#7 ∧ slice code 12 3 = 0b101#3 ∧ slice code 26 6 ∉ [0b000000#6, 0b010000#6] ∨
     slice code 0 7 = 0x1B#7 ∧ slice code 12 3 ∉ [0b000#3, 0b001#3, 0b101#3] ∨
     slice code 0 7 = 0x1B#7 ∧ slice code 12 3 = 0b001#3 ∧ slice code 25 7 ≠ 0b0000000#7 ∨
     slice code 0 7 = 0x1B#7 ∧ slice code 12 3 = 0b101#3 ∧ slice code 25 7 ∉ [0b0000000#7, 0b0100000#7] ∨
     slice code 0 7 ∈ [0x33#7, 0x3B#7] ∧ slice code 25 7 ∉ [0b0000000#7, 0b0100000#7, 0b0000001#7] ∨
     slice code 0 7 ∈ [0x33#7, 0x3B#7] ∧ slice code 25 7 = 0b0100000#7 ∧ slice code 12 3 ∉ [0b000#3, 0b101#3] ∨
     slice code 0 7 = 0x3B#7 ∧ slice code 25 7 = 0b0000000#7 ∧ slice code 12 3 ∉ [0b000#3, 0b001#3, 0b101#3] ∨
     slice code 0 7 = 0x3B#7 ∧ slice code 25 7 = 0b0000001#7 ∧ slice code 12 3 ∈ [0b001#3, 0b010#3, 0b011#3] ∨
     slice code 0 7 ∈ [0x33#7, 0x3B#7] ∧ slice code 25 7 = 0b0000001#7 ∧ hasM = false) →
    Undecodable hasM code) ∧
  (∀ (hasM : Bool) (code : BitVec 32),
    (slice code 0 2 = 0b00#2 ∧ slice code 13 3 ∈ [0b001#3, 0b100#3, 0b101#3] ∨
     slice code 0 2 = 0b10#2 ∧ slice code 13 3 ∈ [0b001#3, 0b101#3] ∨
     slice code 0 16 = 0x0000#16 ∨ slice code 0 16 = 0x9002#16 ∨ code = 0xFFFFFFFF) →
    Undecodable hasM code) ∧
  (∀ s f, s.slotD = some f → Undecodable s.cfg.hasM f.code →
    decodeStage s = { s with fatal := some .decodeFailure })

/-- O6 (R114). The compressed encodings that are decode failures. -/
def Obligations.CompressedWordsThatFail : Prop :=
  ∀ (hasM : Bool) (code : BitVec 32),
    (slice code 0 2 = 0b00#2 →
      (slice code 13 3 = 0b000#3 → slice code 5 8 = 0 → Undecodable hasM code) ∧
      (slice code 13 3 = 0b001#3 → Undecodable hasM code) ∧
      (slice code 13 3 = 0b100#3 → Undecodable hasM code) ∧
      (slice code 13 3 = 0b101#3 → Undecodable hasM code)) ∧
    (slice code 0 2 = 0b01#2 →
      (slice code 13 3 = 0b001#3 → slice code 7 5 = 0 → Undecodable hasM code) ∧
      (slice code 13 3 = 0b011#3 → slice code 12 1 = 0 → slice code 2 5 = 0 → Undecodable hasM code) ∧
      (slice code 10 6 = 0b100111#6 → slice code 5 2 ∈ [0b10#2, 0b11#2] → Undecodable hasM code) ∧
      (slice code 13 3 = 0b001#3 → slice code 7 5 ≠ 0 →
        ∃ imm, decode hasM code = .instr (.cAddiw (slice code 7 5) imm))) ∧
    (slice code 0 2 = 0b10#2 →
      (slice code 13 3 = 0b001#3 → Undecodable hasM code) ∧
      (slice code 13 3 = 0b010#3 → slice code 7 5 = 0 → Undecodable hasM code) ∧
      (slice code 13 3 = 0b011#3 → slice code 7 5 = 0 → Undecodable hasM code) ∧
      (slice code 12 4 = 0b1000#4 → slice code 2 5 = 0 → slice code 7 5 = 0 → Undecodable hasM code) ∧
      (slice code 12 4 = 0b1001#4 → slice code 2 5 = 0 → slice code 7 5 = 0 → Undecodable hasM code) ∧
      (slice code 13 3 = 0b101#3 → Undecodable hasM code))

/-- O7 (R106). Which instructions write a register, and what a record with destination 0 does. -/
def Obligations.WritesFlag : Prop :=
  (∀ (s : State) (f : Fetched) (i : Instr), s.slotD = some f → decode s.cfg.hasM f.code = .instr i →
    ∃ r, (decodeStage s).slotE = some r ∧
      (r.writes = true ↔ i.kind ∉
        [.sb, .sh, .sw, .sd, .beq, .bne, .blt, .bge, .bltu, .bgeu, .ecall])) ∧
  (∀ (s : State) (w : Record), s.slotW = some w → w.rd = 0 →
    (∀ x, s.fwd x = s.reg x) ∧ (∀ x, (writeBack s).reg x = s.reg x))

/-! ## What each instruction does in Execute, with the word that means it -/

/-- O8 (R132, R133). LUI and AUIPC. -/
def Obligations.UpperImmediates : Prop :=
  ∀ code : BitVec 32,
    let rd := slice code 7 5
    let imm20 := slice code 12 20
    (slice code 0 7 = 0b0110111#7 →
      DecodesTo code (.lui rd imm20) rd true ∧ Computes (.lui rd imm20) []
        (fun _ _ => (imm20 ++ 0#12).signExtend 64)) ∧
    (slice code 0 7 = 0b0010111#7 →
      DecodesTo code (.auipc rd imm20) rd true ∧ Computes (.auipc rd imm20) []
        (fun _ r => r.pc + (imm20 ++ 0#12).signExtend 64))

/-- O9 (R134, R135, R136, R137, R138, R139, R140, R141, R142). The nine instructions of OP-IMM. -/
def Obligations.RegisterImmediate : Prop :=
  ∀ code : BitVec 32, slice code 0 7 = 0b0010011#7 →
    let rd := slice code 7 5
    let rs1 := slice code 15 5
    let imm := slice code 20 12
    let shamt := slice code 20 6
    (slice code 12 3 = 0b000#3 →
      DecodesTo code (.addi rd rs1 imm) rd true ∧ Computes (.addi rd rs1 imm) [rs1]
        (fun s _ => s.fwd rs1 + imm.signExtend 64)) ∧
    (slice code 12 3 = 0b010#3 →
      DecodesTo code (.slti rd rs1 imm) rd true ∧ Computes (.slti rd rs1 imm) [rs1]
        (fun s _ => if (s.fwd rs1).toInt < imm.toInt then 1 else 0)) ∧
    (slice code 12 3 = 0b011#3 →
      DecodesTo code (.sltiu rd rs1 imm) rd true ∧ Computes (.sltiu rd rs1 imm) [rs1]
        (fun s _ => if (s.fwd rs1).toNat < (imm.signExtend 64).toNat then 1 else 0)) ∧
    (slice code 12 3 = 0b100#3 →
      DecodesTo code (.xori rd rs1 imm) rd true ∧ Computes (.xori rd rs1 imm) [rs1]
        (fun s _ => s.fwd rs1 ^^^ imm.signExtend 64)) ∧
    (slice code 12 3 = 0b110#3 →
      DecodesTo code (.ori rd rs1 imm) rd true ∧ Computes (.ori rd rs1 imm) [rs1]
        (fun s _ => s.fwd rs1 ||| imm.signExtend 64)) ∧
    (slice code 12 3 = 0b111#3 →
      DecodesTo code (.andi rd rs1 imm) rd true ∧ Computes (.andi rd rs1 imm) [rs1]
        (fun s _ => s.fwd rs1 &&& imm.signExtend 64)) ∧
    (slice code 12 3 = 0b001#3 → slice code 26 6 = 0b000000#6 →
      DecodesTo code (.slli rd rs1 shamt) rd true ∧ Computes (.slli rd rs1 shamt) [rs1]
        (fun s _ => s.fwd rs1 <<< shamt.toNat)) ∧
    (slice code 12 3 = 0b101#3 → slice code 26 6 = 0b000000#6 →
      DecodesTo code (.srli rd rs1 shamt) rd true ∧ Computes (.srli rd rs1 shamt) [rs1]
        (fun s _ => s.fwd rs1 >>> shamt.toNat)) ∧
    (slice code 12 3 = 0b101#3 → slice code 26 6 = 0b010000#6 →
      DecodesTo code (.srai rd rs1 shamt) rd true ∧ Computes (.srai rd rs1 shamt) [rs1]
        (fun s _ => (s.fwd rs1).sshiftRight shamt.toNat))

/-- O10 (R143, R144, R145, R146, R147, R148, R149, R150, R151, R152). The ten instructions of OP. -/
def Obligations.RegisterRegister : Prop :=
  ∀ code : BitVec 32, slice code 0 7 = 0b0110011#7 →
    let rd := slice code 7 5
    let rs1 := slice code 15 5
    let rs2 := slice code 20 5
    (slice code 25 7 = 0b0000000#7 → slice code 12 3 = 0b000#3 →
      DecodesTo code (.add rd rs1 rs2) rd true ∧ Computes (.add rd rs1 rs2) [rs1, rs2]
        (fun s _ => s.fwd rs1 + s.fwd rs2)) ∧
    (slice code 25 7 = 0b0100000#7 → slice code 12 3 = 0b000#3 →
      DecodesTo code (.sub rd rs1 rs2) rd true ∧ Computes (.sub rd rs1 rs2) [rs1, rs2]
        (fun s _ => s.fwd rs1 - s.fwd rs2)) ∧
    (slice code 25 7 = 0b0000000#7 → slice code 12 3 = 0b001#3 →
      DecodesTo code (.sll rd rs1 rs2) rd true ∧ Computes (.sll rd rs1 rs2) [rs1, rs2]
        (fun s _ => s.fwd rs1 <<< ((s.fwd rs2).toNat % 64))) ∧
    (slice code 25 7 = 0b0000000#7 → slice code 12 3 = 0b010#3 →
      DecodesTo code (.slt rd rs1 rs2) rd true ∧ Computes (.slt rd rs1 rs2) [rs1, rs2]
        (fun s _ => if (s.fwd rs1).toInt < (s.fwd rs2).toInt then 1 else 0)) ∧
    (slice code 25 7 = 0b0000000#7 → slice code 12 3 = 0b011#3 →
      DecodesTo code (.sltu rd rs1 rs2) rd true ∧ Computes (.sltu rd rs1 rs2) [rs1, rs2]
        (fun s _ => if (s.fwd rs1).toNat < (s.fwd rs2).toNat then 1 else 0)) ∧
    (slice code 25 7 = 0b0000000#7 → slice code 12 3 = 0b100#3 →
      DecodesTo code (.xor rd rs1 rs2) rd true ∧ Computes (.xor rd rs1 rs2) [rs1, rs2]
        (fun s _ => s.fwd rs1 ^^^ s.fwd rs2)) ∧
    (slice code 25 7 = 0b0000000#7 → slice code 12 3 = 0b101#3 →
      DecodesTo code (.srl rd rs1 rs2) rd true ∧ Computes (.srl rd rs1 rs2) [rs1, rs2]
        (fun s _ => s.fwd rs1 >>> ((s.fwd rs2).toNat % 64))) ∧
    (slice code 25 7 = 0b0100000#7 → slice code 12 3 = 0b101#3 →
      DecodesTo code (.sra rd rs1 rs2) rd true ∧ Computes (.sra rd rs1 rs2) [rs1, rs2]
        (fun s _ => (s.fwd rs1).sshiftRight ((s.fwd rs2).toNat % 64))) ∧
    (slice code 25 7 = 0b0000000#7 → slice code 12 3 = 0b110#3 →
      DecodesTo code (.or rd rs1 rs2) rd true ∧ Computes (.or rd rs1 rs2) [rs1, rs2]
        (fun s _ => s.fwd rs1 ||| s.fwd rs2)) ∧
    (slice code 25 7 = 0b0000000#7 → slice code 12 3 = 0b111#3 →
      DecodesTo code (.and rd rs1 rs2) rd true ∧ Computes (.and rd rs1 rs2) [rs1, rs2]
        (fun s _ => s.fwd rs1 &&& s.fwd rs2))

/-- O11 (R153, R154, R155, R156, R157, R158, R159, R160, R161). The nine word instructions. -/
def Obligations.WordForms : Prop :=
  (∀ code : BitVec 32, slice code 0 7 = 0b0011011#7 →
    let rd := slice code 7 5
    let rs1 := slice code 15 5
    let imm := slice code 20 12
    let shamt := slice code 20 5
    (slice code 12 3 = 0b000#3 →
      DecodesTo code (.addiw rd rs1 imm) rd true ∧ Computes (.addiw rd rs1 imm) [rs1]
        (fun s _ => (slice (s.fwd rs1 + imm.signExtend 64) 0 32).signExtend 64)) ∧
    (slice code 12 3 = 0b001#3 → slice code 25 7 = 0b0000000#7 →
      DecodesTo code (.slliw rd rs1 shamt) rd true ∧ Computes (.slliw rd rs1 shamt) [rs1]
        (fun s _ => (slice (s.fwd rs1) 0 32 <<< shamt.toNat).signExtend 64)) ∧
    (slice code 12 3 = 0b101#3 → slice code 25 7 = 0b0000000#7 →
      DecodesTo code (.srliw rd rs1 shamt) rd true ∧ Computes (.srliw rd rs1 shamt) [rs1]
        (fun s _ => (slice (s.fwd rs1) 0 32 >>> shamt.toNat).signExtend 64)) ∧
    (slice code 12 3 = 0b101#3 → slice code 25 7 = 0b0100000#7 →
      DecodesTo code (.sraiw rd rs1 shamt) rd true ∧ Computes (.sraiw rd rs1 shamt) [rs1]
        (fun s _ => ((slice (s.fwd rs1) 0 32).sshiftRight shamt.toNat).signExtend 64))) ∧
  (∀ code : BitVec 32, slice code 0 7 = 0b0111011#7 →
    let rd := slice code 7 5
    let rs1 := slice code 15 5
    let rs2 := slice code 20 5
    (slice code 25 7 = 0b0000000#7 → slice code 12 3 = 0b000#3 →
      DecodesTo code (.addw rd rs1 rs2) rd true ∧ Computes (.addw rd rs1 rs2) [rs1, rs2]
        (fun s _ => (slice (s.fwd rs1 + s.fwd rs2) 0 32).signExtend 64)) ∧
    (slice code 25 7 = 0b0100000#7 → slice code 12 3 = 0b000#3 →
      DecodesTo code (.subw rd rs1 rs2) rd true ∧ Computes (.subw rd rs1 rs2) [rs1, rs2]
        (fun s _ => (slice (s.fwd rs1 - s.fwd rs2) 0 32).signExtend 64)) ∧
    (slice code 25 7 = 0b0000000#7 → slice code 12 3 = 0b001#3 →
      DecodesTo code (.sllw rd rs1 rs2) rd true ∧ Computes (.sllw rd rs1 rs2) [rs1, rs2]
        (fun s _ => (slice (s.fwd rs1) 0 32 <<< ((s.fwd rs2).toNat % 32)).signExtend 64)) ∧
    (slice code 25 7 = 0b0000000#7 → slice code 12 3 = 0b101#3 →
      DecodesTo code (.srlw rd rs1 rs2) rd true ∧ Computes (.srlw rd rs1 rs2) [rs1, rs2]
        (fun s _ => (slice (s.fwd rs1) 0 32 >>> ((s.fwd rs2).toNat % 32)).signExtend 64)) ∧
    (slice code 25 7 = 0b0100000#7 → slice code 12 3 = 0b101#3 →
      DecodesTo code (.sraw rd rs1 rs2) rd true ∧ Computes (.sraw rd rs1 rs2) [rs1, rs2]
        (fun s _ => ((slice (s.fwd rs1) 0 32).sshiftRight ((s.fwd rs2).toNat % 32)).signExtend 64)))

/-- O12 (R182, R183). JAL and JALR. -/
def Obligations.JumpInstructions : Prop :=
  ∀ code : BitVec 32,
    let rd := slice code 7 5
    let rs1 := slice code 15 5
    (slice code 0 7 = 0b1101111#7 → ∀ imm : BitVec 21,
      slice imm 20 1 = slice code 31 1 → slice imm 12 8 = slice code 12 8 → slice imm 11 1 = slice code 20 1 →
      slice imm 1 10 = slice code 21 10 → slice imm 0 1 = 0 →
      DecodesTo code (.jal rd imm) rd true ∧
      Jumps (.jal rd imm) [] 4 (fun _ r => r.pc + imm.signExtend 64)) ∧
    (slice code 0 7 = 0b1100111#7 → slice code 12 3 = 0b000#3 →
      let imm := slice code 20 12
      DecodesTo code (.jalr rd rs1 imm) rd true ∧
      Jumps (.jalr rd rs1 imm) [rs1] 4 (fun s _ => (s.fwd rs1 + imm.signExtend 64) &&& ~~~1)) ∧
    (slice code 0 7 = 0b1100111#7 → slice code 12 3 ≠ 0b000#3 → ∀ hasM, Undecodable hasM code)

/-- O13 (R184, R185, R186, R187, R188, R189, R190). The six conditional branches. -/
def Obligations.BranchInstructions : Prop :=
  ∀ (code : BitVec 32) (imm : BitVec 13), slice code 0 7 = 0b1100011#7 →
    slice imm 12 1 = slice code 31 1 → slice imm 11 1 = slice code 7 1 → slice imm 5 6 = slice code 25 6 →
    slice imm 1 4 = slice code 8 4 → slice imm 0 1 = 0 →
    let rs1 := slice code 15 5
    let rs2 := slice code 20 5
    (slice code 12 3 = 0b000#3 →
      DecodesTo code (.beq rs1 rs2 imm) 0 false ∧
      Branches (.beq rs1 rs2 imm) [rs1, rs2] (fun s => s.fwd rs1 = s.fwd rs2) (imm.signExtend 64)) ∧
    (slice code 12 3 = 0b001#3 →
      DecodesTo code (.bne rs1 rs2 imm) 0 false ∧
      Branches (.bne rs1 rs2 imm) [rs1, rs2] (fun s => s.fwd rs1 ≠ s.fwd rs2) (imm.signExtend 64)) ∧
    (slice code 12 3 = 0b100#3 →
      DecodesTo code (.blt rs1 rs2 imm) 0 false ∧
      Branches (.blt rs1 rs2 imm) [rs1, rs2] (fun s => (s.fwd rs1).toInt < (s.fwd rs2).toInt) (imm.signExtend 64)) ∧
    (slice code 12 3 = 0b101#3 →
      DecodesTo code (.bge rs1 rs2 imm) 0 false ∧
      Branches (.bge rs1 rs2 imm) [rs1, rs2] (fun s => (s.fwd rs1).toInt ≥ (s.fwd rs2).toInt) (imm.signExtend 64)) ∧
    (slice code 12 3 = 0b110#3 →
      DecodesTo code (.bltu rs1 rs2 imm) 0 false ∧
      Branches (.bltu rs1 rs2 imm) [rs1, rs2] (fun s => (s.fwd rs1).toNat < (s.fwd rs2).toNat) (imm.signExtend 64)) ∧
    (slice code 12 3 = 0b111#3 →
      DecodesTo code (.bgeu rs1 rs2 imm) 0 false ∧
      Branches (.bgeu rs1 rs2 imm) [rs1, rs2] (fun s => (s.fwd rs1).toNat ≥ (s.fwd rs2).toNat) (imm.signExtend 64)) ∧
    (slice code 12 3 ∈ [0b010#3, 0b011#3] → ∀ hasM, Undecodable hasM code)

/-- O14 (R204, R205, R206, R207, R208, R209, R210). The seven loads, in Execute and in AccessMemory. -/
def Obligations.LoadInstructions : Prop :=
  ∀ code : BitVec 32, slice code 0 7 = 0b0000011#7 →
    let rd := slice code 7 5
    let rs1 := slice code 15 5
    let imm := slice code 20 12
    (slice code 12 3 = 0b000#3 →
      DecodesTo code (.lb rd rs1 imm) rd true ∧
      Addresses (.lb rd rs1 imm) [rs1] (fun s => s.fwd rs1 + imm.signExtend 64) ∧
      LoadsFromMemory (.lb rd rs1 imm) 1 (fun v => (BitVec.ofNat 8 v).signExtend 64)) ∧
    (slice code 12 3 = 0b001#3 →
      DecodesTo code (.lh rd rs1 imm) rd true ∧
      Addresses (.lh rd rs1 imm) [rs1] (fun s => s.fwd rs1 + imm.signExtend 64) ∧
      LoadsFromMemory (.lh rd rs1 imm) 2 (fun v => (BitVec.ofNat 16 v).signExtend 64)) ∧
    (slice code 12 3 = 0b010#3 →
      DecodesTo code (.lw rd rs1 imm) rd true ∧
      Addresses (.lw rd rs1 imm) [rs1] (fun s => s.fwd rs1 + imm.signExtend 64) ∧
      LoadsFromMemory (.lw rd rs1 imm) 4 (fun v => (BitVec.ofNat 32 v).signExtend 64)) ∧
    (slice code 12 3 = 0b011#3 →
      DecodesTo code (.ld rd rs1 imm) rd true ∧
      Addresses (.ld rd rs1 imm) [rs1] (fun s => s.fwd rs1 + imm.signExtend 64) ∧
      LoadsFromMemory (.ld rd rs1 imm) 8 (fun v => BitVec.ofNat 64 v)) ∧
    (slice code 12 3 = 0b100#3 →
      DecodesTo code (.lbu rd rs1 imm) rd true ∧
      Addresses (.lbu rd rs1 imm) [rs1] (fun s => s.fwd rs1 + imm.signExtend 64) ∧
      LoadsFromMemory (.lbu rd rs1 imm) 1 (fun v => BitVec.ofNat 64 v)) ∧
    (slice code 12 3 = 0b101#3 →
      DecodesTo code (.lhu rd rs1 imm) rd true ∧
      Addresses (.lhu rd rs1 imm) [rs1] (fun s => s.fwd rs1 + imm.signExtend 64) ∧
      LoadsFromMemory (.lhu rd rs1 imm) 2 (fun v => BitVec.ofNat 64 v)) ∧
    (slice code 12 3 = 0b110#3 →
      DecodesTo code (.lwu rd rs1 imm) rd true ∧
      Addresses (.lwu rd rs1 imm) [rs1] (fun s => s.fwd rs1 + imm.signExtend 64) ∧
      LoadsFromMemory (.lwu rd rs1 imm) 4 (fun v => BitVec.ofNat 64 v))

/-- O15 (R211, R212, R213, R214). The four stores, in Execute and in AccessMemory. -/
def Obligations.StoreInstructions : Prop :=
  ∀ (code : BitVec 32) (imm : BitVec 12), slice code 0 7 = 0b0100011#7 →
    slice imm 5 7 = slice code 25 7 → slice imm 0 5 = slice code 7 5 →
    let rs1 := slice code 15 5
    let rs2 := slice code 20 5
    (slice code 12 3 = 0b000#3 →
      DecodesTo code (.sb rs1 rs2 imm) 0 false ∧
      Addresses (.sb rs1 rs2 imm) [rs1, rs2] (fun s => s.fwd rs1 + imm.signExtend 64) ∧
      StoresToMemory (.sb rs1 rs2 imm) rs2 1) ∧
    (slice code 12 3 = 0b001#3 →
      DecodesTo code (.sh rs1 rs2 imm) 0 false ∧
      Addresses (.sh rs1 rs2 imm) [rs1, rs2] (fun s => s.fwd rs1 + imm.signExtend 64) ∧
      StoresToMemory (.sh rs1 rs2 imm) rs2 2) ∧
    (slice code 12 3 = 0b010#3 →
      DecodesTo code (.sw rs1 rs2 imm) 0 false ∧
      Addresses (.sw rs1 rs2 imm) [rs1, rs2] (fun s => s.fwd rs1 + imm.signExtend 64) ∧
      StoresToMemory (.sw rs1 rs2 imm) rs2 4) ∧
    (slice code 12 3 = 0b011#3 →
      DecodesTo code (.sd rs1 rs2 imm) 0 false ∧
      Addresses (.sd rs1 rs2 imm) [rs1, rs2] (fun s => s.fwd rs1 + imm.signExtend 64) ∧
      StoresToMemory (.sd rs1 rs2 imm) rs2 8)

/-- O16 (R301, R302, R303, R304, R309). MUL, MULH, MULHSU, MULHU and MULW. -/
def Obligations.MultiplyInstructions : Prop :=
  (∀ code : BitVec 32, slice code 0 7 = 0b0110011#7 → slice code 25 7 = 0b0000001#7 →
    let rd := slice code 7 5
    let rs1 := slice code 15 5
    let rs2 := slice code 20 5
    (slice code 12 3 = 0b000#3 →
      DecodesWithM code (.mul rd rs1 rs2) rd ∧ Computes (.mul rd rs1 rs2) [rs1, rs2]
        (fun s _ => BitVec.ofInt 64 ((s.fwd rs1).toInt * (s.fwd rs2).toInt))) ∧
    (slice code 12 3 = 0b001#3 →
      DecodesWithM code (.mulh rd rs1 rs2) rd ∧ Computes (.mulh rd rs1 rs2) [rs1, rs2]
        (fun s _ => BitVec.ofInt 64 ((s.fwd rs1).toInt * (s.fwd rs2).toInt / 2 ^ 64))) ∧
    (slice code 12 3 = 0b010#3 →
      DecodesWithM code (.mulhsu rd rs1 rs2) rd ∧ Computes (.mulhsu rd rs1 rs2) [rs1, rs2]
        (fun s _ => BitVec.ofInt 64 ((s.fwd rs1).toInt * ((s.fwd rs2).toNat : Int) / 2 ^ 64))) ∧
    (slice code 12 3 = 0b011#3 →
      DecodesWithM code (.mulhu rd rs1 rs2) rd ∧ Computes (.mulhu rd rs1 rs2) [rs1, rs2]
        (fun s _ => BitVec.ofNat 64 ((s.fwd rs1).toNat * (s.fwd rs2).toNat / 2 ^ 64)))) ∧
  (∀ code : BitVec 32, slice code 0 7 = 0b0111011#7 → slice code 25 7 = 0b0000001#7 →
    let rd := slice code 7 5
    let rs1 := slice code 15 5
    let rs2 := slice code 20 5
    (slice code 12 3 = 0b000#3 →
      DecodesWithM code (.mulw rd rs1 rs2) rd ∧ Computes (.mulw rd rs1 rs2) [rs1, rs2]
        (fun s _ => (BitVec.ofNat 32 ((s.fwd rs1).toNat * (s.fwd rs2).toNat)).signExtend 64)))

/-- O17 (R305, R306, R307, R308, R310, R311, R312, R313). The eight divisions and remainders. -/
def Obligations.DivideInstructions : Prop :=
  (∀ code : BitVec 32, slice code 0 7 = 0b0110011#7 → slice code 25 7 = 0b0000001#7 →
    let rd := slice code 7 5
    let rs1 := slice code 15 5
    let rs2 := slice code 20 5
    (slice code 12 3 = 0b100#3 →
      DecodesWithM code (.div rd rs1 rs2) rd ∧ Computes (.div rd rs1 rs2) [rs1, rs2]
        (fun s _ => if (s.fwd rs2) = 0 then BitVec.allOnes 64
          else if (s.fwd rs1) = BitVec.intMin 64 ∧ (s.fwd rs2) = BitVec.allOnes 64 then BitVec.intMin 64
          else BitVec.ofInt 64 ((s.fwd rs1).toInt.tdiv (s.fwd rs2).toInt))) ∧
    (slice code 12 3 = 0b101#3 →
      DecodesWithM code (.divu rd rs1 rs2) rd ∧ Computes (.divu rd rs1 rs2) [rs1, rs2]
        (fun s _ => if (s.fwd rs2) = 0 then BitVec.allOnes 64 else BitVec.ofNat 64 ((s.fwd rs1).toNat / (s.fwd rs2).toNat))) ∧
    (slice code 12 3 = 0b110#3 →
      DecodesWithM code (.rem rd rs1 rs2) rd ∧ Computes (.rem rd rs1 rs2) [rs1, rs2]
        (fun s _ => if (s.fwd rs2) = 0 then (s.fwd rs1)
          else if (s.fwd rs1) = BitVec.intMin 64 ∧ (s.fwd rs2) = BitVec.allOnes 64 then 0
          else BitVec.ofInt 64 ((s.fwd rs1).toInt - (s.fwd rs2).toInt * (s.fwd rs1).toInt.tdiv (s.fwd rs2).toInt))) ∧
    (slice code 12 3 = 0b111#3 →
      DecodesWithM code (.remu rd rs1 rs2) rd ∧ Computes (.remu rd rs1 rs2) [rs1, rs2]
        (fun s _ => if (s.fwd rs2) = 0 then (s.fwd rs1) else BitVec.ofNat 64 ((s.fwd rs1).toNat % (s.fwd rs2).toNat)))) ∧
  (∀ code : BitVec 32, slice code 0 7 = 0b0111011#7 → slice code 25 7 = 0b0000001#7 →
    let rd := slice code 7 5
    let rs1 := slice code 15 5
    let rs2 := slice code 20 5
    (slice code 12 3 = 0b100#3 →
      DecodesWithM code (.divw rd rs1 rs2) rd ∧ Computes (.divw rd rs1 rs2) [rs1, rs2]
        (fun s _ => (if (slice (s.fwd rs2) 0 32) = 0 then BitVec.allOnes 32
          else if (slice (s.fwd rs1) 0 32) = BitVec.intMin 32 ∧ (slice (s.fwd rs2) 0 32) = BitVec.allOnes 32 then BitVec.intMin 32
          else BitVec.ofInt 32 ((slice (s.fwd rs1) 0 32).toInt.tdiv (slice (s.fwd rs2) 0 32).toInt)).signExtend 64)) ∧
    (slice code 12 3 = 0b101#3 →
      DecodesWithM code (.divuw rd rs1 rs2) rd ∧ Computes (.divuw rd rs1 rs2) [rs1, rs2]
        (fun s _ => (if (slice (s.fwd rs2) 0 32) = 0 then BitVec.allOnes 32
          else BitVec.ofNat 32 ((slice (s.fwd rs1) 0 32).toNat / (slice (s.fwd rs2) 0 32).toNat)).signExtend 64)) ∧
    (slice code 12 3 = 0b110#3 →
      DecodesWithM code (.remw rd rs1 rs2) rd ∧ Computes (.remw rd rs1 rs2) [rs1, rs2]
        (fun s _ => (if (slice (s.fwd rs2) 0 32) = 0 then (slice (s.fwd rs1) 0 32)
          else if (slice (s.fwd rs1) 0 32) = BitVec.intMin 32 ∧ (slice (s.fwd rs2) 0 32) = BitVec.allOnes 32 then 0
          else BitVec.ofInt 32 ((slice (s.fwd rs1) 0 32).toInt - (slice (s.fwd rs2) 0 32).toInt * (slice (s.fwd rs1) 0 32).toInt.tdiv (slice (s.fwd rs2) 0 32).toInt)).signExtend 64)) ∧
    (slice code 12 3 = 0b111#3 →
      DecodesWithM code (.remuw rd rs1 rs2) rd ∧ Computes (.remuw rd rs1 rs2) [rs1, rs2]
        (fun s _ => (if (slice (s.fwd rs2) 0 32) = 0 then (slice (s.fwd rs1) 0 32)
          else BitVec.ofNat 32 ((slice (s.fwd rs1) 0 32).toNat % (slice (s.fwd rs2) 0 32).toNat)).signExtend 64)))

/-- O18 (R314). Division by zero, signed overflow, and the law of division. -/
def Obligations.DivisionLaws : Prop :=
  (∀ a b : BitVec 64,
    (b = 0 → divSigned a b = BitVec.allOnes 64 ∧ divUnsigned a b = BitVec.allOnes 64 ∧
      remSigned a b = a ∧ remUnsigned a b = a) ∧
    (a = BitVec.intMin 64 → b = BitVec.allOnes 64 → divSigned a b = a ∧ remSigned a b = 0) ∧
    (b ≠ 0 → ¬ (a = BitVec.intMin 64 ∧ b = BitVec.allOnes 64) →
      a.toInt = b.toInt * (divSigned a b).toInt + (remSigned a b).toInt ∧
      (b.toInt * (divSigned a b).toInt).natAbs ≤ a.toInt.natAbs ∧
      (remSigned a b).toInt.natAbs < b.toInt.natAbs ∧
      ((remSigned a b).toInt = 0 ∨ ((remSigned a b).toInt < 0 ↔ a.toInt < 0))) ∧
    (b ≠ 0 → a.toNat = b.toNat * (divUnsigned a b).toNat + (remUnsigned a b).toNat ∧
      (remUnsigned a b).toNat < b.toNat)) ∧
  (∀ a b : BitVec 32,
    (b = 0 → divSigned a b = BitVec.allOnes 32 ∧ divUnsigned a b = BitVec.allOnes 32 ∧
      remSigned a b = a ∧ remUnsigned a b = a) ∧
    (a = BitVec.intMin 32 → b = BitVec.allOnes 32 → divSigned a b = a ∧ remSigned a b = 0) ∧
    (b ≠ 0 → ¬ (a = BitVec.intMin 32 ∧ b = BitVec.allOnes 32) →
      a.toInt = b.toInt * (divSigned a b).toInt + (remSigned a b).toInt ∧
      (b.toInt * (divSigned a b).toInt).natAbs ≤ a.toInt.natAbs ∧
      (remSigned a b).toInt.natAbs < b.toInt.natAbs ∧
      ((remSigned a b).toInt = 0 ∨ ((remSigned a b).toInt < 0 ↔ a.toInt < 0))) ∧
    (b ≠ 0 → a.toNat = b.toNat * (divUnsigned a b).toNat + (remUnsigned a b).toNat ∧
      (remUnsigned a b).toNat < b.toNat))

/-- O19 (R252, R253, R254, R255, R256). C.ADDI4SPN, C.LW, C.LD, C.SW and C.SD. -/
def Obligations.CompressedQuadrant0 : Prop :=
  ∀ code : BitVec 32, slice code 0 2 = 0b00#2 →
    (slice code 13 3 = 0b000#3 → ∀ imm : BitVec 10,
      slice imm 4 2 = slice code 11 2 → slice imm 6 4 = slice code 7 4 → slice imm 2 1 = slice code 6 1 → slice imm 3 1 = slice code 5 1 → slice imm 0 2 = 0 →
      (imm = 0 → ∀ hasM, Undecodable hasM code) ∧
      (imm ≠ 0 →
        DecodesTo code (.cAddi4spn (slice code 2 3) imm) (primed (slice code 2 3)) true ∧
        Computes (.cAddi4spn (slice code 2 3) imm) [2] (fun s _ => s.fwd 2 + imm.setWidth 64))) ∧
    (slice code 13 3 = 0b010#3 → ∀ imm : BitVec 7,
      slice imm 3 3 = slice code 10 3 → slice imm 2 1 = slice code 6 1 → slice imm 6 1 = slice code 5 1 → slice imm 0 2 = 0 →
      DecodesTo code (.cLw (slice code 2 3) (slice code 7 3) imm) (primed (slice code 2 3)) true ∧
      Addresses (.cLw (slice code 2 3) (slice code 7 3) imm) [(primed (slice code 7 3))]
        (fun s => s.fwd (primed (slice code 7 3)) + imm.setWidth 64) ∧
      LoadsFromMemory (.cLw (slice code 2 3) (slice code 7 3) imm) 4 (fun v => (BitVec.ofNat 32 v).signExtend 64)) ∧
    (slice code 13 3 = 0b011#3 → ∀ imm : BitVec 8,
      slice imm 3 3 = slice code 10 3 → slice imm 6 2 = slice code 5 2 → slice imm 0 3 = 0 →
      DecodesTo code (.cLd (slice code 2 3) (slice code 7 3) imm) (primed (slice code 2 3)) true ∧
      Addresses (.cLd (slice code 2 3) (slice code 7 3) imm) [(primed (slice code 7 3))]
        (fun s => s.fwd (primed (slice code 7 3)) + imm.setWidth 64) ∧
      LoadsFromMemory (.cLd (slice code 2 3) (slice code 7 3) imm) 8 (fun v => BitVec.ofNat 64 v)) ∧
    (slice code 13 3 = 0b110#3 → ∀ imm : BitVec 7,
      slice imm 3 3 = slice code 10 3 → slice imm 2 1 = slice code 6 1 → slice imm 6 1 = slice code 5 1 → slice imm 0 2 = 0 →
      DecodesTo code (.cSw (slice code 7 3) (slice code 2 3) imm) 0 false ∧
      Addresses (.cSw (slice code 7 3) (slice code 2 3) imm) [(primed (slice code 7 3)), (primed (slice code 2 3))]
        (fun s => s.fwd (primed (slice code 7 3)) + imm.setWidth 64) ∧
      StoresToMemory (.cSw (slice code 7 3) (slice code 2 3) imm) (primed (slice code 2 3)) 4) ∧
    (slice code 13 3 = 0b111#3 → ∀ imm : BitVec 8,
      slice imm 3 3 = slice code 10 3 → slice imm 6 2 = slice code 5 2 → slice imm 0 3 = 0 →
      DecodesTo code (.cSd (slice code 7 3) (slice code 2 3) imm) 0 false ∧
      Addresses (.cSd (slice code 7 3) (slice code 2 3) imm) [(primed (slice code 7 3)), (primed (slice code 2 3))]
        (fun s => s.fwd (primed (slice code 7 3)) + imm.setWidth 64) ∧
      StoresToMemory (.cSd (slice code 7 3) (slice code 2 3) imm) (primed (slice code 2 3)) 8)

/-- O20 (R257, R258, R259, R260, R261, R262). C.NOP, C.ADDI, C.ADDIW, C.LI, C.ADDI16SP and C.LUI. -/
def Obligations.CompressedImmediates : Prop :=
  ∀ code : BitVec 32, slice code 0 2 = 0b01#2 →
    let rd := slice code 7 5
    (∀ imm : BitVec 6, slice imm 5 1 = slice code 12 1 → slice imm 0 5 = slice code 2 5 →
      (slice code 13 3 = 0b000#3 → rd = 0 →
        DecodesTo code (.cNop imm) 0 true ∧ Computes (.cNop imm) [0] (fun _ _ => imm.signExtend 64)) ∧
      (slice code 13 3 = 0b000#3 → rd ≠ 0 →
        DecodesTo code (.cAddi rd imm) rd true ∧
        Computes (.cAddi rd imm) [rd] (fun s _ => s.fwd rd + imm.signExtend 64)) ∧
      (slice code 13 3 = 0b001#3 → rd = 0 → ∀ hasM, Undecodable hasM code) ∧
      (slice code 13 3 = 0b001#3 → rd ≠ 0 →
        DecodesTo code (.cAddiw rd imm) rd true ∧
        Computes (.cAddiw rd imm) [rd] (fun s _ => (slice (s.fwd rd + imm.signExtend 64) 0 32).signExtend 64)) ∧
      (slice code 13 3 = 0b010#3 →
        DecodesTo code (.cLi rd imm) rd true ∧ Computes (.cLi rd imm) [0] (fun _ _ => imm.signExtend 64))) ∧
    (slice code 13 3 = 0b011#3 → rd = 2 → ∀ imm : BitVec 10,
      slice imm 9 1 = slice code 12 1 → slice imm 4 1 = slice code 6 1 → slice imm 6 1 = slice code 5 1 → slice imm 7 2 = slice code 3 2 → slice imm 5 1 = slice code 2 1 → slice imm 0 4 = 0 →
      (imm = 0 → ∀ hasM, Undecodable hasM code) ∧
      (imm ≠ 0 →
        DecodesTo code (.cAddi16sp imm) 2 true ∧
        Computes (.cAddi16sp imm) [2] (fun s _ => s.fwd 2 + imm.signExtend 64))) ∧
    (slice code 13 3 = 0b011#3 → rd ≠ 2 → ∀ imm : BitVec 18,
      slice imm 17 1 = slice code 12 1 → slice imm 12 5 = slice code 2 5 → slice imm 0 12 = 0 →
      (imm = 0 → ∀ hasM, Undecodable hasM code) ∧
      (imm ≠ 0 →
        DecodesTo code (.cLui rd imm) rd true ∧ Computes (.cLui rd imm) [] (fun _ _ => imm.signExtend 64)))

/-- O21 (R263, R264, R265, R266, R267, R268, R269, R270, R271). C.SRLI, C.SRAI, C.ANDI, C.SUB, C.XOR, C.OR, C.AND,
C.SUBW and C.ADDW. -/
def Obligations.CompressedArithmetic : Prop :=
  ∀ code : BitVec 32, slice code 0 2 = 0b01#2 → slice code 13 3 = 0b100#3 →
    (∀ imm : BitVec 6, slice imm 5 1 = slice code 12 1 → slice imm 0 5 = slice code 2 5 →
      (slice code 10 2 = 0b00#2 →
        DecodesTo code (.cSrli (slice code 7 3) imm) (primed (slice code 7 3)) true ∧
        Computes (.cSrli (slice code 7 3) imm) [(primed (slice code 7 3))]
          (fun s _ => s.fwd (primed (slice code 7 3)) >>> imm.toNat)) ∧
      (slice code 10 2 = 0b01#2 →
        DecodesTo code (.cSrai (slice code 7 3) imm) (primed (slice code 7 3)) true ∧
        Computes (.cSrai (slice code 7 3) imm) [(primed (slice code 7 3))]
          (fun s _ => (s.fwd (primed (slice code 7 3))).sshiftRight imm.toNat)) ∧
      (slice code 10 2 = 0b10#2 →
        DecodesTo code (.cAndi (slice code 7 3) imm) (primed (slice code 7 3)) true ∧
        Computes (.cAndi (slice code 7 3) imm) [(primed (slice code 7 3))]
          (fun s _ => s.fwd (primed (slice code 7 3)) &&& imm.signExtend 64))) ∧
    (slice code 10 3 = 0b011#3 → slice code 5 2 = 0b00#2 →
      DecodesTo code (.cSub (slice code 7 3) (slice code 2 3)) (primed (slice code 7 3)) true ∧
      Computes (.cSub (slice code 7 3) (slice code 2 3)) [(primed (slice code 7 3)), (primed (slice code 2 3))]
        (fun s _ => s.fwd (primed (slice code 7 3)) - s.fwd (primed (slice code 2 3)))) ∧
    (slice code 10 3 = 0b011#3 → slice code 5 2 = 0b01#2 →
      DecodesTo code (.cXor (slice code 7 3) (slice code 2 3)) (primed (slice code 7 3)) true ∧
      Computes (.cXor (slice code 7 3) (slice code 2 3)) [(primed (slice code 7 3)), (primed (slice code 2 3))]
        (fun s _ => s.fwd (primed (slice code 7 3)) ^^^ s.fwd (primed (slice code 2 3)))) ∧
    (slice code 10 3 = 0b011#3 → slice code 5 2 = 0b10#2 →
      DecodesTo code (.cOr (slice code 7 3) (slice code 2 3)) (primed (slice code 7 3)) true ∧
      Computes (.cOr (slice code 7 3) (slice code 2 3)) [(primed (slice code 7 3)), (primed (slice code 2 3))]
        (fun s _ => s.fwd (primed (slice code 7 3)) ||| s.fwd (primed (slice code 2 3)))) ∧
    (slice code 10 3 = 0b011#3 → slice code 5 2 = 0b11#2 →
      DecodesTo code (.cAnd (slice code 7 3) (slice code 2 3)) (primed (slice code 7 3)) true ∧
      Computes (.cAnd (slice code 7 3) (slice code 2 3)) [(primed (slice code 7 3)), (primed (slice code 2 3))]
        (fun s _ => s.fwd (primed (slice code 7 3)) &&& s.fwd (primed (slice code 2 3)))) ∧
    (slice code 10 3 = 0b111#3 → slice code 5 2 = 0b00#2 →
      DecodesTo code (.cSubw (slice code 7 3) (slice code 2 3)) (primed (slice code 7 3)) true ∧
      Computes (.cSubw (slice code 7 3) (slice code 2 3)) [(primed (slice code 7 3)), (primed (slice code 2 3))]
        (fun s _ => (slice (s.fwd (primed (slice code 7 3)) - s.fwd (primed (slice code 2 3))) 0 32).signExtend 64)) ∧
    (slice code 10 3 = 0b111#3 → slice code 5 2 = 0b01#2 →
      DecodesTo code (.cAddw (slice code 7 3) (slice code 2 3)) (primed (slice code 7 3)) true ∧
      Computes (.cAddw (slice code 7 3) (slice code 2 3)) [(primed (slice code 7 3)), (primed (slice code 2 3))]
        (fun s _ => (slice (s.fwd (primed (slice code 7 3)) + s.fwd (primed (slice code 2 3))) 0 32).signExtend 64)) ∧
    (slice code 10 3 = 0b111#3 → slice code 5 2 ∈ [0b10#2, 0b11#2] → ∀ hasM, Undecodable hasM code)

/-- O22 (R272, R273, R274, R276, R279). C.J, C.BEQZ, C.BNEZ, C.JR and C.JALR. -/
def Obligations.CompressedTransfers : Prop :=
  ∀ code : BitVec 32,
    (slice code 0 2 = 0b01#2 → slice code 13 3 = 0b101#3 → ∀ imm : BitVec 12,
      slice imm 11 1 = slice code 12 1 → slice imm 4 1 = slice code 11 1 → slice imm 8 2 = slice code 9 2 → slice imm 10 1 = slice code 8 1 → slice imm 6 1 = slice code 7 1 → slice imm 7 1 = slice code 6 1 → slice imm 1 3 = slice code 3 3 → slice imm 5 1 = slice code 2 1 → slice imm 0 1 = 0 →
      DecodesTo code (.cJ imm) 0 true ∧ Jumps (.cJ imm) [] 2 (fun _ r => r.pc + imm.signExtend 64)) ∧
    (slice code 0 2 = 0b01#2 → ∀ imm : BitVec 9,
      slice imm 8 1 = slice code 12 1 → slice imm 3 2 = slice code 10 2 → slice imm 6 2 = slice code 5 2 → slice imm 1 2 = slice code 3 2 → slice imm 5 1 = slice code 2 1 → slice imm 0 1 = 0 →
      (slice code 13 3 = 0b110#3 →
        DecodesTo code (.cBeqz (slice code 7 3) imm) 0 false ∧
        Branches (.cBeqz (slice code 7 3) imm) [(primed (slice code 7 3)), 0]
          (fun s => s.fwd (primed (slice code 7 3)) = 0) (imm.signExtend 64)) ∧
      (slice code 13 3 = 0b111#3 →
        DecodesTo code (.cBnez (slice code 7 3) imm) 0 false ∧
        Branches (.cBnez (slice code 7 3) imm) [(primed (slice code 7 3)), 0]
          (fun s => s.fwd (primed (slice code 7 3)) ≠ 0) (imm.signExtend 64))) ∧
    (slice code 0 2 = 0b10#2 → slice code 2 5 = 0 →
      let rs1 := slice code 7 5
      (slice code 12 4 = 0b1000#4 → rs1 = 0 → ∀ hasM, Undecodable hasM code) ∧
      (slice code 12 4 = 0b1000#4 → rs1 ≠ 0 →
        DecodesTo code (.cJr rs1) 0 true ∧ Jumps (.cJr rs1) [rs1] 2 (fun s _ => s.fwd rs1 &&& ~~~1)) ∧
      (slice code 12 4 = 0b1001#4 → rs1 = 0 → ∀ hasM, Undecodable hasM code) ∧
      (slice code 12 4 = 0b1001#4 → rs1 ≠ 0 →
        DecodesTo code (.cJalr rs1) 1 true ∧ Jumps (.cJalr rs1) [rs1] 2 (fun s _ => s.fwd rs1 &&& ~~~1)))

/-- O23 (R275, R277, R278, R280, R281, R282, R283). C.SLLI, C.MV, C.ADD, C.LWSP, C.LDSP, C.SWSP and C.SDSP. -/
def Obligations.CompressedQuadrant2 : Prop :=
  ∀ code : BitVec 32, slice code 0 2 = 0b10#2 →
    let rd := slice code 7 5
    let rs2 := slice code 2 5
    (slice code 13 3 = 0b000#3 → ∀ imm : BitVec 6, slice imm 5 1 = slice code 12 1 → slice imm 0 5 = slice code 2 5 →
      DecodesTo code (.cSlli rd imm) rd true ∧
      Computes (.cSlli rd imm) [rd] (fun s _ => s.fwd rd <<< imm.toNat)) ∧
    (slice code 12 4 = 0b1000#4 → rs2 ≠ 0 →
      DecodesTo code (.cMv rd rs2) rd true ∧ Computes (.cMv rd rs2) [rs2] (fun s _ => s.fwd rs2)) ∧
    (slice code 12 4 = 0b1001#4 → rs2 ≠ 0 →
      DecodesTo code (.cAdd rd rs2) rd true ∧
      Computes (.cAdd rd rs2) [rd, rs2] (fun s _ => s.fwd rd + s.fwd rs2)) ∧
    (slice code 13 3 = 0b010#3 → ∀ imm : BitVec 8,
      slice imm 5 1 = slice code 12 1 → slice imm 2 3 = slice code 4 3 → slice imm 6 2 = slice code 2 2 → slice imm 0 2 = 0 →
      (rd = 0 → ∀ hasM, Undecodable hasM code) ∧
      (rd ≠ 0 →
        DecodesTo code (.cLwsp rd imm) rd true ∧
        Addresses (.cLwsp rd imm) [2] (fun s => s.fwd 2 + imm.setWidth 64) ∧
        LoadsFromMemory (.cLwsp rd imm) 4 (fun v => (BitVec.ofNat 32 v).signExtend 64))) ∧
    (slice code 13 3 = 0b011#3 → ∀ imm : BitVec 9,
      slice imm 5 1 = slice code 12 1 → slice imm 3 2 = slice code 5 2 → slice imm 6 3 = slice code 2 3 → slice imm 0 3 = 0 →
      (rd = 0 → ∀ hasM, Undecodable hasM code) ∧
      (rd ≠ 0 →
        DecodesTo code (.cLdsp rd imm) rd true ∧
        Addresses (.cLdsp rd imm) [2] (fun s => s.fwd 2 + imm.setWidth 64) ∧
        LoadsFromMemory (.cLdsp rd imm) 8 (fun v => BitVec.ofNat 64 v))) ∧
    (slice code 13 3 = 0b110#3 → ∀ imm : BitVec 8,
      slice imm 2 4 = slice code 9 4 → slice imm 6 2 = slice code 7 2 → slice imm 0 2 = 0 →
      DecodesTo code (.cSwsp rs2 imm) 0 false ∧
      Addresses (.cSwsp rs2 imm) [2, rs2] (fun s => s.fwd 2 + imm.setWidth 64) ∧
      StoresToMemory (.cSwsp rs2 imm) rs2 4) ∧
    (slice code 13 3 = 0b111#3 → ∀ imm : BitVec 9,
      slice imm 3 3 = slice code 10 3 → slice imm 6 3 = slice code 7 3 → slice imm 0 3 = 0 →
      DecodesTo code (.cSdsp rs2 imm) 0 false ∧
      Addresses (.cSdsp rs2 imm) [2, rs2] (fun s => s.fwd 2 + imm.setWidth 64) ∧
      StoresToMemory (.cSdsp rs2 imm) rs2 8)

/-! ## Execute as a whole -/

/-- O24 (R250). A compressed instruction is its 32-bit equivalent. -/
def Obligations.CompressedExecutesAsItsExpansion : Prop :=
  (∀ (i j : Instr), i.wf = true → i.expansion = some j →
    i.len = 2 ∧ j.len = 4 ∧ i.kind = j.kind ∧ i.rd = j.rd ∧ i.rs1 = j.rs1 ∧ i.rs2 = j.rs2 ∧ i.imm = j.imm ∧
    i.writes = j.writes ∧ ∀ s, exec i s = exec j s) ∧
  (∀ i : Instr, i.len = 2 → i.expansion = none → i.kind = .mv) ∧
  (∀ i : Instr, i.len = 4 → i.kind ≠ .mv) ∧
  (∀ i : Instr, i.len = 2 → i.format ∈ [.CR, .CI, .CSS, .CIW, .CL, .CS, .CB, .CJ]) ∧
  (∀ (s : State) (r : Record) (j : Instr), r.op.wf = true → r.op.expansion = some j →
    (s.slotW = some r →
      writeBack { s with slotW := some { r with op := j } } = writeBack s ∧
      ∀ k t, exec k s = .next t →
        exec k { s with slotW := some { r with op := j } } = .next { t with slotW := some { r with op := j } }) ∧
    (s.slotM = some r → s.slotW = none →
      accessMemory { s with slotM := some { r with op := j } } =
        { accessMemory s with
          slotM := (accessMemory s).slotM.map (fun q => { q with op := j })
          slotW := (accessMemory s).slotW.map (fun q => { q with op := j }) }))

/-- O25 (R331). Execute dispatches on the kind and the record fields alone. -/
def Obligations.ExecuteFollowsTheKind : Prop :=
  (∀ s, s.slotE = none → execute s = .next s) ∧
  (∀ (i : Instr) (s : State) (r : Record), s.Holds i r →
    execute s = exec i s ∧
    (∀ v, kindValue i.kind (s.fwd i.rs1) (s.fwd i.rs2) i.imm r.pc = some v →
      exec i s = .next (s.moved { r with wb := v } i.readSet)) ∧
    (i.kind.isLoad = true ∨ i.kind.isStore = true →
      exec i s = .next (s.moved { r with addr := s.fwd i.rs1 + i.imm } i.readSet)) ∧
    (kindCond i.kind (s.fwd i.rs1) (s.fwd i.rs2) = some true →
      exec i s = .next ((s.moved r i.readSet).redirected (r.pc + i.imm))) ∧
    (kindCond i.kind (s.fwd i.rs1) (s.fwd i.rs2) = some false →
      exec i s = .next (s.moved r i.readSet)) ∧
    (i.kind = .jal →
      exec i s = .next
        ((s.moved { r with wb := r.pc + BitVec.ofNat 64 i.len } i.readSet).redirected (r.pc + i.imm))) ∧
    (i.kind = .jalr →
      exec i s = .next
        ((s.moved { r with wb := r.pc + BitVec.ofNat 64 i.len } i.readSet).redirected
          ((s.fwd i.rs1 + i.imm) &&& ~~~1))) ∧
    (i.kind = .ecall → exec i s = exec .ecall s))

/-- O26 (R332). Load-use detection counts once and does nothing else. -/
def Obligations.LoadUseIsCounted : Prop :=
  ∀ (i : Instr) (s t : State) (r : Record), s.Holds i r → exec i s = .next t →
    ((∃ w, s.slotW = some w ∧ w.kind.isLoad = true ∧ w.writes = true ∧ w.rd ≠ 0 ∧ w.rd ∈ i.readSet) →
      t.counters.loadUseStalls = s.counters.loadUseStalls + 1) ∧
    (¬ (∃ w, s.slotW = some w ∧ w.kind.isLoad = true ∧ w.writes = true ∧ w.rd ≠ 0 ∧ w.rd ∈ i.readSet) →
      t.counters.loadUseStalls = s.counters.loadUseStalls) ∧
    (∀ n : Nat, exec i { s with counters := { s.counters with loadUseStalls := n } } =
      .next { t with counters := { t.counters with
        loadUseStalls := n + (t.counters.loadUseStalls - s.counters.loadUseStalls) } })

/-! ## ECALL and its services -/

/-- O27 (R226, R227, R228, R235). PRINT_CHAR, PRINT_INT, PRINT_LONG and SEED_RANDOM. -/
def Obligations.EcallOutputServices : Prop :=
  ∀ (s : State) (r : Record), s.Holds .ecall r → s.cfg.sysnum.Injective →
    (s.fwd 17 = s.cfg.sysnum.printChar →
      exec .ecall s = .next { s.moved r [17, 10] with output := s.output ++ [.printChar (s.fwd 10)] }) ∧
    (s.fwd 17 = s.cfg.sysnum.printInt →
      exec .ecall s = .next { s.moved r [17, 10] with output := s.output ++ [.printInt (s.fwd 10)] }) ∧
    (s.fwd 17 = s.cfg.sysnum.printLong →
      exec .ecall s = .next { s.moved r [17, 10] with output := s.output ++ [.printLong (s.fwd 10)] }) ∧
    (s.fwd 17 = s.cfg.sysnum.seedRandom →
      exec .ecall s = .next { s.moved r [17, 10] with output := s.output ++ [.seedRandom (s.fwd 10)] })

/-- O28 (R231, R232, R233, R237, R238). READ_CHAR, READ_INT, READ_LONG, RANDOM and WALL_CLOCK_TIME. Derived. Its
clauses on `input` (the next listed answer is used up, of whichever kind it is), on `reads` (the model's own
field) and on listed and free answers are the model's choice: log entry 6, DESIGN CHOICE. -/
def Obligations.EcallReadingServices : Prop :=
  ∀ (s : State) (r : Record) (v : Service), s.Holds .ecall r → s.cfg.sysnum.Injective →
    v ∈ [.readChar, .readInt, .readLong, .random, .wallClockTime] → s.fwd 17 = s.cfg.sysnum.num v →
    ∃ answer : Word,
      exec .ecall s = .next { s.moved { r with rd := 17, writes := true, wb := answer } [17, 10] with
        input := s.input.tail, reads := s.reads + 1 } ∧
      (∀ word rest, s.input = .word word :: rest → answer = word)

/-- O29 (R230). PRINT_STRING. -/
def Obligations.EcallPrintString : Prop :=
  ∀ (s : State) (r : Record), s.Holds .ecall r → s.cfg.sysnum.Injective → s.fwd 17 = s.cfg.sysnum.printString →
    (∀ bytes : List Byte, (∀ b ∈ bytes, b ≠ 0) →
      (∀ j (h : j < bytes.length), s.mem.peek (s.fwd 10 + BitVec.ofNat 64 j) = some bytes[j]) →
      s.mem.peek (s.fwd 10 + BitVec.ofNat 64 bytes.length) = some 0 →
      exec .ecall s = .next { s.moved r [17, 10] with output := s.output ++ [.printString bytes] }) ∧
    (∀ n : Nat, (∀ j < n, ∃ b, s.mem.peek (s.fwd 10 + BitVec.ofNat 64 j) = some b ∧ b ≠ 0) →
      s.mem.peek (s.fwd 10 + BitVec.ofNat 64 n) = none →
      exec .ecall s = .next (s.stuck .unmappedRead [17, 10]))

/-- O30 (R222, R234). READ_STRING. Derived. Its clauses on `input` (the next listed answer is used up, of whichever
kind it is), on `reads` (the model's own field) and on listed and free answers are the model's choice: log entry
6, DESIGN CHOICE. -/
def Obligations.EcallReadString : Prop :=
  ∀ (s : State) (r : Record), s.Holds .ecall r → s.cfg.sysnum.Injective → s.mem.wf →
    s.fwd 17 = s.cfg.sysnum.readString →
    ∃ (text : List Byte) (m : Memory), (∀ b ∈ text, b ≠ 0) ∧
      (∀ listed rest, s.input = .bytes listed :: rest → (∀ b ∈ listed, b ≠ 0) → text = listed) ∧
      exec .ecall s = .next { s.moved r [17, 10] with
        mem := m, input := s.input.tail, reads := s.reads + 1 } ∧
      (text.length < 2 ^ 64 →
        (∀ j (h : j < text.length), m.peek (s.fwd 10 + BitVec.ofNat 64 j) = some text[j]) ∧
        m.peek (s.fwd 10 + BitVec.ofNat 64 text.length) = some 0 ∧
        (∀ b, text.length < (b - s.fwd 10).toNat → s.mem.mapped b = true → m.peek b = s.mem.peek b) ∧
        (∀ b, text.length < (b - s.fwd 10).toNat → s.mem.mapped b = false →
          ((∃ j ≤ text.length, pageOf b = pageOf (s.fwd 10 + BitVec.ofNat 64 j)) → m.peek b = some 0) ∧
          ((∀ j ≤ text.length, pageOf b ≠ pageOf (s.fwd 10 + BitVec.ofNat 64 j)) → m.peek b = none)))

/-- O31 (R236). HEAP_ALLOCATE. -/
def Obligations.EcallHeapAllocate : Prop :=
  ∀ (s : State) (r : Record), s.Holds .ecall r → s.cfg.sysnum.Injective → s.mem.wf →
    s.fwd 17 = s.cfg.sysnum.heapAllocate →
    let size := (s.fwd 10 + 4095) &&& ~~~4095
    let page := fun j : Nat => s.heapPtr + BitVec.ofNat 64 (4096 * j)
    ((∀ j < size.toNat / 4096, s.mem.mapped (page j) = false) →
      ∃ m, exec .ecall s = .next { s.moved { r with rd := 17, writes := true, wb := s.heapPtr } [17, 10] with
          mem := m, heapPtr := s.heapPtr + size } ∧
        ∀ b, ((∃ j < size.toNat / 4096, pageOf b = pageOf (page j)) → m.peek b = some 0) ∧
          ((∀ j < size.toNat / 4096, pageOf b ≠ pageOf (page j)) → m.peek b = s.mem.peek b)) ∧
    (∀ n < size.toNat / 4096, s.mem.mapped (page n) = true → (∀ j < n, s.mem.mapped (page j) = false) →
      ∃ m, exec .ecall s = .next { s.stuck .doubleAllocation [17, 10] with mem := m } ∧
        ∀ b, ((∃ j < n, pageOf b = pageOf (page j)) → m.peek b = some 0) ∧
          ((∀ j < n, pageOf b ≠ pageOf (page j)) → m.peek b = s.mem.peek b))

/-- O32 (R239). An unknown service number stops the machine. -/
def Obligations.EcallUnknownNumber : Prop :=
  ∀ (s : State) (r : Record), s.Holds .ecall r → (∀ v : Service, s.cfg.sysnum.num v ≠ s.fwd 17) →
    exec .ecall s = .next (s.stuck .unknownSyscall [17, 10])

/-- O33 (R225, R335). EXIT ends the cycle after Execute and the machine never changes again. -/
def Obligations.ExitEndsTheRun : Prop :=
  ∀ (s : State) (r : Record), s.ConfigOk → s.stopped = false → (beforeExecute s).stopped = false →
    s.Holds .ecall r → (beforeExecute s).fwd 17 = s.cfg.sysnum.exit →
    let b := beforeExecute s
    let t := { b with
      exit := true
      output := s.output ++ [.exit (b.fwd 10)]
      counters := { b.counters with loadUseStalls := b.counters.loadUseStalls + b.stallsOn [17, 10] } }
    exec .ecall b = .next t ∧ step s = .next t ∧ step t = .next t ∧
    t.slotE = some r ∧ t.slotD = s.slotD ∧ t.pc = s.pc ∧ t.slotM = none ∧
    t.regs = (writeBack s).regs ∧ t.mem = b.mem ∧
    (∀ m, s.slotM = some m → ∃ w, t.slotW = some w ∧ w.pc = m.pc ∧ w.op = m.op)

/-! ## The register file and the stages -/

/-- O34 (R11). x0 reads zero and cannot be written. -/
def Obligations.RegisterZero : Prop :=
  ∀ (s : State) (v : Word), s.reg 0 = 0 ∧ s.fwd 0 = 0 ∧ s.setReg 0 v = s

/-- O35 (R322). WriteBack commits one register, and no other stage writes one. -/
def Obligations.WriteBackCommits : Prop :=
  (∀ s, s.slotW = none → writeBack s = s) ∧
  (∀ s w, s.slotW = some w →
    (∀ x : Reg, (writeBack s).reg x = if w.writes = true ∧ w.rd = x ∧ x ≠ 0 then w.wb else s.reg x) ∧
    writeBack s = { s with
      regs := (writeBack s).regs
      slotW := none
      counters := { s.counters with retired := s.counters.retired + 1 } }) ∧
  (∀ s t, step s = .next t → t.regs = s.regs ∨ t.regs = (writeBack s).regs)

/-- O36 (R330). Forwarding reads what the register will hold. -/
def Obligations.ForwardingGivesTheCommittedValue : Prop :=
  ∀ (s : State) (x : Reg),
    (x = 0 → s.fwd x = 0) ∧
    (∀ w, x ≠ 0 → s.slotW = some w → w.writes = true → w.rd = x → s.fwd x = w.wb) ∧
    (∀ w, x ≠ 0 → s.slotW = some w → ¬ (w.writes = true ∧ w.rd = x) → s.fwd x = s.reg x) ∧
    (s.slotW = none → s.fwd x = s.reg x) ∧
    s.fwd x = (writeBack s).reg x

/-- O37 (R336). Decode fills the record in slot D and moves it to slot E. -/
def Obligations.DecodeStage : Prop :=
  ∀ s : State,
    (s.slotD = none → decodeStage s = s) ∧
    (∀ f i, s.slotD = some f → decode s.cfg.hasM f.code = .instr i →
      ∃ r : Record, r.code = f.code ∧ r.pc = f.pc ∧ r.op = i ∧ r.rd = i.rd ∧ r.writes = i.writes ∧
        r.kind = i.kind ∧ r.format = i.format ∧ r.rs1 = i.rs1 ∧ r.rs2 = i.rs2 ∧ r.imm = i.imm ∧
        decodeStage s = { s with slotD := none, slotE := some r }) ∧
    (∀ f, s.slotD = some f → Undecodable s.cfg.hasM f.code →
      decodeStage s = { s with fatal := some .decodeFailure })

/-- O38 (R340, R341, R48). Fetch reads four bytes and advances the fetch pointer by the word's length. -/
def Obligations.FetchStage : Prop :=
  ∀ s : State,
    let a := s.access s.pc 4 true
    (offOf s.pc > 4092 → fetchStage s = { a with fatal := some .pageCross }) ∧
    (offOf s.pc ≤ 4092 → s.mem.mapped s.pc = false → fetchStage s = { a with fatal := some .unmappedRead }) ∧
    (offOf s.pc ≤ 4092 → s.mem.mapped s.pc = true →
      ∃ code : BitVec 32,
        (∀ k < 4, slice code (8 * k) 8 = s.mem.byte (s.pc + BitVec.ofNat 64 k)) ∧
        fetchStage s = { a with
          slotD := some { code := code, pc := s.pc }
          pc := s.pc + (if slice code 0 2 = 0b11#2 then 4 else 2) })

/-! ## The address space -/

/-- O39 (R41, R43). MemRead, its three fatal conditions and their order. -/
def Obligations.MemoryRead : Prop :=
  ∀ (m : Memory) (a : Word) (n : Nat) (v : Word),
    (n ∉ [1, 2, 4, 8] → m.read a n = .error .badAccessSize ∧ m.write a n v = .error .badAccessSize) ∧
    (n ∈ [1, 2, 4, 8] → offOf a + n > 4096 →
      m.read a n = .error .pageCross ∧ m.write a n v = .error .pageCross) ∧
    (n ∈ [1, 2, 4, 8] → offOf a + n ≤ 4096 → m.mapped a = false → m.read a n = .error .unmappedRead) ∧
    (n ∈ [1, 2, 4, 8] → offOf a + n ≤ 4096 → m.mapped a = true →
      ∃ x, m.read a n = .ok x ∧ LoadedNumber m a n x) ∧
    (a.toNat + n > 2 ^ 64 → offOf a + n > 4096)

/-- O40 (R44). MemWrite stores its bytes and maps their page. -/
def Obligations.MemoryWrite : Prop :=
  ∀ (m : Memory) (a : Word) (n : Nat) (v : Word), m.wf → n ∈ [1, 2, 4, 8] → offOf a + n ≤ 4096 →
    ∃ m', m.write a n v = .ok m' ∧ StoredBytes m m' a n v ∧ m'.wf ∧
      ∀ b, pageOf b = pageOf a → ∃ x, m'.read b 1 = .ok x

/-- O41 (R42). Little-endian: parts of a stored value. -/
def Obligations.LittleEndian : Prop :=
  (∀ (m m' : Memory) (a : Word) (n : Nat) (v : Word), m.wf → m.write a n v = .ok m' →
    m'.read a n = .ok (v.toNat % 2 ^ (8 * n))) ∧
  (∀ (m m' : Memory) (a : Word) (v : Word), m.wf → m.write a 8 v = .ok m' →
    (∀ k < 8, m'.read (a + BitVec.ofNat 64 k) 1 = .ok (slice v (8 * k) 8).toNat) ∧
    m'.read (a + 4) 4 = .ok (slice v 32 32).toNat) ∧
  (∀ (s t : State) (f : Fetched), s.slotD = none → fetchStage s = t → t.slotD = some f →
    s.mem.read s.pc 4 = .ok f.code.toNat)

/-- O42 (R45). allocate and deallocate, and no step removes a page. -/
def Obligations.AllocateDeallocate : Prop :=
  (∀ (m : Memory) (a : Word), m.wf →
    (m.mapped a = true → m.allocate a = .error .doubleAllocation) ∧
    (m.mapped a = false → ∃ m', m.allocate a = .ok m' ∧ m'.wf ∧
      ∀ b, m'.peek b = if pageOf b = pageOf a then some 0 else m.peek b) ∧
    (m.mapped a = false → m.deallocate a = .error .missingPage) ∧
    (m.mapped a = true → ∃ m', m.deallocate a = .ok m' ∧ m'.wf ∧
      ∀ b, m'.peek b = if pageOf b = pageOf a then none else m.peek b)) ∧
  (∀ (s t : State) (a : Word), step s = .next t → s.mem.mapped a = true → t.mem.mapped a = true)

/-! ## The step -/

/-- O43 (R320). One cycle: WriteBack, AccessMemory, Execute, Decode, Fetch. -/
def Obligations.StepCycleOrder : Prop :=
  ∀ s : State, s.ConfigOk →
    ((s.exit = true ∨ s.fatal ≠ none) → step s = .next s) ∧
    (s.exit = false → s.fatal = none →
      let b := accessMemory (writeBack { s with counters := { s.counters with cycles := s.counters.cycles + 1 } })
      (b.fatal ≠ none → step s = .next b) ∧
      (b.fatal = none →
        ∀ e, execute b = .next e →
          ((e.exit = true ∨ e.fatal ≠ none) → step s = .next e) ∧
          (e.exit = false → e.fatal = none →
            let d := decodeStage e
            (d.fatal ≠ none → step s = .next d) ∧
            (d.fatal = none → step s = .next (fetchStage d)))))

/-- O44 (R320, R331, R336, R340, R342). The instruction a step executes is the one its bytes in memory decode to.
Derived. That `wb` and `addr` of the record are 0 before Execute (in Record.decoded) is the model's choice: log
entry 12, DESIGN CHOICE. -/
def Obligations.StepRunsTheDecodedInstruction : Prop :=
  ∀ (s0 s1 s2 : State) (r : Record), step s0 = .next s1 → step s1 = .next s2 → s2.stopped = false →
    s2.slotE = some r →
    (∃ v, s1.mem.read r.pc 4 = .ok v ∧ r.code = BitVec.ofNat 32 v ∧ decode s2.cfg.hasM r.code = .instr r.op ∧
      r = Record.decoded { code := r.code, pc := r.pc } r.op) ∧
    ((beforeExecute s2).stopped = false →
      step s2 =
        match exec r.op (beforeExecute s2) with
        | .next t => .next (finishCycle t)
        | .fault f => .fault f
        | .refused q => .refused q)

/-- O45 (R333). A taken transfer empties slots D and E, counts one control stall, and costs one bubble. -/
def Obligations.TakenTransferSquashes : Prop :=
  ∀ (s t : State) (r : Record), step s = .next t → t.stopped = false → s.slotE = some r →
    let b := beforeExecute s
    let target := if r.kind = .jalr then (b.fwd r.rs1 + r.imm) &&& ~~~1 else r.pc + r.imm
    let taken := r.kind = .jal ∨ r.kind = .jalr ∨ kindCond r.kind (b.fwd r.rs1) (b.fwd r.rs2) = some true
    (taken →
      t.slotE = none ∧ t.counters.controlStalls = s.counters.controlStalls + 1 ∧
      (∃ f, t.slotD = some f ∧ f.pc = target ∧ t.pc = target + BitVec.ofNat 64 f.len) ∧
      (∃ m, t.slotM = some m ∧ m.pc = r.pc ∧ m.op = r.op) ∧
      (∀ u, step t = .next u → u.stopped = false → u.slotM = none)) ∧
    (¬ taken → t.counters.controlStalls = s.counters.controlStalls)

/-- O46 (R362). Where everything stands when the machine stops. -/
def Obligations.StateAtAStop : Prop :=
  (∀ (s t : State) (k : FatalKind), step s = .next t → s.stopped = false → t.fatal = some k →
    let b := beforeExecute s
    let target := fun r : Record => if r.kind = .jalr then (b.fwd r.rs1 + r.imm) &&& ~~~1 else r.pc + r.imm
    let taken := fun r : Record =>
      r.kind = .jal ∨ r.kind = .jalr ∨ kindCond r.kind (b.fwd r.rs1) (b.fwd r.rs2) = some true
    let memoryAfterExecute :=
      (∃ e, execute b = .next e ∧ t.mem = e.mem) ∧ ((∀ r, s.slotE = some r → r.op ≠ .ecall) → t.mem = b.mem)
    t.regs = (writeBack s).regs ∧ t.exit = false ∧
    ((t = b ∧ t.slotW = none ∧ t.slotM = s.slotM ∧ t.slotE = s.slotE ∧ t.slotD = s.slotD ∧ t.pc = s.pc ∧
        t.mem = s.mem ∧
        (∃ r, s.slotM = some r ∧
          (r.kind.isLoad = true ∧ k ∈ [.unmappedRead, .pageCross] ∨ r.kind.isStore = true ∧ k = .pageCross))) ∨
     (b.stopped = false ∧ t.slotW = b.slotW ∧ t.slotW.map Record.pc = s.slotM.map Record.pc ∧ t.slotM = none ∧
        t.slotE = s.slotE ∧ t.slotD = s.slotD ∧ t.pc = s.pc ∧ (∃ r, s.slotE = some r ∧ r.op = .ecall) ∧
        (k ∈ [.unknownSyscall, .unmappedRead] ∧ t.mem = b.mem ∨
         k = .doubleAllocation ∧ execute b = .next t ∧
           ∀ a, b.mem.mapped a = true → t.mem.peek a = b.mem.peek a)) ∨
     (b.stopped = false ∧ t.slotW = b.slotW ∧ t.slotW.map Record.pc = s.slotM.map Record.pc ∧
        t.slotM.map Record.pc = s.slotE.map Record.pc ∧ t.slotE = none ∧ t.slotD = s.slotD ∧ t.slotD ≠ none ∧
        t.pc = s.pc ∧ (∀ r, s.slotE = some r → ¬ taken r) ∧ memoryAfterExecute ∧ k = .decodeFailure) ∨
     (b.stopped = false ∧ t.slotW = b.slotW ∧ t.slotW.map Record.pc = s.slotM.map Record.pc ∧
        t.slotM.map Record.pc = s.slotE.map Record.pc ∧ t.slotD = none ∧
        (∀ r, s.slotE = some r → taken r → t.slotE = none ∧ t.pc = target r) ∧
        ((∀ r, s.slotE = some r → ¬ taken r) →
          t.slotE.map Record.pc = s.slotD.map Fetched.pc ∧ t.pc = s.pc) ∧ memoryAfterExecute ∧
        (k = .pageCross ∧ offOf t.pc > 4092 ∨
         k = .unmappedRead ∧ offOf t.pc ≤ 4092 ∧ t.mem.mapped t.pc = false)))) ∧
  (∀ s t : State, step s = .next t → s.stopped = false → t.exit = true →
    let b := beforeExecute s
    t.fatal = none ∧ b.stopped = false ∧ t.regs = (writeBack s).regs ∧ t.slotW = b.slotW ∧
    t.slotW.map Record.pc = s.slotM.map Record.pc ∧ t.slotM = none ∧ t.slotE = s.slotE ∧
    (∃ r, s.slotE = some r ∧ r.op = .ecall) ∧ t.slotD = s.slotD ∧ t.pc = s.pc ∧ t.mem = b.mem)

/-- O47 (R371, R372, R373). is_exit, dump_state and next_instruction_pc. -/
def Obligations.DriverObservations : Prop :=
  (∀ p : Launch, (launch p).isExit = false ∧ (launch p).nextInstructionPc = none) ∧
  (∀ s t : State, step s = .next t →
    (t.isExit = true ↔ s.isExit = true ∨
      (s.stopped = false ∧ (beforeExecute s).stopped = false ∧ (∃ r, s.Holds .ecall r) ∧
        (beforeExecute s).fwd 17 = s.cfg.sysnum.exit)) ∧
    (s.isExit = false → t.fatal ≠ none → t.isExit = false)) ∧
  (∀ s : State,
    s.dumpState.pc = s.pc ∧ s.dumpState.heapPtr = s.heapPtr ∧ s.dumpState.counters = s.counters ∧
    (∀ x : Reg, s.dumpState.regs[x.toNat]'(x.isLt) = s.reg x) ∧
    s.dumpState.levels = s.levels.map (fun l => l.stats) ∧ s.dumpState.backing = s.backing.stats ∧
    (∀ r, s.slotE = some r → s.nextInstructionPc = some r.pc) ∧
    (s.slotE = none → s.nextInstructionPc = none))

/-! ## The storage levels -/

/-- O48 (R76). Latency and requests to the lower level, case by case. -/
def Obligations.LatencyAndRequestsByCase : Prop :=
  ∀ (l : CacheLevel) (latency : Request → Nat) (q : Request), l.Ok → l.cfg.Ok →
    let index := indexOf l.cfg q.addr
    let ways := l.ways index
    let hit := ∃ (k : Nat) (b : Block), ways[k]? = some b ∧ b.valid = true ∧ b.tag = tagOf l.cfg q.addr
    let dirtyVictim := fun v : Block => l.cfg.writeThrough = false ∧ (∀ b ∈ ways, b.valid = true) ∧ v ∈ ways ∧
      (∀ b ∈ ways, v.ctr ≤ b.ctr) ∧ v.dirty = true
    let fill : Request := { addr := blockBase l.cfg q.addr, size := l.cfg.blockSize, isRead := true }
    let back := fun v : Block => ({ addr := blockAddress l.cfg v.tag index, size := l.cfg.blockSize, isRead := false } : Request)
    let res := l.handleRequest (recorder latency) [] q
    let bus := l.cfg.busLatency
    (hit → q.isRead = true ∨ l.cfg.writeThrough = false →
      res.2 = ([], ⟨true, bus + l.cfg.hitLatency⟩)) ∧
    (hit → q.isRead = false → l.cfg.writeThrough = true →
      res.2 = ([q], ⟨true, bus + l.cfg.hitLatency + latency q + bus⟩)) ∧
    (¬ hit → q.isRead = true ∨ (l.cfg.writeAllocate = true ∧ l.cfg.writeThrough = false) → (∀ v, ¬ dirtyVictim v) →
      res.2 = ([fill], ⟨false, latency fill + bus⟩)) ∧
    (¬ hit → q.isRead = true ∨ (l.cfg.writeAllocate = true ∧ l.cfg.writeThrough = false) → ∀ v, dirtyVictim v →
      res.2 = ([back v, fill], ⟨false, latency (back v) + latency fill + bus⟩)) ∧
    (¬ hit → q.isRead = false → l.cfg.writeAllocate = true → l.cfg.writeThrough = true →
      res.2 = ([fill, q], ⟨false, latency fill + bus + latency q + bus⟩)) ∧
    (¬ hit → q.isRead = false → l.cfg.writeAllocate = false →
      res.2 = ([q], ⟨false, latency q + bus⟩)) ∧
    (¬ hit → q.isRead = false → l.cfg.writeAllocate = true → l.cfg.writeThrough = false →
      ∃ b ∈ res.1.ways index, b.tag = tagOf l.cfg q.addr ∧ b.valid = true ∧ b.dirty = true)

/-- O49 (R63, R65, R66, R67, R68, R69, R70, R71). What a request changes in a cache level. Derived. -/
def Obligations.RequestChangesOneWay : Prop :=
  ∀ (σ : Type) (lower : σ → Request → σ × Reply) (l : CacheLevel) (low : σ) (q : Request), l.Ok → l.cfg.Ok →
    let index := indexOf l.cfg q.addr
    let tag := tagOf l.cfg q.addr
    let l' := (l.handleRequest lower low q).1
    l'.cfg = l.cfg ∧ l'.seq = l.seq + 1 ∧ l'.stats.accessCount = l.stats.accessCount + 1 ∧
    (∀ j, j ≠ index → l'.ways j = l.ways j) ∧
    (∀ (k : Nat) (b : Block), (l.ways index)[k]? = some b → b.valid = true → b.tag = tag →
      l'.ways index = (l.ways index).set k
        { b with ctr := l.seq + 1, dirty := b.dirty || (!q.isRead && !l.cfg.writeThrough) } ∧
      l'.stats.missCount = l.stats.missCount ∧ l'.stats.fetchCount = l.stats.fetchCount ∧
      l'.stats.replaceCount = l.stats.replaceCount) ∧
    ((∀ b ∈ l.ways index, ¬ (b.valid = true ∧ b.tag = tag)) →
      l'.stats.missCount = l.stats.missCount + 1 ∧
      (q.isRead = true ∨ l.cfg.writeAllocate = true →
        l'.stats.fetchCount = l.stats.fetchCount + 1 ∧
        ∃ (k : Nat) (b : Block), (l.ways index)[k]? = some b ∧
          l'.ways index = (l.ways index).set k
            { valid := true, dirty := !q.isRead && !l.cfg.writeThrough, tag := tag, ctr := l.seq + 1 } ∧
          (b.valid = false → l'.stats.replaceCount = l.stats.replaceCount ∧
            ∀ j < k, ∀ c, (l.ways index)[j]? = some c → c.valid = true) ∧
          (b.valid = true → l'.stats.replaceCount = l.stats.replaceCount + 1 ∧
            ∀ c ∈ l.ways index, c.valid = true ∧ b.ctr ≤ c.ctr)) ∧
      (q.isRead = false → l.cfg.writeAllocate = false →
        l'.ways index = l.ways index ∧ l'.stats.fetchCount = l.stats.fetchCount ∧
        l'.stats.replaceCount = l.stats.replaceCount))

/-- O50 (R61, R73, R75). Every cycle of latency is counted at one level. Derived. -/
def Obligations.LatencyIsCountedOnce : Prop :=
  ∀ (s : State) (a : Word) (n : Nat) (isRead : Bool),
    (s.access a n isRead).totalLatency + s.counters.memDelayCycles =
      s.totalLatency + (s.access a n isRead).counters.memDelayCycles

/-! ## Launch and invariants -/

/-- O51 (R391). What a launch builds. -/
def Obligations.LaunchState : Prop :=
  (∀ p : Launch,
    let s := launch p
    s.pc = p.entryPc ∧ s.reg 0 = 0 ∧ s.reg 2 = p.stackTop ∧
    (∀ x : Reg, x ≠ 0 → x ≠ 2 → s.reg x = p.initX[x.toNat]'(x.isLt)) ∧
    s.heapPtr = p.heapStart ∧ (p.Ok → s.heapPtr.toNat % 4096 = 0) ∧ s.mem = p.image ∧
    s.slotD = none ∧ s.slotE = none ∧ s.slotM = none ∧ s.slotW = none ∧ s.exit = false ∧ s.fatal = none ∧
    s.levels.map (fun l => l.cfg) = p.levels ∧
    (∀ l ∈ s.levels, l.seq = 0 ∧ l.stats = ⟨0, 0, 0, 0, 0⟩ ∧
      ∀ j, l.ways j = List.replicate l.cfg.associativity ⟨false, false, 0, 0⟩) ∧
    s.backing = ⟨p.backing, ⟨0, 0, 0, 0, 0⟩⟩ ∧ s.counters = ⟨0, 0, 0, 0, 0⟩ ∧ s.cfg = p.cfg ∧
    s.output = [] ∧ s.input = p.input ∧
    (p.levels = [.defaultL1, .defaultL2, .defaultL3] → p.backing = .default → ∀ a n isRead,
      (s.access a n isRead).counters.memDelayCycles = 100)) ∧
  Launch.default.initX = Vector.replicate 32 0

/-- O52 (R6, R13, R14, R19, R23, R80, R390, R391). Every launch with an even entry, and reset, meet the invariant.
Derived. What is said of State.reset is the model's choice of OPEN parameters: log entries 1 to 5, DESIGN
CHOICE. -/
def Obligations.LaunchMeetsTheInvariant : Prop :=
  (∀ p : Launch, p.Ok → p.entryPc.toNat % 2 = 0 → (launch p).Inv ∧ (launch p).ConfigOk) ∧
  State.reset.Inv ∧ State.reset.ConfigOk ∧
  ∃ p : Launch, p.Ok ∧ p.initX = Vector.replicate 32 0 ∧ p.levels = [.defaultL1, .defaultL2, .defaultL3] ∧
    p.backing = .default ∧ p.cfg = Config.default ∧ State.reset = launch p

/-- O53 (R26, R44, R45, R234, R236). Every step keeps the memory in canonical form. Derived. -/
def Obligations.StepKeepsMemoryCanonical : Prop :=
  ∀ s t : State, s.MemoryOk → step s = .next t → t.MemoryOk

/-- O54 (R14). The heap pointer stays a multiple of the page size, changed by HEAP_ALLOCATE only. -/
def Obligations.StepKeepsRegisterInvariants : Prop :=
  (∀ s t : State, s.RegistersOk → step s = .next t → t.RegistersOk) ∧
  (∀ p : Launch, p.Ok → (launch p).heapPtr = p.heapStart ∧ p.heapStart.toNat % 4096 = 0) ∧
  (∀ s t : State, step s = .next t →
    ¬ ((∃ r, s.Holds .ecall r) ∧ (beforeExecute s).fwd 17 = s.cfg.sysnum.heapAllocate) →
    t.heapPtr = s.heapPtr ∧ ∀ h, step { s with heapPtr := h } = .next { t with heapPtr := h }) ∧
  (∀ s : State, s.dumpState.heapPtr = s.heapPtr)

/-- O55 (R13, R18, R19, R180, R341). Every step keeps the slots, the path and the evenness of addresses. Derived.
That `wb` and `addr` of the record in slot E are 0 (in Record.Fresh) is the model's choice: log entry 12, DESIGN
CHOICE. -/
def Obligations.StepKeepsThePipelineInPathOrder : Prop :=
  ∀ s t : State, s.SlotsOk → s.PathOk → s.EvenOk → step s = .next t → t.SlotsOk ∧ t.PathOk ∧ t.EvenOk

/-- O56 (R23, R63, R67, R71, R72, R77). Every step keeps the invariants of every cache level. Derived. -/
def Obligations.StepKeepsTheCacheInvariants : Prop :=
  ∀ s t : State, s.LevelsOk → step s = .next t →
    t.LevelsOk ∧ t.levels.map (fun l => l.cfg) = s.levels.map (fun l => l.cfg) ∧ t.cfg = s.cfg

/-! ## The pipeline against the sequential interpreter, and the cache out of sight -/

/-- O57 (R343, R330, R53, R400). One cycle of the pipeline is one step of the sequential interpreter. Derived. -/
def Obligations.StepRefinesTheInterpreter : Prop :=
  ∀ s t : State, s.SlotsOk → s.PathOk → step s = .next t → t.stopped = false →
    (s.slotE = none → t.commit = s.commit ∧ t.pathPc = s.pathPc) ∧
    (∀ r, s.slotE = some r →
      t.commit.map (fun a => (a, t.pathPc)) =
        s.commit.bind (fun a => seqStep s.cfg.sysnum r.op s.pathPc a))

/-- O58 (R343, R342, R19). A run of the pipeline is a run of the sequential interpreter. Derived. -/
def Obligations.RunRefinesTheInterpreter : Prop :=
  ∀ (n : Nat) (s t : State), s.SlotsOk → s.PathOk →
    Host.Core.run Sys2Proof.core n s = .next t → State.stopped t = false →
    (State.commit t).map (fun a => (a, State.pathPc t)) =
      s.commit.bind (fun a => seqRun s.cfg.sysnum (executedPath n s) s.pathPc a)

/-- O59 (R27). Nothing an instruction computes depends on the cache. -/
def Obligations.CacheIsInvisible : Prop :=
  ∀ s t : State, s.ConfigOk → t.ConfigOk → s.eraseCache = t.eraseCache → SameButCache (step s) (step t)
end

