-- ==== Sys2Proof/Laws/Sparse.lean ====
section
/-! SUPPORT. Sparse tables: reading after writing, and that writing keeps the canonical form. -/

namespace Sys2Proof.Machine

variable {β : Type} {d : β}

/-- A key below every listed one reads as the default. -/
theorem sparseGet_below (d : β) (k : Nat) (t : List (Nat × β)) (h : ∀ p ∈ t, k < p.1) : sparseGet d k t = d := by
  induction t with
  | nil => rfl
  | cons e t ih =>
    have : e.1 ≠ k := Nat.ne_of_gt (h e List.mem_cons_self)
    simp only [sparseGet, if_neg this]
    exact ih (fun p hp => h p (List.mem_cons_of_mem _ hp))

/-- A listed entry is what its key reads as. -/
theorem sparseGet_of_mem {k : Nat} {v : β} {t : List (Nat × β)} (hs : t.Pairwise (fun p q => p.1 < q.1))
    (h : (k, v) ∈ t) : sparseGet d k t = v := by
  induction t with
  | nil => cases h
  | cons e t ih =>
    rw [List.pairwise_cons] at hs
    rcases List.mem_cons.1 h with rfl | h
    · simp [sparseGet]
    · have : e.1 ≠ k := Nat.ne_of_lt (hs.1 _ h)
      simp only [sparseGet, if_neg this]
      exact ih hs.2 h

/-- A key that does not read as the default is listed. -/
theorem mem_of_sparseGet {k : Nat} {t : List (Nat × β)} (h : sparseGet d k t ≠ d) : (k, sparseGet d k t) ∈ t := by
  induction t with
  | nil => exact absurd rfl h
  | cons e t ih =>
    obtain ⟨k', v'⟩ := e
    by_cases hk : k' = k
    · subst hk; simp [sparseGet]
    · simp only [sparseGet, if_neg hk] at h ⊢
      exact List.mem_cons_of_mem _ (ih h)

variable [DecidableEq β]

/-- Every entry of the table after a write is an old one or the written one. -/
theorem mem_sparsePut {k : Nat} {v : β} {t : List (Nat × β)} {e : Nat × β} (h : e ∈ sparsePut d k v t) :
    (e = (k, v) ∧ v ≠ d) ∨ e ∈ t := by
  induction t with
  | nil =>
    simp only [sparsePut] at h
    split at h
    · cases h
    · rename_i hv; exact .inl ⟨by simpa using h, hv⟩
  | cons a t ih =>
    obtain ⟨k', v'⟩ := a
    simp only [sparsePut] at h
    split at h
    · split at h
      · exact .inr h
      · rename_i hv
        rcases List.mem_cons.1 h with rfl | h
        · exact .inl ⟨rfl, hv⟩
        · exact .inr h
    · split at h
      · split at h
        · exact .inr (List.mem_cons_of_mem _ h)
        · rename_i hv
          rcases List.mem_cons.1 h with rfl | h
          · exact .inl ⟨rfl, hv⟩
          · exact .inr (List.mem_cons_of_mem _ h)
      · rcases List.mem_cons.1 h with rfl | h
        · exact .inr List.mem_cons_self
        · rcases ih h with h | h
          · exact .inl h
          · exact .inr (List.mem_cons_of_mem _ h)

/-- Writing keeps the canonical form. -/
theorem sparsePut_wf {k : Nat} {v : β} {t : List (Nat × β)} (h : sparseWf d t) : sparseWf d (sparsePut d k v t) := by
  refine ⟨?_, ?_⟩
  · have hs := h.1
    clear h
    induction t with
    | nil => simp only [sparsePut]; split <;> simp
    | cons a t ih =>
      obtain ⟨k', v'⟩ := a
      rw [List.pairwise_cons] at hs
      simp only [sparsePut]
      split
      · rename_i hk
        split
        · exact List.pairwise_cons.2 hs
        · refine List.pairwise_cons.2 ⟨?_, List.pairwise_cons.2 hs⟩
          intro p hp
          rcases List.mem_cons.1 hp with rfl | hp
          · exact hk
          · exact Nat.lt_trans hk (hs.1 p hp)
      · rename_i hk
        split
        · rename_i he
          subst he
          split
          · exact hs.2
          · exact List.pairwise_cons.2 hs
        · rename_i hne
          refine List.pairwise_cons.2 ⟨?_, ih hs.2⟩
          intro p hp
          rcases mem_sparsePut hp with ⟨rfl, -⟩ | hp
          · exact Nat.lt_of_le_of_ne (Nat.le_of_not_lt hk) (fun e => hne e.symm)
          · exact hs.1 p hp
  · intro p hp
    rcases mem_sparsePut hp with ⟨rfl, hv⟩ | hp
    · exact hv
    · exact h.2 p hp

/-- Reading after a write: the written key reads as the written value, every other key as before. -/
theorem sparseGet_put {k j : Nat} {v : β} {t : List (Nat × β)} (hs : t.Pairwise (fun p q => p.1 < q.1)) :
    sparseGet d j (sparsePut d k v t) = if j = k then v else sparseGet d j t := by
  induction t with
  | nil =>
    by_cases hj : j = k
    · subst hj
      by_cases hv : v = d <;> simp [sparsePut, sparseGet, hv]
    · have hj' : ¬ k = j := fun e => hj e.symm
      by_cases hv : v = d <;> simp [sparsePut, sparseGet, hv, hj, hj']
  | cons a t ih =>
    obtain ⟨k', v'⟩ := a
    rw [List.pairwise_cons] at hs
    simp only [sparsePut]
    by_cases hlt : k < k'
    · rw [if_pos hlt]
      by_cases hj : j = k
      · subst hj
        rw [if_pos rfl]
        by_cases hv : v = d
        · rw [if_pos hv, hv]
          refine sparseGet_below d j _ ?_
          intro p hp
          rcases List.mem_cons.1 hp with rfl | hp
          · exact hlt
          · exact Nat.lt_trans hlt (hs.1 p hp)
        · rw [if_neg hv]; simp [sparseGet]
      · have hj' : ¬ k = j := fun e => hj e.symm
        rw [if_neg hj]
        by_cases hv : v = d
        · rw [if_pos hv]
        · rw [if_neg hv, sparseGet, if_neg hj']
    · rw [if_neg hlt]
      by_cases he : k = k'
      · subst he
        rw [if_pos rfl]
        by_cases hj : j = k
        · subst hj
          rw [if_pos rfl]
          by_cases hv : v = d
          · rw [if_pos hv, hv]; exact sparseGet_below d j _ hs.1
          · rw [if_neg hv]; simp [sparseGet]
        · have hj' : ¬ k = j := fun e => hj e.symm
          rw [if_neg hj]
          by_cases hv : v = d
          · rw [if_pos hv]; simp [sparseGet, hj']
          · rw [if_neg hv]; simp [sparseGet, hj']
      · rw [if_neg he]
        by_cases hj' : k' = j
        · have hjk : ¬ j = k := fun e => he (e.symm.trans hj'.symm)
          rw [if_neg hjk]; simp [sparseGet, hj']
        · rw [sparseGet, if_neg hj', ih hs.2, sparseGet, if_neg hj']

/-- The keys after an insertion. -/
@[simp] theorem mem_keyInsert {k j : Nat} {l : List Nat} : j ∈ keyInsert k l ↔ j = k ∨ j ∈ l := by
  induction l with
  | nil => simp [keyInsert]
  | cons a l ih =>
    simp only [keyInsert]
    split
    · simp
    · split
      · rename_i h; subst h; simp
      · simp only [List.mem_cons, ih]; tauto

/-- Insertion keeps the keys rising. -/
theorem keyInsert_sorted {k : Nat} {l : List Nat} (h : l.Pairwise (· < ·)) : (keyInsert k l).Pairwise (· < ·) := by
  induction l with
  | nil => simp [keyInsert]
  | cons a l ih =>
    rw [List.pairwise_cons] at h
    simp only [keyInsert]
    split
    · rename_i hk
      refine List.pairwise_cons.2 ⟨?_, List.pairwise_cons.2 h⟩
      intro p hp
      rcases List.mem_cons.1 hp with rfl | hp
      · exact hk
      · exact Nat.lt_trans hk (h.1 p hp)
    · rename_i hk
      split
      · exact List.pairwise_cons.2 h
      · rename_i hne
        refine List.pairwise_cons.2 ⟨?_, ih h.2⟩
        intro p hp
        rcases mem_keyInsert.1 hp with rfl | hp
        · exact Nat.lt_of_le_of_ne (Nat.le_of_not_lt hk) (fun e => hne e.symm)
        · exact h.1 p hp

end Sys2Proof.Machine
end

