-- ==== Sys2Proof/Laws/Cache.lean ====
section
/-! SUPPORT. The fields of a cache level under each update, the ways after a write of a set, what the three way searches
answer, and that a request keeps the configuration. -/

namespace Sys2Proof.Machine

/-! ## Fields -/

@[simp] theorem CacheLevel.setWays_cfg (l : CacheLevel) (i : Nat) (ws : List Block) : (l.setWays i ws).cfg = l.cfg := rfl
@[simp] theorem CacheLevel.setWays_seq (l : CacheLevel) (i : Nat) (ws : List Block) : (l.setWays i ws).seq = l.seq := rfl
@[simp] theorem CacheLevel.setWays_stats (l : CacheLevel) (i : Nat) (ws : List Block) :
    (l.setWays i ws).stats = l.stats := rfl
@[simp] theorem CacheLevel.count_cfg (l : CacheLevel) : l.count.cfg = l.cfg := rfl
@[simp] theorem CacheLevel.count_sets (l : CacheLevel) : l.count.sets = l.sets := rfl
@[simp] theorem CacheLevel.count_seq (l : CacheLevel) : l.count.seq = l.seq + 1 := rfl
@[simp] theorem CacheLevel.count_ways (l : CacheLevel) (i : Nat) : l.count.ways i = l.ways i := rfl
@[simp] theorem CacheLevel.countMiss_cfg (l : CacheLevel) : l.countMiss.cfg = l.cfg := rfl
@[simp] theorem CacheLevel.countMiss_sets (l : CacheLevel) : l.countMiss.sets = l.sets := rfl
@[simp] theorem CacheLevel.countMiss_seq (l : CacheLevel) : l.countMiss.seq = l.seq := rfl
@[simp] theorem CacheLevel.countMiss_ways (l : CacheLevel) (i : Nat) : l.countMiss.ways i = l.ways i := rfl
@[simp] theorem CacheLevel.countReplace_cfg (l : CacheLevel) : l.countReplace.cfg = l.cfg := rfl
@[simp] theorem CacheLevel.countReplace_sets (l : CacheLevel) : l.countReplace.sets = l.sets := rfl
@[simp] theorem CacheLevel.countReplace_seq (l : CacheLevel) : l.countReplace.seq = l.seq := rfl
@[simp] theorem CacheLevel.countReplace_ways (l : CacheLevel) (i : Nat) : l.countReplace.ways i = l.ways i := rfl
@[simp] theorem CacheLevel.countFetch_cfg (l : CacheLevel) : l.countFetch.cfg = l.cfg := rfl
@[simp] theorem CacheLevel.countFetch_sets (l : CacheLevel) : l.countFetch.sets = l.sets := rfl
@[simp] theorem CacheLevel.countFetch_seq (l : CacheLevel) : l.countFetch.seq = l.seq := rfl
@[simp] theorem CacheLevel.countFetch_ways (l : CacheLevel) (i : Nat) : l.countFetch.ways i = l.ways i := rfl
@[simp] theorem CacheLevel.addOwn_cfg (l : CacheLevel) (n : Nat) : (l.addOwn n).cfg = l.cfg := rfl
@[simp] theorem CacheLevel.addOwn_sets (l : CacheLevel) (n : Nat) : (l.addOwn n).sets = l.sets := rfl
@[simp] theorem CacheLevel.addOwn_seq (l : CacheLevel) (n : Nat) : (l.addOwn n).seq = l.seq := rfl
@[simp] theorem CacheLevel.addOwn_ways (l : CacheLevel) (n i : Nat) : (l.addOwn n).ways i = l.ways i := rfl

/-- The prefetch hook does nothing (R74). -/
@[simp] theorem prefetchHook_eq {σ : Type} (p : CacheLevel × σ) : prefetchHook p = p := rfl

/-! ## The ways of a set -/

/-- Writing one set leaves every other set alone. -/
theorem CacheLevel.ways_setWays {l : CacheLevel} (h : l.sets.Pairwise (fun p q => p.1 < q.1)) (i j : Nat)
    (ws : List Block) : (l.setWays i ws).ways j = if j = i then ws else l.ways j :=
  sparseGet_put h

/-- A set that is not listed has as many invalid blocks as the level has ways (R23). -/
theorem CacheLevel.ways_launch (c : CacheConfig) (j : Nat) :
    (CacheLevel.launch c).ways j = List.replicate c.associativity Block.invalid := rfl

/-! ## The way searches -/

/-- A hit is a valid way with the tag (R65). -/
theorem hitWay_some {ws : List Block} {tag k : Nat} (h : hitWay ws tag = some k) :
    ∃ b, ws[k]? = some b ∧ b.valid = true ∧ b.tag = tag := by
  unfold hitWay at h
  obtain ⟨hk, hb, -⟩ := List.findIdx?_eq_some_iff_getElem.1 h
  simp only [Bool.and_eq_true, beq_iff_eq] at hb
  exact ⟨ws[k], by simp [hk], hb.1, hb.2⟩

theorem hitWay_none {ws : List Block} {tag : Nat} (h : hitWay ws tag = none) {b : Block} (hb : b ∈ ws) :
    ¬ (b.valid = true ∧ b.tag = tag) := by
  unfold hitWay at h
  have := List.findIdx?_eq_none_iff.1 h b hb
  simpa using this

/-- The way a miss fills without an eviction is not valid (R68). -/
theorem freeWay_some {ws : List Block} {k : Nat} (h : freeWay ws = some k) :
    (∃ b, ws[k]? = some b ∧ b.valid = false) ∧ ∀ j < k, ∀ c, ws[j]? = some c → c.valid = true := by
  unfold freeWay at h
  obtain ⟨hk, hb, hl⟩ := List.findIdx?_eq_some_iff_getElem.1 h
  refine ⟨⟨ws[k], by simp [hk], by simpa using hb⟩, fun j hj c hc => ?_⟩
  have hjl : j < ws.length := by omega
  have := hl j hj
  rw [List.getElem?_eq_getElem hjl] at hc
  cases hc
  simpa using this

theorem freeWay_none {ws : List Block} (h : freeWay ws = none) {b : Block} (hb : b ∈ ws) : b.valid = true := by
  unfold freeWay at h
  have := List.findIdx?_eq_none_iff.1 h b hb
  simpa using this

/-- The victim is a way of the set, and no way has a smaller stamp (R69). -/
theorem oldestWay_spec (ws : List Block) (h : ws ≠ []) :
    oldestWay ws < ws.length ∧ ∀ b ∈ ws, (wayOf ws (oldestWay ws)).ctr ≤ b.ctr := by
  induction ws with
  | nil => exact absurd rfl h
  | cons b t ih =>
    cases t with
    | nil => simp [oldestWay, wayOf]
    | cons c t =>
      obtain ⟨h1, h2⟩ := ih (by simp)
      by_cases hc : b.ctr ≤ (wayOf (c :: t) (oldestWay (c :: t))).ctr
      · have he : oldestWay (b :: c :: t) = 0 := if_pos hc
        rw [he]
        refine ⟨by simp, fun d hd => ?_⟩
        have hw : wayOf (b :: c :: t) 0 = b := rfl
        rw [hw]
        rcases List.mem_cons.1 hd with rfl | hd
        · exact le_refl _
        · exact le_trans hc (h2 d hd)
      · have he : oldestWay (b :: c :: t) = oldestWay (c :: t) + 1 := if_neg hc
        have hw : wayOf (b :: c :: t) (oldestWay (c :: t) + 1) = wayOf (c :: t) (oldestWay (c :: t)) := rfl
        rw [he, hw]
        refine ⟨by simpa using h1, fun d hd => ?_⟩
        rcases List.mem_cons.1 hd with rfl | hd
        · omega
        · exact h2 d hd

/-- The block of a way inside the set. -/
theorem wayOf_eq {ws : List Block} {k : Nat} {b : Block} (h : ws[k]? = some b) : wayOf ws k = b := by
  simp [wayOf, List.getD_eq_getElem?_getD, h]

/-! ## A request -/

/-- A request keeps the configuration and moves the sequence number on by one (R63). -/
theorem CacheLevel.handleRequest_cfg_seq {σ : Type} (lower : σ → Request → σ × Reply) (l : CacheLevel) (low : σ)
    (q : Request) :
    (l.handleRequest lower low q).1.cfg = l.cfg ∧ (l.handleRequest lower low q).1.seq = l.seq + 1 := by
  simp only [CacheLevel.handleRequest, CacheLevel.onHit, CacheLevel.onMissAllocate, CacheLevel.onMissBypass,
    CacheLevel.chooseWay, CacheLevel.chooseVictim, prefetchHook]
  repeat' split
  all_goals simp_all

/-- What the lower level keeps, a request keeps. -/
theorem CacheLevel.handleRequest_low {σ : Type} {P : σ → Prop} {lower : σ → Request → σ × Reply}
    (hP : ∀ low q, P low → P (lower low q).1) (l : CacheLevel) {low : σ} (h : P low) (q : Request) :
    P (l.handleRequest lower low q).2.1 := by
  simp only [CacheLevel.handleRequest, CacheLevel.onHit, CacheLevel.onMissAllocate, CacheLevel.onMissBypass,
    CacheLevel.chooseWay, CacheLevel.chooseVictim, prefetchHook]
  repeat' split
  all_goals simp_all

/-- One level of a chain (R75). -/
theorem chainRequest_cons (n : Nat) (l : CacheLevel) (ls : List CacheLevel) (b : Backing) (q : Request) :
    chainRequest (n + 1) (l :: ls, b) q =
      (((l.handleRequest (chainRequest n) (ls, b) q).1 :: (l.handleRequest (chainRequest n) (ls, b) q).2.1.1,
        (l.handleRequest (chainRequest n) (ls, b) q).2.1.2), (l.handleRequest (chainRequest n) (ls, b) q).2.2) := rfl

/-- A chain keeps its levels' configurations and the backing memory's. -/
theorem chainRequest_cfg (n : Nat) : ∀ (p : List CacheLevel × Backing) (q : Request),
    (chainRequest n p q).1.1.map CacheLevel.cfg = p.1.map CacheLevel.cfg ∧
    (chainRequest n p q).1.2.cfg = p.2.cfg := by
  induction n with
  | zero => exact fun p q => ⟨rfl, rfl⟩
  | succ n ih =>
    rintro ⟨ls, b⟩ q
    cases ls with
    | nil => exact ⟨rfl, rfl⟩
    | cons l ls =>
      rw [chainRequest_cons]
      have hl := CacheLevel.handleRequest_low
        (P := fun p : List CacheLevel × Backing => p.1.map CacheLevel.cfg = ls.map CacheLevel.cfg ∧ p.2.cfg = b.cfg)
        (lower := chainRequest n)
        (fun low q hp => ⟨(ih low q).1.trans hp.1, (ih low q).2.trans hp.2⟩) l (low := (ls, b)) ⟨rfl, rfl⟩ q
      refine ⟨?_, hl.2⟩
      simp only [List.map_cons]
      rw [hl.1, (l.handleRequest_cfg_seq (chainRequest n) (ls, b) q).1]

end Sys2Proof.Machine
end

