-- ==== Sys2Proof/Laws/Encoding.lean ====
section
/-! SUPPORT. Slices of concatenated fields, the fields of each encoded format, and the length of an encoded word. -/

namespace Sys2Proof

/-- A slice of the low part of a concatenation. -/
theorem slice_append_low {m n : Nat} (x : BitVec m) (y : BitVec n) (lo k : Nat) (h : lo + k ≤ n) :
    slice (x ++ y) lo k = slice y lo k := by
  apply BitVec.eq_of_getLsbD_eq
  intro i hi
  have : lo + i < n := by omega
  simp [slice, BitVec.getLsbD_append, hi, this]

/-- A slice of the high part of a concatenation. -/
theorem slice_append_high {m n : Nat} (x : BitVec m) (y : BitVec n) (lo k : Nat) (h : n ≤ lo) :
    slice (x ++ y) lo k = slice x (lo - n) k := by
  apply BitVec.eq_of_getLsbD_eq
  intro i hi
  have h1 : ¬ lo + i < n := by omega
  have h2 : lo + i - n = lo - n + i := by omega
  simp [slice, BitVec.getLsbD_append, hi, h1, h2]

/-- The whole of a word as a slice. -/
@[simp] theorem slice_self {n : Nat} (x : BitVec n) : slice x 0 n = x := by
  apply BitVec.eq_of_getLsbD_eq
  intro i hi
  simp [slice, hi]

/-- A slice of a slice. -/
theorem slice_slice {n : Nat} (x : BitVec n) (lo k lo' k' : Nat) (h : lo' + k' ≤ k) :
    slice (slice x lo k) lo' k' = slice x (lo + lo') k' := by
  apply BitVec.eq_of_getLsbD_eq
  intro i hi
  have h1 : lo' + i < k := by omega
  simp [slice, hi, h1, Nat.add_assoc]

/-! ## The fields of the 32-bit formats (R93, R94) -/

@[simp] theorem opcodeOf_encR (funct7 : BitVec 7) (rs2 rs1 : Reg) (funct3 : BitVec 3) (rd : Reg) (opcode : BitVec 7) :
    opcodeOf (encR funct7 rs2 rs1 funct3 rd opcode) = opcode := by
  apply BitVec.eq_of_getLsbD_eq
  intro i hi
  simp only [opcodeOf, slice, encR, BitVec.getLsbD_extractLsb', BitVec.getLsbD_append]
  interval_cases i <;> simp

@[simp] theorem rdOf_encR (funct7 : BitVec 7) (rs2 rs1 : Reg) (funct3 : BitVec 3) (rd : Reg) (opcode : BitVec 7) :
    rdOf (encR funct7 rs2 rs1 funct3 rd opcode) = rd := by
  apply BitVec.eq_of_getLsbD_eq
  intro i hi
  simp only [rdOf, slice, encR, BitVec.getLsbD_extractLsb', BitVec.getLsbD_append]
  interval_cases i <;> simp

@[simp] theorem funct3Of_encR (funct7 : BitVec 7) (rs2 rs1 : Reg) (funct3 : BitVec 3) (rd : Reg) (opcode : BitVec 7) :
    funct3Of (encR funct7 rs2 rs1 funct3 rd opcode) = funct3 := by
  apply BitVec.eq_of_getLsbD_eq
  intro i hi
  simp only [funct3Of, slice, encR, BitVec.getLsbD_extractLsb', BitVec.getLsbD_append]
  interval_cases i <;> simp

@[simp] theorem rs1Of_encR (funct7 : BitVec 7) (rs2 rs1 : Reg) (funct3 : BitVec 3) (rd : Reg) (opcode : BitVec 7) :
    rs1Of (encR funct7 rs2 rs1 funct3 rd opcode) = rs1 := by
  apply BitVec.eq_of_getLsbD_eq
  intro i hi
  simp only [rs1Of, slice, encR, BitVec.getLsbD_extractLsb', BitVec.getLsbD_append]
  interval_cases i <;> simp

@[simp] theorem rs2Of_encR (funct7 : BitVec 7) (rs2 rs1 : Reg) (funct3 : BitVec 3) (rd : Reg) (opcode : BitVec 7) :
    rs2Of (encR funct7 rs2 rs1 funct3 rd opcode) = rs2 := by
  apply BitVec.eq_of_getLsbD_eq
  intro i hi
  simp only [rs2Of, slice, encR, BitVec.getLsbD_extractLsb', BitVec.getLsbD_append]
  interval_cases i <;> simp

@[simp] theorem funct7Of_encR (funct7 : BitVec 7) (rs2 rs1 : Reg) (funct3 : BitVec 3) (rd : Reg) (opcode : BitVec 7) :
    funct7Of (encR funct7 rs2 rs1 funct3 rd opcode) = funct7 := by
  apply BitVec.eq_of_getLsbD_eq
  intro i hi
  simp only [funct7Of, slice, encR, BitVec.getLsbD_extractLsb', BitVec.getLsbD_append]
  interval_cases i <;> simp

@[simp] theorem opcodeOf_encI (imm : BitVec 12) (rs1 : Reg) (funct3 : BitVec 3) (rd : Reg) (opcode : BitVec 7) :
    opcodeOf (encI imm rs1 funct3 rd opcode) = opcode := by
  apply BitVec.eq_of_getLsbD_eq
  intro i hi
  simp only [opcodeOf, slice, encI, BitVec.getLsbD_extractLsb', BitVec.getLsbD_append]
  interval_cases i <;> simp

@[simp] theorem rdOf_encI (imm : BitVec 12) (rs1 : Reg) (funct3 : BitVec 3) (rd : Reg) (opcode : BitVec 7) :
    rdOf (encI imm rs1 funct3 rd opcode) = rd := by
  apply BitVec.eq_of_getLsbD_eq
  intro i hi
  simp only [rdOf, slice, encI, BitVec.getLsbD_extractLsb', BitVec.getLsbD_append]
  interval_cases i <;> simp

@[simp] theorem funct3Of_encI (imm : BitVec 12) (rs1 : Reg) (funct3 : BitVec 3) (rd : Reg) (opcode : BitVec 7) :
    funct3Of (encI imm rs1 funct3 rd opcode) = funct3 := by
  apply BitVec.eq_of_getLsbD_eq
  intro i hi
  simp only [funct3Of, slice, encI, BitVec.getLsbD_extractLsb', BitVec.getLsbD_append]
  interval_cases i <;> simp

@[simp] theorem rs1Of_encI (imm : BitVec 12) (rs1 : Reg) (funct3 : BitVec 3) (rd : Reg) (opcode : BitVec 7) :
    rs1Of (encI imm rs1 funct3 rd opcode) = rs1 := by
  apply BitVec.eq_of_getLsbD_eq
  intro i hi
  simp only [rs1Of, slice, encI, BitVec.getLsbD_extractLsb', BitVec.getLsbD_append]
  interval_cases i <;> simp

@[simp] theorem immIOf_encI (imm : BitVec 12) (rs1 : Reg) (funct3 : BitVec 3) (rd : Reg) (opcode : BitVec 7) :
    immIOf (encI imm rs1 funct3 rd opcode) = imm := by
  apply BitVec.eq_of_getLsbD_eq
  intro i hi
  simp only [immIOf, slice, encI, BitVec.getLsbD_extractLsb', BitVec.getLsbD_append]
  interval_cases i <;> simp

@[simp] theorem opcodeOf_encShift (funct6 shamt : BitVec 6) (rs1 : Reg) (funct3 : BitVec 3) (rd : Reg) (opcode : BitVec 7) :
    opcodeOf (encShift funct6 shamt rs1 funct3 rd opcode) = opcode := by
  apply BitVec.eq_of_getLsbD_eq
  intro i hi
  simp only [opcodeOf, slice, encShift, BitVec.getLsbD_extractLsb', BitVec.getLsbD_append]
  interval_cases i <;> simp

@[simp] theorem rdOf_encShift (funct6 shamt : BitVec 6) (rs1 : Reg) (funct3 : BitVec 3) (rd : Reg) (opcode : BitVec 7) :
    rdOf (encShift funct6 shamt rs1 funct3 rd opcode) = rd := by
  apply BitVec.eq_of_getLsbD_eq
  intro i hi
  simp only [rdOf, slice, encShift, BitVec.getLsbD_extractLsb', BitVec.getLsbD_append]
  interval_cases i <;> simp

@[simp] theorem funct3Of_encShift (funct6 shamt : BitVec 6) (rs1 : Reg) (funct3 : BitVec 3) (rd : Reg) (opcode : BitVec 7) :
    funct3Of (encShift funct6 shamt rs1 funct3 rd opcode) = funct3 := by
  apply BitVec.eq_of_getLsbD_eq
  intro i hi
  simp only [funct3Of, slice, encShift, BitVec.getLsbD_extractLsb', BitVec.getLsbD_append]
  interval_cases i <;> simp

@[simp] theorem rs1Of_encShift (funct6 shamt : BitVec 6) (rs1 : Reg) (funct3 : BitVec 3) (rd : Reg) (opcode : BitVec 7) :
    rs1Of (encShift funct6 shamt rs1 funct3 rd opcode) = rs1 := by
  apply BitVec.eq_of_getLsbD_eq
  intro i hi
  simp only [rs1Of, slice, encShift, BitVec.getLsbD_extractLsb', BitVec.getLsbD_append]
  interval_cases i <;> simp

@[simp] theorem shamt6Of_encShift (funct6 shamt : BitVec 6) (rs1 : Reg) (funct3 : BitVec 3) (rd : Reg) (opcode : BitVec 7) :
    shamt6Of (encShift funct6 shamt rs1 funct3 rd opcode) = shamt := by
  apply BitVec.eq_of_getLsbD_eq
  intro i hi
  simp only [shamt6Of, slice, encShift, BitVec.getLsbD_extractLsb', BitVec.getLsbD_append]
  interval_cases i <;> simp

@[simp] theorem funct6Of_encShift (funct6 shamt : BitVec 6) (rs1 : Reg) (funct3 : BitVec 3) (rd : Reg) (opcode : BitVec 7) :
    funct6Of (encShift funct6 shamt rs1 funct3 rd opcode) = funct6 := by
  apply BitVec.eq_of_getLsbD_eq
  intro i hi
  simp only [funct6Of, slice, encShift, BitVec.getLsbD_extractLsb', BitVec.getLsbD_append]
  interval_cases i <;> simp

@[simp] theorem opcodeOf_encS (imm : BitVec 12) (rs2 rs1 : Reg) (funct3 : BitVec 3) (opcode : BitVec 7) :
    opcodeOf (encS imm rs2 rs1 funct3 opcode) = opcode := by
  apply BitVec.eq_of_getLsbD_eq
  intro i hi
  simp only [opcodeOf, slice, encS, BitVec.getLsbD_extractLsb', BitVec.getLsbD_append]
  interval_cases i <;> simp

@[simp] theorem funct3Of_encS (imm : BitVec 12) (rs2 rs1 : Reg) (funct3 : BitVec 3) (opcode : BitVec 7) :
    funct3Of (encS imm rs2 rs1 funct3 opcode) = funct3 := by
  apply BitVec.eq_of_getLsbD_eq
  intro i hi
  simp only [funct3Of, slice, encS, BitVec.getLsbD_extractLsb', BitVec.getLsbD_append]
  interval_cases i <;> simp

@[simp] theorem rs1Of_encS (imm : BitVec 12) (rs2 rs1 : Reg) (funct3 : BitVec 3) (opcode : BitVec 7) :
    rs1Of (encS imm rs2 rs1 funct3 opcode) = rs1 := by
  apply BitVec.eq_of_getLsbD_eq
  intro i hi
  simp only [rs1Of, slice, encS, BitVec.getLsbD_extractLsb', BitVec.getLsbD_append]
  interval_cases i <;> simp

@[simp] theorem rs2Of_encS (imm : BitVec 12) (rs2 rs1 : Reg) (funct3 : BitVec 3) (opcode : BitVec 7) :
    rs2Of (encS imm rs2 rs1 funct3 opcode) = rs2 := by
  apply BitVec.eq_of_getLsbD_eq
  intro i hi
  simp only [rs2Of, slice, encS, BitVec.getLsbD_extractLsb', BitVec.getLsbD_append]
  interval_cases i <;> simp

@[simp] theorem opcodeOf_encB (imm : BitVec 13) (rs2 rs1 : Reg) (funct3 : BitVec 3) (opcode : BitVec 7) :
    opcodeOf (encB imm rs2 rs1 funct3 opcode) = opcode := by
  apply BitVec.eq_of_getLsbD_eq
  intro i hi
  simp only [opcodeOf, slice, encB, BitVec.getLsbD_extractLsb', BitVec.getLsbD_append]
  interval_cases i <;> simp

@[simp] theorem funct3Of_encB (imm : BitVec 13) (rs2 rs1 : Reg) (funct3 : BitVec 3) (opcode : BitVec 7) :
    funct3Of (encB imm rs2 rs1 funct3 opcode) = funct3 := by
  apply BitVec.eq_of_getLsbD_eq
  intro i hi
  simp only [funct3Of, slice, encB, BitVec.getLsbD_extractLsb', BitVec.getLsbD_append]
  interval_cases i <;> simp

@[simp] theorem rs1Of_encB (imm : BitVec 13) (rs2 rs1 : Reg) (funct3 : BitVec 3) (opcode : BitVec 7) :
    rs1Of (encB imm rs2 rs1 funct3 opcode) = rs1 := by
  apply BitVec.eq_of_getLsbD_eq
  intro i hi
  simp only [rs1Of, slice, encB, BitVec.getLsbD_extractLsb', BitVec.getLsbD_append]
  interval_cases i <;> simp

@[simp] theorem rs2Of_encB (imm : BitVec 13) (rs2 rs1 : Reg) (funct3 : BitVec 3) (opcode : BitVec 7) :
    rs2Of (encB imm rs2 rs1 funct3 opcode) = rs2 := by
  apply BitVec.eq_of_getLsbD_eq
  intro i hi
  simp only [rs2Of, slice, encB, BitVec.getLsbD_extractLsb', BitVec.getLsbD_append]
  interval_cases i <;> simp

@[simp] theorem opcodeOf_encU (imm20 : BitVec 20) (rd : Reg) (opcode : BitVec 7) :
    opcodeOf (encU imm20 rd opcode) = opcode := by
  apply BitVec.eq_of_getLsbD_eq
  intro i hi
  simp only [opcodeOf, slice, encU, BitVec.getLsbD_extractLsb', BitVec.getLsbD_append]
  interval_cases i <;> simp

@[simp] theorem rdOf_encU (imm20 : BitVec 20) (rd : Reg) (opcode : BitVec 7) :
    rdOf (encU imm20 rd opcode) = rd := by
  apply BitVec.eq_of_getLsbD_eq
  intro i hi
  simp only [rdOf, slice, encU, BitVec.getLsbD_extractLsb', BitVec.getLsbD_append]
  interval_cases i <;> simp

@[simp] theorem immUOf_encU (imm20 : BitVec 20) (rd : Reg) (opcode : BitVec 7) :
    immUOf (encU imm20 rd opcode) = imm20 := by
  apply BitVec.eq_of_getLsbD_eq
  intro i hi
  simp only [immUOf, slice, encU, BitVec.getLsbD_extractLsb', BitVec.getLsbD_append]
  interval_cases i <;> simp

@[simp] theorem opcodeOf_encJ (imm : BitVec 21) (rd : Reg) (opcode : BitVec 7) :
    opcodeOf (encJ imm rd opcode) = opcode := by
  apply BitVec.eq_of_getLsbD_eq
  intro i hi
  simp only [opcodeOf, slice, encJ, BitVec.getLsbD_extractLsb', BitVec.getLsbD_append]
  interval_cases i <;> simp

@[simp] theorem rdOf_encJ (imm : BitVec 21) (rd : Reg) (opcode : BitVec 7) :
    rdOf (encJ imm rd opcode) = rd := by
  apply BitVec.eq_of_getLsbD_eq
  intro i hi
  simp only [rdOf, slice, encJ, BitVec.getLsbD_extractLsb', BitVec.getLsbD_append]
  interval_cases i <;> simp

/-- The immediate. -/
theorem immSOf_encS (imm : BitVec 12) (rs2 rs1 : Reg) (funct3 : BitVec 3) (opcode : BitVec 7) :
    immSOf (encS imm rs2 rs1 funct3 opcode) = imm := by
  apply BitVec.eq_of_getLsbD_eq
  intro i hi
  simp only [immSOf, slice, encS, BitVec.getLsbD_extractLsb', BitVec.getLsbD_append]
  interval_cases i <;> simp

/-- The immediate (its bit 0 is 0). -/
theorem immBOf_encB (imm : BitVec 13) (rs2 rs1 : Reg) (funct3 : BitVec 3) (opcode : BitVec 7) (h : imm.getLsbD 0 = false) :
    immBOf (encB imm rs2 rs1 funct3 opcode) = imm := by
  apply BitVec.eq_of_getLsbD_eq
  intro i hi
  simp only [immBOf, slice, encB, BitVec.getLsbD_extractLsb', BitVec.getLsbD_append]
  have h0 : imm[0] = false := h
  interval_cases i <;> simp [h0]

/-- The immediate (its bit 0 is 0). -/
theorem immJOf_encJ (imm : BitVec 21) (rd : Reg) (opcode : BitVec 7) (h : imm.getLsbD 0 = false) :
    immJOf (encJ imm rd opcode) = imm := by
  apply BitVec.eq_of_getLsbD_eq
  intro i hi
  simp only [immJOf, slice, encJ, BitVec.getLsbD_extractLsb', BitVec.getLsbD_append]
  have h0 : imm[0] = false := h
  interval_cases i <;> simp [h0]

/-! ## The low bits and the length of an encoded word (R91) -/

theorem codeLen_full {code : BitVec 32} (h : slice code 0 2 = 0b11#2) : codeLen code = 4 := by
  simp [codeLen, h]

theorem codeLen_compressed {code : BitVec 32} (h : slice code 0 2 ≠ 0b11#2) : codeLen code = 2 := by
  simp [codeLen, h]

/-- The instruction bits of a compressed word. -/
@[simp] theorem slice_halfword (c : BitVec 16) : slice (halfword c) 0 16 = c := by
  unfold halfword
  rw [slice_append_low _ _ _ _ (by omega), slice_self]

theorem codeLen_halfword {n : Nat} (x : BitVec n) (op : BitVec 2) (hn : n + 2 = 16) (c : BitVec 16)
    (hc : c = (x ++ op).cast hn) (h : op ≠ 0b11#2) : codeLen (halfword c) = 2 := by
  have hn' : n = 14 := by omega
  subst hn' hc
  refine codeLen_compressed ?_
  unfold halfword
  rw [slice_append_low _ _ _ _ (by omega), BitVec.cast_eq, slice_append_low _ _ _ _ (by omega), slice_self]
  exact h

/-- A word whose opcode ends in 11 is a full word. -/
theorem codeLen_opcode {code : BitVec 32} (h : slice (opcodeOf code) 0 2 = 0b11#2) : codeLen code = 4 := by
  refine codeLen_full ?_
  rw [opcodeOf, slice_slice _ _ _ _ _ (by omega)] at h
  exact h

theorem codeLen_encR (funct7 : BitVec 7) (rs2 rs1 : Reg) (funct3 : BitVec 3) (rd : Reg) (opcode : BitVec 7)
    (h : slice opcode 0 2 = 0b11#2) : codeLen (encR funct7 rs2 rs1 funct3 rd opcode) = 4 :=
  codeLen_opcode (by rw [opcodeOf_encR]; exact h)

theorem codeLen_encI (imm : BitVec 12) (rs1 : Reg) (funct3 : BitVec 3) (rd : Reg) (opcode : BitVec 7)
    (h : slice opcode 0 2 = 0b11#2) : codeLen (encI imm rs1 funct3 rd opcode) = 4 :=
  codeLen_opcode (by rw [opcodeOf_encI]; exact h)

theorem codeLen_encShift (funct6 shamt : BitVec 6) (rs1 : Reg) (funct3 : BitVec 3) (rd : Reg) (opcode : BitVec 7)
    (h : slice opcode 0 2 = 0b11#2) : codeLen (encShift funct6 shamt rs1 funct3 rd opcode) = 4 :=
  codeLen_opcode (by rw [opcodeOf_encShift]; exact h)

theorem codeLen_encS (imm : BitVec 12) (rs2 rs1 : Reg) (funct3 : BitVec 3) (opcode : BitVec 7)
    (h : slice opcode 0 2 = 0b11#2) : codeLen (encS imm rs2 rs1 funct3 opcode) = 4 :=
  codeLen_opcode (by rw [opcodeOf_encS]; exact h)

theorem codeLen_encB (imm : BitVec 13) (rs2 rs1 : Reg) (funct3 : BitVec 3) (opcode : BitVec 7)
    (h : slice opcode 0 2 = 0b11#2) : codeLen (encB imm rs2 rs1 funct3 opcode) = 4 :=
  codeLen_opcode (by rw [opcodeOf_encB]; exact h)

theorem codeLen_encU (imm20 : BitVec 20) (rd : Reg) (opcode : BitVec 7)
    (h : slice opcode 0 2 = 0b11#2) : codeLen (encU imm20 rd opcode) = 4 :=
  codeLen_opcode (by rw [opcodeOf_encU]; exact h)

theorem codeLen_encJ (imm : BitVec 21) (rd : Reg) (opcode : BitVec 7)
    (h : slice opcode 0 2 = 0b11#2) : codeLen (encJ imm rd opcode) = 4 :=
  codeLen_opcode (by rw [opcodeOf_encJ]; exact h)

/-- The quadrant of a halfword that ends in one. -/
theorem slice_quadrant {n : Nat} (x : BitVec n) (op : BitVec 2) : slice (x ++ op) 0 2 = op := by
  rw [slice_append_low _ _ _ _ (by omega), slice_self]

end Sys2Proof
end

