-- ==== Sys2Proof/Laws/State.lean ====
section
/-! SUPPORT. One lemma per field per update of the state, true by rfl, so that no later proof unfolds a record update;
and the same for the updates that branch (`setReg`, `detectLoadUse`, `access`). -/

namespace Sys2Proof.Machine

/-! ## raiseFatal -/

@[simp] theorem State.raiseFatal_regs (s : State) (k : FatalKind) :
    (s.raiseFatal k).regs = s.regs := rfl
@[simp] theorem State.raiseFatal_pc (s : State) (k : FatalKind) :
    (s.raiseFatal k).pc = s.pc := rfl
@[simp] theorem State.raiseFatal_heapPtr (s : State) (k : FatalKind) :
    (s.raiseFatal k).heapPtr = s.heapPtr := rfl
@[simp] theorem State.raiseFatal_slotD (s : State) (k : FatalKind) :
    (s.raiseFatal k).slotD = s.slotD := rfl
@[simp] theorem State.raiseFatal_slotE (s : State) (k : FatalKind) :
    (s.raiseFatal k).slotE = s.slotE := rfl
@[simp] theorem State.raiseFatal_slotM (s : State) (k : FatalKind) :
    (s.raiseFatal k).slotM = s.slotM := rfl
@[simp] theorem State.raiseFatal_slotW (s : State) (k : FatalKind) :
    (s.raiseFatal k).slotW = s.slotW := rfl
@[simp] theorem State.raiseFatal_exit (s : State) (k : FatalKind) :
    (s.raiseFatal k).exit = s.exit := rfl
@[simp] theorem State.raiseFatal_fatal (s : State) (k : FatalKind) :
    (s.raiseFatal k).fatal = some k := rfl
@[simp] theorem State.raiseFatal_levels (s : State) (k : FatalKind) :
    (s.raiseFatal k).levels = s.levels := rfl
@[simp] theorem State.raiseFatal_backing (s : State) (k : FatalKind) :
    (s.raiseFatal k).backing = s.backing := rfl
@[simp] theorem State.raiseFatal_counters (s : State) (k : FatalKind) :
    (s.raiseFatal k).counters = s.counters := rfl
@[simp] theorem State.raiseFatal_mem (s : State) (k : FatalKind) :
    (s.raiseFatal k).mem = s.mem := rfl
@[simp] theorem State.raiseFatal_cfg (s : State) (k : FatalKind) :
    (s.raiseFatal k).cfg = s.cfg := rfl
@[simp] theorem State.raiseFatal_input (s : State) (k : FatalKind) :
    (s.raiseFatal k).input = s.input := rfl
@[simp] theorem State.raiseFatal_reads (s : State) (k : FatalKind) :
    (s.raiseFatal k).reads = s.reads := rfl
@[simp] theorem State.raiseFatal_output (s : State) (k : FatalKind) :
    (s.raiseFatal k).output = s.output := rfl

/-! ## toMemory -/

@[simp] theorem State.toMemory_regs (s : State) (r : Record) :
    (s.toMemory r).regs = s.regs := rfl
@[simp] theorem State.toMemory_pc (s : State) (r : Record) :
    (s.toMemory r).pc = s.pc := rfl
@[simp] theorem State.toMemory_heapPtr (s : State) (r : Record) :
    (s.toMemory r).heapPtr = s.heapPtr := rfl
@[simp] theorem State.toMemory_slotD (s : State) (r : Record) :
    (s.toMemory r).slotD = s.slotD := rfl
@[simp] theorem State.toMemory_slotE (s : State) (r : Record) :
    (s.toMemory r).slotE = none := rfl
@[simp] theorem State.toMemory_slotM (s : State) (r : Record) :
    (s.toMemory r).slotM = some r := rfl
@[simp] theorem State.toMemory_slotW (s : State) (r : Record) :
    (s.toMemory r).slotW = s.slotW := rfl
@[simp] theorem State.toMemory_exit (s : State) (r : Record) :
    (s.toMemory r).exit = s.exit := rfl
@[simp] theorem State.toMemory_fatal (s : State) (r : Record) :
    (s.toMemory r).fatal = s.fatal := rfl
@[simp] theorem State.toMemory_levels (s : State) (r : Record) :
    (s.toMemory r).levels = s.levels := rfl
@[simp] theorem State.toMemory_backing (s : State) (r : Record) :
    (s.toMemory r).backing = s.backing := rfl
@[simp] theorem State.toMemory_counters (s : State) (r : Record) :
    (s.toMemory r).counters = s.counters := rfl
@[simp] theorem State.toMemory_mem (s : State) (r : Record) :
    (s.toMemory r).mem = s.mem := rfl
@[simp] theorem State.toMemory_cfg (s : State) (r : Record) :
    (s.toMemory r).cfg = s.cfg := rfl
@[simp] theorem State.toMemory_input (s : State) (r : Record) :
    (s.toMemory r).input = s.input := rfl
@[simp] theorem State.toMemory_reads (s : State) (r : Record) :
    (s.toMemory r).reads = s.reads := rfl
@[simp] theorem State.toMemory_output (s : State) (r : Record) :
    (s.toMemory r).output = s.output := rfl

/-! ## squash -/

@[simp] theorem State.squash_regs (s : State) (target : Word) :
    (s.squash target).regs = s.regs := rfl
@[simp] theorem State.squash_pc (s : State) (target : Word) :
    (s.squash target).pc = target := rfl
@[simp] theorem State.squash_heapPtr (s : State) (target : Word) :
    (s.squash target).heapPtr = s.heapPtr := rfl
@[simp] theorem State.squash_slotD (s : State) (target : Word) :
    (s.squash target).slotD = none := rfl
@[simp] theorem State.squash_slotE (s : State) (target : Word) :
    (s.squash target).slotE = s.slotE := rfl
@[simp] theorem State.squash_slotM (s : State) (target : Word) :
    (s.squash target).slotM = s.slotM := rfl
@[simp] theorem State.squash_slotW (s : State) (target : Word) :
    (s.squash target).slotW = s.slotW := rfl
@[simp] theorem State.squash_exit (s : State) (target : Word) :
    (s.squash target).exit = s.exit := rfl
@[simp] theorem State.squash_fatal (s : State) (target : Word) :
    (s.squash target).fatal = s.fatal := rfl
@[simp] theorem State.squash_levels (s : State) (target : Word) :
    (s.squash target).levels = s.levels := rfl
@[simp] theorem State.squash_backing (s : State) (target : Word) :
    (s.squash target).backing = s.backing := rfl
@[simp] theorem State.squash_counters (s : State) (target : Word) :
    (s.squash target).counters = { s.counters with controlStalls := s.counters.controlStalls + 1 } := rfl
@[simp] theorem State.squash_mem (s : State) (target : Word) :
    (s.squash target).mem = s.mem := rfl
@[simp] theorem State.squash_cfg (s : State) (target : Word) :
    (s.squash target).cfg = s.cfg := rfl
@[simp] theorem State.squash_input (s : State) (target : Word) :
    (s.squash target).input = s.input := rfl
@[simp] theorem State.squash_reads (s : State) (target : Word) :
    (s.squash target).reads = s.reads := rfl
@[simp] theorem State.squash_output (s : State) (target : Word) :
    (s.squash target).output = s.output := rfl

/-! ## emit -/

@[simp] theorem State.emit_regs (s : State) (e : HostEvent) :
    (s.emit e).regs = s.regs := rfl
@[simp] theorem State.emit_pc (s : State) (e : HostEvent) :
    (s.emit e).pc = s.pc := rfl
@[simp] theorem State.emit_heapPtr (s : State) (e : HostEvent) :
    (s.emit e).heapPtr = s.heapPtr := rfl
@[simp] theorem State.emit_slotD (s : State) (e : HostEvent) :
    (s.emit e).slotD = s.slotD := rfl
@[simp] theorem State.emit_slotE (s : State) (e : HostEvent) :
    (s.emit e).slotE = s.slotE := rfl
@[simp] theorem State.emit_slotM (s : State) (e : HostEvent) :
    (s.emit e).slotM = s.slotM := rfl
@[simp] theorem State.emit_slotW (s : State) (e : HostEvent) :
    (s.emit e).slotW = s.slotW := rfl
@[simp] theorem State.emit_exit (s : State) (e : HostEvent) :
    (s.emit e).exit = s.exit := rfl
@[simp] theorem State.emit_fatal (s : State) (e : HostEvent) :
    (s.emit e).fatal = s.fatal := rfl
@[simp] theorem State.emit_levels (s : State) (e : HostEvent) :
    (s.emit e).levels = s.levels := rfl
@[simp] theorem State.emit_backing (s : State) (e : HostEvent) :
    (s.emit e).backing = s.backing := rfl
@[simp] theorem State.emit_counters (s : State) (e : HostEvent) :
    (s.emit e).counters = s.counters := rfl
@[simp] theorem State.emit_mem (s : State) (e : HostEvent) :
    (s.emit e).mem = s.mem := rfl
@[simp] theorem State.emit_cfg (s : State) (e : HostEvent) :
    (s.emit e).cfg = s.cfg := rfl
@[simp] theorem State.emit_input (s : State) (e : HostEvent) :
    (s.emit e).input = s.input := rfl
@[simp] theorem State.emit_reads (s : State) (e : HostEvent) :
    (s.emit e).reads = s.reads := rfl
@[simp] theorem State.emit_output (s : State) (e : HostEvent) :
    (s.emit e).output = s.output ++ [e] := rfl

/-! ## answered -/

@[simp] theorem State.answered_regs (s : State) :
    (s.answered).regs = s.regs := rfl
@[simp] theorem State.answered_pc (s : State) :
    (s.answered).pc = s.pc := rfl
@[simp] theorem State.answered_heapPtr (s : State) :
    (s.answered).heapPtr = s.heapPtr := rfl
@[simp] theorem State.answered_slotD (s : State) :
    (s.answered).slotD = s.slotD := rfl
@[simp] theorem State.answered_slotE (s : State) :
    (s.answered).slotE = s.slotE := rfl
@[simp] theorem State.answered_slotM (s : State) :
    (s.answered).slotM = s.slotM := rfl
@[simp] theorem State.answered_slotW (s : State) :
    (s.answered).slotW = s.slotW := rfl
@[simp] theorem State.answered_exit (s : State) :
    (s.answered).exit = s.exit := rfl
@[simp] theorem State.answered_fatal (s : State) :
    (s.answered).fatal = s.fatal := rfl
@[simp] theorem State.answered_levels (s : State) :
    (s.answered).levels = s.levels := rfl
@[simp] theorem State.answered_backing (s : State) :
    (s.answered).backing = s.backing := rfl
@[simp] theorem State.answered_counters (s : State) :
    (s.answered).counters = s.counters := rfl
@[simp] theorem State.answered_mem (s : State) :
    (s.answered).mem = s.mem := rfl
@[simp] theorem State.answered_cfg (s : State) :
    (s.answered).cfg = s.cfg := rfl
@[simp] theorem State.answered_input (s : State) :
    (s.answered).input = s.input.tail := rfl
@[simp] theorem State.answered_reads (s : State) :
    (s.answered).reads = s.reads + 1 := rfl
@[simp] theorem State.answered_output (s : State) :
    (s.answered).output = s.output := rfl

/-! ## finishWith -/

@[simp] theorem State.finishWith_regs (s : State) (r : Record) (v : Word) :
    (s.finishWith r v).regs = s.regs := rfl
@[simp] theorem State.finishWith_pc (s : State) (r : Record) (v : Word) :
    (s.finishWith r v).pc = s.pc := rfl
@[simp] theorem State.finishWith_heapPtr (s : State) (r : Record) (v : Word) :
    (s.finishWith r v).heapPtr = s.heapPtr := rfl
@[simp] theorem State.finishWith_slotD (s : State) (r : Record) (v : Word) :
    (s.finishWith r v).slotD = s.slotD := rfl
@[simp] theorem State.finishWith_slotE (s : State) (r : Record) (v : Word) :
    (s.finishWith r v).slotE = none := rfl
@[simp] theorem State.finishWith_slotM (s : State) (r : Record) (v : Word) :
    (s.finishWith r v).slotM = some { r with rd := 17, writes := true, wb := v } := rfl
@[simp] theorem State.finishWith_slotW (s : State) (r : Record) (v : Word) :
    (s.finishWith r v).slotW = s.slotW := rfl
@[simp] theorem State.finishWith_exit (s : State) (r : Record) (v : Word) :
    (s.finishWith r v).exit = s.exit := rfl
@[simp] theorem State.finishWith_fatal (s : State) (r : Record) (v : Word) :
    (s.finishWith r v).fatal = s.fatal := rfl
@[simp] theorem State.finishWith_levels (s : State) (r : Record) (v : Word) :
    (s.finishWith r v).levels = s.levels := rfl
@[simp] theorem State.finishWith_backing (s : State) (r : Record) (v : Word) :
    (s.finishWith r v).backing = s.backing := rfl
@[simp] theorem State.finishWith_counters (s : State) (r : Record) (v : Word) :
    (s.finishWith r v).counters = s.counters := rfl
@[simp] theorem State.finishWith_mem (s : State) (r : Record) (v : Word) :
    (s.finishWith r v).mem = s.mem := rfl
@[simp] theorem State.finishWith_cfg (s : State) (r : Record) (v : Word) :
    (s.finishWith r v).cfg = s.cfg := rfl
@[simp] theorem State.finishWith_input (s : State) (r : Record) (v : Word) :
    (s.finishWith r v).input = s.input := rfl
@[simp] theorem State.finishWith_reads (s : State) (r : Record) (v : Word) :
    (s.finishWith r v).reads = s.reads := rfl
@[simp] theorem State.finishWith_output (s : State) (r : Record) (v : Word) :
    (s.finishWith r v).output = s.output := rfl

/-! ## tick -/

@[simp] theorem State.tick_regs (s : State) :
    (s.tick).regs = s.regs := rfl
@[simp] theorem State.tick_pc (s : State) :
    (s.tick).pc = s.pc := rfl
@[simp] theorem State.tick_heapPtr (s : State) :
    (s.tick).heapPtr = s.heapPtr := rfl
@[simp] theorem State.tick_slotD (s : State) :
    (s.tick).slotD = s.slotD := rfl
@[simp] theorem State.tick_slotE (s : State) :
    (s.tick).slotE = s.slotE := rfl
@[simp] theorem State.tick_slotM (s : State) :
    (s.tick).slotM = s.slotM := rfl
@[simp] theorem State.tick_slotW (s : State) :
    (s.tick).slotW = s.slotW := rfl
@[simp] theorem State.tick_exit (s : State) :
    (s.tick).exit = s.exit := rfl
@[simp] theorem State.tick_fatal (s : State) :
    (s.tick).fatal = s.fatal := rfl
@[simp] theorem State.tick_levels (s : State) :
    (s.tick).levels = s.levels := rfl
@[simp] theorem State.tick_backing (s : State) :
    (s.tick).backing = s.backing := rfl
@[simp] theorem State.tick_counters (s : State) :
    (s.tick).counters = { s.counters with cycles := s.counters.cycles + 1 } := rfl
@[simp] theorem State.tick_mem (s : State) :
    (s.tick).mem = s.mem := rfl
@[simp] theorem State.tick_cfg (s : State) :
    (s.tick).cfg = s.cfg := rfl
@[simp] theorem State.tick_input (s : State) :
    (s.tick).input = s.input := rfl
@[simp] theorem State.tick_reads (s : State) :
    (s.tick).reads = s.reads := rfl
@[simp] theorem State.tick_output (s : State) :
    (s.tick).output = s.output := rfl

/-! ## setReg -/

@[simp] theorem State.setReg_pc (s : State) (i : Reg) (v : Word) : (s.setReg i v).pc = s.pc := by
  unfold State.setReg; split <;> rfl
@[simp] theorem State.setReg_heapPtr (s : State) (i : Reg) (v : Word) : (s.setReg i v).heapPtr = s.heapPtr := by
  unfold State.setReg; split <;> rfl
@[simp] theorem State.setReg_slotD (s : State) (i : Reg) (v : Word) : (s.setReg i v).slotD = s.slotD := by
  unfold State.setReg; split <;> rfl
@[simp] theorem State.setReg_slotE (s : State) (i : Reg) (v : Word) : (s.setReg i v).slotE = s.slotE := by
  unfold State.setReg; split <;> rfl
@[simp] theorem State.setReg_slotM (s : State) (i : Reg) (v : Word) : (s.setReg i v).slotM = s.slotM := by
  unfold State.setReg; split <;> rfl
@[simp] theorem State.setReg_slotW (s : State) (i : Reg) (v : Word) : (s.setReg i v).slotW = s.slotW := by
  unfold State.setReg; split <;> rfl
@[simp] theorem State.setReg_exit (s : State) (i : Reg) (v : Word) : (s.setReg i v).exit = s.exit := by
  unfold State.setReg; split <;> rfl
@[simp] theorem State.setReg_fatal (s : State) (i : Reg) (v : Word) : (s.setReg i v).fatal = s.fatal := by
  unfold State.setReg; split <;> rfl
@[simp] theorem State.setReg_levels (s : State) (i : Reg) (v : Word) : (s.setReg i v).levels = s.levels := by
  unfold State.setReg; split <;> rfl
@[simp] theorem State.setReg_backing (s : State) (i : Reg) (v : Word) : (s.setReg i v).backing = s.backing := by
  unfold State.setReg; split <;> rfl
@[simp] theorem State.setReg_counters (s : State) (i : Reg) (v : Word) : (s.setReg i v).counters = s.counters := by
  unfold State.setReg; split <;> rfl
@[simp] theorem State.setReg_mem (s : State) (i : Reg) (v : Word) : (s.setReg i v).mem = s.mem := by
  unfold State.setReg; split <;> rfl
@[simp] theorem State.setReg_cfg (s : State) (i : Reg) (v : Word) : (s.setReg i v).cfg = s.cfg := by
  unfold State.setReg; split <;> rfl
@[simp] theorem State.setReg_input (s : State) (i : Reg) (v : Word) : (s.setReg i v).input = s.input := by
  unfold State.setReg; split <;> rfl
@[simp] theorem State.setReg_reads (s : State) (i : Reg) (v : Word) : (s.setReg i v).reads = s.reads := by
  unfold State.setReg; split <;> rfl
@[simp] theorem State.setReg_output (s : State) (i : Reg) (v : Word) : (s.setReg i v).output = s.output := by
  unfold State.setReg; split <;> rfl

/-- Reading back a written register, and every other one (R10, R11). -/
theorem State.setReg_reg (s : State) (i j : Reg) (v : Word) :
    (s.setReg i v).reg j = if i = j ∧ j ≠ 0 then v else s.reg j := by
  unfold State.setReg State.reg
  by_cases hj : j = 0
  · rw [if_pos hj, if_pos hj, if_neg (fun h => h.2 hj)]
  · by_cases hi : i = 0
    · have hij : ¬ (i = j ∧ j ≠ 0) := fun h => hj (h.1 ▸ hi)
      rw [if_neg hj, if_neg hij, if_pos hi, if_neg hj]
    · rw [if_neg hj, if_neg hj, if_neg hi]
      by_cases hij : i = j
      · subst hij
        rw [if_pos ⟨rfl, hj⟩]
        exact Vector.getElem_set_self _
      · rw [if_neg (fun h => hij h.1)]
        exact Vector.getElem_set_ne i.isLt _ (fun h => hij (BitVec.eq_of_toNat_eq h))

/-- The cell of x0 is never written (R11). -/
theorem State.setReg_cell_zero (s : State) (i : Reg) (v : Word) : (s.setReg i v).regs[0] = s.regs[0] := by
  unfold State.setReg
  split
  · rfl
  · rename_i hi
    have : i.toNat ≠ 0 := fun h => hi (BitVec.eq_of_toNat_eq (by simpa using h))
    exact Vector.getElem_set_ne i.isLt _ this

/-! ## detectLoadUse -/

@[simp] theorem State.detectLoadUse_regs (s : State) (l : List Reg) : (s.detectLoadUse l).regs = s.regs := by
  unfold State.detectLoadUse; split <;> rfl
@[simp] theorem State.detectLoadUse_pc (s : State) (l : List Reg) : (s.detectLoadUse l).pc = s.pc := by
  unfold State.detectLoadUse; split <;> rfl
@[simp] theorem State.detectLoadUse_heapPtr (s : State) (l : List Reg) : (s.detectLoadUse l).heapPtr = s.heapPtr := by
  unfold State.detectLoadUse; split <;> rfl
@[simp] theorem State.detectLoadUse_slotD (s : State) (l : List Reg) : (s.detectLoadUse l).slotD = s.slotD := by
  unfold State.detectLoadUse; split <;> rfl
@[simp] theorem State.detectLoadUse_slotE (s : State) (l : List Reg) : (s.detectLoadUse l).slotE = s.slotE := by
  unfold State.detectLoadUse; split <;> rfl
@[simp] theorem State.detectLoadUse_slotM (s : State) (l : List Reg) : (s.detectLoadUse l).slotM = s.slotM := by
  unfold State.detectLoadUse; split <;> rfl
@[simp] theorem State.detectLoadUse_slotW (s : State) (l : List Reg) : (s.detectLoadUse l).slotW = s.slotW := by
  unfold State.detectLoadUse; split <;> rfl
@[simp] theorem State.detectLoadUse_exit (s : State) (l : List Reg) : (s.detectLoadUse l).exit = s.exit := by
  unfold State.detectLoadUse; split <;> rfl
@[simp] theorem State.detectLoadUse_fatal (s : State) (l : List Reg) : (s.detectLoadUse l).fatal = s.fatal := by
  unfold State.detectLoadUse; split <;> rfl
@[simp] theorem State.detectLoadUse_levels (s : State) (l : List Reg) : (s.detectLoadUse l).levels = s.levels := by
  unfold State.detectLoadUse; split <;> rfl
@[simp] theorem State.detectLoadUse_backing (s : State) (l : List Reg) : (s.detectLoadUse l).backing = s.backing := by
  unfold State.detectLoadUse; split <;> rfl
@[simp] theorem State.detectLoadUse_mem (s : State) (l : List Reg) : (s.detectLoadUse l).mem = s.mem := by
  unfold State.detectLoadUse; split <;> rfl
@[simp] theorem State.detectLoadUse_cfg (s : State) (l : List Reg) : (s.detectLoadUse l).cfg = s.cfg := by
  unfold State.detectLoadUse; split <;> rfl
@[simp] theorem State.detectLoadUse_input (s : State) (l : List Reg) : (s.detectLoadUse l).input = s.input := by
  unfold State.detectLoadUse; split <;> rfl
@[simp] theorem State.detectLoadUse_reads (s : State) (l : List Reg) : (s.detectLoadUse l).reads = s.reads := by
  unfold State.detectLoadUse; split <;> rfl
@[simp] theorem State.detectLoadUse_output (s : State) (l : List Reg) : (s.detectLoadUse l).output = s.output := by
  unfold State.detectLoadUse; split <;> rfl

@[simp] theorem State.detectLoadUse_reg (s : State) (l : List Reg) (i : Reg) : (s.detectLoadUse l).reg i = s.reg i := by
  simp [State.reg]

@[simp] theorem State.detectLoadUse_fwd (s : State) (l : List Reg) (i : Reg) : (s.detectLoadUse l).fwd i = s.fwd i := by
  simp [State.fwd]

/-! ## access -/

@[simp] theorem State.access_regs (s : State) (a : Word) (n : Nat) (b : Bool) : (s.access a n b).regs = s.regs := rfl
@[simp] theorem State.access_pc (s : State) (a : Word) (n : Nat) (b : Bool) : (s.access a n b).pc = s.pc := rfl
@[simp] theorem State.access_heapPtr (s : State) (a : Word) (n : Nat) (b : Bool) : (s.access a n b).heapPtr = s.heapPtr := rfl
@[simp] theorem State.access_slotD (s : State) (a : Word) (n : Nat) (b : Bool) : (s.access a n b).slotD = s.slotD := rfl
@[simp] theorem State.access_slotE (s : State) (a : Word) (n : Nat) (b : Bool) : (s.access a n b).slotE = s.slotE := rfl
@[simp] theorem State.access_slotM (s : State) (a : Word) (n : Nat) (b : Bool) : (s.access a n b).slotM = s.slotM := rfl
@[simp] theorem State.access_slotW (s : State) (a : Word) (n : Nat) (b : Bool) : (s.access a n b).slotW = s.slotW := rfl
@[simp] theorem State.access_exit (s : State) (a : Word) (n : Nat) (b : Bool) : (s.access a n b).exit = s.exit := rfl
@[simp] theorem State.access_fatal (s : State) (a : Word) (n : Nat) (b : Bool) : (s.access a n b).fatal = s.fatal := rfl
@[simp] theorem State.access_mem (s : State) (a : Word) (n : Nat) (b : Bool) : (s.access a n b).mem = s.mem := rfl
@[simp] theorem State.access_cfg (s : State) (a : Word) (n : Nat) (b : Bool) : (s.access a n b).cfg = s.cfg := rfl
@[simp] theorem State.access_input (s : State) (a : Word) (n : Nat) (b : Bool) : (s.access a n b).input = s.input := rfl
@[simp] theorem State.access_reads (s : State) (a : Word) (n : Nat) (b : Bool) : (s.access a n b).reads = s.reads := rfl
@[simp] theorem State.access_output (s : State) (a : Word) (n : Nat) (b : Bool) : (s.access a n b).output = s.output := rfl

@[simp] theorem State.access_reg (s : State) (a : Word) (n : Nat) (b : Bool) (i : Reg) : (s.access a n b).reg i = s.reg i :=
  rfl

/-- Of the pipeline's counters, an Access changes `mem_delay_cycles` alone (R25). -/
theorem State.access_counters (s : State) (a : Word) (n : Nat) (b : Bool) :
    (s.access a n b).counters =
      { s.counters with memDelayCycles := (s.access a n b).counters.memDelayCycles } := rfl

end Sys2Proof.Machine
end

