-- ==== Sys2Proof/Laws/Execute.lean ====
section
/-! SUPPORT. What each shared operation of Execute does, said once: every meaning of Compute.lean, MulDiv.lean,
Control.lean, LoadStore.lean and Compressed.lean is one of these operations. -/

namespace Sys2Proof.Machine

/-- The program's test of load-use detection is the condition of R332. -/
theorem State.loadUseHit_iff (s : State) (l : List Reg) :
    s.loadUseHit l = true ↔
      ∃ w, s.slotW = some w ∧ w.kind.isLoad = true ∧ w.writes = true ∧ w.rd ≠ 0 ∧ w.rd ∈ l := by
  unfold State.loadUseHit
  cases s.slotW with
  | none => simp
  | some w => simp [and_assoc]

/-- Load-use detection adds `stallsOn` to one counter and changes nothing else (R332). -/
theorem State.detectLoadUse_eq (s : State) (l : List Reg) :
    s.detectLoadUse l =
      { s with counters := { s.counters with loadUseStalls := s.counters.loadUseStalls + s.stallsOn l } } := by
  have h := s.loadUseHit_iff l
  unfold State.detectLoadUse State.stallsOn
  cases hw : s.slotW with
  | none =>
    have : s.loadUseHit l = false := by simp [State.loadUseHit, hw]
    simp only [this, Nat.add_zero]
    cases s; simp_all
  | some w =>
    by_cases hc : w.kind.isLoad = true ∧ w.writes = true ∧ w.rd ≠ 0 ∧ w.rd ∈ l
    · rw [if_pos (h.2 ⟨w, hw, hc⟩)]
      simp only [if_pos hc]
    · have : ¬ s.loadUseHit l = true := by
        rw [h]
        rintro ⟨w', hw', hc'⟩
        rw [hw] at hw'
        exact hc (Option.some.inj hw' ▸ hc')
      rw [if_neg this]
      simp only [if_neg hc, Nat.add_zero]
      cases s; simp_all

/-- The record moves on after load-use detection. -/
theorem State.detectLoadUse_toMemory (s : State) (l : List Reg) (r : Record) :
    (s.detectLoadUse l).toMemory r = s.moved r l := by
  rw [State.detectLoadUse_eq]; rfl

/-- A squash is a redirection. -/
theorem State.squash_eq (s : State) (target : Word) : s.squash target = s.redirected target := rfl

/-- Execute of an empty slot E (R331). -/
theorem inExecute_empty {s : State} (h : s.slotE = none) (reads : List Reg) (act : State → Record → Result) :
    inExecute reads s act = .next s := by
  simp [inExecute, h]

/-- Execute of a record. -/
theorem inExecute_holds {s : State} {r : Record} (h : s.slotE = some r) (reads : List Reg)
    (act : State → Record → Result) : inExecute reads s act = act (s.detectLoadUse reads) r := by
  simp [inExecute, h]

/-- A computing meaning whose value does not look at the load-use counter. -/
theorem computeValue_holds {s : State} {r : Record} (h : s.slotE = some r) {reads : List Reg}
    {value : State → Record → Word} (hv : value (s.detectLoadUse reads) r = value s r) :
    computeValue reads value s = .next (s.moved { r with wb := value s r } reads) := by
  rw [computeValue, inExecute_holds h, hv, State.detectLoadUse_toMemory]

theorem opRegImm_holds {s : State} {r : Record} (h : s.slotE = some r) (f : Word → Word → Word) (rs1 : Reg)
    (imm : Word) : opRegImm f rs1 imm s = .next (s.moved { r with wb := f (s.fwd rs1) imm } [rs1]) :=
  computeValue_holds h (by simp)

theorem opRegReg_holds {s : State} {r : Record} (h : s.slotE = some r) (f : Word → Word → Word) (rs1 rs2 : Reg) :
    opRegReg f rs1 rs2 s = .next (s.moved { r with wb := f (s.fwd rs1) (s.fwd rs2) } [rs1, rs2]) :=
  computeValue_holds h (by simp)

theorem opAddress_holds {s : State} {r : Record} (h : s.slotE = some r) (reads : List Reg) (rs1 : Reg) (imm : Word) :
    opAddress reads rs1 imm s = .next (s.moved { r with addr := s.fwd rs1 + imm } reads) := by
  rw [opAddress, inExecute_holds h, State.detectLoadUse_fwd, State.detectLoadUse_toMemory]

theorem opBranch_holds {s : State} {r : Record} (h : s.slotE = some r) (cond : Word → Word → Bool) (rs1 rs2 : Reg)
    (imm : Word) :
    opBranch cond rs1 rs2 imm s =
      .next (if cond (s.fwd rs1) (s.fwd rs2) then (s.moved r [rs1, rs2]).redirected (r.pc + imm)
        else s.moved r [rs1, rs2]) := by
  rw [opBranch, inExecute_holds h]
  simp only [State.detectLoadUse_fwd, State.detectLoadUse_toMemory, State.squash_eq]

theorem opJump_holds {s : State} {r : Record} (h : s.slotE = some r) {reads : List Reg}
    {target : State → Record → Word} (ht : target (s.detectLoadUse reads) r = target s r) :
    opJump reads target s =
      .next ((s.moved { r with wb := r.pc + BitVec.ofNat 64 r.len } reads).redirected (target s r)) := by
  rw [opJump, inExecute_holds h, ht, State.detectLoadUse_toMemory, State.squash_eq]

/-- What ECALL does with the record in slot E, as a function of the service (R220, R221). -/
theorem execEcall_holds {s : State} {r : Record} (h : s.slotE = some r) :
    execEcall s =
      match serviceOf s.cfg.sysnum (s.fwd 17) with
      | none => .next ((s.detectLoadUse [17, 10]).raiseFatal .unknownSyscall)
      | some v => performService v (s.detectLoadUse [17, 10]) r (s.fwd 10) := by
  rw [execEcall, inExecute_holds h]
  cases hv : serviceOf s.cfg.sysnum (s.fwd 17) <;> simp only [State.detectLoadUse_cfg, State.detectLoadUse_fwd, hv]

/-- With an injective numbering a number names at most one service (R224). -/
theorem serviceOf_num {t : SysNum} (ht : t.Injective) (v : Service) : serviceOf t (t.num v) = some v := by
  have hv : v ∈ Service.all := by cases v <;> decide
  have hinj : ∀ u ∈ Service.all, t.num u = t.num v → u = v := fun u hu he =>
    List.inj_on_of_nodup_map ht hu hv he
  unfold serviceOf
  cases hf : Service.all.find? (fun u => t.num u == t.num v) with
  | none =>
    have := List.find?_eq_none.1 hf v hv
    simp at this
  | some u =>
    have h1 := List.find?_some hf
    have h2 := List.mem_of_find?_eq_some hf
    rw [hinj u h2 (by simpa using h1)]

/-- A number no service has (R239). -/
theorem serviceOf_unknown {t : SysNum} {num : Word} (h : ∀ v, t.num v ≠ num) : serviceOf t num = none := by
  unfold serviceOf
  rw [List.find?_eq_none]
  intro v _
  simpa using h v

end Sys2Proof.Machine
end

