-- ==== Sys2Proof/Laws/Memory.lean ====
section
/-! SUPPORT. The address space: what each operation reads as afterwards, and that every memory operation keeps the
canonical form `Memory.wf`. -/

namespace Sys2Proof.Machine

/-! ## Pages -/

theorem pageOf_lt (a : Word) : pageOf a < 2 ^ 64 := by
  have := a.isLt
  unfold pageOf; omega

theorem pageOf_aligned (a : Word) : pageOf a % pageSize = 0 := by
  unfold pageOf pageSize; omega

/-- Two addresses less than a page apart, inside one page, have one page. -/
theorem pageOf_add {a : Word} {k : Nat} (h : offOf a + k < pageSize) : pageOf (a + BitVec.ofNat 64 k) = pageOf a := by
  have ha := a.isLt
  unfold offOf pageSize at h
  unfold pageOf pageSize
  rw [BitVec.toNat_add, BitVec.toNat_ofNat]
  have h1 : k % 2 ^ 64 = k := Nat.mod_eq_of_lt (by omega)
  have h2 : (a.toNat + k) % 2 ^ 64 = a.toNat + k := Nat.mod_eq_of_lt (by omega)
  rw [h1, h2]
  omega

theorem offOf_succ {a : Word} (h : offOf a + 1 < pageSize) : offOf (a + 1) = offOf a + 1 := by
  have ha := a.isLt
  unfold offOf pageSize at *
  have h1 : (a + 1 : Word).toNat = a.toNat + 1 := by
    rw [BitVec.toNat_add]
    have : (1 : Word).toNat = 1 := rfl
    omega
  rw [h1]
  omega

/-! ## Reading one byte after an operation -/

@[simp] theorem Memory.mapped_mapPage (m : Memory) (a b : Word) :
    (m.mapPage a).mapped b = (decide (pageOf b = pageOf a) || m.mapped b) := by
  simp [Memory.mapped, Memory.mapPage]

@[simp] theorem Memory.byte_mapPage (m : Memory) (a b : Word) : (m.mapPage a).byte b = m.byte b := rfl

@[simp] theorem Memory.mapped_putByte (m : Memory) (a b : Word) (x : Byte) : (m.putByte a x).mapped b = m.mapped b := rfl

theorem Memory.byte_putByte {m : Memory} (h : m.wf) (a b : Word) (x : Byte) :
    (m.putByte a x).byte b = if b = a then x else m.byte b := by
  unfold Memory.byte Memory.putByte
  rw [sparseGet_put h.2.2.1]
  by_cases hb : b = a
  · rw [if_pos (congrArg _ hb), if_pos hb]
  · rw [if_neg (fun e => hb (BitVec.eq_of_toNat_eq e)), if_neg hb]

/-- A byte of a page that is not mapped is not listed (log entry 16). -/
theorem Memory.byte_unmapped {m : Memory} (h : m.wf) {a : Word} (ha : m.mapped a = false) : m.byte a = 0 := by
  by_contra hne
  have := h.2.2.2 _ (mem_of_sparseGet hne)
  unfold Memory.mapped pageOf at ha
  simp_all

/-! ## The canonical form -/

theorem Memory.empty_wf : Memory.empty.wf := by
  simp [Memory.wf, Memory.empty]

theorem Memory.mapPage_wf {m : Memory} (h : m.wf) (a : Word) : (m.mapPage a).wf := by
  refine ⟨keyInsert_sorted h.1, ?_, h.2.2.1, ?_⟩
  · intro p hp
    rcases mem_keyInsert.1 hp with rfl | hp
    · exact ⟨pageOf_aligned a, pageOf_lt a⟩
    · exact h.2.1 p hp
  · intro c hc
    exact ⟨(h.2.2.2 c hc).1, mem_keyInsert.2 (.inr (h.2.2.2 c hc).2)⟩

theorem Memory.putByte_wf {m : Memory} (h : m.wf) {a : Word} (ha : m.mapped a = true) (x : Byte) : (m.putByte a x).wf := by
  have hw : sparseWf (0 : Byte) m.cells := ⟨h.2.2.1, fun c hc => (h.2.2.2 c hc).1⟩
  refine ⟨h.1, h.2.1, (sparsePut_wf hw).1, ?_⟩
  intro c hc
  rcases mem_sparsePut hc with ⟨rfl, hx⟩ | hc
  · refine ⟨hx, ?_⟩
    show pageOf a ∈ m.pages
    simpa [Memory.mapped] using ha
  · exact h.2.2.2 c hc

theorem Memory.writeLE_mapped (n : Nat) : ∀ (m : Memory) (a b : Word) (v : Word),
    (m.writeLE a n v).mapped b = m.mapped b := by
  induction n with
  | zero => intros; rfl
  | succ n ih => intro m a b v; rw [Memory.writeLE, ih, Memory.mapped_putByte]

theorem Memory.writeLE_wf (n : Nat) : ∀ {m : Memory} {a : Word} (v : Word), m.wf → m.mapped a = true →
    offOf a + n ≤ pageSize → (m.writeLE a n v).wf := by
  induction n with
  | zero => intro m a v h _ _; exact h
  | succ n ih =>
    intro m a v h ha hn
    rw [Memory.writeLE]
    cases n with
    | zero => exact Memory.putByte_wf h ha _
    | succ n =>
      refine ih _ (Memory.putByte_wf h ha _) ?_ ?_
      · have := pageOf_add (a := a) (k := 1) (by omega)
        simpa [Memory.mapped, Memory.putByte, this] using ha
      · rw [offOf_succ (by omega)]; omega

/-- MemWrite keeps the canonical form. -/
theorem Memory.write_wf {m m' : Memory} {a : Word} {n : Nat} {v : Word} (h : m.wf) (hw : m.write a n v = .ok m') :
    m'.wf := by
  unfold Memory.write at hw
  cases hc : accessCheck a n with
  | some k => rw [hc] at hw; cases hw
  | none =>
    rw [hc] at hw
    cases hw
    refine Memory.writeLE_wf n v (Memory.mapPage_wf h a) (by simp) ?_
    unfold accessCheck at hc
    split at hc
    · cases hc
    · split at hc
      · cases hc
      · omega

/-- `allocate` keeps the canonical form. -/
theorem Memory.allocate_wf {m m' : Memory} {a : Word} (h : m.wf) (hw : m.allocate a = .ok m') : m'.wf := by
  unfold Memory.allocate at hw
  split at hw
  · cases hw
  · cases hw; exact Memory.mapPage_wf h a

/-- `deallocate` keeps the canonical form. -/
theorem Memory.deallocate_wf {m m' : Memory} {a : Word} (h : m.wf) (hw : m.deallocate a = .ok m') : m'.wf := by
  unfold Memory.deallocate at hw
  split at hw
  · cases hw
    refine ⟨h.1.filter _, fun p hp => h.2.1 p (List.mem_of_mem_filter hp), h.2.2.1.filter _, ?_⟩
    intro c hc
    obtain ⟨hc, hp⟩ := List.mem_filter.1 hc
    exact ⟨(h.2.2.2 c hc).1, List.mem_filter.2 ⟨(h.2.2.2 c hc).2, hp⟩⟩
  · cases hw

theorem Memory.write1_wf {m : Memory} (h : m.wf) (a : Word) (x : Byte) : (m.write1 a x).wf :=
  Memory.putByte_wf (Memory.mapPage_wf h a) (by simp) x

/-- The one-byte write of the services is MemWrite of one byte. -/
theorem Memory.write1_eq_write (m : Memory) (a : Word) (v : Word) :
    m.write a 1 v = .ok (m.write1 a (v.setWidth 8)) := by
  have hc : accessCheck a 1 = none := by
    have h1 : ¬ (1 : Nat) ∉ [1, 2, 4, 8] := by decide
    have h2 : ¬ offOf a + 1 > pageSize := by unfold offOf pageSize; omega
    rw [accessCheck, if_neg h1, if_neg h2]
  simp only [Memory.write, hc]
  rfl

/-- The writes of READ_STRING keep the canonical form. -/
theorem Memory.putString_wf (text : List Byte) : ∀ {m : Memory} (_ : m.wf) (a : Word), (m.putString a text).wf := by
  induction text with
  | nil => intro m h a; exact Memory.write1_wf h a 0
  | cons b t ih => intro m h a; exact ih (Memory.write1_wf h a b) (a + 1)

/-- HEAP_ALLOCATE's allocations keep the canonical form, the failing ones too. -/
theorem allocatePages_wf (n : Nat) : ∀ {m : Memory} (_ : m.wf) (a : Word), (allocatePages n a m).1.wf := by
  induction n with
  | zero => intro m h a; exact h
  | succ n ih =>
    intro m h a
    simp only [allocatePages]
    cases hm : m.allocate a with
    | error k => exact h
    | ok m' => exact ih (Memory.allocate_wf h hm) _

/-- Placing an instruction's bytes keeps the canonical form. -/
theorem placeBytes_wf (n : Nat) : ∀ {m : Memory} (_ : m.wf) (a : Word) (v : Word), (placeBytes m a n v).wf := by
  induction n with
  | zero => intro m h a v; exact h
  | succ n ih =>
    intro m h a v
    exact ih (Memory.putByte_wf (Memory.mapPage_wf h a) (by simp) _) _ _

/-! ## Wide accesses, byte by byte -/

theorem Memory.readLE_lt (m : Memory) (n : Nat) : ∀ a, m.readLE a n < 2 ^ (8 * n) := by
  induction n with
  | zero => intro a; simp [Memory.readLE]
  | succ n ih =>
    intro a
    have h1 := ih (a + 1)
    have h2 := (m.byte a).isLt
    have h3 : 2 ^ (8 * (n + 1)) = 256 * 2 ^ (8 * n) := by
      rw [Nat.mul_succ, Nat.pow_add]; omega
    rw [Memory.readLE, h3]
    omega

theorem Memory.readLE_byte (m : Memory) (n : Nat) : ∀ (a : Word) (k : Nat), k < n →
    m.readLE a n / 2 ^ (8 * k) % 256 = (m.byte (a + BitVec.ofNat 64 k)).toNat := by
  induction n with
  | zero => intro a k hk; omega
  | succ n ih =>
    intro a k hk
    have hb := (m.byte a).isLt
    rw [Memory.readLE]
    cases k with
    | zero => simp; omega
    | succ k =>
      have h := ih (a + 1) k (by omega)
      have hp : 2 ^ (8 * (k + 1)) = 256 * 2 ^ (8 * k) := by
        rw [Nat.mul_succ, Nat.pow_add]; omega
      have hd : ((m.byte a).toNat + 256 * m.readLE (a + 1) n) / (256 * 2 ^ (8 * k)) =
          m.readLE (a + 1) n / 2 ^ (8 * k) := by
        rw [← Nat.div_div_eq_div_mul]
        congr 1
        omega
      have ha : a + 1 + BitVec.ofNat 64 k = a + BitVec.ofNat 64 (k + 1) := by
        rw [BitVec.add_assoc]
        congr 1
        apply BitVec.eq_of_toNat_eq
        simp [BitVec.toNat_add, BitVec.toNat_ofNat]
        omega
      rw [hp, hd, h, ha]

end Sys2Proof.Machine
end

