-- ==== Sys2Proof/Laws/PerInstr.lean ====
section
/-! SUPPORT. Statements made per instruction. LenAgrees: the length Fetch reads off an encoded word is the length of the
instruction (R91). -/

namespace Sys2Proof.Laws

/-- The length Fetch gives the encoded word is the instruction's. -/
def LenAgrees.Statement (i : Instr) : Prop := codeLen (encode i) = i.len

theorem LenAgrees.lui (rd : Reg) (imm20 : BitVec 20) : Statement (.lui rd imm20) :=
  codeLen_encU _ _ _ rfl

theorem LenAgrees.auipc (rd : Reg) (imm20 : BitVec 20) : Statement (.auipc rd imm20) :=
  codeLen_encU _ _ _ rfl

theorem LenAgrees.jal (rd : Reg) (imm : BitVec 21) : Statement (.jal rd imm) :=
  codeLen_encJ _ _ _ rfl

theorem LenAgrees.jalr (rd rs1 : Reg) (imm : BitVec 12) : Statement (.jalr rd rs1 imm) :=
  codeLen_encI _ _ _ _ _ rfl

theorem LenAgrees.beq (rs1 rs2 : Reg) (imm : BitVec 13) : Statement (.beq rs1 rs2 imm) :=
  codeLen_encB _ _ _ _ _ rfl

theorem LenAgrees.bne (rs1 rs2 : Reg) (imm : BitVec 13) : Statement (.bne rs1 rs2 imm) :=
  codeLen_encB _ _ _ _ _ rfl

theorem LenAgrees.blt (rs1 rs2 : Reg) (imm : BitVec 13) : Statement (.blt rs1 rs2 imm) :=
  codeLen_encB _ _ _ _ _ rfl

theorem LenAgrees.bge (rs1 rs2 : Reg) (imm : BitVec 13) : Statement (.bge rs1 rs2 imm) :=
  codeLen_encB _ _ _ _ _ rfl

theorem LenAgrees.bltu (rs1 rs2 : Reg) (imm : BitVec 13) : Statement (.bltu rs1 rs2 imm) :=
  codeLen_encB _ _ _ _ _ rfl

theorem LenAgrees.bgeu (rs1 rs2 : Reg) (imm : BitVec 13) : Statement (.bgeu rs1 rs2 imm) :=
  codeLen_encB _ _ _ _ _ rfl

theorem LenAgrees.lb (rd rs1 : Reg) (imm : BitVec 12) : Statement (.lb rd rs1 imm) :=
  codeLen_encI _ _ _ _ _ rfl

theorem LenAgrees.lh (rd rs1 : Reg) (imm : BitVec 12) : Statement (.lh rd rs1 imm) :=
  codeLen_encI _ _ _ _ _ rfl

theorem LenAgrees.lw (rd rs1 : Reg) (imm : BitVec 12) : Statement (.lw rd rs1 imm) :=
  codeLen_encI _ _ _ _ _ rfl

theorem LenAgrees.ld (rd rs1 : Reg) (imm : BitVec 12) : Statement (.ld rd rs1 imm) :=
  codeLen_encI _ _ _ _ _ rfl

theorem LenAgrees.lbu (rd rs1 : Reg) (imm : BitVec 12) : Statement (.lbu rd rs1 imm) :=
  codeLen_encI _ _ _ _ _ rfl

theorem LenAgrees.lhu (rd rs1 : Reg) (imm : BitVec 12) : Statement (.lhu rd rs1 imm) :=
  codeLen_encI _ _ _ _ _ rfl

theorem LenAgrees.lwu (rd rs1 : Reg) (imm : BitVec 12) : Statement (.lwu rd rs1 imm) :=
  codeLen_encI _ _ _ _ _ rfl

theorem LenAgrees.sb (rs1 rs2 : Reg) (imm : BitVec 12) : Statement (.sb rs1 rs2 imm) :=
  codeLen_encS _ _ _ _ _ rfl

theorem LenAgrees.sh (rs1 rs2 : Reg) (imm : BitVec 12) : Statement (.sh rs1 rs2 imm) :=
  codeLen_encS _ _ _ _ _ rfl

theorem LenAgrees.sw (rs1 rs2 : Reg) (imm : BitVec 12) : Statement (.sw rs1 rs2 imm) :=
  codeLen_encS _ _ _ _ _ rfl

theorem LenAgrees.sd (rs1 rs2 : Reg) (imm : BitVec 12) : Statement (.sd rs1 rs2 imm) :=
  codeLen_encS _ _ _ _ _ rfl

theorem LenAgrees.addi (rd rs1 : Reg) (imm : BitVec 12) : Statement (.addi rd rs1 imm) :=
  codeLen_encI _ _ _ _ _ rfl

theorem LenAgrees.slti (rd rs1 : Reg) (imm : BitVec 12) : Statement (.slti rd rs1 imm) :=
  codeLen_encI _ _ _ _ _ rfl

theorem LenAgrees.sltiu (rd rs1 : Reg) (imm : BitVec 12) : Statement (.sltiu rd rs1 imm) :=
  codeLen_encI _ _ _ _ _ rfl

theorem LenAgrees.xori (rd rs1 : Reg) (imm : BitVec 12) : Statement (.xori rd rs1 imm) :=
  codeLen_encI _ _ _ _ _ rfl

theorem LenAgrees.ori (rd rs1 : Reg) (imm : BitVec 12) : Statement (.ori rd rs1 imm) :=
  codeLen_encI _ _ _ _ _ rfl

theorem LenAgrees.andi (rd rs1 : Reg) (imm : BitVec 12) : Statement (.andi rd rs1 imm) :=
  codeLen_encI _ _ _ _ _ rfl

theorem LenAgrees.slli (rd rs1 : Reg) (shamt : BitVec 6) : Statement (.slli rd rs1 shamt) :=
  codeLen_encShift _ _ _ _ _ _ rfl

theorem LenAgrees.srli (rd rs1 : Reg) (shamt : BitVec 6) : Statement (.srli rd rs1 shamt) :=
  codeLen_encShift _ _ _ _ _ _ rfl

theorem LenAgrees.srai (rd rs1 : Reg) (shamt : BitVec 6) : Statement (.srai rd rs1 shamt) :=
  codeLen_encShift _ _ _ _ _ _ rfl

theorem LenAgrees.add (rd rs1 rs2 : Reg) : Statement (.add rd rs1 rs2) :=
  codeLen_encR _ _ _ _ _ _ rfl

theorem LenAgrees.sub (rd rs1 rs2 : Reg) : Statement (.sub rd rs1 rs2) :=
  codeLen_encR _ _ _ _ _ _ rfl

theorem LenAgrees.sll (rd rs1 rs2 : Reg) : Statement (.sll rd rs1 rs2) :=
  codeLen_encR _ _ _ _ _ _ rfl

theorem LenAgrees.slt (rd rs1 rs2 : Reg) : Statement (.slt rd rs1 rs2) :=
  codeLen_encR _ _ _ _ _ _ rfl

theorem LenAgrees.sltu (rd rs1 rs2 : Reg) : Statement (.sltu rd rs1 rs2) :=
  codeLen_encR _ _ _ _ _ _ rfl

theorem LenAgrees.xor (rd rs1 rs2 : Reg) : Statement (.xor rd rs1 rs2) :=
  codeLen_encR _ _ _ _ _ _ rfl

theorem LenAgrees.srl (rd rs1 rs2 : Reg) : Statement (.srl rd rs1 rs2) :=
  codeLen_encR _ _ _ _ _ _ rfl

theorem LenAgrees.sra (rd rs1 rs2 : Reg) : Statement (.sra rd rs1 rs2) :=
  codeLen_encR _ _ _ _ _ _ rfl

theorem LenAgrees.or (rd rs1 rs2 : Reg) : Statement (.or rd rs1 rs2) :=
  codeLen_encR _ _ _ _ _ _ rfl

theorem LenAgrees.and (rd rs1 rs2 : Reg) : Statement (.and rd rs1 rs2) :=
  codeLen_encR _ _ _ _ _ _ rfl

theorem LenAgrees.addiw (rd rs1 : Reg) (imm : BitVec 12) : Statement (.addiw rd rs1 imm) :=
  codeLen_encI _ _ _ _ _ rfl

theorem LenAgrees.slliw (rd rs1 : Reg) (shamt : BitVec 5) : Statement (.slliw rd rs1 shamt) :=
  codeLen_encR _ _ _ _ _ _ rfl

theorem LenAgrees.srliw (rd rs1 : Reg) (shamt : BitVec 5) : Statement (.srliw rd rs1 shamt) :=
  codeLen_encR _ _ _ _ _ _ rfl

theorem LenAgrees.sraiw (rd rs1 : Reg) (shamt : BitVec 5) : Statement (.sraiw rd rs1 shamt) :=
  codeLen_encR _ _ _ _ _ _ rfl

theorem LenAgrees.addw (rd rs1 rs2 : Reg) : Statement (.addw rd rs1 rs2) :=
  codeLen_encR _ _ _ _ _ _ rfl

theorem LenAgrees.subw (rd rs1 rs2 : Reg) : Statement (.subw rd rs1 rs2) :=
  codeLen_encR _ _ _ _ _ _ rfl

theorem LenAgrees.sllw (rd rs1 rs2 : Reg) : Statement (.sllw rd rs1 rs2) :=
  codeLen_encR _ _ _ _ _ _ rfl

theorem LenAgrees.srlw (rd rs1 rs2 : Reg) : Statement (.srlw rd rs1 rs2) :=
  codeLen_encR _ _ _ _ _ _ rfl

theorem LenAgrees.sraw (rd rs1 rs2 : Reg) : Statement (.sraw rd rs1 rs2) :=
  codeLen_encR _ _ _ _ _ _ rfl

theorem LenAgrees.ecall : Statement (.ecall) :=
  codeLen_full rfl

theorem LenAgrees.mul (rd rs1 rs2 : Reg) : Statement (.mul rd rs1 rs2) :=
  codeLen_encR _ _ _ _ _ _ rfl

theorem LenAgrees.mulh (rd rs1 rs2 : Reg) : Statement (.mulh rd rs1 rs2) :=
  codeLen_encR _ _ _ _ _ _ rfl

theorem LenAgrees.mulhsu (rd rs1 rs2 : Reg) : Statement (.mulhsu rd rs1 rs2) :=
  codeLen_encR _ _ _ _ _ _ rfl

theorem LenAgrees.mulhu (rd rs1 rs2 : Reg) : Statement (.mulhu rd rs1 rs2) :=
  codeLen_encR _ _ _ _ _ _ rfl

theorem LenAgrees.div (rd rs1 rs2 : Reg) : Statement (.div rd rs1 rs2) :=
  codeLen_encR _ _ _ _ _ _ rfl

theorem LenAgrees.divu (rd rs1 rs2 : Reg) : Statement (.divu rd rs1 rs2) :=
  codeLen_encR _ _ _ _ _ _ rfl

theorem LenAgrees.rem (rd rs1 rs2 : Reg) : Statement (.rem rd rs1 rs2) :=
  codeLen_encR _ _ _ _ _ _ rfl

theorem LenAgrees.remu (rd rs1 rs2 : Reg) : Statement (.remu rd rs1 rs2) :=
  codeLen_encR _ _ _ _ _ _ rfl

theorem LenAgrees.mulw (rd rs1 rs2 : Reg) : Statement (.mulw rd rs1 rs2) :=
  codeLen_encR _ _ _ _ _ _ rfl

theorem LenAgrees.divw (rd rs1 rs2 : Reg) : Statement (.divw rd rs1 rs2) :=
  codeLen_encR _ _ _ _ _ _ rfl

theorem LenAgrees.divuw (rd rs1 rs2 : Reg) : Statement (.divuw rd rs1 rs2) :=
  codeLen_encR _ _ _ _ _ _ rfl

theorem LenAgrees.remw (rd rs1 rs2 : Reg) : Statement (.remw rd rs1 rs2) :=
  codeLen_encR _ _ _ _ _ _ rfl

theorem LenAgrees.remuw (rd rs1 rs2 : Reg) : Statement (.remuw rd rs1 rs2) :=
  codeLen_encR _ _ _ _ _ _ rfl

theorem LenAgrees.cAddi4spn (rdp : CReg) (imm : BitVec 10) : Statement (.cAddi4spn rdp imm) :=
  codeLen_halfword _ _ rfl _ rfl (by simp)

theorem LenAgrees.cLw (rdp rs1p : CReg) (imm : BitVec 7) : Statement (.cLw rdp rs1p imm) :=
  codeLen_halfword _ _ rfl _ rfl (by simp)

theorem LenAgrees.cLd (rdp rs1p : CReg) (imm : BitVec 8) : Statement (.cLd rdp rs1p imm) :=
  codeLen_halfword _ _ rfl _ rfl (by simp)

theorem LenAgrees.cSw (rs1p rs2p : CReg) (imm : BitVec 7) : Statement (.cSw rs1p rs2p imm) :=
  codeLen_halfword _ _ rfl _ rfl (by simp)

theorem LenAgrees.cSd (rs1p rs2p : CReg) (imm : BitVec 8) : Statement (.cSd rs1p rs2p imm) :=
  codeLen_halfword _ _ rfl _ rfl (by simp)

theorem LenAgrees.cNop (imm : BitVec 6) : Statement (.cNop imm) :=
  codeLen_halfword _ _ rfl _ rfl (by simp)

theorem LenAgrees.cAddi (rd : Reg) (imm : BitVec 6) : Statement (.cAddi rd imm) :=
  codeLen_halfword _ _ rfl _ rfl (by simp)

theorem LenAgrees.cAddiw (rd : Reg) (imm : BitVec 6) : Statement (.cAddiw rd imm) :=
  codeLen_halfword _ _ rfl _ rfl (by simp)

theorem LenAgrees.cLi (rd : Reg) (imm : BitVec 6) : Statement (.cLi rd imm) :=
  codeLen_halfword _ _ rfl _ rfl (by simp)

theorem LenAgrees.cAddi16sp (imm : BitVec 10) : Statement (.cAddi16sp imm) :=
  codeLen_halfword _ _ rfl _ rfl (by simp)

theorem LenAgrees.cLui (rd : Reg) (imm : BitVec 18) : Statement (.cLui rd imm) :=
  codeLen_halfword _ _ rfl _ rfl (by simp)

theorem LenAgrees.cSrli (rdp : CReg) (shamt : BitVec 6) : Statement (.cSrli rdp shamt) :=
  codeLen_halfword _ _ rfl _ rfl (by simp)

theorem LenAgrees.cSrai (rdp : CReg) (shamt : BitVec 6) : Statement (.cSrai rdp shamt) :=
  codeLen_halfword _ _ rfl _ rfl (by simp)

theorem LenAgrees.cAndi (rdp : CReg) (imm : BitVec 6) : Statement (.cAndi rdp imm) :=
  codeLen_halfword _ _ rfl _ rfl (by simp)

theorem LenAgrees.cSub (rdp rs2p : CReg) : Statement (.cSub rdp rs2p) :=
  codeLen_halfword _ _ rfl _ rfl (by simp)

theorem LenAgrees.cXor (rdp rs2p : CReg) : Statement (.cXor rdp rs2p) :=
  codeLen_halfword _ _ rfl _ rfl (by simp)

theorem LenAgrees.cOr (rdp rs2p : CReg) : Statement (.cOr rdp rs2p) :=
  codeLen_halfword _ _ rfl _ rfl (by simp)

theorem LenAgrees.cAnd (rdp rs2p : CReg) : Statement (.cAnd rdp rs2p) :=
  codeLen_halfword _ _ rfl _ rfl (by simp)

theorem LenAgrees.cSubw (rdp rs2p : CReg) : Statement (.cSubw rdp rs2p) :=
  codeLen_halfword _ _ rfl _ rfl (by simp)

theorem LenAgrees.cAddw (rdp rs2p : CReg) : Statement (.cAddw rdp rs2p) :=
  codeLen_halfword _ _ rfl _ rfl (by simp)

theorem LenAgrees.cJ (imm : BitVec 12) : Statement (.cJ imm) :=
  codeLen_halfword _ _ rfl _ rfl (by simp)

theorem LenAgrees.cBeqz (rs1p : CReg) (imm : BitVec 9) : Statement (.cBeqz rs1p imm) :=
  codeLen_halfword _ _ rfl _ rfl (by simp)

theorem LenAgrees.cBnez (rs1p : CReg) (imm : BitVec 9) : Statement (.cBnez rs1p imm) :=
  codeLen_halfword _ _ rfl _ rfl (by simp)

theorem LenAgrees.cSlli (rd : Reg) (shamt : BitVec 6) : Statement (.cSlli rd shamt) :=
  codeLen_halfword _ _ rfl _ rfl (by simp)

theorem LenAgrees.cJr (rs1 : Reg) : Statement (.cJr rs1) :=
  codeLen_halfword _ _ rfl _ rfl (by simp)

theorem LenAgrees.cMv (rd rs2 : Reg) : Statement (.cMv rd rs2) :=
  codeLen_halfword _ _ rfl _ rfl (by simp)

theorem LenAgrees.cAdd (rd rs2 : Reg) : Statement (.cAdd rd rs2) :=
  codeLen_halfword _ _ rfl _ rfl (by simp)

theorem LenAgrees.cJalr (rs1 : Reg) : Statement (.cJalr rs1) :=
  codeLen_halfword _ _ rfl _ rfl (by simp)

theorem LenAgrees.cLwsp (rd : Reg) (imm : BitVec 8) : Statement (.cLwsp rd imm) :=
  codeLen_halfword _ _ rfl _ rfl (by simp)

theorem LenAgrees.cLdsp (rd : Reg) (imm : BitVec 9) : Statement (.cLdsp rd imm) :=
  codeLen_halfword _ _ rfl _ rfl (by simp)

theorem LenAgrees.cSwsp (rs2 : Reg) (imm : BitVec 8) : Statement (.cSwsp rs2 imm) :=
  codeLen_halfword _ _ rfl _ rfl (by simp)

theorem LenAgrees.cSdsp (rs2 : Reg) (imm : BitVec 9) : Statement (.cSdsp rs2 imm) :=
  codeLen_halfword _ _ rfl _ rfl (by simp)

end Sys2Proof.Laws
end

