-- ==== Sys2Proof/Laws/Stages.lean ====
section
/-! SUPPORT. What each stage of a cycle can do, what Execute can do for any instruction, and what a step can do, said
once each. -/

namespace Sys2Proof.Machine

/-! ## WriteBack -/

/-- A register write changes the register file only. -/
theorem State.setReg_eq (s : State) (i : Reg) (v : Word) : s.setReg i v = { s with regs := (s.setReg i v).regs } := by
  unfold State.setReg
  split <;> rfl

theorem writeBack_empty {s : State} (h : s.slotW = none) : writeBack s = s := by simp [writeBack, h]

/-- WriteBack changes the register file, slot W and one counter (R322). -/
theorem writeBack_holds {s : State} {w : Record} (h : s.slotW = some w) :
    writeBack s = { s with
      regs := (if w.writes then s.setReg w.rd w.wb else s).regs
      slotW := none
      counters := { s.counters with retired := s.counters.retired + 1 } } := by
  simp only [writeBack, h]
  cases w.writes with
  | false => rfl
  | true =>
    simp only [if_true]
    conv_lhs => rw [State.setReg_eq]

/-- Whatever slot W held, it is empty afterwards (R322). -/
@[simp] theorem writeBack_slotW (s : State) : (writeBack s).slotW = none := by
  cases h : s.slotW with
  | none => rw [writeBack_empty h, h]
  | some w => rw [writeBack_holds h]

/-- The fields WriteBack does not touch. -/
theorem writeBack_frame (s : State) :
    (writeBack s).pc = s.pc ∧ (writeBack s).heapPtr = s.heapPtr ∧ (writeBack s).slotD = s.slotD ∧
    (writeBack s).slotE = s.slotE ∧ (writeBack s).slotM = s.slotM ∧ (writeBack s).exit = s.exit ∧
    (writeBack s).fatal = s.fatal ∧ (writeBack s).levels = s.levels ∧ (writeBack s).backing = s.backing ∧
    (writeBack s).mem = s.mem ∧ (writeBack s).cfg = s.cfg ∧ (writeBack s).input = s.input ∧
    (writeBack s).reads = s.reads ∧ (writeBack s).output = s.output := by
  cases h : s.slotW with
  | none => rw [writeBack_empty h]; simp
  | some w => rw [writeBack_holds h]; simp

/-! ## AccessMemory -/

theorem accessMemory_empty {s : State} (h : s.slotM = none) : accessMemory s = s := by simp [accessMemory, h]

/-- A record that neither loads nor stores moves on (R323). -/
theorem accessMemory_other {s : State} {r : Record} (h : s.slotM = some r) (hl : r.kind.isLoad = false)
    (hs : r.kind.isStore = false) : accessMemory s = { s with slotW := some r, slotM := none } := by
  simp [accessMemory, h, hl, hs]

/-- A load: the Access, then a fatal stop or the value in slot W (R201). -/
theorem accessMemory_load {s : State} {r : Record} (h : s.slotM = some r) (hl : r.kind.isLoad = true) :
    (∃ k, s.mem.read r.addr (accessWidth r.kind) = .error k ∧
      accessMemory s = (s.access r.addr (accessWidth r.kind) true).raiseFatal k) ∨
    (∃ v, s.mem.read r.addr (accessWidth r.kind) = .ok v ∧
      accessMemory s = { s.access r.addr (accessWidth r.kind) true with
        slotW := some { r with wb := loadExt r.kind v }, slotM := none }) := by
  simp only [accessMemory, h, hl, if_true, accessLoad, State.access_mem]
  cases s.mem.read r.addr (accessWidth r.kind) with
  | error k => exact .inl ⟨k, rfl, rfl⟩
  | ok v => exact .inr ⟨v, rfl, rfl⟩

/-- A store: the Access, then a fatal stop or the new memory (R202). -/
theorem accessMemory_store {s : State} {r : Record} (h : s.slotM = some r) (hl : r.kind.isLoad = false)
    (hs : r.kind.isStore = true) :
    (∃ k, s.mem.write r.addr (accessWidth r.kind) (s.reg r.rs2) = .error k ∧
      accessMemory s = (s.access r.addr (accessWidth r.kind) false).raiseFatal k) ∨
    (∃ m, s.mem.write r.addr (accessWidth r.kind) (s.reg r.rs2) = .ok m ∧
      accessMemory s = { s.access r.addr (accessWidth r.kind) false with
        mem := m, slotW := some r, slotM := none }) := by
  simp only [accessMemory, h, hl, hs, if_true, accessStore, State.access_mem, State.access_reg]
  cases s.mem.write r.addr (accessWidth r.kind) (s.reg r.rs2) with
  | error k => exact .inl ⟨k, rfl, rfl⟩
  | ok m => exact .inr ⟨m, rfl, rfl⟩

/-! ## Execute -/

/-- The result hands the record on to slot M with only its value or address set, and perhaps redirects the fetch
pointer. -/
def HandsOn (s : State) (r : Record) (res : Result) : Prop :=
  ∃ r' reads, r'.code = r.code ∧ r'.pc = r.pc ∧ r'.op = r.op ∧ r'.rd = r.rd ∧ r'.writes = r.writes ∧
    (res = .next (s.moved r' reads) ∨ ∃ target, res = .next ((s.moved r' reads).redirected target))

theorem computeValue_handsOn {s : State} {r : Record} (h : s.slotE = some r) {reads : List Reg}
    {value : State → Record → Word} (hv : value (s.detectLoadUse reads) r = value s r) :
    HandsOn s r (computeValue reads value s) :=
  ⟨{ r with wb := value s r }, reads, rfl, rfl, rfl, rfl, rfl, .inl (computeValue_holds h hv)⟩

theorem opRegImm_handsOn {s : State} {r : Record} (h : s.slotE = some r) (f : Word → Word → Word) (rs1 : Reg)
    (imm : Word) : HandsOn s r (opRegImm f rs1 imm s) :=
  ⟨{ r with wb := f (s.fwd rs1) imm }, [rs1], rfl, rfl, rfl, rfl, rfl, .inl (opRegImm_holds h f rs1 imm)⟩

theorem opRegReg_handsOn {s : State} {r : Record} (h : s.slotE = some r) (f : Word → Word → Word) (rs1 rs2 : Reg) :
    HandsOn s r (opRegReg f rs1 rs2 s) :=
  ⟨{ r with wb := f (s.fwd rs1) (s.fwd rs2) }, [rs1, rs2], rfl, rfl, rfl, rfl, rfl,
    .inl (opRegReg_holds h f rs1 rs2)⟩

theorem opAddress_handsOn {s : State} {r : Record} (h : s.slotE = some r) (reads : List Reg) (rs1 : Reg)
    (imm : Word) : HandsOn s r (opAddress reads rs1 imm s) :=
  ⟨{ r with addr := s.fwd rs1 + imm }, reads, rfl, rfl, rfl, rfl, rfl, .inl (opAddress_holds h reads rs1 imm)⟩

theorem opBranch_handsOn {s : State} {r : Record} (h : s.slotE = some r) (cond : Word → Word → Bool) (rs1 rs2 : Reg)
    (imm : Word) : HandsOn s r (opBranch cond rs1 rs2 imm s) := by
  refine ⟨r, [rs1, rs2], rfl, rfl, rfl, rfl, rfl, ?_⟩
  rw [opBranch_holds h]
  split
  · exact .inr ⟨_, rfl⟩
  · exact .inl rfl

theorem opJump_handsOn {s : State} {r : Record} (h : s.slotE = some r) {reads : List Reg}
    {target : State → Record → Word} (ht : target (s.detectLoadUse reads) r = target s r) :
    HandsOn s r (opJump reads target s) := by
  refine ⟨{ r with wb := r.pc + BitVec.ofNat 64 r.len }, reads, rfl, rfl, rfl, rfl, rfl, .inr ⟨_, opJump_holds h ht⟩⟩

/-- Every instruction but ECALL hands its record on; it never stops (R331). -/
theorem exec_handsOn (i : Instr) (hi : i ≠ .ecall) {s : State} {r : Record} (h : s.slotE = some r) :
    HandsOn s r (exec i s) := by
  cases i with
  | ecall => exact absurd rfl hi
  | lui rd imm => exact computeValue_handsOn (value := fun _ _ => immUExt imm) h rfl
  | auipc rd imm => exact computeValue_handsOn (value := fun _ r => r.pc + immUExt imm) h rfl
  | cLui rd imm => exact computeValue_handsOn (value := fun _ _ => sext imm) h rfl
  | cMv rd rs2 => exact computeValue_handsOn (value := fun s _ => s.fwd rs2) h (State.detectLoadUse_fwd s [rs2] rs2)
  | jal rd imm => exact opJump_handsOn (target := fun _ r => r.pc + sext imm) h rfl
  | cJ imm => exact opJump_handsOn (target := fun _ r => r.pc + sext imm) h rfl
  | jalr rd rs1 imm => exact opJump_handsOn (target := fun s _ => jalrTarget (s.fwd rs1) (sext imm)) h (by simp)
  | cJr rs1 => exact opJump_handsOn (target := fun s _ => jalrTarget (s.fwd rs1) 0) h (by simp)
  | cJalr rs1 => exact opJump_handsOn (target := fun s _ => jalrTarget (s.fwd rs1) 0) h (by simp)
  | addi => exact opRegImm_handsOn h _ _ _
  | slti => exact opRegImm_handsOn h _ _ _
  | sltiu => exact opRegImm_handsOn h _ _ _
  | xori => exact opRegImm_handsOn h _ _ _
  | ori => exact opRegImm_handsOn h _ _ _
  | andi => exact opRegImm_handsOn h _ _ _
  | slli => exact opRegImm_handsOn h _ _ _
  | srli => exact opRegImm_handsOn h _ _ _
  | srai => exact opRegImm_handsOn h _ _ _
  | addiw => exact opRegImm_handsOn h _ _ _
  | slliw => exact opRegImm_handsOn h _ _ _
  | srliw => exact opRegImm_handsOn h _ _ _
  | sraiw => exact opRegImm_handsOn h _ _ _
  | cAddi4spn => exact opRegImm_handsOn h _ _ _
  | cNop => exact opRegImm_handsOn h _ _ _
  | cAddi => exact opRegImm_handsOn h _ _ _
  | cAddiw => exact opRegImm_handsOn h _ _ _
  | cLi => exact opRegImm_handsOn h _ _ _
  | cAddi16sp => exact opRegImm_handsOn h _ _ _
  | cSrli => exact opRegImm_handsOn h _ _ _
  | cSrai => exact opRegImm_handsOn h _ _ _
  | cAndi => exact opRegImm_handsOn h _ _ _
  | cSlli => exact opRegImm_handsOn h _ _ _
  | add => exact opRegReg_handsOn h _ _ _
  | sub => exact opRegReg_handsOn h _ _ _
  | sll => exact opRegReg_handsOn h _ _ _
  | slt => exact opRegReg_handsOn h _ _ _
  | sltu => exact opRegReg_handsOn h _ _ _
  | xor => exact opRegReg_handsOn h _ _ _
  | srl => exact opRegReg_handsOn h _ _ _
  | sra => exact opRegReg_handsOn h _ _ _
  | or => exact opRegReg_handsOn h _ _ _
  | and => exact opRegReg_handsOn h _ _ _
  | addw => exact opRegReg_handsOn h _ _ _
  | subw => exact opRegReg_handsOn h _ _ _
  | sllw => exact opRegReg_handsOn h _ _ _
  | srlw => exact opRegReg_handsOn h _ _ _
  | sraw => exact opRegReg_handsOn h _ _ _
  | mul => exact opRegReg_handsOn h _ _ _
  | mulh => exact opRegReg_handsOn h _ _ _
  | mulhsu => exact opRegReg_handsOn h _ _ _
  | mulhu => exact opRegReg_handsOn h _ _ _
  | div => exact opRegReg_handsOn h _ _ _
  | divu => exact opRegReg_handsOn h _ _ _
  | rem => exact opRegReg_handsOn h _ _ _
  | remu => exact opRegReg_handsOn h _ _ _
  | mulw => exact opRegReg_handsOn h _ _ _
  | divw => exact opRegReg_handsOn h _ _ _
  | divuw => exact opRegReg_handsOn h _ _ _
  | remw => exact opRegReg_handsOn h _ _ _
  | remuw => exact opRegReg_handsOn h _ _ _
  | cSub => exact opRegReg_handsOn h _ _ _
  | cXor => exact opRegReg_handsOn h _ _ _
  | cOr => exact opRegReg_handsOn h _ _ _
  | cAnd => exact opRegReg_handsOn h _ _ _
  | cSubw => exact opRegReg_handsOn h _ _ _
  | cAddw => exact opRegReg_handsOn h _ _ _
  | cAdd => exact opRegReg_handsOn h _ _ _
  | lb => exact opAddress_handsOn h _ _ _
  | lh => exact opAddress_handsOn h _ _ _
  | lw => exact opAddress_handsOn h _ _ _
  | ld => exact opAddress_handsOn h _ _ _
  | lbu => exact opAddress_handsOn h _ _ _
  | lhu => exact opAddress_handsOn h _ _ _
  | lwu => exact opAddress_handsOn h _ _ _
  | sb => exact opAddress_handsOn h _ _ _
  | sh => exact opAddress_handsOn h _ _ _
  | sw => exact opAddress_handsOn h _ _ _
  | sd => exact opAddress_handsOn h _ _ _
  | cLw => exact opAddress_handsOn h _ _ _
  | cLd => exact opAddress_handsOn h _ _ _
  | cSw => exact opAddress_handsOn h _ _ _
  | cSd => exact opAddress_handsOn h _ _ _
  | cLwsp => exact opAddress_handsOn h _ _ _
  | cLdsp => exact opAddress_handsOn h _ _ _
  | cSwsp => exact opAddress_handsOn h _ _ _
  | cSdsp => exact opAddress_handsOn h _ _ _
  | beq => exact opBranch_handsOn h _ _ _ _
  | bne => exact opBranch_handsOn h _ _ _ _
  | blt => exact opBranch_handsOn h _ _ _ _
  | bge => exact opBranch_handsOn h _ _ _ _
  | bltu => exact opBranch_handsOn h _ _ _ _
  | bgeu => exact opBranch_handsOn h _ _ _ _
  | cBeqz => exact opBranch_handsOn h _ _ _ _
  | cBnez => exact opBranch_handsOn h _ _ _ _

/-- The fields Execute does not touch, whatever the instruction: the register file, slot W, the storage levels and the
configuration. -/
theorem exec_frame {i : Instr} {s t : State} {r : Record} (h : s.slotE = some r) (ht : exec i s = .next t) :
    t.regs = s.regs ∧ t.slotW = s.slotW ∧ t.levels = s.levels ∧ t.backing = s.backing ∧ t.cfg = s.cfg ∧
    t.counters.cycles = s.counters.cycles ∧ t.counters.retired = s.counters.retired ∧
    t.counters.memDelayCycles = s.counters.memDelayCycles := by
  by_cases hi : i = .ecall
  · subst hi
    replace ht : execEcall s = .next t := ht
    rw [execEcall_holds h] at ht
    split at ht
    · cases ht
      simp [State.detectLoadUse_eq]
    · rename_i v _
      have hs : ∀ u : State, u = s.detectLoadUse [17, 10] → ∀ u', performService v u r (s.fwd 10) = .next u' →
          u'.regs = u.regs ∧ u'.slotW = u.slotW ∧ u'.levels = u.levels ∧ u'.backing = u.backing ∧ u'.cfg = u.cfg ∧
          u'.counters = u.counters := by
        intro u _ u' hu
        cases v <;> simp only [performService, Host.Outcome.next.injEq] at hu <;> try (subst hu; exact ⟨rfl, rfl, rfl, rfl, rfl, rfl⟩)
        · unfold servicePrintString at hu
          split at hu <;> cases hu <;> exact ⟨rfl, rfl, rfl, rfl, rfl, rfl⟩
        · subst hu
          unfold serviceHeapAllocate
          simp only
          split <;> exact ⟨rfl, rfl, rfl, rfl, rfl, rfl⟩
      obtain ⟨h1, h2, h3, h4, h5, h6⟩ := hs _ rfl t ht
      rw [h1, h2, h3, h4, h5, h6]
      simp [State.detectLoadUse_eq]
  · obtain ⟨r', reads, -, -, -, -, -, h' | ⟨target, h'⟩⟩ := exec_handsOn i hi h
    all_goals
      rw [h'] at ht
      cases ht
      simp [State.moved, State.redirected]

/-! ## Decode and Fetch -/

theorem decodeStage_empty {s : State} (h : s.slotD = none) : decodeStage s = s := by simp [decodeStage, h]

theorem decodeStage_instr {s : State} {f : Fetched} {i : Instr} (h : s.slotD = some f)
    (hd : decode s.cfg.hasM f.code = .instr i) :
    decodeStage s = { s with slotE := some (Record.decoded f i), slotD := none } := by
  simp [decodeStage, h, hd]

theorem decodeStage_failure {s : State} {f : Fetched} {why : DecodeReject} (h : s.slotD = some f)
    (hd : decode s.cfg.hasM f.code = .failure why) : decodeStage s = s.raiseFatal .decodeFailure := by
  simp [decodeStage, h, hd]

/-- Fetch: the Access, then a fatal stop, or the word in slot D and the fetch pointer past it (R340). -/
theorem fetchStage_cases (s : State) :
    (∃ k, s.mem.read s.pc 4 = .error k ∧ fetchStage s = (s.access s.pc 4 true).raiseFatal k) ∨
    (∃ v, s.mem.read s.pc 4 = .ok v ∧
      fetchStage s = { s.access s.pc 4 true with
        slotD := some { code := BitVec.ofNat 32 v, pc := s.pc }
        pc := s.pc + BitVec.ofNat 64 (codeLen (BitVec.ofNat 32 v)) }) := by
  simp only [fetchStage, State.access_mem]
  cases s.mem.read s.pc 4 with
  | error k => exact .inl ⟨k, rfl, rfl⟩
  | ok v => exact .inr ⟨v, rfl, rfl⟩

/-! ## The step -/

/-- Everything a step that answers a next state can have done (R320). -/
theorem step_cases {s t : State} (h : step s = .next t) :
    s.ConfigOk ∧
    ((s.stopped = true ∧ t = s) ∨
     (s.stopped = false ∧ (beforeExecute s).stopped = true ∧ t = beforeExecute s) ∨
     (s.stopped = false ∧ (beforeExecute s).stopped = false ∧
       ∃ e, execute (beforeExecute s) = .next e ∧
         ((e.stopped = true ∧ t = e) ∨
          (e.stopped = false ∧ (decodeStage e).stopped = true ∧ t = decodeStage e) ∨
          (e.stopped = false ∧ (decodeStage e).stopped = false ∧ t = fetchStage (decodeStage e))))) := by
  unfold step at h
  split at h
  · rename_i hc
    refine ⟨hc, ?_⟩
    split at h
    · rename_i hs
      cases h
      exact .inl ⟨hs, rfl⟩
    · rename_i hs
      right
      split at h
      · rename_i hb
        cases h
        exact .inl ⟨by simpa using hs, hb, rfl⟩
      · rename_i hb
        refine .inr ⟨by simpa using hs, by simpa using hb, ?_⟩
        split at h
        · rename_i e he
          cases h
          refine ⟨e, he, ?_⟩
          unfold finishCycle
          by_cases h1 : e.stopped = true
          · exact .inl ⟨h1, by simp [h1]⟩
          · have h1' : e.stopped = false := by simpa using h1
            right
            by_cases h2 : (decodeStage e).stopped = true
            · exact .inl ⟨h1', h2, by simp [h1', h2]⟩
            · have h2' : (decodeStage e).stopped = false := by simpa using h2
              exact .inr ⟨h1', h2', by simp [h1', h2']⟩
        · cases h
        · cases h
  · cases h

/-- A state whose configuration is not one of this hardware is refused. -/
theorem step_badConfiguration {s : State} (h : ¬ s.ConfigOk) : step s = .refused .badConfiguration := by
  simp [step, h]

end Sys2Proof.Machine
end

