-- ==== Sys2Proof/Laws/Stops.lean ====
section
/-! SUPPORT. What a cycle leaves behind up to the end of Execute, stops included: the fatal kinds of an access, the stages
before Execute, where Execute redirects, and how an ECALL ends. -/

namespace Sys2Proof.Machine

/-! ## The fatal kinds of an access (R41, R43, R44, R49) -/

/-- A load or store has one of the four sizes (R49). -/
theorem accessWidth_size {k : Kind} (h : k.isLoad = true ∨ k.isStore = true) : accessWidth k ∈ [1, 2, 4, 8] := by
  cases k <;> simp_all [Kind.isLoad, Kind.isStore, accessWidth]

/-- How a read of a good size fails (R41, R43). -/
theorem Memory.read_error {m : Memory} {a : Word} {n : Nat} {k : FatalKind} (hn : n ∈ [1, 2, 4, 8])
    (h : m.read a n = .error k) :
    k = .pageCross ∧ offOf a + n > pageSize ∨
    k = .unmappedRead ∧ offOf a + n ≤ pageSize ∧ m.mapped a = false := by
  simp only [Memory.read, accessCheck, hn, not_true_eq_false, if_false] at h
  by_cases hc : offOf a + n > pageSize
  · rw [if_pos hc] at h
    exact .inl ⟨(Except.error.inj h).symm, hc⟩
  · rw [if_neg hc] at h
    cases hm : m.mapped a with
    | true => simp [hm] at h
    | false =>
      simp only [hm, Bool.false_eq_true, if_false] at h
      exact .inr ⟨(Except.error.inj h).symm, by omega, rfl⟩

/-- How a write of a good size fails (R41, R44). -/
theorem Memory.write_error {m : Memory} {a v : Word} {n : Nat} {k : FatalKind} (hn : n ∈ [1, 2, 4, 8])
    (h : m.write a n v = .error k) : k = .pageCross := by
  simp only [Memory.write, accessCheck, hn, not_true_eq_false, if_false] at h
  by_cases hc : offOf a + n > pageSize
  · rw [if_pos hc] at h
    exact (Except.error.inj h).symm
  · rw [if_neg hc] at h
    cases h

/-! ## The stages before Execute -/

/-- A running machine has neither exited nor stopped (R320). -/
theorem State.running_iff {s : State} : s.stopped = false ↔ s.exit = false ∧ s.fatal = none := by
  unfold State.stopped
  cases s.exit <;> cases s.fatal <;> simp

/-- The cycle count is no part of what WriteBack commits. -/
theorem writeBack_tick_regs (s : State) : (writeBack s.tick).regs = (writeBack s).regs := by
  cases h : s.slotW with
  | none => rw [writeBack_empty h, writeBack_empty (s := s.tick) h]; rfl
  | some w =>
    rw [writeBack_holds h, writeBack_holds (s := s.tick) h]
    simp only [State.setReg]
    cases w.writes with
    | false => rfl
    | true => by_cases h0 : w.rd = 0 <;> simp only [h0, if_true, if_false] <;> rfl

/-- A cycle of a running machine up to Execute: slots D and E and the fetch pointer stay, the register file is WriteBack's,
and AccessMemory either moves the record of slot M on or stops there with the memory as it was (R322 to R326, R362). -/
theorem beforeExecute_cases {s : State} (hs : s.stopped = false) :
    (beforeExecute s).slotE = s.slotE ∧ (beforeExecute s).slotD = s.slotD ∧ (beforeExecute s).pc = s.pc ∧
    (beforeExecute s).exit = false ∧ (beforeExecute s).regs = (writeBack s).regs ∧
    ((beforeExecute s).fatal = none →
      (beforeExecute s).slotM = none ∧ (beforeExecute s).slotW.map Record.pc = s.slotM.map Record.pc) ∧
    (∀ k, (beforeExecute s).fatal = some k →
      (beforeExecute s).slotW = none ∧ (beforeExecute s).slotM = s.slotM ∧ (beforeExecute s).mem = s.mem ∧
      ∃ r, s.slotM = some r ∧
        (r.kind.isLoad = true ∧ k ∈ [.unmappedRead, .pageCross] ∨ r.kind.isStore = true ∧ k = .pageCross)) := by
  obtain ⟨hx, hf⟩ := State.running_iff.1 hs
  obtain ⟨gpc, -, gD, gE, gM, gx, gf, -, -, gmem, -⟩ := writeBack_frame s.tick
  have gW := writeBack_slotW s.tick
  replace gx : (writeBack s.tick).exit = false := gx.trans hx
  replace gf : (writeBack s.tick).fatal = none := gf.trans hf
  unfold beforeExecute
  rw [← writeBack_tick_regs]
  generalize writeBack s.tick = u at *
  cases hM : u.slotM with
  | none =>
    rw [accessMemory_empty hM]
    refine ⟨gE, gD, gpc, gx, rfl, fun _ => ⟨hM, ?_⟩, fun k hk => ?_⟩
    · rw [gW, show s.slotM = none from gM.symm.trans hM]
    · rw [gf] at hk
      cases hk
  | some r =>
    have hM' : s.slotM = some r := gM.symm.trans hM
    have passed : ∀ (t : State) (q : Record), t.slotE = u.slotE → t.slotD = u.slotD → t.pc = u.pc → t.exit = u.exit →
        t.regs = u.regs → t.fatal = u.fatal → t.slotM = none → t.slotW = some q → q.pc = r.pc →
        t.slotE = s.slotE ∧ t.slotD = s.slotD ∧ t.pc = s.pc ∧ t.exit = false ∧ t.regs = u.regs ∧
        (t.fatal = none → t.slotM = none ∧ t.slotW.map Record.pc = s.slotM.map Record.pc) ∧
        (∀ k, t.fatal = some k → t.slotW = none ∧ t.slotM = s.slotM ∧ t.mem = s.mem ∧
          ∃ r, s.slotM = some r ∧
            (r.kind.isLoad = true ∧ k ∈ [.unmappedRead, .pageCross] ∨ r.kind.isStore = true ∧ k = .pageCross)) := by
      intro t q hE hD hp he hr hft hMt hWt hq
      refine ⟨hE.trans gE, hD.trans gD, hp.trans gpc, he.trans gx, hr, fun _ => ⟨hMt, ?_⟩, fun k hk => ?_⟩
      · rw [hWt, hM', Option.map_some, Option.map_some, hq]
      · rw [hft, gf] at hk
        cases hk
    by_cases hl : r.kind.isLoad = true
    · rcases accessMemory_load hM hl with ⟨k, hr, he⟩ | ⟨v, -, he⟩ <;> rw [he]
      · refine ⟨gE, gD, gpc, gx, rfl, fun h => by simp [State.raiseFatal] at h, fun k' hk => ?_⟩
        cases hk
        refine ⟨gW, gM, gmem, r, hM', .inl ⟨hl, ?_⟩⟩
        rcases Memory.read_error (accessWidth_size (.inl hl)) hr with ⟨h, -⟩ | ⟨h, -⟩ <;> simp [h]
      · exact passed _ _ rfl rfl rfl rfl rfl rfl rfl rfl rfl
    · have hl' : r.kind.isLoad = false := by simpa using hl
      by_cases hst : r.kind.isStore = true
      · rcases accessMemory_store hM hl' hst with ⟨k, hr, he⟩ | ⟨m, -, he⟩ <;> rw [he]
        · refine ⟨gE, gD, gpc, gx, rfl, fun h => by simp [State.raiseFatal] at h, fun k' hk => ?_⟩
          cases hk
          exact ⟨gW, gM, gmem, r, hM', .inr ⟨hst, Memory.write_error (accessWidth_size (.inr hst)) hr⟩⟩
        · exact passed _ _ rfl rfl rfl rfl rfl rfl rfl rfl rfl
      · rw [accessMemory_other hM hl' (by simpa using hst)]
        exact passed _ _ rfl rfl rfl rfl rfl rfl rfl rfl rfl

/-! ## Where Execute redirects (R331, R333) -/

/-- The record in slot E is a jump, or a branch whose condition holds. -/
def State.Takes (s : State) (r : Record) : Prop :=
  r.kind = .jal ∨ r.kind = .jalr ∨ kindCond r.kind (s.fwd r.rs1) (s.fwd r.rs2) = some true

/-- Where the record in slot E goes if it is taken. -/
def State.targetOf (s : State) (r : Record) : Word :=
  if r.kind = .jalr then (s.fwd r.rs1 + r.imm) &&& ~~~1 else r.pc + r.imm

/-- The result hands a record of the same address on, and redirects exactly where the record is taken. -/
def Redirects (s : State) (r : Record) (res : Result) : Prop :=
  ∃ r' reads, r'.pc = r.pc ∧
    (s.Takes r ∧ res = .next ((s.moved r' reads).redirected (s.targetOf r)) ∨
     ¬ s.Takes r ∧ res = .next (s.moved r' reads))

/-- A kind that neither jumps nor branches. -/
theorem not_takes {s : State} {r : Record} {k : Kind} (hk : r.kind = k) (hjal : k ≠ .jal) (hjalr : k ≠ .jalr)
    (hcond : ∀ a b, kindCond k a b = none) : ¬ s.Takes r := by
  simp [State.Takes, hk, hjal, hjalr, hcond]

theorem redirects_of_moved {s : State} {r : Record} (hn : ¬ s.Takes r) {res : Result} (r' : Record)
    (reads : List Reg) (hp : r'.pc = r.pc) (h : res = .next (s.moved r' reads)) : Redirects s r res :=
  ⟨r', reads, hp, .inr ⟨hn, h⟩⟩

theorem computeValue_redirects {s : State} {r : Record} (h : s.slotE = some r) (hn : ¬ s.Takes r) {reads : List Reg}
    {value : State → Record → Word} (hv : value (s.detectLoadUse reads) r = value s r) :
    Redirects s r (computeValue reads value s) :=
  redirects_of_moved hn _ _ (by rfl) (computeValue_holds h hv)

theorem opRegImm_redirects {s : State} {r : Record} (h : s.slotE = some r) (hn : ¬ s.Takes r)
    (f : Word → Word → Word) (rs1 : Reg) (imm : Word) : Redirects s r (opRegImm f rs1 imm s) :=
  redirects_of_moved hn _ _ (by rfl) (opRegImm_holds h f rs1 imm)

theorem opRegReg_redirects {s : State} {r : Record} (h : s.slotE = some r) (hn : ¬ s.Takes r)
    (f : Word → Word → Word) (rs1 rs2 : Reg) : Redirects s r (opRegReg f rs1 rs2 s) :=
  redirects_of_moved hn _ _ (by rfl) (opRegReg_holds h f rs1 rs2)

theorem opAddress_redirects {s : State} {r : Record} (h : s.slotE = some r) (hn : ¬ s.Takes r) (reads : List Reg)
    (rs1 : Reg) (imm : Word) : Redirects s r (opAddress reads rs1 imm s) :=
  redirects_of_moved hn _ _ (by rfl) (opAddress_holds h reads rs1 imm)

theorem opBranch_redirects {s : State} {r : Record} (h : s.slotE = some r) {i : Instr} (hi : r.op = i)
    {cond : Word → Word → Bool} (hjal : i.kind ≠ .jal) (hjalr : i.kind ≠ .jalr)
    (hcond : ∀ a b, kindCond i.kind a b = some (cond a b)) :
    Redirects s r (opBranch cond i.rs1 i.rs2 i.imm s) := by
  subst hi
  refine ⟨r, [r.op.rs1, r.op.rs2], rfl, ?_⟩
  rw [opBranch_holds h]
  have hc := hcond (s.fwd r.op.rs1) (s.fwd r.op.rs2)
  cases hb : cond (s.fwd r.op.rs1) (s.fwd r.op.rs2) <;> rw [hb] at hc
  · exact .inr ⟨by simp [State.Takes, Record.kind, Record.rs1, Record.rs2, hjal, hjalr, hc], rfl⟩
  · exact .inl ⟨.inr (.inr hc), by simp [State.targetOf, Record.kind, Record.imm, hjalr]⟩

theorem opJump_redirects {s : State} {r : Record} (h : s.slotE = some r) {reads : List Reg}
    {target : State → Record → Word} (ht : target (s.detectLoadUse reads) r = target s r)
    (hk : r.kind = .jal ∨ r.kind = .jalr) (hto : target s r = s.targetOf r) :
    Redirects s r (opJump reads target s) :=
  ⟨_, reads, by rfl, .inl ⟨hk.elim .inl fun h' => .inr (.inl h'), hto ▸ opJump_holds h ht⟩⟩

/-- Every instruction but ECALL hands its record on, and redirects the fetch pointer exactly where it is taken (R331,
R333). -/
theorem exec_redirects (i : Instr) (hi : i ≠ .ecall) {s : State} {r : Record} (h : s.slotE = some r) (hr : r.op = i) :
    Redirects s r (exec i s) := by
  have hk : r.kind = i.kind := congrArg Instr.kind hr
  have hx : r.rs1 = i.rs1 := congrArg Instr.rs1 hr
  have hm : r.imm = i.imm := congrArg Instr.imm hr
  have hjal : r.kind = .jal → s.targetOf r = r.pc + i.imm := fun e => by simp [State.targetOf, e, hm]
  have hjalr : r.kind = .jalr → s.targetOf r = (s.fwd i.rs1 + i.imm) &&& ~~~1 := fun e => by
    simp [State.targetOf, e, hm, hx]
  cases i with
  | ecall => exact absurd rfl hi
  | lui rd imm => exact computeValue_redirects (value := fun _ _ => immUExt imm) h (not_takes hk nofun nofun fun _ _ => rfl) rfl
  | auipc rd imm =>
    exact computeValue_redirects (value := fun _ r => r.pc + immUExt imm) h (not_takes hk nofun nofun fun _ _ => rfl) rfl
  | cLui rd imm => exact computeValue_redirects (value := fun _ _ => sext imm) h (not_takes hk nofun nofun fun _ _ => rfl) rfl
  | cMv rd rs2 =>
    exact computeValue_redirects (value := fun s _ => s.fwd rs2) h (not_takes hk nofun nofun fun _ _ => rfl)
      (State.detectLoadUse_fwd s [rs2] rs2)
  | jal rd imm =>
    exact opJump_redirects (target := fun _ r => r.pc + sext imm) h rfl (.inl hk) (hjal hk).symm
  | cJ imm => exact opJump_redirects (target := fun _ r => r.pc + sext imm) h rfl (.inl hk) (hjal hk).symm
  | jalr rd rs1 imm =>
    exact opJump_redirects (target := fun s _ => jalrTarget (s.fwd rs1) (sext imm)) h (by simp) (.inr hk) (hjalr hk).symm
  | cJr rs1 =>
    exact opJump_redirects (target := fun s _ => jalrTarget (s.fwd rs1) 0) h (by simp) (.inr hk) (hjalr hk).symm
  | cJalr rs1 =>
    exact opJump_redirects (target := fun s _ => jalrTarget (s.fwd rs1) 0) h (by simp) (.inr hk) (hjalr hk).symm
  | beq | bne | blt | bge | bltu | bgeu | cBeqz | cBnez =>
    exact opBranch_redirects h hr nofun nofun fun _ _ => rfl
  | addi | slti | sltiu | xori | ori | andi | slli | srli | srai | addiw | slliw | srliw | sraiw | cAddi4spn | cNop
  | cAddi | cAddiw | cLi | cAddi16sp | cSrli | cSrai | cAndi | cSlli =>
    exact opRegImm_redirects h (not_takes hk nofun nofun fun _ _ => rfl) _ _ _
  | lb | lh | lw | ld | lbu | lhu | lwu | sb | sh | sw | sd | cLw | cLd | cSw | cSd | cLwsp | cLdsp | cSwsp | cSdsp =>
    exact opAddress_redirects h (not_takes hk nofun nofun fun _ _ => rfl) _ _ _
  | add | sub | sll | slt | sltu | xor | srl | sra | or | and | addw | subw | sllw | srlw | sraw | mul | mulh | mulhsu
  | mulhu | div | divu | rem | remu | mulw | divw | divuw | remw | remuw | cSub | cXor | cOr | cAnd | cSubw | cAddw
  | cAdd =>
    exact opRegReg_redirects h (not_takes hk nofun nofun fun _ _ => rfl) _ _ _

/-- Execute of an empty slot E, whatever the instruction (R331). -/
theorem exec_empty (i : Instr) {s : State} (h : s.slotE = none) : exec i s = .next s := by
  cases s
  subst h
  cases i <;> rfl

/-! ## How an ECALL ends (R225 to R239) -/

/-- The only fatal kind of the scan of PRINT_STRING (R230). -/
theorem scanString_failed {n : Nat} {m : Memory} {a : Word} {k : FatalKind} (h : scanString m n a = .failed k) :
    k = .unmappedRead := by
  induction n generalizing a with
  | zero => cases h
  | succ n ih =>
    simp only [scanString] at h
    split at h
    · rename_i k' hr
      cases h
      have : offOf a < pageSize := Nat.mod_lt _ (by decide)
      rcases Memory.read_error (by simp) hr with ⟨-, hc⟩ | ⟨hk, -⟩
      · omega
      · exact hk
    · split at h
      · cases h
      · split at h
        · cases h
        · rename_i hs
          cases h
          exact ih hs
        · cases h

/-- The only fatal kind of a heap allocation (R236). -/
theorem allocatePages_fatal {n : Nat} {a : Word} {m m' : Memory} {k : FatalKind}
    (h : allocatePages n a m = (m', some k)) : k = .doubleAllocation := by
  induction n generalizing a m with
  | zero => cases h
  | succ n ih =>
    simp only [allocatePages, Memory.allocate] at h
    split at h
    · rename_i he
      split at he <;> cases he
      cases h
      rfl
    · exact ih h

/-- A heap allocation writes no byte and unmaps no page (R236). -/
theorem allocatePages_keeps (n : Nat) (a : Word) (m : Memory) :
    (allocatePages n a m).1.cells = m.cells ∧ ∀ p ∈ m.pages, p ∈ (allocatePages n a m).1.pages := by
  induction n generalizing a m with
  | zero => exact ⟨rfl, fun _ h => h⟩
  | succ n ih =>
    simp only [allocatePages, Memory.allocate]
    split
    · exact ⟨rfl, fun _ h => h⟩
    · rename_i he
      split at he <;> cases he
      obtain ⟨hc, hp⟩ := ih (a + BitVec.ofNat 64 pageSize) (m.mapPage a)
      exact ⟨hc, fun p h => hp p (mem_keyInsert.2 (.inr h))⟩

/-- Every mapped byte reads after a heap allocation as before. -/
theorem allocatePages_peek (n : Nat) (p : Word) {m : Memory} {a : Word} (h : m.mapped a = true) :
    (allocatePages n p m).1.peek a = m.peek a := by
  obtain ⟨hc, hp⟩ := allocatePages_keeps n p m
  have h' : (allocatePages n p m).1.mapped a = true := by
    simp only [Memory.mapped, List.contains_iff_mem] at *
    exact hp _ h
  simp only [Memory.peek, h, h', if_true, Memory.byte, hc]

/-- The three ways an ECALL ends in a next state: its record moves on; it exits; or it stops with one of three fatal
kinds, the record kept in slot E. Nothing of slots D and W, the fetch pointer and the register file changes (R220 to
R239). -/
theorem execEcall_cases {s t : State} {r : Record} (h : s.slotE = some r) (hs : s.stopped = false)
    (ht : execEcall s = .next t) :
    t.slotD = s.slotD ∧ t.pc = s.pc ∧ t.slotW = s.slotW ∧ t.regs = s.regs ∧
    ((t.exit = false ∧ t.fatal = none ∧ t.slotE = none ∧ t.slotM.map Record.pc = some r.pc) ∨
     (t.exit = true ∧ t.fatal = none ∧ t.slotE = s.slotE ∧ t.slotM = s.slotM ∧ t.mem = s.mem) ∨
     (t.exit = false ∧ t.slotE = s.slotE ∧ t.slotM = s.slotM ∧
       ∃ k, t.fatal = some k ∧
         (k ∈ [.unknownSyscall, .unmappedRead] ∧ t.mem = s.mem ∨
          k = .doubleAllocation ∧ ∀ a, s.mem.mapped a = true → t.mem.peek a = s.mem.peek a))) := by
  obtain ⟨hx, hf⟩ := State.running_iff.1 hs
  rw [execEcall_holds h, State.detectLoadUse_eq] at ht
  split at ht
  · cases ht
    exact ⟨rfl, rfl, rfl, rfl, .inr (.inr ⟨hx, rfl, rfl, _, rfl, .inl ⟨by simp, rfl⟩⟩)⟩
  · rename_i v _
    generalize s.fwd 10 = arg at ht
    cases v <;> simp only [performService, Host.Outcome.next.injEq] at ht
    case exit =>
      subst ht
      exact ⟨rfl, rfl, rfl, rfl, .inr (.inl ⟨rfl, hf, rfl, rfl, rfl⟩)⟩
    case printString =>
      unfold servicePrintString at ht
      split at ht
      · cases ht
        exact ⟨rfl, rfl, rfl, rfl, .inl ⟨hx, hf, rfl, rfl⟩⟩
      · rename_i k hk
        cases ht
        exact ⟨rfl, rfl, rfl, rfl, .inr (.inr ⟨hx, rfl, rfl, k, rfl, .inl ⟨by simp [scanString_failed hk], rfl⟩⟩)⟩
      · cases ht
    case heapAllocate =>
      unfold serviceHeapAllocate at ht
      dsimp only at ht
      split at ht
      · rename_i m k hk
        subst ht
        refine ⟨rfl, rfl, rfl, rfl, .inr (.inr ⟨hx, rfl, rfl, k, rfl, .inr ⟨allocatePages_fatal hk, fun a ha => ?_⟩⟩)⟩
        have hp := allocatePages_peek ((roundToPages arg).toNat / pageSize) s.heapPtr ha
        rw [hk] at hp
        exact hp
      · subst ht
        exact ⟨rfl, rfl, rfl, rfl, .inl ⟨hx, hf, rfl, rfl⟩⟩
    all_goals
      subst ht
      exact ⟨rfl, rfl, rfl, rfl, .inl ⟨hx, hf, rfl, rfl⟩⟩

end Sys2Proof.Machine
end

