-- ==== Sys2Proof/Tests/Slice0.lean ====
section
/-! SUPPORT. Our own tests: ill-formed terms refused, words decoded, one step per instruction, and for each statement of
Obligations.lean that has hypotheses a witness that meets them. Expected values are those of spec/95_test_vectors.md
(V1 to V5) or worked out by hand from the encoding tables of spec/30_encoding.md. -/

namespace Sys2Proof.Tests

open Sys2Proof Sys2Proof.Machine

/-! ## Well-formedness: one ill-formed term for each check, and its nearest well-formed neighbour -/

/-- Odd and misaligned immediates (R94, R112). -/
theorem test_wf_alignment :
    ([.jal 1 1, .beq 5 6 3, .bne 5 6 3, .blt 5 6 3, .bge 5 6 3, .bltu 5 6 3, .bgeu 5 6 3, .cAddi4spn 0 2, .cLw 0 0 2,
      .cSw 0 0 1, .cLd 0 0 4, .cSd 0 0 4, .cAddi16sp 8, .cLui 5 0x800, .cJ 1, .cBeqz 0 1, .cBnez 0 1, .cLwsp 1 2,
      .cLdsp 1 4, .cSwsp 1 2, .cSdsp 1 4] : List Instr).all (fun i => !i.wf) = true := by decide

/-- Immediates and registers that the encoding reserves (R111, R114). -/
theorem test_wf_reserved :
    ([.cAddi4spn 0 0, .cAddi16sp 0, .cLui 5 0, .cLui 2 0x1000, .cAddi 0 1, .cAddiw 0 1, .cJr 0, .cJalr 0, .cMv 1 0,
      .cAdd 1 0, .cLwsp 0 4, .cLdsp 0 8] : List Instr).all (fun i => !i.wf) = true := by decide

/-- Neighbours of the terms above that the encoding does have. -/
theorem test_wf_accepted :
    ([.jal 1 2, .beq 5 6 4, .cAddi4spn 0 4, .cLw 0 0 4, .cLd 0 0 8, .cAddi16sp 16, .cLui 5 0x1000, .cLui 0 0x1000, .cJ 2,
      .cBeqz 0 2, .cLwsp 1 4, .cLdsp 1 8, .cSwsp 0 4, .cSdsp 0 8, .cAddi 1 0, .cNop 31, .cLi 0 0, .cSlli 0 0, .cMv 0 1,
      .cAdd 0 1, .cJr 1] : List Instr).all Instr.wf = true := by decide

/-! ## Decoding -/

/-- Does every word decode, HAS_M or not, to its instruction, with the fields the spec's table gives? -/
def decodesAs (rows : List (BitVec 32 × Instr)) : Bool :=
  rows.all (fun p => decode false p.1 == .instr p.2 && decode true p.1 == .instr p.2)

/-- The record fields of a decoded word: kind, format, rd, rs1, rs2, imm, writes. -/
def fields (code : BitVec 32) : Option (Kind × Format × Reg × Reg × Reg × Word × Bool) :=
  (decode true code).toOption.map (fun i => (i.kind, i.format, i.rd, i.rs1, i.rs2, i.imm, i.writes))

theorem test_decode_upper_and_jumps :
    decodesAs [(0x800002B7, .lui 5 0x80000),
      (0xFFFFF297, .auipc 5 0xFFFFF),
      (0x7FFFF0EF, .jal 1 0x0FFFFE),
      (0x800000EF, .jal 1 0x100000),
      (0x008000EF, .jal 1 8),
      (0xFFD280E7, .jalr 1 5 0xFFD)] = true := by decide

theorem test_decode_branches :
    decodesAs [(0x00628863, .beq 5 6 16),
      (0xFE629CE3, .bne 5 6 0x1FF8),
      (0x0062C863, .blt 5 6 16),
      (0x0062D863, .bge 5 6 16),
      (0x0062E863, .bltu 5 6 16),
      (0x0062F863, .bgeu 5 6 16)] = true := by decide

theorem test_decode_loads_and_stores :
    decodesAs [(0x80030283, .lb 5 6 0x800),
      (0x00631283, .lh 5 6 6),
      (0x00432283, .lw 5 6 4),
      (0x7FF33283, .ld 5 6 0x7FF),
      (0x00734283, .lbu 5 6 7),
      (0x00635283, .lhu 5 6 6),
      (0x00436283, .lwu 5 6 4),
      (0x007300A3, .sb 6 7 1),
      (0x00731123, .sh 6 7 2),
      (0xFE732C23, .sw 6 7 0xFF8),
      (0x00733423, .sd 6 7 8)] = true := by decide

theorem test_decode_register_immediate :
    decodesAs [(0x00A00293, .addi 5 0 10),
      (0xFFF2A393, .slti 7 5 0xFFF),
      (0xFFF2B393, .sltiu 7 5 0xFFF),
      (0xFFF2C293, .xori 5 5 0xFFF),
      (0x8002E393, .ori 7 5 0x800),
      (0xFF02F393, .andi 7 5 0xFF0),
      (0x03F29293, .slli 5 5 63),
      (0x03F2D293, .srli 5 5 63),
      (0x43F2D293, .srai 5 5 63)] = true := by decide

theorem test_decode_register_register :
    decodesAs [(0x006283B3, .add 7 5 6),
      (0x40628333, .sub 6 5 6),
      (0x006293B3, .sll 7 5 6),
      (0x0062A333, .slt 6 5 6),
      (0x0062B333, .sltu 6 5 6),
      (0x0062C3B3, .xor 7 5 6),
      (0x0062D3B3, .srl 7 5 6),
      (0x4062D3B3, .sra 7 5 6),
      (0x0062E3B3, .or 7 5 6),
      (0x0062F3B3, .and 7 5 6)] = true := by decide

theorem test_decode_word_forms_and_ecall :
    decodesAs [(0xFFF2829B, .addiw 5 5 0xFFF),
      (0x01F2929B, .slliw 5 5 31),
      (0x0042D39B, .srliw 7 5 4),
      (0x41F2D29B, .sraiw 5 5 31),
      (0x006283BB, .addw 7 5 6),
      (0x4062833B, .subw 6 5 6),
      (0x006292BB, .sllw 5 5 6),
      (0x0062D3BB, .srlw 7 5 6),
      (0x4062D2BB, .sraw 5 5 6),
      (0x00000073, .ecall)] = true := by decide

theorem test_decode_compressed_0 :
    decodesAs [(0x00000800, .cAddi4spn 0 16),
      (0x00001FFC, .cAddi4spn 7 1020),
      (0x0000435C, .cLw 7 6 4),
      (0x0000611C, .cLd 7 2 0),
      (0x0000C350, .cSw 6 4 4),
      (0x0000E11C, .cSd 2 7 0)] = true := by decide

theorem test_decode_compressed_1a :
    decodesAs [(0x00000001, .cNop 0),
      (0x0000007D, .cNop 31),
      (0x00001141, .cAddi 2 0x30),
      (0x00002785, .cAddiw 15 1),
      (0x00004505, .cLi 10 1),
      (0x00007139, .cAddi16sp 0x3C0),
      (0x00006785, .cLui 15 0x1000),
      (0x00007281, .cLui 5 0x20000)] = true := by decide

theorem test_decode_compressed_1b :
    decodesAs [(0x00008385, .cSrli 7 1),
      (0x00009001, .cSrli 0 32),
      (0x00008401, .cSrai 0 0),
      (0x00009801, .cAndi 0 0x20),
      (0x00008D0D, .cSub 2 3),
      (0x00008D2D, .cXor 2 3),
      (0x00008D4D, .cOr 2 3),
      (0x00008D6D, .cAnd 2 3),
      (0x00009F99, .cSubw 7 6),
      (0x00009FB9, .cAddw 7 6),
      (0x0000BFD5, .cJ 0xFF4),
      (0x0000C119, .cBeqz 2 6),
      (0x0000FFF5, .cBnez 7 0x1FC)] = true := by decide

theorem test_decode_compressed_2 :
    decodesAs [(0x0000078A, .cSlli 15 2),
      (0x00000002, .cSlli 0 0),
      (0x00008082, .cJr 1),
      (0x0000853E, .cMv 10 15),
      (0x0000802A, .cMv 0 10),
      (0x0000952E, .cAdd 10 11),
      (0x00009782, .cJalr 15),
      (0x00004532, .cLwsp 10 12),
      (0x000060A2, .cLdsp 1 8),
      (0x0000C62A, .cSwsp 10 12),
      (0x0000E432, .cSdsp 12 8)] = true := by decide

/-- The M extension decodes where HAS_M is true, and fails where it is false (R300). -/
theorem test_decode_multiply_divide :
    ([(0x026283B3, .mul 7 5 6),
      (0x026293B3, .mulh 7 5 6),
      (0x0262A3B3, .mulhsu 7 5 6),
      (0x0262B3B3, .mulhu 7 5 6),
      (0x0262C3B3, .div 7 5 6),
      (0x0262D3B3, .divu 7 5 6),
      (0x0262E3B3, .rem 7 5 6),
      (0x0262F3B3, .remu 7 5 6),
      (0x026283BB, .mulw 7 5 6),
      (0x0262C3BB, .divw 7 5 6),
      (0x0262D3BB, .divuw 7 5 6),
      (0x0262E3BB, .remw 7 5 6),
      (0x0262F3BB, .remuw 7 5 6)] : List (BitVec 32 × Instr)).all (fun p =>
      decode true p.1 == .instr p.2 && (decode false p.1).toOption == none) = true := by decide

/-- The record fields of rows of V2. -/
theorem test_fields_V2 :
    ([(0x00A00293, .addi, .I, 5, 0, 0, 10, true),
      (0x800002B7, .lui, .U, 5, 0, 0, (-2147483648), true),
      (0xFFFFF297, .auipc, .U, 5, 0, 0, (-4096), true),
      (0x800000EF, .jal, .UJ, 1, 0, 0, (-1048576), true),
      (0xFFD280E7, .jalr, .I, 1, 5, 0, (-3), true),
      (0xFE629CE3, .bne, .SB, 0, 5, 6, (-8), false),
      (0x80030283, .lb, .I, 5, 6, 0, (-2048), true),
      (0xFE732C23, .sw, .S, 0, 6, 7, (-8), false),
      (0x43F2D293, .srai, .I, 5, 5, 0, 63, true),
      (0x40628333, .sub, .R, 6, 5, 6, 0, true),
      (0x00000073, .ecall, .I, 0, 0, 0, 0, false)] : List (BitVec 32 × Kind × Format × Reg × Reg × Reg × Word × Bool)).all
      (fun p => fields p.1 == some p.2) = true := by decide

/-- The record fields of rows of V3. -/
theorem test_fields_V3 :
    ([(0x00001FFC, .addi, .CIW, 15, 2, 0, 1020, true),
      (0x0000435C, .lw, .CL, 15, 14, 0, 4, true),
      (0x0000C350, .sw, .CS, 0, 14, 12, 4, false),
      (0x0000007D, .addi, .CI, 0, 0, 0, 31, true),
      (0x0000713D, .addi, .CI, 2, 2, 0, (-32), true),
      (0x00007281, .lui, .CI, 5, 0, 0, (-131072), true),
      (0x00009801, .andi, .CB, 8, 8, 0, (-32), true),
      (0x00009FB9, .addw, .CS, 15, 15, 14, 0, true),
      (0x0000BFD5, .jal, .CJ, 0, 0, 0, (-12), true),
      (0x0000FDF5, .bne, .CB, 0, 11, 0, (-4), false),
      (0x00009782, .jalr, .CR, 1, 15, 0, 0, true),
      (0x0000862A, .mv, .CR, 12, 0, 10, 0, true),
      (0x0000E432, .sd, .CSS, 0, 2, 12, 8, false)] : List (BitVec 32 × Kind × Format × Reg × Reg × Reg × Word × Bool)).all
      (fun p => fields p.1 == some p.2) = true := by decide

/-- One word of each family, bit by bit from the format of R93 or R110. -/
theorem test_decode_bits :
    decodesAs [
      (0b00000000000000000001#20 ++ 0b01010#5 ++ 0b0110111#7, .lui 10 1),
      (0b1#1 ++ 0b1111111100#10 ++ 0b1#1 ++ 0b11111111#8 ++ 0b00000#5 ++ 0b1101111#7, .jal 0 0x1FFFF8),
      (0b111111111101#12 ++ 0b00101#5 ++ 0b000#3 ++ 0b00001#5 ++ 0b1100111#7, .jalr 1 5 0xFFD),
      (0b0#1 ++ 0b000000#6 ++ 0b00110#5 ++ 0b00101#5 ++ 0b101#3 ++ 0b0000#4 ++ 0b1#1 ++ 0b1100011#7, .bge 5 6 0x800),
      (0b000000000111#12 ++ 0b00110#5 ++ 0b100#3 ++ 0b00101#5 ++ 0b0000011#7, .lbu 5 6 7),
      (0b0000001#7 ++ 0b00111#5 ++ 0b00110#5 ++ 0b001#3 ++ 0b00010#5 ++ 0b0100011#7, .sh 6 7 34),
      (0b010000#6 ++ 0b100001#6 ++ 0b00101#5 ++ 0b101#3 ++ 0b00111#5 ++ 0b0010011#7, .srai 7 5 33),
      (0b0100000#7 ++ 0b00110#5 ++ 0b00101#5 ++ 0b101#3 ++ 0b00111#5 ++ 0b0111011#7, .sraw 7 5 6),
      (0x5555#16 ++ 0b000#3 ++ 0b01#2 ++ 0b0010#4 ++ 0b1#1 ++ 0b0#1 ++ 0b111#3 ++ 0b00#2, .cAddi4spn 7 0x094),
      (0x0000#16 ++ 0b010#3 ++ 0b001#3 ++ 0b110#3 ++ 0b1#1 ++ 0b1#1 ++ 0b101#3 ++ 0b00#2, .cLw 5 6 0x4C),
      (0x0000#16 ++ 0b101#3 ++ 0b1#1 ++ 0b0#1 ++ 0b10#2 ++ 0b0#1 ++ 0b1#1 ++ 0b0#1 ++ 0b011#3 ++ 0b1#1 ++ 0b01#2,
        .cJ 0xA66),
      (0x0000#16 ++ 0b110#3 ++ 0b1#1 ++ 0b01#2 ++ 0b010#3 ++ 0b10#2 ++ 0b01#2 ++ 0b1#1 ++ 0b01#2, .cBeqz 2 0x1AA),
      (0x0000#16 ++ 0b011#3 ++ 0b1#1 ++ 0b00001#5 ++ 0b01#2 ++ 0b101#3 ++ 0b10#2, .cLdsp 1 0x168),
      (0x0000#16 ++ 0b110#3 ++ 0b1010#4 ++ 0b01#2 ++ 0b01010#5 ++ 0b10#2, .cSwsp 10 0x68)] = true := by decide

/-- The words of V2 that are decode failures. -/
theorem test_decode_failures_full :
    ([0x0000000F, 0x0000100F, 0x00100073, 0x30200073, 0x10500073, 0xC0002573, 0x00001073, 0x00008073, 0x00000873,
      0x0000202F, 0x00002007, 0x02000033, 0x0200003B, 0x40001033, 0x0000203B, 0x00003063, 0x00007003, 0x00004023,
      0x00001067, 0x0200101B, 0x0200501B, 0x4000101B, 0x20005013, 0xFFFFFFFF, 0x0000007F, 0x00000057] :
      List (BitVec 32)).all (fun c => (decode false c).toOption == none) = true := by decide

/-- With HAS_M, the function codes of OP and OP-32 that still fail (R300). -/
theorem test_decode_failures_multiply :
    ([0x0200103B, 0x0200203B, 0x0200303B, 0x04000033] : List (BitVec 32)).all
      (fun c => (decode true c).toOption == none) = true := by decide

/-- The halfwords of V3 that are decode failures. -/
theorem test_decode_failures_compressed :
    ([0x0000, 0x2000, 0xA000, 0x8000, 0x2005, 0x6101, 0x6001, 0x9C41, 0x9C61, 0x4002, 0x6002, 0x8002, 0x9002, 0x2002,
      0xA002] : List (BitVec 32)).all (fun c => (decode true c).toOption == none) = true := by decide

/-- V3.10: the upper halfword of a compressed word is ignored. -/
theorem test_decode_upper_halfword : decodesAs [(0xFFFF4505, .cLi 10 1), (0x00734505, .cLi 10 1)] = true := by decide

/-- The table's word of a row, as the host numbers it. -/
theorem test_decodeTableWord :
    decodeTableWord 32 0x0262C3BB = some (.divw 7 5 6) ∧ decodeTableWord 16 0x4505 = some (.cLi 10 1) ∧
    decodeTableWord 16 0x9002 = none := by decide

/-! ## Execute, one instruction on a small state -/

/-- The reset state with some registers set and the word's record in slot E, the instruction standing at 0x10000. -/
def holding (code : BitVec 32) (regs : List (Reg × Word)) : State :=
  { regs.foldl (fun s p => s.setReg p.1 p.2) State.reset with
    slotE := (decode true code).toOption.map (Record.decoded { code := code, pc := 0x10000 })
    pc := 0x10000 + BitVec.ofNat 64 (codeLen code) }

/-- The next state of an outcome. -/
def nextOf : Host.Outcome State Fault Refusal → Option State
  | .next t => some t
  | _ => none

/-- The state after Execute. -/
def executed (code : BitVec 32) (regs : List (Reg × Word)) : Option State := nextOf (execute (holding code regs))

/-- The register and the value that wait for WriteBack after Execute. -/
def result (code : BitVec 32) (regs : List (Reg × Word)) : Option (Reg × Word) :=
  (executed code regs).bind (fun t => t.slotM.map (fun r => (r.rd, r.wb)))

/-- Rows of code, x5, x6 and the value for x7. -/
def computesTo (rows : List (BitVec 32 × Word × Word × Word)) : Bool :=
  rows.all (fun p => result p.1 [(5, p.2.1), (6, p.2.2.1)] == some (7, p.2.2.2))

/-- Rows of V4.1. -/
theorem test_exec_add_sub :
    computesTo [(0x006283B3, 0x7FFFFFFFFFFFFFFF, 0x1, 0x8000000000000000),
      (0x006283B3, 0xFFFFFFFFFFFFFFFF, 0x1, 0x0),
      (0x406283B3, 0x0, 0x1, 0xFFFFFFFFFFFFFFFF),
      (0x406283B3, 0x8000000000000000, 0x1, 0x7FFFFFFFFFFFFFFF)] = true := by decide

/-- Rows of V4.1. -/
theorem test_exec_shifts :
    computesTo [(0x006293B3, 0x1, 0x40, 0x1),
      (0x006293B3, 0x3, 0xFFFFFFFFFFFFFFC1, 0x6),
      (0x0062D3B3, 0x8000000000000000, 0x7F, 0x1),
      (0x4062D3B3, 0x8000000000000000, 0x3F, 0xFFFFFFFFFFFFFFFF),
      (0x4062D3B3, 0x4000000000000000, 0x3E, 0x1)] = true := by decide

/-- Rows of V4.1. -/
theorem test_exec_comparisons_and_logic :
    computesTo [(0x0062A3B3, 0xFFFFFFFFFFFFFFFF, 0x1, 0x1),
      (0x0062B3B3, 0xFFFFFFFFFFFFFFFF, 0x1, 0x0),
      (0x006033B3, 0x0, 0x5, 0x1),
      (0x0062C3B3, 0xFF00FF00FF00FF00, 0xFF00FF00FF00FF0, 0xF0F0F0F0F0F0F0F0),
      (0x0062E3B3, 0xF0, 0xF, 0xFF),
      (0x0062F3B3, 0xFF, 0xF0F, 0xF)] = true := by decide

/-- Rows of V4.1. -/
theorem test_exec_immediates :
    computesTo [(0xFFF28393, 0x0, 0x0, 0xFFFFFFFFFFFFFFFF),
      (0x7FF28393, 0xFFFFFFFFFFFFFFFF, 0x0, 0x7FE),
      (0xFFF2A393, 0xFFFFFFFFFFFFFFFE, 0x0, 0x1),
      (0xFFF2A393, 0x0, 0x0, 0x0),
      (0xFFF2B393, 0xFFFFFFFFFFFFFFFE, 0x0, 0x1),
      (0x0012B393, 0x0, 0x0, 0x1),
      (0xFFF2C393, 0x1234, 0x0, 0xFFFFFFFFFFFFEDCB),
      (0x8002E393, 0x7FF, 0x0, 0xFFFFFFFFFFFFFFFF),
      (0xFF02F393, 0x123456789ABCDEFF, 0x0, 0x123456789ABCDEF0)] = true := by decide

/-- Rows of V4.1. -/
theorem test_exec_immediate_shifts_and_upper :
    computesTo [(0x03F29393, 0x3, 0x0, 0x8000000000000000),
      (0x0202D393, 0xFFFFFFFF00000000, 0x0, 0xFFFFFFFF),
      (0x4202D393, 0xFFFFFFFF00000000, 0x0, 0xFFFFFFFFFFFFFFFF),
      (0x800003B7, 0x0, 0x0, 0xFFFFFFFF80000000),
      (0x7FFFF3B7, 0x0, 0x0, 0x7FFFF000),
      (0xFFFFF397, 0x0, 0x0, 0xF000),
      (0x00000397, 0x0, 0x0, 0x10000)] = true := by decide

/-- Rows of V4.1. -/
theorem test_exec_word_immediates :
    computesTo [(0x0012839B, 0x7FFFFFFF, 0x0, 0xFFFFFFFF80000000),
      (0x0002839B, 0x1234567880000000, 0x0, 0xFFFFFFFF80000000),
      (0x01F2939B, 0xFFFFFFFF00000001, 0x0, 0xFFFFFFFF80000000),
      (0x0002D39B, 0xFFFFFFFF, 0x0, 0xFFFFFFFFFFFFFFFF),
      (0x0042D39B, 0xABCDEF0180000000, 0x0, 0x8000000),
      (0x4042D39B, 0xABCDEF0180000000, 0x0, 0xFFFFFFFFF8000000)] = true := by decide

/-- Rows of V4.1. -/
theorem test_exec_word_registers :
    computesTo [(0x006283BB, 0x7FFFFFFF, 0x1, 0xFFFFFFFF80000000),
      (0x006283BB, 0xFFFFFFFF, 0x1, 0x0),
      (0x406283BB, 0x80000000, 0x1, 0x7FFFFFFF),
      (0x006293BB, 0x1, 0x1F, 0xFFFFFFFF80000000),
      (0x006293BB, 0x1, 0x20, 0x1),
      (0x0062D3BB, 0xFFFFFFFF80000000, 0x1F, 0x1),
      (0x4062D3BB, 0x80000000, 0x1F, 0xFFFFFFFFFFFFFFFF),
      (0x4062D3BB, 0x80000000, 0x3F, 0xFFFFFFFFFFFFFFFF)] = true := by decide

/-- Rows of V4.6. -/
theorem test_exec_multiply :
    computesTo [(0x026283B3, 0x100000000, 0x100000000, 0x0),
      (0x026293B3, 0xFFFFFFFFFFFFFFFF, 0xFFFFFFFFFFFFFFFF, 0x0),
      (0x0262A3B3, 0xFFFFFFFFFFFFFFFF, 0xFFFFFFFFFFFFFFFF, 0xFFFFFFFFFFFFFFFF),
      (0x0262B3B3, 0xFFFFFFFFFFFFFFFF, 0xFFFFFFFFFFFFFFFF, 0xFFFFFFFFFFFFFFFE),
      (0x026283BB, 0xFFFF, 0x10001, 0xFFFFFFFFFFFFFFFF)] = true := by decide

/-- Rows of V4.6. -/
theorem test_exec_divide :
    computesTo [(0x0262C3B3, 0xFFFFFFFFFFFFFFF9, 0x2, 0xFFFFFFFFFFFFFFFD),
      (0x0262C3B3, 0x8000000000000000, 0xFFFFFFFFFFFFFFFF, 0x8000000000000000),
      (0x0262D3B3, 0x5, 0x0, 0xFFFFFFFFFFFFFFFF),
      (0x0262E3B3, 0xFFFFFFFFFFFFFFF9, 0x2, 0xFFFFFFFFFFFFFFFF),
      (0x0262E3B3, 0x8000000000000000, 0xFFFFFFFFFFFFFFFF, 0x0),
      (0x0262F3B3, 0x5, 0x0, 0x5)] = true := by decide

/-- Rows of V4.6. -/
theorem test_exec_divide_word :
    computesTo [(0x0262C3BB, 0x80000000, 0xFFFFFFFF, 0xFFFFFFFF80000000),
      (0x0262D3BB, 0x80000000, 0x1, 0xFFFFFFFF80000000),
      (0x0262E3BB, 0x80000005, 0x0, 0xFFFFFFFF80000005),
      (0x0262F3BB, 0xFFFFFFFF, 0x10, 0xF)] = true := by decide

/-- Compressed computations, worked by hand from files 40 and 44. -/
theorem test_exec_compressed :
    result 0x0038 [(2, 0x7FFFFFE0)] = some (14, 0x7FFFFFE8) ∧        -- c.addi4spn x14,sp,8
    result 0x1141 [(2, 0x100)] = some (2, 0xF0) ∧                    -- c.addi sp,-16
    result 0x2785 [(15, 0x7FFFFFFF)] = some (15, 0xFFFFFFFF80000000) ∧ -- c.addiw x15,1
    result 0x4505 [] = some (10, 1) ∧ result 0x007D [] = some (0, 31) ∧
    result 0x7139 [(2, 0x100)] = some (2, 0xC0) ∧                    -- c.addi16sp sp,-64
    result 0x7281 [] = some (5, 0xFFFFFFFFFFFE0000) ∧                -- c.lui x5,0xFFFE0
    result 0x8385 [(15, 0xFFFFFFFFFFFFFFFF)] = some (15, 0x7FFFFFFFFFFFFFFF) ∧
    result 0x8785 [(15, 0xFFFFFFFFFFFFFFFE)] = some (15, 0xFFFFFFFFFFFFFFFF) ∧
    result 0x9801 [(8, 0x3F)] = some (8, 0x20) ∧
    result 0x078A [(15, 3)] = some (15, 12) ∧
    result 0x862A [(10, 0x3C)] = some (12, 0x3C) ∧                   -- c.mv x12,x10
    result 0x952E [(10, 5), (11, 7)] = some (10, 12) := by decide

theorem test_exec_compressed_arithmetic :
    result 0x8D0D [(10, 5), (11, 7)] = some (10, 0xFFFFFFFFFFFFFFFE) ∧
    result 0x8D2D [(10, 0xF0), (11, 0xFF)] = some (10, 0x0F) ∧
    result 0x8D4D [(10, 0xF0), (11, 0x0F)] = some (10, 0xFF) ∧
    result 0x8D6D [(10, 0xF0), (11, 0x3C)] = some (10, 0x30) ∧
    result 0x9F99 [(15, 0x80000000), (14, 1)] = some (15, 0x7FFFFFFF) ∧
    result 0x9FB9 [(15, 0x7FFFFFFF), (14, 1)] = some (15, 0xFFFFFFFF80000000) := by decide

/-- Where a transfer goes, its link value (register and value) and the control stalls after it. -/
def transfer (code : BitVec 32) (regs : List (Reg × Word)) : Option (Word × Reg × Word × Nat) :=
  (executed code regs).bind (fun t => t.slotM.map (fun r => (t.pc, r.rd, r.wb, t.counters.controlStalls)))

/-- Rows of V4.2: jumps. -/
theorem test_exec_jumps :
    ([(0x008000EF, [], (0x10008, 1, 0x10004, 1)),
      (0xFFDFF06F, [], (0xFFFC, 0, 0x10004, 1)),
      (0xFFD280E7, [(5, 0x10010)], (0x1000C, 1, 0x10004, 1)),
      (0x000080E7, [(1, 0x10008)], (0x10008, 1, 0x10004, 1)),
      (0xBFD5, [], (0xFFF4, 0, 0x10002, 1)),
      (0x8082, [(1, 0x10009)], (0x10008, 0, 0x10002, 1)),
      (0x9782, [(15, 0x10008)], (0x10008, 1, 0x10002, 1))] :
      List (BitVec 32 × List (Reg × Word) × Word × Reg × Word × Nat)).all
      (fun p => transfer p.1 p.2.1 == some p.2.2) = true := by decide

/-- Rows of V4.2: branches; a branch that is not taken leaves the fetch pointer alone. -/
theorem test_exec_branches :
    ([(0x00628863, [(5, 7), (6, 7)], (0x10010, 0, 0, 1)),
      (0x00628863, [(5, 7), (6, 8)], (0x10004, 0, 0, 0)),
      (0xFE629CE3, [(5, 7), (6, 8)], (0xFFF8, 0, 0, 1)),
      (0x0062C863, [(5, 0xFFFFFFFFFFFFFFFF), (6, 1)], (0x10010, 0, 0, 1)),
      (0x0062E863, [(5, 0xFFFFFFFFFFFFFFFF), (6, 1)], (0x10004, 0, 0, 0)),
      (0x0062D863, [(5, 1), (6, 1)], (0x10010, 0, 0, 1)),
      (0x0062F863, [(5, 1), (6, 0xFFFFFFFFFFFFFFFF)], (0x10004, 0, 0, 0)),
      (0xC119, [(10, 0)], (0x10006, 0, 0, 1)),
      (0xFFF5, [(15, 0)], (0x10002, 0, 0, 0))] :
      List (BitVec 32 × List (Reg × Word) × Word × Reg × Word × Nat)).all
      (fun p => transfer p.1 p.2.1 == some p.2.2) = true := by decide

/-! ## Loads and stores -/

/-- The memory of V4.3. -/
def data : Memory :=
  { pages := [0x20000]
    cells := [(0x20000, 0x11), (0x20001, 0x22), (0x20002, 0x33), (0x20003, 0x44), (0x20004, 0x55), (0x20005, 0x66),
      (0x20006, 0x77), (0x20007, 0x88), (0x20008, 0x80), (0x20009, 0x99), (0x2000A, 0xAA), (0x2000B, 0xBB),
      (0x2000C, 0xCC), (0x2000D, 0xDD), (0x2000E, 0xEE), (0x2000F, 0xFF)] }

/-- Execute, then the AccessMemory of the next cycle, on a memory. -/
def accessed (m : Memory) (code : BitVec 32) (regs : List (Reg × Word)) : Option State :=
  (executed code regs).map (fun t => accessMemory { t with mem := m })

/-- The loaded register and value, or the fatal condition. -/
def loaded (m : Memory) (code : BitVec 32) (regs : List (Reg × Word)) : Option (Option FatalKind × Option (Reg × Word)) :=
  (accessed m code regs).map (fun t => (t.fatal, t.slotW.map (fun r => (r.rd, r.wb))))

/-- Rows of V4.3 with x6 = 0x20000: code and the value for x5. -/
theorem test_loads :
    ([(0x00730283, 0xFFFFFFFFFFFFFF88), (0x00734283, 0x88), (0x00030283, 0x11), (0x00631283, 0xFFFFFFFFFFFF8877),
      (0x00635283, 0x8877), (0x00131283, 0x3322), (0x00432283, 0xFFFFFFFF88776655), (0x00436283, 0x88776655),
      (0x00033283, 0x8877665544332211), (0x00533283, 0xCCBBAA9980887766)] : List (BitVec 32 × Word)).all
      (fun p => loaded data p.1 [(6, 0x20000)] == some (none, some (5, p.2))) = true := by decide

/-- Compressed loads on the same memory. -/
theorem test_loads_compressed :
    loaded data 0x435C [(14, 0x20000)] = some (none, some (15, 0xFFFFFFFF88776655)) ∧
    loaded data 0x611C [(10, 0x20000)] = some (none, some (15, 0x8877665544332211)) ∧
    loaded data 0x4532 [(2, 0x1FFF8)] = some (none, some (10, 0xFFFFFFFF88776655)) ∧
    loaded data 0x60A2 [(2, 0x20000)] = some (none, some (1, 0xFFEEDDCCBBAA9980)) := by decide

/-- The fatal rows of V4.3, and the last four bytes of a page. -/
theorem test_loads_fatal :
    loaded data 0x00033283 [(6, 0x20FFC)] = some (some .pageCross, none) ∧
    loaded data 0x00032283 [(6, 0x20FFC)] = some (none, some (5, 0)) ∧
    loaded data 0x00030283 [(6, 0x30000)] = some (some .unmappedRead, none) := by decide

/-- The sixteen bytes at 0x20000 after a store of x7. -/
def stored (code : BitVec 32) (regs : List (Reg × Word)) : Option (List Byte) :=
  (accessed data code regs).map (fun t => (List.range 16).map (fun k => t.mem.byte (0x20000 + BitVec.ofNat 64 k)))

/-- Rows of V4.4. -/
theorem test_stores :
    stored 0x007300A3 [(6, 0x20000), (7, 0xA1B2C3D4E5F60718)] =
      some [0x11, 0x18, 0x33, 0x44, 0x55, 0x66, 0x77, 0x88, 0x80, 0x99, 0xAA, 0xBB, 0xCC, 0xDD, 0xEE, 0xFF] ∧
    stored 0x00731123 [(6, 0x20000), (7, 0xA1B2C3D4E5F60718)] =
      some [0x11, 0x22, 0x18, 0x07, 0x55, 0x66, 0x77, 0x88, 0x80, 0x99, 0xAA, 0xBB, 0xCC, 0xDD, 0xEE, 0xFF] ∧
    stored 0x00732223 [(6, 0x20000), (7, 0xA1B2C3D4E5F60718)] =
      some [0x11, 0x22, 0x33, 0x44, 0x18, 0x07, 0xF6, 0xE5, 0x80, 0x99, 0xAA, 0xBB, 0xCC, 0xDD, 0xEE, 0xFF] ∧
    stored 0x00733423 [(6, 0x20000), (7, 0xA1B2C3D4E5F60718)] =
      some [0x11, 0x22, 0x33, 0x44, 0x55, 0x66, 0x77, 0x88, 0x18, 0x07, 0xF6, 0xE5, 0xD4, 0xC3, 0xB2, 0xA1] ∧
    stored 0x007321A3 [(6, 0x20000), (7, 0xA1B2C3D4E5F60718)] =
      some [0x11, 0x22, 0x33, 0x18, 0x07, 0xF6, 0xE5, 0x88, 0x80, 0x99, 0xAA, 0xBB, 0xCC, 0xDD, 0xEE, 0xFF] := by decide

/-- Compressed stores: c.sw x12,4(x14), c.sd x15,0(x10), c.swsp x10,12(sp), c.sdsp x12,8(sp). -/
theorem test_stores_compressed :
    stored 0xC350 [(14, 0x20000), (12, 0xFFFFFFFF01020304)] =
      some [0x11, 0x22, 0x33, 0x44, 0x04, 0x03, 0x02, 0x01, 0x80, 0x99, 0xAA, 0xBB, 0xCC, 0xDD, 0xEE, 0xFF] ∧
    stored 0xE11C [(10, 0x20008), (15, 0)] =
      some [0x11, 0x22, 0x33, 0x44, 0x55, 0x66, 0x77, 0x88, 0, 0, 0, 0, 0, 0, 0, 0] ∧
    stored 0xC62A [(2, 0x20000), (10, 0x01020304)] =
      some [0x11, 0x22, 0x33, 0x44, 0x55, 0x66, 0x77, 0x88, 0x80, 0x99, 0xAA, 0xBB, 0x04, 0x03, 0x02, 0x01] ∧
    stored 0xE432 [(2, 0x1FFF8), (12, 1)] =
      some [0x01, 0, 0, 0, 0, 0, 0, 0, 0x80, 0x99, 0xAA, 0xBB, 0xCC, 0xDD, 0xEE, 0xFF] := by decide

/-- A store that crosses a page writes nothing; a store to a page that is not mapped maps it, and writing zeros there
leaves no cell (R41, R44). -/
theorem test_stores_pages :
    (accessed data 0x00731023 [(6, 0x20FFF), (7, 1)]).map (fun t => (t.fatal, t.mem)) = some (some .pageCross, data) ∧
    (accessed data 0x00733023 [(6, 0x30008), (7, 0x100)]).map (fun t => t.mem) =
      some { pages := [0x20000, 0x30000], cells := data.cells ++ [(0x30009, 1)] } ∧
    (accessed data 0x00033023 [(6, 0x20000)]).map (fun t => t.mem) =
      some { pages := [0x20000], cells := data.cells.drop 8 } := by decide

/-! ## ECALL -/

/-- The state after an ECALL with this number and argument, on a memory, with these listed answers. -/
def called (m : Memory) (input : List HostAnswer) (num arg : Word) : Option State :=
  nextOf (execute { holding 0x00000073 [(17, num), (10, arg)] with mem := m, input := input })

/-- The destination, the writes-register flag and the value an ECALL leaves in slot M. -/
def answer (t : State) : Option (Reg × Bool × Word) := t.slotM.map (fun r => (r.rd, r.writes, r.wb))

/-- EXIT keeps the record in slot E; the output services write no register (V4.5). -/
theorem test_ecall_output :
    (called data [] 0 55).map (fun t => (t.exit, t.output, t.slotE.isSome, t.slotM.isSome)) =
      some (true, [.exit 55], true, false) := by decide

theorem test_ecall_output_registers :
    (called data [] 1 0x41).map (fun t => (t.output, answer t)) = some ([.printChar 0x41], some (0, false, 0)) ∧
    (called data [] 2 0xFFFFFFFFFFFFFFF9).map (fun t => t.output) = some [.printInt 0xFFFFFFFFFFFFFFF9] ∧
    (called data [] 3 7).map (fun t => t.output) = some [.printLong 7] ∧
    (called data [] 9 7).map (fun t => t.output) = some [.seedRandom 7] := by decide

/-- The services with a word of the host answer it in a7 (V4.5). -/
theorem test_ecall_reading :
    ([5, 6, 7, 10, 12] : List Word).all (fun n =>
      (called data [.word 0x2A, .word 1] n 0).map (fun t => (answer t, t.input, t.reads)) ==
        some (some (17, true, 0x2A), [.word 1], 1)) = true := by decide

/-- PRINT_STRING reads up to the first zero byte; with none before an unmapped page it is fatal (R230). -/
theorem test_ecall_printString :
    (called data [] 4 0x2000D).map (fun t => t.output) = some [.printString [0xDD, 0xEE, 0xFF]] ∧
    (called data [] 4 0x20FFF).map (fun t => t.output) = some [.printString []] ∧
    (called data [] 4 0x30000).map (fun t => (t.fatal, t.output)) = some (some .unmappedRead, []) := by decide

/-- READ_STRING stores the answer and a zero byte (R234). -/
theorem test_ecall_readString :
    (called data [.bytes [0x48, 0x69]] 8 0x2000D).map (fun t => (t.mem.byte 0x2000D, t.mem.byte 0x2000E, t.mem.byte 0x2000F, t.mem.cells.length)) =
      some (0x48, 0x69, 0, 15) := by decide

/-- HEAP_ALLOCATE of 5, 0 and 4097 bytes (V4.5). -/
theorem test_ecall_heapAllocate :
    (called data [] 11 5).bind answer = some (17, true, 0x100000) ∧
    (called data [] 11 5).map (fun t => (t.heapPtr, t.mem.pages)) = some (0x101000, [0x20000, 0x100000]) ∧
    (called data [] 11 0).bind answer = some (17, true, 0x100000) ∧
    (called data [] 11 0).map (fun t => (t.heapPtr, t.mem.pages)) = some (0x100000, [0x20000]) ∧
    (called data [] 11 4097).map (fun t => (t.heapPtr, t.mem.pages)) =
      some (0x102000, [0x20000, 0x100000, 0x101000]) := by decide

/-- A page that is already mapped (V4.5). -/
theorem test_ecall_heapAllocate_mapped :
    (called { pages := [0x100000], cells := [] } [] 11 1).map (fun t => (t.fatal, answer t, t.heapPtr)) =
      some (some .doubleAllocation, none, 0x100000) := by decide

/-- A number no service has (V4.5). -/
theorem test_ecall_unknown :
    ([13, 0xFFFFFFFFFFFFFFFF] : List Word).all (fun n =>
      (called data [] n 0).map (fun t => (t.fatal, t.slotE.isSome)) == some (some .unknownSyscall, true)) = true := by
  decide

/-! ## Stages and the step -/

/-- A register write of W is forwarded to Execute, a write to x0 is not (R330). -/
def forwarding : State :=
  { State.reset with slotW := some { code := 0, pc := 0, op := .lw 5 6 0, rd := 5, writes := true, wb := 9, addr := 0 } }

theorem test_forwarding : forwarding.fwd 5 = 9 ∧ forwarding.fwd 6 = 0 ∧ forwarding.reg 5 = 0 ∧ forwarding.fwd 0 = 0 := by
  decide

/-- Load-use detection counts one for `add x7,x5,x6` behind a load of x5, none behind one of x8 (R332). -/
theorem test_loadUse :
    (nextOf (execute { holding 0x006283B3 [] with slotW := forwarding.slotW })).map (fun t => t.counters.loadUseStalls) = some 1 ∧
    (nextOf (execute { holding 0x0084A3B3 [] with slotW := forwarding.slotW })).map (fun t => t.counters.loadUseStalls) = some 0 := by
  decide

/-- WriteBack to x5 and to x0 (R11, R322). -/
theorem test_writeBack :
    (writeBack forwarding).reg 5 = 9 ∧ (writeBack forwarding).slotW = none ∧ (writeBack forwarding).counters.retired = 1 ∧
    (writeBack { forwarding with slotW := forwarding.slotW.map (fun r => { r with rd := 0 }) }).regs = State.reset.regs := by
  decide

/-- The first cycle after a launch with `addi x5,x0,10` at the entry (V5.1, after cycle 1): the word is in slot D, and
the Access of Fetch missed every level. -/
def program : State := launch { Launch.default with image := { pages := [0x10000], cells := [(0x10000, 0x93), (0x10001, 0x02), (0x10002, 0xA0), (0x10004, 0x13), (0x10008, 0x13)] } }

theorem test_first_cycle :
    (nextOf (step program)).map (fun t => (t.pc, t.slotD, t.counters.cycles, t.counters.memDelayCycles)) =
      some (0x10004, some { code := 0x00A00293, pc := 0x10000 }, 1, 100) := by decide

/-- The very next step runs the placed word as the first instruction after reset. -/
theorem test_withFetchWord :
    (nextOf (step (State.reset.withFetchWord 32 0x00A00293))).bind (fun t => t.slotM.map (fun r => (r.op, r.wb, t.fatal))) =
      some (.addi 5 0 10, 10, none) ∧
    (nextOf (step (State.reset.withFetchWord 16 0x4505))).bind (fun t => t.slotM.map (fun r => (r.op, r.wb, t.fatal))) =
      some (.cLi 10 1, 1, none) ∧
    (nextOf (step (State.reset.withFetchWord 32 0x0262C3BB))).bind (fun t => t.slotM.map (fun r => (r.op, r.wb, t.fatal))) =
      some (.divw 7 5 6, 0xFFFFFFFFFFFFFFFF, none) ∧
    (nextOf (step (State.reset.withFetchWord 16 0x9002))).map (fun t => t.fatal) = some (some .decodeFailure) := by decide

/-! ## Storage levels -/

/-- The geometry of V1: 256 bytes, blocks of 64, two ways, hit latency 10, bus latency 1. -/
def small (wt wa : Bool) : CacheConfig :=
  { size := 256, blockSize := 64, associativity := 2, writeThrough := wt, writeAllocate := wa, busLatency := 1,
    hitLatency := 10 }

/-- A lower level that answers every request with latency 100. -/
def lower : List Request → Request → List Request × Reply := recorder (fun _ => 100)

/-- What a request on an empty level answers and asks for below (R76). -/
theorem test_cache_miss :
    ((CacheLevel.launch (small false true)).handleRequest lower [] ⟨0x1008, 4, true⟩).2 =
      ([⟨0x1000, 64, true⟩], ⟨false, 101⟩) ∧
    ((CacheLevel.launch (small true true)).handleRequest lower [] ⟨0x1008, 4, false⟩).2 =
      ([⟨0x1000, 64, true⟩, ⟨0x1008, 4, false⟩], ⟨false, 202⟩) ∧
    ((CacheLevel.launch (small false false)).handleRequest lower [] ⟨0x1008, 4, false⟩).2 =
      ([⟨0x1008, 4, false⟩], ⟨false, 101⟩) := by decide

/-- A hit, and the eviction of the dirty, oldest way of a full set (R66, R69): the set of index 0 holds tags 32 (dirty,
stamp 1) and 33 (stamp 2). -/
def full : CacheLevel :=
  { cfg := small false true
    sets := [(0, [⟨true, true, 32, 1⟩, ⟨true, false, 33, 2⟩])]
    seq := 2
    stats := ⟨2, 0, 2, 0, 2⟩ }

theorem test_cache_full :
    (full.handleRequest lower [] ⟨0x1080, 8, true⟩).2 = ([], ⟨true, 11⟩) ∧
    (full.handleRequest lower [] ⟨0x1100, 8, true⟩).2 = ([⟨0x1000, 64, false⟩, ⟨0x1100, 64, true⟩], ⟨false, 201⟩) ∧
    (full.handleRequest lower [] ⟨0x1100, 8, true⟩).1.ways 0 = [⟨true, false, 34, 3⟩, ⟨true, false, 33, 2⟩] := by decide

/-! ## Witnesses

For each statement of Obligations.lean with hypotheses: states and operands that meet them, one for each clause. -/

/-- The instruction of the record in slot E of `holding`: `(holding code []).Holds i r` for its record r. -/
def held (code : BitVec 32) : Option Instr := (holding code []).slotE.map Record.op

/-- The instruction of the record in slot M of a state with that record there, at an address. -/
def accessing (code : BitVec 32) (addr : Word) : State :=
  { holding code [] with
    mem := data
    slotE := none
    slotM := (holding code []).slotE.map (fun r => { r with addr := addr }) }

theorem witness_EncodeThenDecode :
    (Instr.addi 5 0 10).wf = true ∧ (Instr.addi 5 0 10).isM = false ∧ (Instr.addi 5 0 10).len = 4 ∧
    (Instr.mul 7 5 6).wf = true ∧ (Instr.mul 7 5 6).isM = true ∧
    (Instr.cLui 5 0x20000).wf = true ∧ (Instr.cLui 5 0x20000).len = 2 ∧
    slice (0xFFFF7281 : BitVec 32) 0 16 = slice (encode (.cLui 5 0x20000)) 0 16 := by decide

theorem witness_DecodeThenEncode :
    decode false 0x00A00293 = .instr (.addi 5 0 10) ∧ decode true 0x026283B3 = .instr (.mul 7 5 6) ∧
    decode false 0xFFFF7281 = .instr (.cLui 5 0x20000) := by decide

theorem witness_SystemWords :
    slice (0x00000073 : BitVec 32) 0 7 = 0b1110011#7 ∧ slice (0x00100073 : BitVec 32) 0 7 = 0b1110011#7 ∧
    (0x00100073 : BitVec 32) ≠ 0x00000073 := by decide

/-- One word for each clause of the first part, in order. -/
theorem witness_FullWordsThatFail_first :
    slice (0x0000000F : BitVec 32) 0 7 ∉ [0x37#7, 0x17#7, 0x6F#7, 0x67#7, 0x63#7, 0x03#7, 0x23#7, 0x13#7, 0x1B#7, 0x33#7, 0x3B#7, 0x73#7] ∧
    slice (0x00001067 : BitVec 32) 0 7 = 0x67#7 ∧ slice (0x00001067 : BitVec 32) 12 3 ≠ 0b000#3 ∧
    slice (0x00003063 : BitVec 32) 0 7 = 0x63#7 ∧ slice (0x00003063 : BitVec 32) 12 3 ∈ [0b010#3, 0b011#3] ∧
    slice (0x00007003 : BitVec 32) 0 7 = 0x03#7 ∧ slice (0x00007003 : BitVec 32) 12 3 = 0b111#3 ∧
    slice (0x00004023 : BitVec 32) 0 7 = 0x23#7 ∧ slice (0x00004023 : BitVec 32) 12 3 = 0b100#3 ∧
    slice (0x04001013 : BitVec 32) 0 7 = 0x13#7 ∧ slice (0x04001013 : BitVec 32) 12 3 = 0b001#3 ∧
    slice (0x04001013 : BitVec 32) 26 6 ≠ 0 ∧
    slice (0x20005013 : BitVec 32) 12 3 = 0b101#3 ∧ slice (0x20005013 : BitVec 32) 26 6 ∉ [0b000000#6, 0b010000#6] := by
  decide

theorem witness_FullWordsThatFail_second :
    slice (0x0000201B : BitVec 32) 0 7 = 0x1B#7 ∧ slice (0x0000201B : BitVec 32) 12 3 ∉ [0b000#3, 0b001#3, 0b101#3] ∧
    slice (0x0200101B : BitVec 32) 12 3 = 0b001#3 ∧ slice (0x0200101B : BitVec 32) 25 7 ≠ 0 ∧
    slice (0x0200501B : BitVec 32) 12 3 = 0b101#3 ∧ slice (0x0200501B : BitVec 32) 25 7 ∉ [0b0000000#7, 0b0100000#7] ∧
    slice (0x04000033 : BitVec 32) 0 7 = 0x33#7 ∧ slice (0x04000033 : BitVec 32) 25 7 = 2 ∧
    slice (0x40001033 : BitVec 32) 25 7 = 0b0100000#7 ∧ slice (0x40001033 : BitVec 32) 12 3 ∉ [0b000#3, 0b101#3] ∧
    slice (0x0000203B : BitVec 32) 0 7 = 0x3B#7 ∧ slice (0x0000203B : BitVec 32) 12 3 ∉ [0b000#3, 0b001#3, 0b101#3] ∧
    slice (0x0200103B : BitVec 32) 25 7 = 0b0000001#7 ∧ slice (0x0200103B : BitVec 32) 12 3 = 0b001#3 ∧
    slice (0x02000033 : BitVec 32) 25 7 = 0b0000001#7 ∧
    slice (0x00002000 : BitVec 32) 0 2 = 0b00#2 ∧ slice (0x00002000 : BitVec 32) 13 3 = 0b001#3 ∧
    slice (0x0000A002 : BitVec 32) 0 2 = 0b10#2 ∧ slice (0x0000A002 : BitVec 32) 13 3 = 0b101#3 := by decide

/-- The third part: slot D holds a word that is a decode failure. -/
def undecodable : State :=
  { holding 0x00A00293 [] with slotD := some { code := 0x00100073, pc := 0x10004 }, pc := 0x10008, mem := data }

theorem witness_FullWordsThatFail_slot :
    undecodable.slotD = some { code := 0x00100073, pc := 0x10004 } ∧
    Undecodable undecodable.cfg.hasM 0x00100073 := ⟨rfl, .systemNotEcall, by decide⟩

/-- The halfwords of V3, one for each clause. -/
theorem witness_CompressedWordsThatFail :
    (slice (0x0000 : BitVec 32) 0 2 = 0b00#2 ∧ slice (0x0000 : BitVec 32) 13 3 = 0b000#3 ∧ slice (0x0000 : BitVec 32) 5 8 = 0) ∧
    slice (0x2000 : BitVec 32) 13 3 = 0b001#3 ∧ slice (0x8000 : BitVec 32) 13 3 = 0b100#3 ∧
    slice (0xA000 : BitVec 32) 13 3 = 0b101#3 ∧
    (slice (0x2005 : BitVec 32) 0 2 = 0b01#2 ∧ slice (0x2005 : BitVec 32) 13 3 = 0b001#3 ∧ slice (0x2005 : BitVec 32) 7 5 = 0) ∧
    (slice (0x6101 : BitVec 32) 13 3 = 0b011#3 ∧ slice (0x6101 : BitVec 32) 12 1 = 0 ∧ slice (0x6101 : BitVec 32) 2 5 = 0) ∧
    (slice (0x9C61 : BitVec 32) 10 6 = 0b100111#6 ∧ slice (0x9C61 : BitVec 32) 5 2 = 0b11#2) ∧
    (slice (0x2785 : BitVec 32) 13 3 = 0b001#3 ∧ slice (0x2785 : BitVec 32) 7 5 ≠ 0) := by decide

theorem witness_CompressedWordsThatFail_quadrant2 :
    (slice (0x4002 : BitVec 32) 0 2 = 0b10#2 ∧ slice (0x4002 : BitVec 32) 13 3 = 0b010#3 ∧ slice (0x4002 : BitVec 32) 7 5 = 0) ∧
    slice (0x6002 : BitVec 32) 13 3 = 0b011#3 ∧
    (slice (0x8002 : BitVec 32) 12 4 = 0b1000#4 ∧ slice (0x8002 : BitVec 32) 2 5 = 0 ∧ slice (0x8002 : BitVec 32) 7 5 = 0) ∧
    (slice (0x9002 : BitVec 32) 12 4 = 0b1001#4 ∧ slice (0x9002 : BitVec 32) 2 5 = 0) ∧
    slice (0x2002 : BitVec 32) 13 3 = 0b001#3 ∧ slice (0xA002 : BitVec 32) 13 3 = 0b101#3 := by decide

/-- Slot D holds a store, slot W a record with destination 0 whose flag is set. -/
def decoding : State :=
  { forwarding with
    slotD := some { code := 0x00733423, pc := 0x10000 }
    slotW := forwarding.slotW.map (fun r => { r with rd := 0 }) }

theorem witness_WritesFlag :
    decoding.slotD = some { code := 0x00733423, pc := 0x10000 } ∧
    decode decoding.cfg.hasM 0x00733423 = .instr (.sd 6 7 8) ∧
    decoding.slotW.map (fun r => (r.rd, r.writes)) = some (0, true) := by decide

/-- Rows of code, opcode, funct3, upper bits from bit `lo`, and the instruction that slot E holds. -/
def family (lo : Nat) (rows : List (BitVec 32 × BitVec 7 × BitVec 3 × Nat × Instr)) : Bool :=
  rows.all (fun p =>
    slice p.1 0 7 == p.2.1 && slice p.1 12 3 == p.2.2.1 && p.1.toNat / 2 ^ lo == p.2.2.2.1 && held p.1 == some p.2.2.2.2)

theorem witness_UpperImmediates :
    family 32 [(0x800002B7, 0x37, 0, 0, .lui 5 0x80000),
      (0xFFFFF297, 0x17, 7, 0, .auipc 5 0xFFFFF)] = true := by decide

theorem witness_RegisterImmediate :
    family 26 [(0x00A00293, 0x13, 0, 0, .addi 5 0 10),
      (0xFFF2A393, 0x13, 2, 63, .slti 7 5 0xFFF),
      (0xFFF2B393, 0x13, 3, 63, .sltiu 7 5 0xFFF),
      (0xFFF2C293, 0x13, 4, 63, .xori 5 5 0xFFF),
      (0x8002E393, 0x13, 6, 32, .ori 7 5 0x800),
      (0xFF02F393, 0x13, 7, 63, .andi 7 5 0xFF0),
      (0x03F29293, 0x13, 1, 0, .slli 5 5 63),
      (0x03F2D293, 0x13, 5, 0, .srli 5 5 63),
      (0x43F2D293, 0x13, 5, 16, .srai 5 5 63)] = true := by decide

theorem witness_RegisterRegister :
    family 25 [(0x006283B3, 0x33, 0, 0, .add 7 5 6),
      (0x40628333, 0x33, 0, 32, .sub 6 5 6),
      (0x006293B3, 0x33, 1, 0, .sll 7 5 6),
      (0x0062A333, 0x33, 2, 0, .slt 6 5 6),
      (0x0062B333, 0x33, 3, 0, .sltu 6 5 6),
      (0x0062C3B3, 0x33, 4, 0, .xor 7 5 6),
      (0x0062D3B3, 0x33, 5, 0, .srl 7 5 6),
      (0x4062D3B3, 0x33, 5, 32, .sra 7 5 6),
      (0x0062E3B3, 0x33, 6, 0, .or 7 5 6),
      (0x0062F3B3, 0x33, 7, 0, .and 7 5 6)] = true := by decide

theorem witness_WordForms :
    family 25 [(0xFFF2829B, 0x1B, 0, 127, .addiw 5 5 0xFFF),
      (0x01F2929B, 0x1B, 1, 0, .slliw 5 5 31),
      (0x0042D39B, 0x1B, 5, 0, .srliw 7 5 4),
      (0x41F2D29B, 0x1B, 5, 32, .sraiw 5 5 31),
      (0x006283BB, 0x3B, 0, 0, .addw 7 5 6),
      (0x4062833B, 0x3B, 0, 32, .subw 6 5 6),
      (0x006292BB, 0x3B, 1, 0, .sllw 5 5 6),
      (0x0062D3BB, 0x3B, 5, 0, .srlw 7 5 6),
      (0x4062D2BB, 0x3B, 5, 32, .sraw 5 5 6)] = true := by decide

theorem witness_MultiplyInstructions :
    family 25 [(0x026283B3, 0x33, 0, 1, .mul 7 5 6),
      (0x026293B3, 0x33, 1, 1, .mulh 7 5 6),
      (0x0262A3B3, 0x33, 2, 1, .mulhsu 7 5 6),
      (0x0262B3B3, 0x33, 3, 1, .mulhu 7 5 6),
      (0x026283BB, 0x3B, 0, 1, .mulw 7 5 6)] = true := by decide

theorem witness_DivideInstructions :
    family 25 [(0x0262C3B3, 0x33, 4, 1, .div 7 5 6),
      (0x0262D3B3, 0x33, 5, 1, .divu 7 5 6),
      (0x0262E3B3, 0x33, 6, 1, .rem 7 5 6),
      (0x0262F3B3, 0x33, 7, 1, .remu 7 5 6),
      (0x0262C3BB, 0x3B, 4, 1, .divw 7 5 6),
      (0x0262D3BB, 0x3B, 5, 1, .divuw 7 5 6),
      (0x0262E3BB, 0x3B, 6, 1, .remw 7 5 6),
      (0x0262F3BB, 0x3B, 7, 1, .remuw 7 5 6)] = true := by decide

/-- Divisors that are not zero, and the overflow case. -/
theorem witness_DivisionLaws :
    (5 : BitVec 64) ≠ 0 ∧ ¬ ((7 : BitVec 64) = BitVec.intMin 64 ∧ (5 : BitVec 64) = BitVec.allOnes 64) ∧
    (5 : BitVec 32) ≠ 0 ∧ ¬ ((7 : BitVec 32) = BitVec.intMin 32 ∧ (5 : BitVec 32) = BitVec.allOnes 32) := by decide

/-- A jump and its immediate, field by field; JALR with and without its function code. -/
theorem witness_JumpInstructions :
    slice (0xFFDFF06F : BitVec 32) 0 7 = 0b1101111#7 ∧
    slice (0x1FFFFC : BitVec 21) 20 1 = slice (0xFFDFF06F : BitVec 32) 31 1 ∧
    slice (0x1FFFFC : BitVec 21) 12 8 = slice (0xFFDFF06F : BitVec 32) 12 8 ∧
    slice (0x1FFFFC : BitVec 21) 11 1 = slice (0xFFDFF06F : BitVec 32) 20 1 ∧
    slice (0x1FFFFC : BitVec 21) 1 10 = slice (0xFFDFF06F : BitVec 32) 21 10 ∧ slice (0x1FFFFC : BitVec 21) 0 1 = 0 ∧
    held 0xFFDFF06F = some (.jal 0 0x1FFFFC) ∧
    slice (0xFFD280E7 : BitVec 32) 0 7 = 0b1100111#7 ∧ slice (0xFFD280E7 : BitVec 32) 12 3 = 0b000#3 ∧
    held 0xFFD280E7 = some (.jalr 1 5 0xFFD) ∧
    slice (0x00001067 : BitVec 32) 0 7 = 0b1100111#7 ∧ slice (0x00001067 : BitVec 32) 12 3 ≠ 0b000#3 := by decide

/-- Are the immediate's fields the word's, in format SB? -/
def branchImm (code : BitVec 32) (imm : BitVec 13) : Bool :=
  slice code 0 7 == 0b1100011#7 && slice imm 12 1 == slice code 31 1 && slice imm 11 1 == slice code 7 1 &&
  slice imm 5 6 == slice code 25 6 && slice imm 1 4 == slice code 8 4 && slice imm 0 1 == 0

theorem witness_BranchInstructions :
    ([(0x00628863, 0, 16, .beq 5 6 16), (0xFE629CE3, 1, 0x1FF8, .bne 5 6 0x1FF8), (0x0062C863, 4, 16, .blt 5 6 16),
      (0x0062D863, 5, 16, .bge 5 6 16), (0x0062E863, 6, 16, .bltu 5 6 16), (0x0062F863, 7, 16, .bgeu 5 6 16)] :
      List (BitVec 32 × BitVec 3 × BitVec 13 × Instr)).all
      (fun p => branchImm p.1 p.2.2.1 && slice p.1 12 3 == p.2.1 && held p.1 == some p.2.2.2) = true := by decide

/-- Registers for which a branch is taken and is not taken. -/
theorem witness_BranchInstructions_taken :
    (holding 0x00628863 [(5, 7), (6, 7)]).fwd 5 = (holding 0x00628863 [(5, 7), (6, 7)]).fwd 6 ∧
    (holding 0x00628863 [(5, 7), (6, 8)]).fwd 5 ≠ (holding 0x00628863 [(5, 7), (6, 8)]).fwd 6 := by decide

/-- The three cases of a load's AccessMemory, each at its boundary, and the instruction slot M holds. -/
theorem witness_LoadInstructions :
    ([(0x80030283, 0, .lb 5 6 0x800), (0x00631283, 1, .lh 5 6 6), (0x00432283, 2, .lw 5 6 4), (0x7FF33283, 3, .ld 5 6 0x7FF),
      (0x00734283, 4, .lbu 5 6 7), (0x00635283, 5, .lhu 5 6 6), (0x00436283, 6, .lwu 5 6 4)] :
      List (BitVec 32 × BitVec 3 × Instr)).all (fun p =>
        slice p.1 0 7 == 0b0000011#7 && slice p.1 12 3 == p.2.1 && held p.1 == some p.2.2 &&
        (accessing p.1 0x20FF8).slotM.map (fun r => (r.op, r.addr)) == some (p.2.2, 0x20FF8)) = true ∧
    offOf 0x20FF9 + 8 > pageSize ∧ offOf 0x20FF8 + 8 ≤ pageSize ∧ data.mapped 0x20FF8 = true ∧
    data.mapped 0x21000 = false ∧ offOf 0x21000 + 8 ≤ pageSize := by decide

theorem witness_StoreInstructions :
    ([(0x007300A3, 0, 1, .sb 6 7 1), (0x00731123, 1, 2, .sh 6 7 2), (0xFE732C23, 2, 0xFF8, .sw 6 7 0xFF8),
      (0x00733423, 3, 8, .sd 6 7 8)] : List (BitVec 32 × BitVec 3 × BitVec 12 × Instr)).all (fun p =>
        slice p.1 0 7 == 0b0100011#7 && slice p.1 12 3 == p.2.1 && slice p.2.2.1 5 7 == slice p.1 25 7 &&
        slice p.2.2.1 0 5 == slice p.1 7 5 && held p.1 == some p.2.2.2 &&
        (accessing p.1 0x20FF8).slotM.map (fun r => (r.op, r.addr)) == some (p.2.2.2, 0x20FF8)) = true ∧
    data.wf ∧ offOf 0x20FF9 + 8 > pageSize ∧ offOf 0x20FF8 + 8 ≤ pageSize := by decide

/-- A word of each clause of quadrant 0, with its immediate. -/
theorem witness_CompressedQuadrant0 :
    (slice (0x1FFC : BitVec 32) 0 2 = 0b00#2 ∧ slice (0x1FFC : BitVec 32) 13 3 = 0b000#3 ∧
      cImm4spnOf (slice (0x1FFC : BitVec 32) 0 16) = 1020 ∧ held 0x1FFC = some (.cAddi4spn 7 1020)) ∧
    (slice (0x435C : BitVec 32) 13 3 = 0b010#3 ∧ held 0x435C = some (.cLw 7 6 4)) ∧
    (slice (0x611C : BitVec 32) 13 3 = 0b011#3 ∧ held 0x611C = some (.cLd 7 2 0)) ∧
    (slice (0xC350 : BitVec 32) 13 3 = 0b110#3 ∧ held 0xC350 = some (.cSw 6 4 4)) ∧
    (slice (0xE11C : BitVec 32) 13 3 = 0b111#3 ∧ held 0xE11C = some (.cSd 2 7 0)) ∧
    (slice (4 : BitVec 7) 3 3 = slice (0x435C : BitVec 32) 10 3 ∧ slice (4 : BitVec 7) 2 1 = slice (0x435C : BitVec 32) 6 1 ∧
      slice (4 : BitVec 7) 6 1 = slice (0x435C : BitVec 32) 5 1 ∧ slice (4 : BitVec 7) 0 2 = 0) := by decide

theorem witness_CompressedQuadrant0_immediates :
    (slice (1020 : BitVec 10) 4 2 = slice (0x1FFC : BitVec 32) 11 2 ∧ slice (1020 : BitVec 10) 6 4 = slice (0x1FFC : BitVec 32) 7 4 ∧
      slice (1020 : BitVec 10) 2 1 = slice (0x1FFC : BitVec 32) 6 1 ∧ slice (1020 : BitVec 10) 3 1 = slice (0x1FFC : BitVec 32) 5 1 ∧
      slice (1020 : BitVec 10) 0 2 = 0 ∧ (1020 : BitVec 10) ≠ 0) ∧
    (slice (0 : BitVec 8) 3 3 = slice (0x611C : BitVec 32) 10 3 ∧ slice (0 : BitVec 8) 6 2 = slice (0x611C : BitVec 32) 5 2 ∧
      slice (0 : BitVec 8) 0 3 = 0) ∧
    (slice (4 : BitVec 7) 3 3 = slice (0xC350 : BitVec 32) 10 3 ∧ slice (4 : BitVec 7) 2 1 = slice (0xC350 : BitVec 32) 6 1 ∧
      slice (4 : BitVec 7) 6 1 = slice (0xC350 : BitVec 32) 5 1) ∧
    (slice (0 : BitVec 8) 3 3 = slice (0xE11C : BitVec 32) 10 3 ∧ slice (0 : BitVec 8) 6 2 = slice (0xE11C : BitVec 32) 5 2) ∧
    slice (0x0000 : BitVec 32) 13 3 = 0b000#3 := by decide

/-- Are the fields of a six-bit immediate the word's? -/
def imm6 (code : BitVec 32) (imm : BitVec 6) : Bool := slice imm 5 1 == slice code 12 1 && slice imm 0 5 == slice code 2 5

theorem witness_CompressedImmediates :
    ([(0x007D, 0, 31, .cNop 31), (0x1141, 0, 0x30, .cAddi 2 0x30), (0x2785, 1, 1, .cAddiw 15 1), (0x4505, 2, 1, .cLi 10 1)] :
      List (BitVec 32 × BitVec 3 × BitVec 6 × Instr)).all (fun p =>
        slice p.1 0 2 == 0b01#2 && slice p.1 13 3 == p.2.1 && imm6 p.1 p.2.2.1 && held p.1 == some p.2.2.2) = true ∧
    (slice (0x2005 : BitVec 32) 13 3 = 0b001#3 ∧ slice (0x2005 : BitVec 32) 7 5 = 0 ∧ imm6 0x2005 1 = true) := by decide

theorem witness_CompressedImmediates_scaled :
    (slice (0x713D : BitVec 32) 13 3 = 0b011#3 ∧ slice (0x713D : BitVec 32) 7 5 = 2 ∧ held 0x713D = some (.cAddi16sp 0x3E0) ∧
      slice (0x3E0 : BitVec 10) 9 1 = slice (0x713D : BitVec 32) 12 1 ∧ slice (0x3E0 : BitVec 10) 4 1 = slice (0x713D : BitVec 32) 6 1 ∧
      slice (0x3E0 : BitVec 10) 6 1 = slice (0x713D : BitVec 32) 5 1 ∧ slice (0x3E0 : BitVec 10) 7 2 = slice (0x713D : BitVec 32) 3 2 ∧
      slice (0x3E0 : BitVec 10) 5 1 = slice (0x713D : BitVec 32) 2 1 ∧ slice (0x3E0 : BitVec 10) 0 4 = 0) ∧
    (slice (0x7281 : BitVec 32) 13 3 = 0b011#3 ∧ slice (0x7281 : BitVec 32) 7 5 ≠ 2 ∧ held 0x7281 = some (.cLui 5 0x20000) ∧
      slice (0x20000 : BitVec 18) 17 1 = slice (0x7281 : BitVec 32) 12 1 ∧
      slice (0x20000 : BitVec 18) 12 5 = slice (0x7281 : BitVec 32) 2 5 ∧ slice (0x20000 : BitVec 18) 0 12 = 0) ∧
    (slice (0x6101 : BitVec 32) 7 5 = 2 ∧ slice (0x6001 : BitVec 32) 7 5 ≠ 2) := by decide

theorem witness_CompressedArithmetic :
    ([(0x8385, 0, 1, .cSrli 7 1), (0x8401, 1, 0, .cSrai 0 0), (0x9801, 2, 0x20, .cAndi 0 0x20)] :
      List (BitVec 32 × BitVec 2 × BitVec 6 × Instr)).all (fun p =>
        slice p.1 0 2 == 0b01#2 && slice p.1 13 3 == 0b100#3 && slice p.1 10 2 == p.2.1 && imm6 p.1 p.2.2.1 &&
        held p.1 == some p.2.2.2) = true ∧
    ([(0x8D0D, 3, 0, .cSub 2 3), (0x8D2D, 3, 1, .cXor 2 3), (0x8D4D, 3, 2, .cOr 2 3), (0x8D6D, 3, 3, .cAnd 2 3),
      (0x9F99, 7, 0, .cSubw 7 6), (0x9FB9, 7, 1, .cAddw 7 6)] : List (BitVec 32 × BitVec 3 × BitVec 2 × Instr)).all (fun p =>
        slice p.1 0 2 == 0b01#2 && slice p.1 13 3 == 0b100#3 && slice p.1 10 3 == p.2.1 && slice p.1 5 2 == p.2.2.1 &&
        held p.1 == some p.2.2.2) = true ∧
    slice (0x9C41 : BitVec 32) 10 3 = 0b111#3 ∧ slice (0x9C41 : BitVec 32) 5 2 = 0b10#2 := by decide

theorem witness_CompressedTransfers :
    (slice (0xBFD5 : BitVec 32) 0 2 = 0b01#2 ∧ slice (0xBFD5 : BitVec 32) 13 3 = 0b101#3 ∧
      cImmJOf (slice (0xBFD5 : BitVec 32) 0 16) = 0xFF4 ∧ held 0xBFD5 = some (.cJ 0xFF4)) ∧
    (slice (0xC119 : BitVec 32) 13 3 = 0b110#3 ∧ cImmBOf (slice (0xC119 : BitVec 32) 0 16) = 6 ∧ held 0xC119 = some (.cBeqz 2 6)) ∧
    (slice (0xFFF5 : BitVec 32) 13 3 = 0b111#3 ∧ cImmBOf (slice (0xFFF5 : BitVec 32) 0 16) = 0x1FC ∧
      held 0xFFF5 = some (.cBnez 7 0x1FC)) ∧
    (slice (0x8082 : BitVec 32) 0 2 = 0b10#2 ∧ slice (0x8082 : BitVec 32) 2 5 = 0 ∧ slice (0x8082 : BitVec 32) 12 4 = 0b1000#4 ∧
      slice (0x8082 : BitVec 32) 7 5 ≠ 0 ∧ held 0x8082 = some (.cJr 1)) ∧
    (slice (0x9782 : BitVec 32) 12 4 = 0b1001#4 ∧ slice (0x9782 : BitVec 32) 2 5 = 0 ∧ held 0x9782 = some (.cJalr 15)) ∧
    (slice (0x8002 : BitVec 32) 12 4 = 0b1000#4 ∧ slice (0x9002 : BitVec 32) 12 4 = 0b1001#4 ∧
      slice (0x9002 : BitVec 32) 7 5 = 0) := by decide

/-- The immediates' fields: those of C.J -12, C.BEQZ +6 and C.BNEZ -4. -/
theorem witness_CompressedTransfers_immediates :
    (slice (0xFF4 : BitVec 12) 11 1 = slice (0xBFD5 : BitVec 32) 12 1 ∧ slice (0xFF4 : BitVec 12) 4 1 = slice (0xBFD5 : BitVec 32) 11 1 ∧
      slice (0xFF4 : BitVec 12) 8 2 = slice (0xBFD5 : BitVec 32) 9 2 ∧ slice (0xFF4 : BitVec 12) 10 1 = slice (0xBFD5 : BitVec 32) 8 1 ∧
      slice (0xFF4 : BitVec 12) 6 1 = slice (0xBFD5 : BitVec 32) 7 1 ∧ slice (0xFF4 : BitVec 12) 7 1 = slice (0xBFD5 : BitVec 32) 6 1 ∧
      slice (0xFF4 : BitVec 12) 1 3 = slice (0xBFD5 : BitVec 32) 3 3 ∧ slice (0xFF4 : BitVec 12) 5 1 = slice (0xBFD5 : BitVec 32) 2 1 ∧
      slice (0xFF4 : BitVec 12) 0 1 = 0) ∧
    (slice (0x1FC : BitVec 9) 8 1 = slice (0xFFF5 : BitVec 32) 12 1 ∧ slice (0x1FC : BitVec 9) 3 2 = slice (0xFFF5 : BitVec 32) 10 2 ∧
      slice (0x1FC : BitVec 9) 6 2 = slice (0xFFF5 : BitVec 32) 5 2 ∧ slice (0x1FC : BitVec 9) 1 2 = slice (0xFFF5 : BitVec 32) 3 2 ∧
      slice (0x1FC : BitVec 9) 5 1 = slice (0xFFF5 : BitVec 32) 2 1 ∧ slice (0x1FC : BitVec 9) 0 1 = 0) ∧
    (slice (6 : BitVec 9) 3 2 = slice (0xC119 : BitVec 32) 10 2 ∧ slice (6 : BitVec 9) 1 2 = slice (0xC119 : BitVec 32) 3 2) := by
  decide

theorem witness_CompressedQuadrant2 :
    (slice (0x078A : BitVec 32) 0 2 = 0b10#2 ∧ slice (0x078A : BitVec 32) 13 3 = 0b000#3 ∧ imm6 0x078A 2 = true ∧
      held 0x078A = some (.cSlli 15 2)) ∧
    (slice (0x853E : BitVec 32) 12 4 = 0b1000#4 ∧ slice (0x853E : BitVec 32) 2 5 ≠ 0 ∧ held 0x853E = some (.cMv 10 15)) ∧
    (slice (0x952E : BitVec 32) 12 4 = 0b1001#4 ∧ slice (0x952E : BitVec 32) 2 5 ≠ 0 ∧ held 0x952E = some (.cAdd 10 11)) ∧
    (slice (0x4532 : BitVec 32) 13 3 = 0b010#3 ∧ slice (0x4532 : BitVec 32) 7 5 ≠ 0 ∧ held 0x4532 = some (.cLwsp 10 12)) ∧
    (slice (0x60A2 : BitVec 32) 13 3 = 0b011#3 ∧ slice (0x60A2 : BitVec 32) 7 5 ≠ 0 ∧ held 0x60A2 = some (.cLdsp 1 8)) ∧
    (slice (0xC62A : BitVec 32) 13 3 = 0b110#3 ∧ held 0xC62A = some (.cSwsp 10 12)) ∧
    (slice (0xE432 : BitVec 32) 13 3 = 0b111#3 ∧ held 0xE432 = some (.cSdsp 12 8)) ∧
    (slice (0x4002 : BitVec 32) 7 5 = 0 ∧ slice (0x6002 : BitVec 32) 7 5 = 0) := by decide

theorem witness_CompressedQuadrant2_immediates :
    (slice (12 : BitVec 8) 5 1 = slice (0x4532 : BitVec 32) 12 1 ∧ slice (12 : BitVec 8) 2 3 = slice (0x4532 : BitVec 32) 4 3 ∧
      slice (12 : BitVec 8) 6 2 = slice (0x4532 : BitVec 32) 2 2 ∧ slice (12 : BitVec 8) 0 2 = 0) ∧
    (slice (8 : BitVec 9) 5 1 = slice (0x60A2 : BitVec 32) 12 1 ∧ slice (8 : BitVec 9) 3 2 = slice (0x60A2 : BitVec 32) 5 2 ∧
      slice (8 : BitVec 9) 6 3 = slice (0x60A2 : BitVec 32) 2 3 ∧ slice (8 : BitVec 9) 0 3 = 0) ∧
    (slice (12 : BitVec 8) 2 4 = slice (0xC62A : BitVec 32) 9 4 ∧ slice (12 : BitVec 8) 6 2 = slice (0xC62A : BitVec 32) 7 2) ∧
    (slice (8 : BitVec 9) 3 3 = slice (0xE432 : BitVec 32) 10 3 ∧ slice (8 : BitVec 9) 6 3 = slice (0xE432 : BitVec 32) 7 3) := by
  decide

theorem witness_CompressedExecutesAsItsExpansion :
    (Instr.cLui 5 0x20000).wf = true ∧ (Instr.cLui 5 0x20000).expansion = some (.lui 5 0xFFFE0) ∧
    (Instr.cMv 10 15).len = 2 ∧ (Instr.cMv 10 15).expansion = none ∧ (Instr.lui 5 1).len = 4 := by decide

/-- A compressed load in slot M with slot W empty, and one in slot W behind which another instruction executes. -/
theorem witness_CompressedExecutesAsItsExpansion_stages :
    (accessing 0x4532 0x20000).slotM.map Record.op = some (.cLwsp 10 12) ∧ (accessing 0x4532 0x20000).slotW = none ∧
    (Instr.cLwsp 10 12).wf = true ∧ (Instr.cLwsp 10 12).expansion = some (.lw 10 2 12) ∧
    (accessMemory (accessing 0x4532 0x20000)).slotW.map Record.op = some (.cLwsp 10 12) ∧
    (nextOf (exec (.add 7 10 6) { holding 0x006503B3 [] with
      slotW := (accessMemory (accessing 0x4532 0x20000)).slotW })).isSome = true := by decide

/-- A computing, a loading, a branching (both ways), a jumping and a calling record in slot E. -/
theorem witness_ExecuteFollowsTheKind :
    State.reset.slotE = none ∧ held 0x006283B3 = some (.add 7 5 6) ∧
    kindValue (Instr.add 7 5 6).kind ((holding 0x006283B3 []).fwd 5) ((holding 0x006283B3 []).fwd 6) 0 0x10000 = some 0 ∧
    (Instr.ld 5 6 0x7FF).kind.isLoad = true ∧ (Instr.sd 6 7 8).kind.isStore = true ∧
    kindCond (Instr.beq 5 6 16).kind ((holding 0x00628863 []).fwd 5) ((holding 0x00628863 []).fwd 6) = some true ∧
    kindCond (Instr.bne 5 6 0x1FF8).kind ((holding 0xFE629CE3 []).fwd 5) ((holding 0xFE629CE3 []).fwd 6) = some false ∧
    (Instr.jal 0 0).kind = .jal ∧ (Instr.cJr 1).kind = .jalr ∧ Instr.ecall.kind = .ecall := by decide

theorem witness_LoadUseIsCounted :
    forwarding.slotW.map (fun r => (r.kind.isLoad, r.writes, r.rd)) = some (true, true, 5) ∧
    5 ∈ (Instr.add 7 5 6).readSet ∧ 5 ∉ (Instr.slt 7 9 8).readSet ∧
    ((nextOf (exec (.add 7 5 6) { holding 0x006283B3 [] with slotW := forwarding.slotW })).isSome) = true ∧
    ((nextOf (exec (.slt 7 9 8) { holding 0x0084A3B3 [] with slotW := forwarding.slotW })).isSome) = true := by decide

/-- An ECALL in slot E with a number in a7 and an argument in a0. -/
def calling (num arg : Word) : State := { holding 0x00000073 [(17, num), (10, arg)] with mem := data }

/-- An ECALL with the number of each service; the numbering is injective. -/
theorem witness_EcallServices :
    State.reset.cfg.sysnum.Injective ∧
    Service.all.all (fun v =>
      (calling (SysNum.ordinal.num v) 0x2000D).fwd 17 == (calling (SysNum.ordinal.num v) 0x2000D).cfg.sysnum.num v &&
      (calling (SysNum.ordinal.num v) 0x2000D).slotE.map Record.op == some .ecall) = true := by decide

theorem witness_EcallOutputServices :
    (calling 1 0).slotE.map Record.op = some .ecall ∧ (calling 1 0).fwd 17 = SysNum.ordinal.printChar ∧
    (calling 2 0).fwd 17 = SysNum.ordinal.printInt ∧ (calling 3 0).fwd 17 = SysNum.ordinal.printLong ∧
    (calling 9 0).fwd 17 = SysNum.ordinal.seedRandom := by decide

theorem witness_EcallReadingServices :
    (calling 6 0).slotE.map Record.op = some .ecall ∧ (calling 6 0).fwd 17 = SysNum.ordinal.num .readInt ∧
    Service.readInt ∈ [Service.readChar, .readInt, .readLong, .random, .wallClockTime] ∧
    { calling 6 0 with input := [.word 7] }.input = .word 7 :: [] := by decide

/-- Three bytes and a zero, an empty string, an unmapped address, and a string that runs to the end of the last page. -/
theorem witness_EcallPrintString :
    (calling 4 0x2000D).fwd 17 = SysNum.ordinal.printString ∧ (calling 4 0x2000D).fwd 10 = 0x2000D ∧
    data.peek 0x2000D = some 0xDD ∧ data.peek 0x2000E = some 0xEE ∧ data.peek 0x2000F = some 0xFF ∧
    data.peek 0x20010 = some 0 ∧ data.peek 0x30000 = none ∧
    Memory.peek { data with cells := [(0x20FFF, 7)] } 0x20FFF = some 7 ∧ data.peek 0x21000 = none := by decide

theorem witness_EcallReadString :
    (calling 8 0x2000D).slotE.map Record.op = some .ecall ∧ (calling 8 0x2000D).mem.wf ∧
    (calling 8 0x2000D).fwd 17 = SysNum.ordinal.readString := by decide

/-- Sizes 0 and 4097, and a first page that is already mapped. -/
theorem witness_EcallHeapAllocate :
    (calling 11 4097).fwd 17 = SysNum.ordinal.heapAllocate ∧ (calling 11 4097).mem.wf ∧
    (calling 11 4097).heapPtr = 0x100000 ∧ ((4097 : Word) + 4095) &&& ~~~4095 = 8192 ∧ ((0 : Word) + 4095) &&& ~~~4095 = 0 ∧
    data.mapped 0x100000 = false ∧ data.mapped 0x101000 = false ∧
    Memory.mapped { pages := [0x100000], cells := [] } 0x100000 = true := by decide

theorem witness_EcallUnknownNumber :
    (calling 13 0).slotE.map Record.op = some .ecall ∧
    ∀ v : Service, (calling 13 0).cfg.sysnum.num v ≠ (calling 13 0).fwd 17 := by
  refine ⟨by decide, fun v => ?_⟩
  cases v <;> decide

theorem witness_ExitEndsTheRun :
    (calling 0 55).ConfigOk ∧ (calling 0 55).stopped = false ∧ (beforeExecute (calling 0 55)).stopped = false ∧
    (calling 0 55).slotE.map Record.op = some .ecall ∧ (beforeExecute (calling 0 55)).fwd 17 = SysNum.ordinal.exit ∧
    ({ calling 0 55 with slotM := forwarding.slotW }).slotM.isSome = true := by decide

theorem witness_WriteBackCommits :
    State.reset.slotW = none ∧ forwarding.slotW.map (fun r => (r.writes, r.rd)) = some (true, 5) ∧
    (nextOf (step forwarding)).isSome = true := by decide

theorem witness_ForwardingGivesTheCommittedValue :
    forwarding.slotW.map (fun r => (r.writes, r.rd)) = some (true, 5) ∧ (5 : Reg) ≠ 0 ∧ (6 : Reg) ≠ 5 ∧
    State.reset.slotW = none := by decide

theorem witness_DecodeStage :
    State.reset.slotD = none ∧ decoding.slotD = some { code := 0x00733423, pc := 0x10000 } ∧
    decode decoding.cfg.hasM 0x00733423 = .instr (.sd 6 7 8) ∧
    (decode undecodable.cfg.hasM 0x00100073).toOption = none := by decide

/-- The fetch pointer at the last word of a page, one past it, and in a page that is not mapped. -/
theorem witness_FetchStage :
    offOf 0x20FFD > 4092 ∧ offOf 0x20FFC ≤ 4092 ∧ data.mapped 0x20FFC = true ∧ offOf 0x30000 ≤ 4092 ∧
    data.mapped 0x30000 = false := by decide

theorem witness_MemoryRead :
    3 ∉ [1, 2, 4, 8] ∧ 8 ∈ [1, 2, 4, 8] ∧ offOf 0x20FF9 + 8 > 4096 ∧ offOf 0x20FF8 + 8 ≤ 4096 ∧
    data.mapped 0x30000 = false ∧ data.mapped 0x20FF8 = true ∧ (0xFFFFFFFFFFFFFFF9 : Word).toNat + 8 > 2 ^ 64 := by decide

theorem witness_MemoryWrite : data.wf ∧ 8 ∈ [1, 2, 4, 8] ∧ offOf 0x20FF8 + 8 ≤ 4096 ∧ offOf 0x30000 + 1 ≤ 4096 := by decide

/-- The memory after eight bytes are stored at the end of a page. -/
def storedData : Option Memory :=
  match data.write 0x20FF8 8 0x8877665544332211 with
  | .ok m => some m
  | .error _ => none

theorem witness_LittleEndian :
    data.wf ∧ storedData.isSome = true ∧ program.slotD = none ∧
    (fetchStage program).slotD = some { code := 0x00A00293, pc := 0x10000 } := by decide

theorem witness_AllocateDeallocate :
    data.wf ∧ data.mapped 0x20000 = true ∧ data.mapped 0x30000 = false ∧ program.mem.mapped 0x10000 = true ∧
    (nextOf (step program)).isSome = true := by decide

/-- A stop in AccessMemory, an exit in Execute, a stop in Decode, and a cycle that runs to its end. -/
theorem witness_StepCycleOrder :
    program.ConfigOk ∧ ({ program with exit := true }).exit = true ∧
    (beforeExecute (accessing 0x00030283 0x30000)).fatal = some .unmappedRead ∧
    (nextOf (execute (beforeExecute (calling 0 55)))).map State.exit = some true ∧
    ((nextOf (execute (beforeExecute undecodable))).map (fun e => (e.stopped, (decodeStage e).fatal))) =
      some (false, some .decodeFailure) ∧
    ((nextOf (execute (beforeExecute program))).map (fun e => (e.stopped, (decodeStage e).fatal))) = some (false, none) := by
  decide

/-- The state after some cycles. -/
def after : Nat → State → Option State
  | 0, s => some s
  | n + 1, s => (nextOf (step s)).bind (after n)

theorem witness_StepRunsTheDecodedInstruction :
    (after 2 program).map (fun t => (t.stopped, t.slotE.map Record.op)) = some (false, some (.addi 5 0 10)) ∧
    ((after 2 program).map (fun t => (beforeExecute t).stopped)) = some false := by decide

/-- `jal x1,+8` and `beq x5,x6,+16`, not taken, in slot E, with NOPs in memory. -/
def transferring (code : BitVec 32) (regs : List (Reg × Word)) : State :=
  { holding code regs with
    mem := { pages := [0x10000], cells := [(0x10004, 0x13), (0x10008, 0x13), (0x1000C, 0x13)] } }

theorem witness_TakenTransferSquashes :
    (nextOf (step (transferring 0x008000EF []))).map State.stopped = some false ∧
    (transferring 0x008000EF []).slotE.map Record.kind = some .jal ∧
    (after 2 (transferring 0x008000EF [])).map State.stopped = some false ∧
    (nextOf (step (transferring 0x00628863 [(5, 7)]))).map State.stopped = some false ∧
    kindCond .beq ((transferring 0x00628863 [(5, 7)]).fwd 5) ((transferring 0x00628863 [(5, 7)]).fwd 6) = some false := by
  decide

/-- A stop in AccessMemory, in Execute, in Decode and in Fetch. -/
theorem witness_StateAtAStop :
    (accessing 0x00030283 0x30000).stopped = false ∧
    (nextOf (step (accessing 0x00030283 0x30000))).map State.fatal = some (some .unmappedRead) ∧
    (nextOf (step (calling 13 0))).map State.fatal = some (some .unknownSyscall) ∧
    (nextOf (step undecodable)).map State.fatal = some (some .decodeFailure) ∧
    (nextOf (step State.reset)).map State.fatal = some (some .unmappedRead) := by decide

/-- The other rows: a heap that meets a mapped page, a taken jump to a page that is not mapped and one to the last
halfword of a page, a PRINT_STRING from a page that is not mapped, and an exit. -/
theorem witness_StateAtAStop_rows :
    (nextOf (step { calling 11 4096 with mem := { data with pages := [0x20000, 0x100000] } })).map State.fatal =
      some (some .doubleAllocation) ∧
    (nextOf (step (transferring 0x0000106F []))).map (fun t => (t.fatal, t.pc, t.slotE)) =
      some (some .unmappedRead, 0x11000, none) ∧
    (nextOf (step (transferring 0x7FF0006F []))).map (fun t => (t.fatal, t.pc, t.slotE)) =
      some (some .pageCross, 0x10FFE, none) ∧
    (nextOf (step (calling 4 0x30000))).map State.fatal = some (some .unmappedRead) ∧
    (nextOf (step (calling 0 55))).map State.exit = some true := by decide

theorem witness_DriverObservations :
    (nextOf (step (calling 0 55))).map State.isExit = some true ∧
    (nextOf (step (calling 13 0))).map State.fatal = some (some .unknownSyscall) ∧
    (calling 0 55).slotE.map Record.pc = some 0x10000 ∧ State.reset.slotE = none := by decide

/-! ### Storage levels -/

/-- A level of the geometry of V1 whose set 0 is full. -/
def filled (wt wa dirty : Bool) : CacheLevel :=
  { cfg := small wt wa
    sets := [(0, [⟨true, dirty, 32, 1⟩, ⟨true, false, 33, 2⟩])]
    seq := 2
    stats := ⟨2, 0, 2, 0, 2⟩ }

theorem ways_filled (wt wa dirty : Bool) (j : Nat) :
    (filled wt wa dirty).ways j =
      if j = 0 then [⟨true, dirty, 32, 1⟩, ⟨true, false, 33, 2⟩] else [Block.invalid, Block.invalid] := by
  by_cases h : j = 0
  · subst h; rfl
  · simp [CacheLevel.ways, filled, sparseGet, small, h, Ne.symm h]

theorem mem_filled {wt wa dirty : Bool} {j k : Nat} {b : Block} (h : ((filled wt wa dirty).ways j)[k]? = some b) :
    (j = 0 ∧ k = 0 ∧ b = ⟨true, dirty, 32, 1⟩) ∨ (j = 0 ∧ k = 1 ∧ b = ⟨true, false, 33, 2⟩) ∨ b = Block.invalid := by
  rw [ways_filled] at h
  by_cases hj : j = 0
  · subst hj
    rcases k with _ | _ | k <;> simp at h <;> subst h <;> simp
  · rcases k with _ | _ | k <;> simp [hj] at h <;> subst h <;> simp

theorem filled_ok {wt wa dirty : Bool} (hd : wt = true → dirty = false) : (filled wt wa dirty).Ok := by
  refine ⟨?_, ?_, ?_, ?_, ?_, ?_, rfl, by simp [filled]⟩
  · cases wt <;> cases wa <;> cases dirty <;> decide
  · cases wt <;> cases wa <;> cases dirty <;> decide
  · intro j k b h hv
    rcases mem_filled h with ⟨-, -, rfl⟩ | ⟨-, -, rfl⟩ | rfl
    · refine ⟨by simp [filled], ?_⟩
      cases wt <;> cases wa <;> cases dirty <;> decide
    · refine ⟨by simp [filled], ?_⟩
      cases wt <;> cases wa <;> cases dirty <;> decide
    · cases hv
  · intro j k b h hw
    rcases mem_filled h with ⟨-, -, rfl⟩ | ⟨-, -, rfl⟩ | rfl
    · exact hd hw
    · rfl
    · rfl
  · intro j k k' b b' h h' hv hv' ht
    rcases mem_filled h with ⟨-, rfl, rfl⟩ | ⟨-, rfl, rfl⟩ | rfl <;>
      rcases mem_filled h' with ⟨-, rfl, rfl⟩ | ⟨-, rfl, rfl⟩ | rfl <;> simp_all [Block.invalid]
  · intro j j' k k' b b' h h' hv hv' hc
    rcases mem_filled h with ⟨rfl, rfl, rfl⟩ | ⟨rfl, rfl, rfl⟩ | rfl <;>
      rcases mem_filled h' with ⟨rfl, rfl, rfl⟩ | ⟨rfl, rfl, rfl⟩ | rfl <;> simp_all [Block.invalid]

theorem small_ok (wt wa : Bool) : (small wt wa).Ok := by cases wt <;> cases wa <;> decide

/-- The cases of R76: a hit, a miss with and without a dirty victim, for each write policy. -/
theorem witness_LatencyAndRequestsByCase :
    ((filled false true true).Ok ∧ (small false true).Ok ∧ (filled true true false).Ok ∧ (filled false false false).Ok) ∧
    (indexOf (small false true) 0x1080 = 0 ∧ tagOf (small false true) 0x1080 = 33 ∧ tagOf (small false true) 0x1100 = 34) ∧
    (((filled false true true).ways 0)[1]? = some ⟨true, false, 33, 2⟩) ∧
    ((∀ b ∈ (filled false true true).ways 0, b.valid = true) ∧ ⟨true, true, 32, 1⟩ ∈ (filled false true true).ways 0 ∧
      ∀ b ∈ (filled false true true).ways 0, 1 ≤ b.ctr) ∧
    (∀ v ∈ (filled false true false).ways 0, v.dirty = false) :=
  ⟨⟨filled_ok (by simp), small_ok _ _, filled_ok (by simp), filled_ok (by simp)⟩, by decide, by decide, by decide, by decide⟩

theorem witness_RequestChangesOneWay :
    (filled false true true).Ok ∧ (filled false true true).cfg.Ok ∧
    ((filled false true true).ways (indexOf (small false true) 0x1080))[1]? = some ⟨true, false, 33, 2⟩ ∧
    (∀ b ∈ (filled false true true).ways (indexOf (small false true) 0x1100),
      ¬ (b.valid = true ∧ b.tag = tagOf (small false true) 0x1100)) ∧ (0 : Nat) ≠ 1 :=
  ⟨filled_ok (by simp), small_ok _ _, by decide, by decide, by decide⟩

/-! ### Launch and invariants -/

theorem witness_LaunchState : Launch.default.Ok ∧ (1 : Reg) ≠ 0 ∧ (1 : Reg) ≠ 2 ∧
    Launch.default.levels = [.defaultL1, .defaultL2, .defaultL3] ∧ Launch.default.backing = .default := by decide

theorem witness_LaunchMeetsTheInvariant : Launch.default.Ok ∧ Launch.default.entryPc.toNat % 2 = 0 := by decide

/-- A state in the middle of a run: NOPs in slots E and D and in memory, a record in W. -/
def running : State :=
  { transferring 0x00000013 [] with
    slotD := some { code := 0x00000013, pc := 0x10004 }
    slotM := some { code := 0x00000013, pc := 0xFFFC, op := .addi 0 0 0, rd := 0, writes := true, wb := 0, addr := 0 }
    pc := 0x10008
    levels := [filled false true true] }

theorem running_next : (nextOf (step running)).map State.stopped = some false := by decide

theorem running_memory : running.MemoryOk := by
  show running.mem.wf
  decide

theorem running_registers : running.RegistersOk := by
  show running.regs[0] = 0 ∧ running.heapPtr.toNat % pageSize = 0
  decide

theorem running_slots : running.SlotsOk := by
  refine ⟨fun r h => ?_, fun r h => ?_, fun r h => ?_⟩
  · have hr : running.slotE = some (Record.decoded { code := 0x00000013, pc := 0x10000 } (.addi 0 0 0)) := by decide
    rw [hr] at h
    cases h
    exact ⟨by decide, rfl⟩
  · cases h
    exact ⟨by decide, .inl ⟨rfl, rfl⟩⟩
  · cases h

theorem running_path : running.PathOk := by
  have hr : running.slotE = some (Record.decoded { code := 0x00000013, pc := 0x10000 } (.addi 0 0 0)) := by decide
  refine ⟨fun f h => ?_, fun r f h h' => ?_, fun r h h' => ?_⟩
  · cases h
    decide
  · rw [hr] at h
    cases h
    cases h'
    decide
  · cases h'

theorem running_even : running.EvenOk := by
  have hr : running.slotE = some (Record.decoded { code := 0x00000013, pc := 0x10000 } (.addi 0 0 0)) := by decide
  refine ⟨by decide, fun f h => ?_, fun r h => ?_⟩
  · cases h
    decide
  · rw [hr] at h
    cases h
    decide

theorem running_levels : running.LevelsOk := by
  intro l h
  have : l = filled false true true := by simpa [running] using h
  subst this
  exact filled_ok (by simp)

theorem witness_StepKeepsMemoryCanonical : running.MemoryOk ∧ (nextOf (step running)).isSome = true :=
  ⟨running_memory, by decide⟩

theorem witness_StepKeepsRegisterInvariants :
    running.RegistersOk ∧ (nextOf (step running)).isSome = true ∧ running.slotE.map Record.op = some (.addi 0 0 0) ∧
    Launch.default.Ok := ⟨running_registers, by decide, by decide, by decide⟩

theorem witness_StepKeepsThePipelineInPathOrder :
    running.SlotsOk ∧ running.PathOk ∧ running.EvenOk ∧ (nextOf (step running)).isSome = true :=
  ⟨running_slots, running_path, running_even, by decide⟩

theorem witness_StepKeepsTheCacheInvariants : running.LevelsOk ∧ (nextOf (step running)).isSome = true :=
  ⟨running_levels, by decide⟩

theorem witness_Inv : running.Inv :=
  ⟨running_memory, running_registers, running_slots, running_path, running_even, running_levels⟩

/-- With a record in slot E, and with slot E empty. -/
theorem witness_StepRefinesTheInterpreter :
    running.SlotsOk ∧ running.PathOk ∧ (nextOf (step running)).map State.stopped = some false ∧
    running.slotE.isSome = true ∧ (nextOf (step program)).map State.stopped = some false ∧ program.slotE = none :=
  ⟨running_slots, running_path, by decide, by decide, by decide, by decide⟩

theorem witness_RunRefinesTheInterpreter :
    running.SlotsOk ∧ running.PathOk ∧
    (nextOf (Host.Core.run Sys2Proof.core 2 running)).map State.stopped = some false ∧
    executedPath 2 running = [.addi 0 0 0, .addi 0 0 0] :=
  ⟨running_slots, running_path, by decide, by decide⟩

/-- Two states that differ in their storage levels and in the latency counted. -/
theorem witness_CacheIsInvisible :
    running.ConfigOk ∧ ({ running with levels := [], counters := { running.counters with memDelayCycles := 7 } }).ConfigOk ∧
    running.eraseCache =
      ({ running with levels := [], counters := { running.counters with memDelayCycles := 7 } }).eraseCache := by
  exact ⟨by decide, by decide, rfl⟩

end Sys2Proof.Tests
end

section
/-! The launch state meets the invariant of the machine (spec/70_reset_and_hazards.md R391; R6, R14, R19, R23, R80). -/

namespace Sys2Proof.Machine

/-! ## The storage levels at launch -/

/-- Every way of every set holds a block at its launch value (R23). -/
theorem CacheLevel.eq_invalid_of_ways_launch {c : CacheConfig} {j k : Nat} {b : Block}
    (h : ((CacheLevel.launch c).ways j)[k]? = some b) : b = Block.invalid := by
  rw [CacheLevel.ways_launch] at h
  exact List.eq_of_mem_replicate (List.mem_of_getElem? h)

theorem CacheLevel.not_valid_of_ways_launch {c : CacheConfig} {j k : Nat} {b : Block}
    (h : ((CacheLevel.launch c).ways j)[k]? = some b) : ¬ b.valid = true := by
  simp [CacheLevel.eq_invalid_of_ways_launch h, Block.invalid]

theorem CacheLevel.launch_ok (c : CacheConfig) : (CacheLevel.launch c).Ok := by
  refine ⟨⟨.nil, ?_⟩, ?_, ?stamps, ?clean, ?tags, ?stampsDiffer, rfl, le_rfl⟩
  · exact fun _ he => absurd he List.not_mem_nil
  · exact fun _ he => absurd he List.not_mem_nil
  case stamps => exact fun j k b hb hv => absurd hv (not_valid_of_ways_launch hb)
  case clean => exact fun j k b hb _ => congrArg Block.dirty (eq_invalid_of_ways_launch hb)
  case tags => exact fun j k k' b b' hb _ hv => absurd hv (not_valid_of_ways_launch hb)
  case stampsDiffer => exact fun j j' k k' b b' hb _ hv => absurd hv (not_valid_of_ways_launch hb)

theorem launch_levelsOk (p : Launch) : (launch p).LevelsOk :=
  List.forall_mem_map.mpr fun c _ => CacheLevel.launch_ok c

/-! ## The slots and the fetch pointer at launch (R391) -/

@[simp] theorem launch_pc (p : Launch) : (launch p).pc = p.entryPc := rfl
@[simp] theorem launch_slotD (p : Launch) : (launch p).slotD = none := rfl
@[simp] theorem launch_slotE (p : Launch) : (launch p).slotE = none := rfl
@[simp] theorem launch_slotM (p : Launch) : (launch p).slotM = none := rfl
@[simp] theorem launch_slotW (p : Launch) : (launch p).slotW = none := rfl

/-! ## The parts of the invariant at launch -/

/-- The launch writes the stack top to x2, so the cell of x0 keeps its zero (R11, R391). -/
theorem launch_registersOk {p : Launch} (h : p.heapStart.toNat % pageSize = 0) : (launch p).RegistersOk :=
  ⟨by simp [launch], h⟩

theorem launch_slotsOk (p : Launch) : (launch p).SlotsOk := by
  simp [State.SlotsOk]

theorem launch_pathOk (p : Launch) : (launch p).PathOk := by
  simp [State.PathOk]

theorem launch_evenOk {p : Launch} (h : p.entryPc.toNat % 2 = 0) : (launch p).EvenOk := by
  simp [State.EvenOk, h]

theorem launch_inv {p : Launch} (hp : p.Ok) (heven : p.entryPc.toNat % 2 = 0) : (launch p).Inv := by
  obtain ⟨hheap, himage, -, -⟩ := hp
  exact {
    memory := himage
    registers := launch_registersOk hheap
    slots := launch_slotsOk p
    path := launch_pathOk p
    even := launch_evenOk heven
    levels := launch_levelsOk p }

theorem launch_configOk {p : Launch} (hp : p.Ok) : (launch p).ConfigOk := by
  obtain ⟨-, -, hlevels, hsysnum⟩ := hp
  exact ⟨List.forall_mem_map.mpr hlevels, hsysnum⟩

/-! ## The defaults of `State.reset` -/

theorem Launch.default_ok : Launch.default.Ok := by decide

theorem Launch.default_entryPc_even : Launch.default.entryPc.toNat % 2 = 0 := by decide

/-- Settles O52: each part of the invariant holds of every launch, the slots being empty and every block invalid, and
`State.reset` is the launch with the default parameters. -/
theorem launchMeetsTheInvariant : Obligations.LaunchMeetsTheInvariant :=
  ⟨fun _ hp heven => ⟨launch_inv hp heven, launch_configOk hp⟩,
    launch_inv Launch.default_ok Launch.default_entryPc_even,
    launch_configOk Launch.default_ok,
    Launch.default, Launch.default_ok, rfl, rfl, rfl, rfl, rfl⟩

end Sys2Proof.Machine
end

section
/-! What each stage of a cycle can do to the slots, the registers, the memory and the storage levels, said once, and that
what every stage keeps, a step keeps (spec/50_pipeline.md R320). -/

namespace Sys2Proof.Machine

/-! ## Decode and Fetch (R336, R340) -/

/-- What Decode can do: nothing, fill the record, or stop. -/
theorem decodeStage_cases (s : State) :
    decodeStage s = s ∨
    (∃ f i, s.slotD = some f ∧ decode s.cfg.hasM f.code = .instr i ∧
      decodeStage s = { s with slotE := some (Record.decoded f i), slotD := none }) ∨
    decodeStage s = s.raiseFatal .decodeFailure := by
  cases hD : s.slotD with
  | none => exact .inl (decodeStage_empty hD)
  | some f =>
    cases hd : decode s.cfg.hasM f.code with
    | instr i => exact .inr (.inl ⟨f, i, rfl, hd, decodeStage_instr hD hd⟩)
    | failure why => exact .inr (.inr (decodeStage_failure hD hd))

/-- A decoding that does not stop leaves slot D empty. -/
theorem decodeStage_slotD {s : State} (h : (decodeStage s).stopped = false) : (decodeStage s).slotD = none := by
  cases hD : s.slotD with
  | none => rw [decodeStage_empty hD, hD]
  | some f =>
    cases hd : decode s.cfg.hasM f.code with
    | instr i => rw [decodeStage_instr hD hd]
    | failure why =>
      rw [decodeStage_failure hD hd] at h
      simp [State.stopped] at h

/-- Decode changes neither registers, memory, storage levels nor the configuration. -/
theorem decodeStage_frame (s : State) :
    (decodeStage s).regs = s.regs ∧ (decodeStage s).heapPtr = s.heapPtr ∧ (decodeStage s).mem = s.mem ∧
    (decodeStage s).levels = s.levels ∧ (decodeStage s).cfg = s.cfg := by
  obtain h | ⟨f, i, -, -, h⟩ | h := decodeStage_cases s <;> rw [h] <;> exact ⟨rfl, rfl, rfl, rfl, rfl⟩

/-- Fetch changes neither registers, memory nor the configuration, and makes one Access. -/
theorem fetchStage_frame (s : State) :
    (fetchStage s).regs = s.regs ∧ (fetchStage s).heapPtr = s.heapPtr ∧ (fetchStage s).mem = s.mem ∧
    (fetchStage s).levels = (s.access s.pc 4 true).levels ∧ (fetchStage s).cfg = s.cfg := by
  obtain ⟨k, -, h⟩ | ⟨v, -, h⟩ := fetchStage_cases s <;> rw [h] <;> exact ⟨rfl, rfl, rfl, rfl, rfl⟩

/-! ## One step, stage by stage (R320) -/

/-- What every stage keeps, a step keeps. Fetch runs only where slot D is empty. -/
theorem step_keeps {P : State → Prop} {s t : State} (hstep : step s = .next t) (hs : P s)
    (hbefore : P (beforeExecute s))
    (hexec : ∀ e, execute (beforeExecute s) = .next e → P (beforeExecute s) → P e)
    (hdecode : ∀ u, P u → P (decodeStage u))
    (hfetch : ∀ u, u.slotD = none → P u → P (fetchStage u)) : P t := by
  obtain ⟨-, ⟨-, rfl⟩ | ⟨-, -, rfl⟩ | ⟨-, -, e, he, hfinish⟩⟩ := step_cases hstep
  · exact hs
  · exact hbefore
  · have hPe := hexec e he hbefore
    obtain ⟨-, rfl⟩ | ⟨-, -, rfl⟩ | ⟨-, hrun, rfl⟩ := hfinish
    · exact hPe
    · exact hdecode e hPe
    · exact hfetch _ (decodeStage_slotD hrun) (hdecode e hPe)

/-! ## WriteBack and AccessMemory (R322 to R326) -/

/-- What AccessMemory can do: at most one Access, and the record of slot M stays there or moves on to slot W, with a
loaded value perhaps. -/
structure AccessEffect (s t : State) : Prop where
  slotD : t.slotD = s.slotD
  slotE : t.slotE = s.slotE
  pc : t.pc = s.pc
  cfg : t.cfg = s.cfg
  regs : t.regs = s.regs
  heapPtr : t.heapPtr = s.heapPtr
  mem : s.mem.wf → t.mem.wf
  levels : t.levels = s.levels ∨ ∃ a n isRead, t.levels = (s.access a n isRead).levels
  record : (t.slotM = s.slotM ∧ t.slotW = s.slotW) ∨
    ∃ r x, s.slotM = some r ∧ t.slotM = none ∧ t.slotW = some { r with wb := x }

theorem accessMemory_effect (s : State) : AccessEffect s (accessMemory s) := by
  cases hM : s.slotM with
  | none =>
    rw [accessMemory_empty hM]
    exact ⟨rfl, rfl, rfl, rfl, rfl, rfl, id, .inl rfl, .inl ⟨rfl, rfl⟩⟩
  | some r =>
    cases hl : r.kind.isLoad with
    | true =>
      obtain ⟨k, -, ht⟩ | ⟨v, -, ht⟩ := accessMemory_load hM hl <;> rw [ht]
      · exact ⟨rfl, rfl, rfl, rfl, rfl, rfl, id, .inr ⟨_, _, _, rfl⟩, .inl ⟨rfl, rfl⟩⟩
      · exact ⟨rfl, rfl, rfl, rfl, rfl, rfl, id, .inr ⟨_, _, _, rfl⟩, .inr ⟨r, _, hM, rfl, rfl⟩⟩
    | false =>
      cases hs : r.kind.isStore with
      | true =>
        obtain ⟨k, -, ht⟩ | ⟨m, hm, ht⟩ := accessMemory_store hM hl hs <;> rw [ht]
        · exact ⟨rfl, rfl, rfl, rfl, rfl, rfl, id, .inr ⟨_, _, _, rfl⟩, .inl ⟨rfl, rfl⟩⟩
        · exact ⟨rfl, rfl, rfl, rfl, rfl, rfl, fun h => Memory.write_wf h hm, .inr ⟨_, _, _, rfl⟩,
            .inr ⟨r, r.wb, hM, rfl, rfl⟩⟩
      | false =>
        rw [accessMemory_other hM hl hs]
        exact ⟨rfl, rfl, rfl, rfl, rfl, rfl, id, .inl rfl, .inr ⟨r, r.wb, hM, rfl, rfl⟩⟩

/-- WriteBack never writes the cell of x0 (R11). -/
theorem writeBack_cell_zero (s : State) : (writeBack s).regs[0] = s.regs[0] := by
  cases hW : s.slotW with
  | none => rw [writeBack_empty hW]
  | some w =>
    rw [writeBack_holds hW]
    cases w.writes with
    | false => rfl
    | true => exact s.setReg_cell_zero w.rd w.wb

/-- The storage levels after an Access depend on the storage levels before it alone. -/
theorem State.access_levels_congr {s u : State} (hl : u.levels = s.levels) (hb : u.backing = s.backing) (a : Word)
    (n : Nat) (isRead : Bool) : (u.access a n isRead).levels = (s.access a n isRead).levels := by
  simp only [State.access, hl, hb]

/-- What the stages before Execute can do (R320). -/
structure BeforeEffect (s t : State) : Prop where
  slotD : t.slotD = s.slotD
  slotE : t.slotE = s.slotE
  pc : t.pc = s.pc
  cfg : t.cfg = s.cfg
  cellZero : t.regs[0] = s.regs[0]
  heapPtr : t.heapPtr = s.heapPtr
  mem : s.mem.wf → t.mem.wf
  levels : t.levels = s.levels ∨ ∃ a n isRead, t.levels = (s.access a n isRead).levels
  record : (t.slotM = s.slotM ∧ t.slotW = none) ∨
    ∃ r x, s.slotM = some r ∧ t.slotM = none ∧ t.slotW = some { r with wb := x }

theorem beforeExecute_effect (s : State) : BeforeEffect s (beforeExecute s) := by
  obtain ⟨wpc, wheap, wD, wE, wM, -, -, wlevels, wbacking, wmem, wcfg, -⟩ := writeBack_frame s.tick
  have wcell := writeBack_cell_zero s.tick
  have wW := writeBack_slotW s.tick
  obtain ⟨hD, hE, hpc, hcfg, hregs, hheap, hmem, hlevels, hrecord⟩ := accessMemory_effect (writeBack s.tick)
  rw [wM, wW] at hrecord
  exact {
    slotD := hD.trans wD
    slotE := hE.trans wE
    pc := hpc.trans wpc
    cfg := hcfg.trans wcfg
    cellZero := (congrArg (·[0]) hregs).trans wcell
    heapPtr := hheap.trans wheap
    mem := fun h => hmem (wmem ▸ h)
    levels := hlevels.imp (·.trans wlevels) fun ⟨a, n, isRead, h⟩ =>
      ⟨a, n, isRead, h.trans (State.access_levels_congr wlevels wbacking a n isRead)⟩
    record := hrecord }

/-! ## The services of ECALL (R225 to R238) -/

/-- What a service that answers a next state does to the slots, the memory and the heap pointer: the record stays in slot
E, or moves on, as a write of a7 where the service has a result (R223, R335). -/
structure ServiceEffect (v : Service) (s : State) (r : Record) (arg : Word) (t : State) : Prop where
  slotD : t.slotD = s.slotD
  pc : t.pc = s.pc
  record : (t.slotE = s.slotE ∧ t.slotM = s.slotM) ∨
    (t.slotE = none ∧ (t.slotM = some r ∨ ∃ x, t.slotM = some { r with rd := 17, writes := true, wb := x }))
  mem : s.mem.wf → t.mem.wf
  heapPtr : t.heapPtr = s.heapPtr ∨ (v = .heapAllocate ∧ t.heapPtr = s.heapPtr + roundToPages arg)

/-- A service that only tells the host something. -/
theorem serviceEffect_emit (v : Service) (s : State) (r : Record) (arg : Word) (e : HostEvent) :
    ServiceEffect v s r arg ((s.emit e).toMemory r) :=
  ⟨rfl, rfl, .inr ⟨rfl, .inl rfl⟩, id, .inl rfl⟩

theorem serviceEffect_readWord (v : Service) (s : State) (r : Record) (arg : Word) :
    ServiceEffect v s r arg (serviceReadWord s r) :=
  ⟨rfl, rfl, .inr ⟨rfl, .inr ⟨_, rfl⟩⟩, id, .inl rfl⟩

theorem serviceEffect_printString {v : Service} {s t : State} {r : Record} {arg : Word}
    (ht : servicePrintString s r arg = .next t) : ServiceEffect v s r arg t := by
  unfold servicePrintString at ht
  split at ht <;> cases ht
  · exact serviceEffect_emit v s r arg _
  · exact ⟨rfl, rfl, .inl ⟨rfl, rfl⟩, id, .inl rfl⟩

theorem serviceEffect_heapAllocate (s : State) (r : Record) (arg : Word) :
    ServiceEffect .heapAllocate s r arg (serviceHeapAllocate s r arg) := by
  have hwf := allocatePages_wf (m := s.mem) ((roundToPages arg).toNat / pageSize)
  unfold serviceHeapAllocate
  dsimp only
  split
  · rename_i m k hm
    exact ⟨rfl, rfl, .inl ⟨rfl, rfl⟩, fun h => by simpa [hm] using hwf h s.heapPtr, .inl rfl⟩
  · rename_i m hm
    exact ⟨rfl, rfl, .inr ⟨rfl, .inr ⟨_, rfl⟩⟩, fun h => by simpa [hm] using hwf h s.heapPtr, .inr ⟨rfl, rfl⟩⟩

theorem performService_effect {v : Service} {s t : State} {r : Record} {arg : Word}
    (ht : performService v s r arg = .next t) : ServiceEffect v s r arg t := by
  cases v with
  | printString => exact serviceEffect_printString ht
  | heapAllocate => cases ht; exact serviceEffect_heapAllocate s r arg
  | exit => cases ht; exact ⟨rfl, rfl, .inl ⟨rfl, rfl⟩, id, .inl rfl⟩
  | readString =>
    cases ht
    exact ⟨rfl, rfl, .inr ⟨rfl, .inl rfl⟩, fun h => Memory.putString_wf _ h arg, .inl rfl⟩
  | printChar | printInt | printLong | seedRandom => cases ht; exact serviceEffect_emit _ s r arg _
  | readChar | readInt | readLong | random | wallClockTime => cases ht; exact serviceEffect_readWord _ s r arg

/-! ## Execute (R331) -/

theorem execute_empty {s : State} (h : s.slotE = none) : execute s = .next s := by simp [execute, h]

theorem execute_holds {s : State} {r : Record} (h : s.slotE = some r) : execute s = exec r.op s := by
  simp [execute, h]

/-- A service is found by its number (R221). -/
theorem num_of_serviceOf {t : SysNum} {num : Word} {v : Service} (h : serviceOf t num = some v) : t.num v = num := by
  have hfound := List.find?_some h
  exact beq_iff_eq.1 hfound

/-- The next ECALL of the state is HEAP_ALLOCATE (R221, R236). -/
def State.CallsHeapAllocate (s : State) : Prop :=
  (∃ r, s.Holds .ecall r) ∧ s.fwd 17 = s.cfg.sysnum.heapAllocate

/-- What Execute has made of a record by the time it stands in slot M (R15, R223). -/
def Record.HandedOnAs (r r' : Record) : Prop :=
  r'.code = r.code ∧ r'.op = r.op ∧
  ((r'.rd = r.rd ∧ r'.writes = r.writes) ∨ (r.op = .ecall ∧ r'.rd = 17 ∧ r'.writes = true))

/-- What Execute can do to the slots, the fetch pointer, the memory and the heap pointer, whatever slot E holds. -/
structure ExecuteEffect (s t : State) : Prop where
  /-- slot D and the fetch pointer stay, or a taken transfer redirects (R333) -/
  path : (t.slotD = s.slotD ∧ t.pc = s.pc ∧ (t.slotE = s.slotE ∨ t.slotE = none)) ∨
    ∃ r, s.slotE = some r ∧ s.Takes r ∧ t.slotD = none ∧ t.pc = s.targetOf r ∧ t.slotE = none
  /-- the record stays, or moves on to slot M (R334) -/
  record : (t.slotE = s.slotE ∧ t.slotM = s.slotM) ∨
    ∃ r r', s.slotE = some r ∧ r.HandedOnAs r' ∧ t.slotE = none ∧ t.slotM = some r'
  regs : t.regs = s.regs
  slotW : t.slotW = s.slotW
  levels : t.levels = s.levels
  cfg : t.cfg = s.cfg
  mem : s.mem.wf → t.mem.wf
  heapPtr : t.heapPtr = s.heapPtr ∨
    (s.CallsHeapAllocate ∧ t.heapPtr = s.heapPtr + roundToPages (s.fwd 10))

theorem execEcall_effect {s t : State} {r : Record} (hE : s.slotE = some r) (hop : r.op = .ecall)
    (ht : execEcall s = .next t) : ExecuteEffect s t := by
  obtain ⟨hregs, hW, hlevels, -, hcfg, -⟩ := exec_frame (i := .ecall) hE ht
  rw [execEcall_holds hE] at ht
  split at ht
  · cases ht
    exact ⟨.inl ⟨by simp, by simp, .inl (by simp)⟩, .inl (by simp), hregs, hW, hlevels, hcfg, by simp, .inl (by simp)⟩
  · rename_i v hv
    obtain ⟨hD, hpc, hrecord, hmem, hheap⟩ := performService_effect ht
    simp only [State.detectLoadUse_slotD, State.detectLoadUse_pc, State.detectLoadUse_slotE,
      State.detectLoadUse_slotM, State.detectLoadUse_mem, State.detectLoadUse_heapPtr] at hD hpc hrecord hmem hheap
    refine ⟨.inl ⟨hD, hpc, hrecord.imp And.left And.left⟩, hrecord.imp id ?_, hregs, hW, hlevels, hcfg, hmem,
      hheap.imp id ?_⟩
    · rintro ⟨hE', hM | ⟨x, hM⟩⟩
      · exact ⟨r, r, hE, ⟨rfl, rfl, .inl ⟨rfl, rfl⟩⟩, hE', hM⟩
      · exact ⟨r, { r with rd := 17, writes := true, wb := x }, hE, ⟨rfl, rfl, .inr ⟨hop, rfl, rfl⟩⟩, hE', hM⟩
    · rintro ⟨rfl, hh⟩
      exact ⟨⟨⟨r, hE, hop⟩, (num_of_serviceOf hv).symm⟩, hh⟩

/-- A record that has been handed on stands in slot M; the memory and the heap pointer are as they were (R334). -/
theorem HandsOn.record {s t : State} {r : Record} (h : HandsOn s r (.next t)) :
    t.slotE = none ∧ (∃ r', t.slotM = some r' ∧ r.HandedOnAs r') ∧ t.mem = s.mem ∧ t.heapPtr = s.heapPtr := by
  obtain ⟨r', reads, hcode, -, hop, hrd, hwrites, hnext⟩ := h
  have hr' : r.HandedOnAs r' := ⟨hcode, hop, .inl ⟨hrd, hwrites⟩⟩
  obtain hnext | ⟨target, hnext⟩ := hnext <;> cases hnext <;> exact ⟨rfl, ⟨r', rfl, hr'⟩, rfl, rfl⟩

theorem Redirects.path {s t : State} {r : Record} (h : Redirects s r (.next t)) :
    (t.slotD = s.slotD ∧ t.pc = s.pc) ∨ (s.Takes r ∧ t.slotD = none ∧ t.pc = s.targetOf r) := by
  obtain ⟨r', reads, -, ⟨htakes, hnext⟩ | ⟨-, hnext⟩⟩ := h <;> cases hnext
  · exact .inr ⟨htakes, rfl, rfl⟩
  · exact .inl ⟨rfl, rfl⟩

theorem exec_effect {s t : State} {r : Record} (hE : s.slotE = some r) (hop : r.op ≠ .ecall)
    (ht : exec r.op s = .next t) : ExecuteEffect s t := by
  obtain ⟨hregs, hW, hlevels, -, hcfg, -⟩ := exec_frame hE ht
  have hands : HandsOn s r (.next t) := ht ▸ exec_handsOn r.op hop hE
  have redirects : Redirects s r (.next t) := ht ▸ exec_redirects r.op hop hE rfl
  obtain ⟨hE', ⟨r', hM, hr'⟩, hmem, hheap⟩ := hands.record
  refine ⟨?path, .inr ⟨r, r', hE, hr', hE', hM⟩, hregs, hW, hlevels, hcfg, fun h => hmem ▸ h, .inl hheap⟩
  obtain ⟨hD, hpc⟩ | ⟨htakes, hD, hpc⟩ := redirects.path
  · exact .inl ⟨hD, hpc, .inr hE'⟩
  · exact .inr ⟨r, hE, htakes, hD, hpc, hE'⟩

theorem execute_effect {s t : State} (ht : execute s = .next t) : ExecuteEffect s t := by
  cases hE : s.slotE with
  | none =>
    rw [execute_empty hE] at ht
    cases ht
    exact ⟨.inl ⟨rfl, rfl, .inl rfl⟩, .inl ⟨rfl, rfl⟩, rfl, rfl, rfl, rfl, id, .inl rfl⟩
  | some r =>
    rw [execute_holds hE] at ht
    by_cases hop : r.op = .ecall
    · exact execEcall_effect hE hop (by rwa [hop] at ht)
    · exact exec_effect hE hop ht

end Sys2Proof.Machine
end

section
/-! Register x0, the heap pointer and the memory's canonical form under a step (spec/10_state.md R11, R14, R26). -/

namespace Sys2Proof.Machine

/-- Settles O34: each of the three operations asks for index 0 first. -/
theorem registerZero : Obligations.RegisterZero := by
  intro s v
  exact ⟨if_pos rfl, if_pos rfl, if_pos rfl⟩

/-! ## The memory (R26, R44, R45, R234, R236) -/

/-- Settles O53: a store, a READ_STRING and a HEAP_ALLOCATE keep the canonical form, and nothing else changes the
memory. -/
theorem stepKeepsMemoryCanonical : Obligations.StepKeepsMemoryCanonical := by
  intro s t hs hstep
  refine step_keeps (P := State.MemoryOk) hstep hs ?before ?exec ?decode ?fetch
  case before => exact (beforeExecute_effect s).mem hs
  case exec => exact fun e he hb => (execute_effect he).mem hb
  case decode =>
    intro u hu
    obtain ⟨-, -, hmem, -⟩ := decodeStage_frame u
    exact (congrArg Memory.wf hmem).mpr hu
  case fetch =>
    intro u _ hu
    obtain ⟨-, -, hmem, -⟩ := fetchStage_frame u
    exact (congrArg Memory.wf hmem).mpr hu

/-! ## The heap pointer (R14, R236) -/

/-- Rounding up to whole pages gives a multiple of the page size. -/
theorem roundToPages_aligned (v : Word) : (roundToPages v).toNat % pageSize = 0 := by
  have hlow : (roundToPages v).setWidth 12 = 0#12 := by
    simp only [roundToPages, pageSize]
    ext i hi
    simp
  have := congrArg BitVec.toNat hlow
  simpa [BitVec.toNat_setWidth, pageSize] using this

theorem aligned_add {a b : Word} (ha : a.toNat % pageSize = 0) (hb : b.toNat % pageSize = 0) :
    (a + b).toNat % pageSize = 0 := by
  rw [BitVec.toNat_add]
  unfold pageSize at *
  omega

/-- Execute keeps the heap pointer a multiple of the page size, and the cell of x0. -/
theorem execute_registersOk {s t : State} (ht : execute s = .next t) (hs : s.RegistersOk) : t.RegistersOk := by
  obtain ⟨hzero, haligned⟩ := hs
  refine ⟨(congrArg (·[0]) (execute_effect ht).regs).trans hzero, ?_⟩
  obtain hheap | ⟨-, hheap⟩ := (execute_effect ht).heapPtr <;> rw [hheap]
  · exact haligned
  · exact aligned_add haligned (roundToPages_aligned _)

theorem State.RegistersOk.congr {s t : State} (hs : s.RegistersOk) (hcell : t.regs[0] = s.regs[0])
    (hheap : t.heapPtr = s.heapPtr) : t.RegistersOk :=
  ⟨hcell.trans hs.1, (congrArg (·.toNat % pageSize) hheap).trans hs.2⟩

theorem step_registersOk {s t : State} (hs : s.RegistersOk) (hstep : step s = .next t) : t.RegistersOk := by
  refine step_keeps (P := State.RegistersOk) hstep hs ?before ?exec ?decode ?fetch
  case before => exact hs.congr (beforeExecute_effect s).cellZero (beforeExecute_effect s).heapPtr
  case exec => exact fun e he hb => execute_registersOk he hb
  case decode =>
    intro u hu
    obtain ⟨hregs, hheap, -⟩ := decodeStage_frame u
    exact hu.congr (congrArg (·[0]) hregs) hheap
  case fetch =>
    intro u _ hu
    obtain ⟨hregs, hheap, -⟩ := fetchStage_frame u
    exact hu.congr (congrArg (·[0]) hregs) hheap

/-- Only an ECALL with the number of HEAP_ALLOCATE changes the heap pointer (R14). -/
theorem step_heapPtr {s t : State} (hstep : step s = .next t) (hcall : ¬ (beforeExecute s).CallsHeapAllocate) :
    t.heapPtr = s.heapPtr := by
  refine step_keeps (P := fun u => u.heapPtr = s.heapPtr) hstep rfl ?before ?exec ?decode ?fetch
  case before => exact (beforeExecute_effect s).heapPtr
  case exec =>
    intro e he hb
    obtain hheap | ⟨hcall', -⟩ := (execute_effect he).heapPtr
    · exact hheap.trans hb
    · exact absurd hcall' hcall
  case decode =>
    intro u hu
    obtain ⟨-, hheap, -⟩ := decodeStage_frame u
    exact hheap.trans hu
  case fetch =>
    intro u _ hu
    obtain ⟨-, hheap, -⟩ := fetchStage_frame u
    exact hheap.trans hu

end Sys2Proof.Machine
end

section
/-! What the decoder gives of the length and of the immediates of jumps and branches: what the order of the slots and the
evenness of addresses rest on (spec/30_encoding.md R91, R94, R112; spec/41_rv64i_control.md R180). -/

namespace Sys2Proof

/-- A word is even where its lowest bit is clear. -/
theorem even_of_lowBit {n : Nat} {b : BitVec n} (h : b.getLsbD 0 = false) : b.toNat % 2 = 0 := by
  rw [← BitVec.testBit_toNat, Nat.testBit_zero] at h
  simpa using h

/-- An immediate assembled above a zero bit is even after sign extension. -/
theorem sext_append_zero_even {n : Nat} (hi : BitVec n) : (sext (hi ++ 0#1)).toNat % 2 = 0 :=
  even_of_lowBit (by rw [sext, BitVec.getLsbD_signExtend, BitVec.getLsbD_append]; simp)

/-- The instruction adds its immediate to its address: JAL and the conditional branches, the compressed ones too. -/
def Instr.isRelative (i : Instr) : Bool := i.kind == .jal || i.kind.isBranch

/-- The answer, if it is an instruction, has this length, and an even immediate where it is added to the address. -/
def DecodeResult.Fits (len : Nat) : DecodeResult → Prop
  | .instr i => i.len = len ∧ (i.isRelative = true → i.imm.toNat % 2 = 0)
  | .failure _ => True

theorem fits_failure (len : Nat) (why : DecodeReject) : (DecodeResult.failure why).Fits len := trivial

theorem fits_sequential {len : Nat} {i : Instr} (hlen : i.len = len) (h : i.isRelative = false) :
    (DecodeResult.instr i).Fits len :=
  ⟨hlen, fun hr => Bool.noConfusion (h.symm.trans hr)⟩

theorem fits_relative {len : Nat} {i : Instr} (hlen : i.len = len) (h : i.imm.toNat % 2 = 0) :
    (DecodeResult.instr i).Fits len :=
  ⟨hlen, fun _ => h⟩

/-! ## The 32-bit formats -/

theorem decodeBranch_fits (code : BitVec 32) : (decodeBranch code).Fits 4 := by
  have himm : (sext (immBOf code)).toNat % 2 = 0 := sext_append_zero_even _
  unfold decodeBranch
  split
  case h_7 => exact fits_failure _ _
  all_goals exact fits_relative rfl himm

theorem decodeLoad_fits (code : BitVec 32) : (decodeLoad code).Fits 4 := by
  unfold decodeLoad
  split
  case h_8 => exact fits_failure _ _
  all_goals exact fits_sequential rfl rfl

theorem decodeStore_fits (code : BitVec 32) : (decodeStore code).Fits 4 := by
  unfold decodeStore
  split
  case h_5 => exact fits_failure _ _
  all_goals exact fits_sequential rfl rfl

/-- A branch of the decoder that answers an instruction under a test of other fields. -/
theorem fits_ite {len : Nat} {c : Prop} [Decidable c] {a b : DecodeResult} (ha : a.Fits len) (hb : b.Fits len) :
    (if c then a else b).Fits len := by
  split
  · exact ha
  · exact hb

theorem decodeOpImm_fits (code : BitVec 32) : (decodeOpImm code).Fits 4 := by
  unfold decodeOpImm
  split
  case h_7 => exact fits_ite (fits_sequential rfl rfl) (fits_failure _ _)
  case h_8 =>
    exact fits_ite (fits_sequential rfl rfl) (fits_ite (fits_sequential rfl rfl) (fits_failure _ _))
  all_goals exact fits_sequential rfl rfl

theorem decodeOpImm32_fits (code : BitVec 32) : (decodeOpImm32 code).Fits 4 := by
  unfold decodeOpImm32
  split
  case h_1 => exact fits_sequential rfl rfl
  case h_2 => exact fits_ite (fits_sequential rfl rfl) (fits_failure _ _)
  case h_3 =>
    exact fits_ite (fits_sequential rfl rfl) (fits_ite (fits_sequential rfl rfl) (fits_failure _ _))
  case h_4 => exact fits_failure _ _

theorem decodeOp_fits (hasM : Bool) (code : BitVec 32) : (decodeOp hasM code).Fits 4 := by
  unfold decodeOp
  refine fits_ite ?base (fits_ite ?alternate (fits_ite (fits_ite ?multiply (fits_failure _ _)) (fits_failure _ _)))
  case base => split <;> exact fits_sequential rfl rfl
  case alternate =>
    split
    case h_3 => exact fits_failure _ _
    all_goals exact fits_sequential rfl rfl
  case multiply => split <;> exact fits_sequential rfl rfl

theorem decodeOp32_fits (hasM : Bool) (code : BitVec 32) : (decodeOp32 hasM code).Fits 4 := by
  unfold decodeOp32
  refine fits_ite ?base (fits_ite ?alternate (fits_ite (fits_ite ?multiply (fits_failure _ _)) (fits_failure _ _)))
  case base =>
    split
    case h_4 => exact fits_failure _ _
    all_goals exact fits_sequential rfl rfl
  case alternate =>
    split
    case h_3 => exact fits_failure _ _
    all_goals exact fits_sequential rfl rfl
  case multiply =>
    split
    case h_6 => exact fits_failure _ _
    all_goals exact fits_sequential rfl rfl

theorem decode32_fits (hasM : Bool) (code : BitVec 32) : (decode32 hasM code).Fits 4 := by
  have hjal : (sext (immJOf code)).toNat % 2 = 0 := sext_append_zero_even _
  unfold decode32
  exact fits_ite (fits_sequential rfl rfl) <| fits_ite (fits_sequential rfl rfl) <|
    fits_ite (fits_relative rfl hjal) <|
    fits_ite (fits_ite (fits_sequential rfl rfl) (fits_failure _ _)) <|
    fits_ite (decodeBranch_fits code) <| fits_ite (decodeLoad_fits code) <| fits_ite (decodeStore_fits code) <|
    fits_ite (decodeOpImm_fits code) <| fits_ite (decodeOpImm32_fits code) <| fits_ite (decodeOp_fits hasM code) <|
    fits_ite (decodeOp32_fits hasM code) <|
    fits_ite (fits_ite (fits_sequential rfl rfl) (fits_failure _ _)) (fits_failure _ _)

/-! ## The compressed formats -/

theorem decodeQ0_fits (c : BitVec 16) : (decodeQ0 c).Fits 2 := by
  unfold decodeQ0
  split
  case h_1 => exact fits_ite (fits_failure _ _) (fits_sequential rfl rfl)
  case h_6 | h_7 => exact fits_failure _ _
  all_goals exact fits_sequential rfl rfl

theorem decodeQ1Arith_fits (c : BitVec 16) : (decodeQ1Arith c).Fits 2 := by
  unfold decodeQ1Arith
  split
  case h_4 =>
    refine fits_ite ?_ ?_
    · split <;> exact fits_sequential rfl rfl
    · split
      case h_3 => exact fits_failure _ _
      all_goals exact fits_sequential rfl rfl
  all_goals exact fits_sequential rfl rfl

theorem decodeQ1_fits (c : BitVec 16) : (decodeQ1 c).Fits 2 := by
  have hjump : (sext (cImmJOf c)).toNat % 2 = 0 := sext_append_zero_even _
  have hbranch : (sext (cImmBOf c)).toNat % 2 = 0 := sext_append_zero_even _
  unfold decodeQ1
  split
  case h_1 => exact fits_ite (fits_sequential rfl rfl) (fits_sequential rfl rfl)
  case h_2 => exact fits_ite (fits_failure _ _) (fits_sequential rfl rfl)
  case h_3 => exact fits_sequential rfl rfl
  case h_4 => exact fits_ite (fits_failure _ _) (fits_ite (fits_sequential rfl rfl) (fits_sequential rfl rfl))
  case h_5 => exact decodeQ1Arith_fits c
  case h_6 => exact fits_relative rfl hjump
  case h_7 | h_8 => exact fits_relative rfl hbranch

theorem decodeQ2_fits (c : BitVec 16) : (decodeQ2 c).Fits 2 := by
  unfold decodeQ2
  split
  case h_2 | h_3 => exact fits_ite (fits_failure _ _) (fits_sequential rfl rfl)
  case h_4 =>
    exact fits_ite
      (fits_ite (fits_ite (fits_failure _ _) (fits_sequential rfl rfl)) (fits_sequential rfl rfl))
      (fits_ite (fits_ite (fits_failure _ _) (fits_sequential rfl rfl)) (fits_sequential rfl rfl))
  case h_7 => exact fits_failure _ _
  all_goals exact fits_sequential rfl rfl

theorem decode16_fits (c : BitVec 16) : (decode16 c).Fits 2 :=
  fits_ite (decodeQ0_fits c) (fits_ite (decodeQ1_fits c) (fits_ite (decodeQ2_fits c) (fits_failure _ _)))

/-! ## The decoder -/

theorem decode_fits (hasM : Bool) (code : BitVec 32) : (decode hasM code).Fits (codeLen code) := by
  unfold decode codeLen
  split
  · exact decode32_fits hasM code
  · exact decode16_fits _

/-- The length Fetch gives a word is the length of the instruction it decodes to (R91). -/
theorem decode_len {hasM : Bool} {code : BitVec 32} {i : Instr} (h : decode hasM code = .instr i) :
    i.len = codeLen code := by
  have := decode_fits hasM code
  rw [h] at this
  exact this.1

/-- Jumps and branches have even immediates (R94, R112). -/
theorem decode_imm_even {hasM : Bool} {code : BitVec 32} {i : Instr} (h : decode hasM code = .instr i)
    (hi : i.isRelative = true) : i.imm.toNat % 2 = 0 := by
  have := decode_fits hasM code
  rw [h] at this
  exact this.2 hi

end Sys2Proof
end

section
/-! The slots, the path and the evenness of addresses under each stage, and under a step (spec/10_state.md R13, R18, R19;
spec/41_rv64i_control.md R180; spec/50_pipeline.md R341). -/

namespace Sys2Proof.Machine

/-! ## What is asked of the content of a slot -/

/-- Nothing is asked of an empty slot. -/
theorem slot_of_empty {α : Type} {P : α → Prop} {slot : Option α} (h : slot = none) : ∀ a, slot = some a → P a :=
  fun _ ha => nomatch h.symm.trans ha

theorem slot_of_full {α : Type} {P : α → Prop} {slot : Option α} {b : α} (h : slot = some b) (hb : P b) :
    ∀ a, slot = some a → P a :=
  fun _ ha => Option.some.inj (h.symm.trans ha) ▸ hb

/-! ## The slots (R18) -/

theorem Record.Fresh.handedOn {hasM : Bool} {r r' : Record} (h : r.Fresh hasM) (hr : r.HandedOnAs r') :
    r'.Executed hasM := by
  obtain ⟨hdecode, hdecoded⟩ := h
  obtain ⟨hcode, hop, hdest⟩ := hr
  have hrd : r.rd = r.op.rd := congrArg Record.rd hdecoded
  have hwrites : r.writes = r.op.writes := congrArg Record.writes hdecoded
  rw [Record.Executed, hcode, hop]
  exact ⟨hdecode, hdest.imp_left fun ⟨h1, h2⟩ => ⟨h1.trans hrd, h2.trans hwrites⟩⟩

theorem beforeExecute_slotsOk {s : State} (hs : s.SlotsOk) : (beforeExecute s).SlotsOk := by
  obtain ⟨hE, hM, -⟩ := hs
  have hb := beforeExecute_effect s
  rw [State.SlotsOk, hb.cfg, hb.slotE]
  obtain ⟨hM', hW'⟩ | ⟨r, x, hMr, hM', hW'⟩ := hb.record <;> rw [hM', hW']
  · exact ⟨hE, hM, slot_of_empty rfl⟩
  · exact ⟨hE, slot_of_empty rfl, slot_of_full rfl (hM r hMr)⟩

theorem execute_slotsOk {s t : State} (ht : execute s = .next t) (hs : s.SlotsOk) : t.SlotsOk := by
  obtain ⟨hE, hM, hW⟩ := hs
  have he := execute_effect ht
  rw [State.SlotsOk, he.cfg, he.slotW]
  obtain ⟨hE', hM'⟩ | ⟨r, r', hEr, hr', hE', hM'⟩ := he.record <;> rw [hE', hM']
  · exact ⟨hE, hM, hW⟩
  · exact ⟨slot_of_empty rfl, slot_of_full rfl ((hE r hEr).handedOn hr'), hW⟩

theorem decodeStage_slotsOk {s : State} (hs : s.SlotsOk) : (decodeStage s).SlotsOk := by
  obtain ⟨hE, hM, hW⟩ := hs
  obtain h | ⟨f, i, -, hd, h⟩ | h := decodeStage_cases s <;> rw [h]
  · exact ⟨hE, hM, hW⟩
  · exact ⟨slot_of_full rfl ⟨hd, rfl⟩, hM, hW⟩
  · exact ⟨hE, hM, hW⟩

theorem fetchStage_slotsOk {s : State} (hs : s.SlotsOk) : (fetchStage s).SlotsOk := by
  obtain ⟨k, -, h⟩ | ⟨v, -, h⟩ := fetchStage_cases s <;> rw [h] <;> exact hs

/-! ## The path (R19) -/

theorem beforeExecute_pathOk {s : State} (hs : s.PathOk) : (beforeExecute s).PathOk := by
  have hb := beforeExecute_effect s
  rwa [State.PathOk, hb.slotD, hb.slotE, hb.pc]

/-- Where slot E is empty, the path asks only that the fetch pointer stands behind slot D. -/
theorem pathOk_of_slotE_empty {s : State} (hE : s.slotE = none)
    (hD : ∀ f, s.slotD = some f → s.pc = f.pc + BitVec.ofNat 64 f.len) : s.PathOk := by
  rw [State.PathOk, hE]
  exact ⟨hD, fun r f hr => absurd hr.symm (Option.some_ne_none r), slot_of_empty rfl⟩

theorem execute_pathOk {s t : State} (ht : execute s = .next t) (hs : s.PathOk) : t.PathOk := by
  obtain ⟨hD, hpc, hE | hE⟩ | ⟨-, -, -, hD, -, hE⟩ := (execute_effect ht).path
  · rwa [State.PathOk, hD, hE, hpc]
  · exact pathOk_of_slotE_empty hE (by rw [hD, hpc]; exact hs.1)
  · exact pathOk_of_slotE_empty hE (slot_of_empty hD)

theorem decodeStage_pathOk {s : State} (hs : s.PathOk) : (decodeStage s).PathOk := by
  obtain h | ⟨f, i, hD, hd, h⟩ | h := decodeStage_cases s <;> rw [h]
  · exact hs
  · have hlen : (Record.decoded f i).len = f.len := decode_len hd
    exact ⟨slot_of_empty rfl, fun _ f' _ hf => absurd hf.symm (Option.some_ne_none f'),
      slot_of_full rfl fun _ => hlen ▸ hs.1 f hD⟩
  · exact hs

theorem fetchStage_pathOk {s : State} (hempty : s.slotD = none) (hs : s.PathOk) : (fetchStage s).PathOk := by
  obtain ⟨k, -, h⟩ | ⟨v, -, h⟩ := fetchStage_cases s <;> rw [h]
  · exact hs
  · obtain ⟨-, -, hE⟩ := hs
    exact ⟨slot_of_full rfl rfl,
      fun r f hr => slot_of_full (P := fun f => f.pc = r.pc + BitVec.ofNat 64 r.len) rfl (hE r hr hempty) f,
      fun r _ hf => absurd hf (Option.some_ne_none _)⟩

/-! ## The evenness of addresses (R13, R180) -/

theorem even_add {a b : Word} (ha : a.toNat % 2 = 0) (hb : b.toNat % 2 = 0) : (a + b).toNat % 2 = 0 := by
  rw [BitVec.toNat_add]
  omega

theorem codeLen_even (code : BitVec 32) : (BitVec.ofNat 64 (codeLen code)).toNat % 2 = 0 := by
  unfold codeLen
  split <;> rfl

/-- Only the conditional branches have a condition (R184). -/
theorem isBranch_of_kindCond {k : Kind} {a b : Word} {c : Bool} (h : kindCond k a b = some c) : k.isBranch = true := by
  cases k <;> simp_all [kindCond, Kind.isBranch]

/-- The target of a taken transfer is even: JALR clears the lowest bit, the others add an even immediate (R180, R183). -/
theorem targetOf_even {s : State} {r : Record} {hasM : Bool} (hr : r.Fresh hasM) (heven : r.pc.toNat % 2 = 0)
    (htakes : s.Takes r) : (s.targetOf r).toNat % 2 = 0 := by
  unfold State.targetOf
  split
  · exact even_of_lowBit (by simp)
  · rename_i hjalr
    refine even_add heven (decode_imm_even hr.1 ?_)
    obtain hjal | hjalr' | hcond := htakes
    · exact Bool.or_eq_true_iff.2 (.inl (beq_iff_eq.2 hjal))
    · exact absurd hjalr' hjalr
    · exact Bool.or_eq_true_iff.2 (.inr (isBranch_of_kindCond hcond))

theorem beforeExecute_evenOk {s : State} (hs : s.EvenOk) : (beforeExecute s).EvenOk := by
  have hb := beforeExecute_effect s
  rwa [State.EvenOk, hb.slotD, hb.slotE, hb.pc]

theorem execute_evenOk {s t : State} (ht : execute s = .next t) (hslots : s.SlotsOk) (hs : s.EvenOk) : t.EvenOk := by
  obtain ⟨hpcEven, hDeven, hEeven⟩ := hs
  obtain ⟨hD, hpc, hE | hE⟩ | ⟨r, hEr, htakes, hD, hpc, hE⟩ := (execute_effect ht).path <;>
    rw [State.EvenOk, hD, hE, hpc]
  · exact ⟨hpcEven, hDeven, hEeven⟩
  · exact ⟨hpcEven, hDeven, slot_of_empty rfl⟩
  · exact ⟨targetOf_even (hslots.1 r hEr) (hEeven r hEr) htakes, slot_of_empty rfl, slot_of_empty rfl⟩

theorem decodeStage_evenOk {s : State} (hs : s.EvenOk) : (decodeStage s).EvenOk := by
  obtain ⟨hpc, hD, hE⟩ := hs
  obtain h | ⟨f, i, hf, -, h⟩ | h := decodeStage_cases s <;> rw [h]
  · exact ⟨hpc, hD, hE⟩
  · exact ⟨hpc, slot_of_empty rfl, slot_of_full rfl (hD f hf)⟩
  · exact ⟨hpc, hD, hE⟩

theorem fetchStage_evenOk {s : State} (hs : s.EvenOk) : (fetchStage s).EvenOk := by
  obtain ⟨hpc, hD, hE⟩ := hs
  obtain ⟨k, -, h⟩ | ⟨v, -, h⟩ := fetchStage_cases s <;> rw [h]
  · exact ⟨hpc, hD, hE⟩
  · exact ⟨even_add hpc (codeLen_even _), slot_of_full rfl hpc, hE⟩

/-! ## The step -/

/-- Settles O55: every stage keeps the three parts. Decode gives an instruction of the length Fetch advanced by, Fetch
fills slot D only where it is empty, and a taken transfer empties slots D and E and goes to an even address. -/
theorem stepKeepsThePipelineInPathOrder : Obligations.StepKeepsThePipelineInPathOrder := by
  intro s t hslots hpath heven hstep
  refine step_keeps (P := fun u => u.SlotsOk ∧ u.PathOk ∧ u.EvenOk) hstep ⟨hslots, hpath, heven⟩
    ?before ?exec ?decode ?fetch
  case before => exact ⟨beforeExecute_slotsOk hslots, beforeExecute_pathOk hpath, beforeExecute_evenOk heven⟩
  case exec =>
    rintro e he ⟨bslots, bpath, beven⟩
    exact ⟨execute_slotsOk he bslots, execute_pathOk he bpath, execute_evenOk he bslots beven⟩
  case decode =>
    rintro u ⟨uslots, upath, ueven⟩
    exact ⟨decodeStage_slotsOk uslots, decodeStage_pathOk upath, decodeStage_evenOk ueven⟩
  case fetch =>
    rintro u hempty ⟨uslots, upath, ueven⟩
    exact ⟨fetchStage_slotsOk uslots, fetchStage_pathOk hempty upath, fetchStage_evenOk ueven⟩

end Sys2Proof.Machine
end

section
/-! What a cycle does not look at. A veil replaces the heap pointer, the storage levels and the summed latency; Execute
works behind a veil as without it, but for HEAP_ALLOCATE, and so does a whole cycle, as far as the veil lets see
(spec/00_scope.md R27, spec/10_state.md R14). -/

namespace Sys2Proof.Machine

/-! ## Veils -/

/-- What to put in the place of the heap pointer, the storage levels and the latency the pipeline has summed. -/
structure Veil where
  heapPtr : Word → Word
  levels : List CacheLevel → List CacheLevel
  backing : Backing → Backing
  delay : Nat → Nat

def State.veil (s : State) (v : Veil) : State :=
  { s with
    heapPtr := v.heapPtr s.heapPtr
    levels := v.levels s.levels
    backing := v.backing s.backing
    counters := { s.counters with memDelayCycles := v.delay s.counters.memDelayCycles } }

/-- The veil that hides the storage levels (R27). -/
def Veil.cache : Veil :=
  { heapPtr := id, levels := fun _ => [], backing := fun _ => Backing.launch BackingConfig.default, delay := fun _ => 0 }

/-- The veil that gives the heap pointer a value of its own (R14). -/
def Veil.heap (h : Word) : Veil := { heapPtr := fun _ => h, levels := id, backing := id, delay := id }

/-- The veil leaves the heap pointer as it is. -/
def Veil.KeepsHeapPtr (v : Veil) : Prop := ∀ p, v.heapPtr p = p

theorem State.veil_cache (s : State) : s.veil .cache = s.eraseCache := rfl

theorem State.veil_heap (s : State) (h : Word) : s.veil (.heap h) = { s with heapPtr := h } := rfl

variable {v : Veil}

@[simp] theorem State.veil_pc (s : State) : (s.veil v).pc = s.pc := rfl
@[simp] theorem State.veil_slotD (s : State) : (s.veil v).slotD = s.slotD := rfl
@[simp] theorem State.veil_slotE (s : State) : (s.veil v).slotE = s.slotE := rfl
@[simp] theorem State.veil_slotM (s : State) : (s.veil v).slotM = s.slotM := rfl
@[simp] theorem State.veil_slotW (s : State) : (s.veil v).slotW = s.slotW := rfl
@[simp] theorem State.veil_mem (s : State) : (s.veil v).mem = s.mem := rfl
@[simp] theorem State.veil_cfg (s : State) : (s.veil v).cfg = s.cfg := rfl
@[simp] theorem State.veil_stopped (s : State) : (s.veil v).stopped = s.stopped := rfl
@[simp] theorem State.veil_reg (s : State) (x : Reg) : (s.veil v).reg x = s.reg x := rfl
@[simp] theorem State.veil_fwd (s : State) (x : Reg) : (s.veil v).fwd x = s.fwd x := rfl

theorem State.veil_detectLoadUse (s : State) (reads : List Reg) :
    (s.veil v).detectLoadUse reads = (s.detectLoadUse reads).veil v := by
  simp only [State.detectLoadUse_eq]
  rfl

/-! ## Execute behind a veil -/

/-- Change the next state of an outcome. -/
def mapNext (f : State → State) : Result → Result
  | .next s => .next (f s)
  | .fault r => .fault r
  | .refused r => .refused r

theorem mapNext_eq_next {f : State → State} {x : Result} {t : State} (h : mapNext f x = .next t) :
    ∃ s, x = .next s ∧ f s = t := by
  cases x with
  | next s => exact ⟨s, rfl, Host.Outcome.next.inj h⟩
  | fault | refused => cases h

theorem sameButCache_of_veil {x y : Result} (h : mapNext (·.veil .cache) x = mapNext (·.veil .cache) y) :
    SameButCache x y := by
  cases x with
  | next s =>
    obtain ⟨t, rfl, ht⟩ := mapNext_eq_next h.symm
    exact ht.symm
  | fault | refused => cases y <;> cases h; rfl

theorem inExecute_veil {reads : List Reg} {act : State → Record → Result}
    (hact : ∀ s r, act (s.veil v) r = mapNext (·.veil v) (act s r)) (s : State) :
    inExecute reads (s.veil v) act = mapNext (·.veil v) (inExecute reads s act) := by
  cases hE : s.slotE with
  | none => rw [inExecute_empty hE, inExecute_empty (s := s.veil v) hE]; rfl
  | some r => rw [inExecute_holds hE, inExecute_holds (s := s.veil v) hE, State.veil_detectLoadUse, hact]

theorem computeValue_veil {reads : List Reg} {value : State → Record → Word}
    (hvalue : ∀ s r, value (s.veil v) r = value s r) (s : State) :
    computeValue reads value (s.veil v) = mapNext (·.veil v) (computeValue reads value s) :=
  inExecute_veil (fun s r => by rw [hvalue]; rfl) s

theorem opRegImm_veil (f : Word → Word → Word) (rs1 : Reg) (imm : Word) (s : State) :
    opRegImm f rs1 imm (s.veil v) = mapNext (·.veil v) (opRegImm f rs1 imm s) :=
  computeValue_veil (fun _ _ => rfl) s

theorem opRegReg_veil (f : Word → Word → Word) (rs1 rs2 : Reg) (s : State) :
    opRegReg f rs1 rs2 (s.veil v) = mapNext (·.veil v) (opRegReg f rs1 rs2 s) :=
  computeValue_veil (fun _ _ => rfl) s

theorem opAddress_veil (reads : List Reg) (rs1 : Reg) (imm : Word) (s : State) :
    opAddress reads rs1 imm (s.veil v) = mapNext (·.veil v) (opAddress reads rs1 imm s) :=
  inExecute_veil (fun _ _ => rfl) s

theorem opBranch_veil (cond : Word → Word → Bool) (rs1 rs2 : Reg) (imm : Word) (s : State) :
    opBranch cond rs1 rs2 imm (s.veil v) = mapNext (·.veil v) (opBranch cond rs1 rs2 imm s) := by
  refine inExecute_veil (fun s r => ?_) s
  exact (congrArg Host.Outcome.next (apply_ite (State.veil · v) (cond (s.fwd rs1) (s.fwd rs2) = true)
    ((s.toMemory r).squash (r.pc + imm)) (s.toMemory r))).symm

theorem opJump_veil {reads : List Reg} {target : State → Record → Word}
    (htarget : ∀ s r, target (s.veil v) r = target s r) (s : State) :
    opJump reads target (s.veil v) = mapNext (·.veil v) (opJump reads target s) :=
  inExecute_veil (fun s r => by rw [htarget]; rfl) s

theorem serviceHeapAllocate_veil (hheap : v.KeepsHeapPtr) (s : State) (r : Record) (arg : Word) :
    serviceHeapAllocate (s.veil v) r arg = (serviceHeapAllocate s r arg).veil v := by
  obtain ⟨heap, levels, backing, delay⟩ := v
  obtain rfl : heap = id := funext hheap
  unfold serviceHeapAllocate
  dsimp only [State.veil, id]
  obtain ⟨m, _ | k⟩ := allocatePages ((roundToPages arg).toNat / pageSize) s.heapPtr s.mem <;> rfl

/-- HEAP_ALLOCATE alone reads what a veil can hide, the heap pointer (R236). -/
theorem performService_veil {service : Service} (hheap : service = .heapAllocate → v.KeepsHeapPtr) (s : State)
    (r : Record) (arg : Word) :
    performService service (s.veil v) r arg = mapNext (·.veil v) (performService service s r arg) := by
  cases service with
  | printString =>
    simp only [performService, servicePrintString, State.veil_mem]
    cases scanString s.mem (scanBound s.mem) arg <;> rfl
  | heapAllocate => exact congrArg Host.Outcome.next (serviceHeapAllocate_veil (hheap rfl) s r arg)
  | exit | printChar | printInt | printLong | readChar | readInt | readLong | readString | seedRandom | random
  | wallClockTime => rfl

theorem execEcall_veil {s : State} {r : Record} (hE : s.slotE = some r)
    (hs : s.fwd 17 = s.cfg.sysnum.heapAllocate → v.KeepsHeapPtr) :
    execEcall (s.veil v) = mapNext (·.veil v) (execEcall s) := by
  rw [execEcall_holds hE, execEcall_holds (s := s.veil v) hE, State.veil_cfg, State.veil_fwd, State.veil_fwd,
    State.veil_detectLoadUse]
  cases hservice : serviceOf s.cfg.sysnum (s.fwd 17) with
  | none => rfl
  | some service =>
    refine performService_veil (fun he => hs ?_) _ r _
    subst he
    exact (num_of_serviceOf hservice).symm

/-- Every instruction but HEAP_ALLOCATE does behind a veil what it does without it (R27, R14). -/
theorem exec_veil (i : Instr) {s : State} {r : Record} (hE : s.slotE = some r)
    (hs : i = .ecall → s.fwd 17 = s.cfg.sysnum.heapAllocate → v.KeepsHeapPtr) :
    exec i (s.veil v) = mapNext (·.veil v) (exec i s) := by
  cases i with
  | ecall => exact execEcall_veil hE (hs rfl)
  | lui rd imm => exact computeValue_veil (value := fun _ _ => immUExt imm) (fun _ _ => rfl) s
  | auipc rd imm => exact computeValue_veil (value := fun _ r => r.pc + immUExt imm) (fun _ _ => rfl) s
  | cLui rd imm => exact computeValue_veil (value := fun _ _ => sext imm) (fun _ _ => rfl) s
  | cMv rd rs2 => exact computeValue_veil (value := fun s _ => s.fwd rs2) (fun _ _ => rfl) s
  | jal rd imm | cJ imm => exact opJump_veil (target := fun _ r => r.pc + sext imm) (fun _ _ => rfl) s
  | jalr rd rs1 imm =>
    exact opJump_veil (target := fun s _ => jalrTarget (s.fwd rs1) (sext imm)) (fun _ _ => rfl) s
  | cJr rs1 | cJalr rs1 => exact opJump_veil (target := fun s _ => jalrTarget (s.fwd rs1) 0) (fun _ _ => rfl) s
  | beq | bne | blt | bge | bltu | bgeu | cBeqz | cBnez => exact opBranch_veil _ _ _ _ s
  | addi | slti | sltiu | xori | ori | andi | slli | srli | srai | addiw | slliw | srliw | sraiw | cAddi4spn | cNop
  | cAddi | cAddiw | cLi | cAddi16sp | cSrli | cSrai | cAndi | cSlli => exact opRegImm_veil _ _ _ s
  | lb | lh | lw | ld | lbu | lhu | lwu | sb | sh | sw | sd | cLw | cLd | cSw | cSd | cLwsp | cLdsp | cSwsp | cSdsp =>
    exact opAddress_veil _ _ _ s
  | add | sub | sll | slt | sltu | xor | srl | sra | or | and | addw | subw | sllw | srlw | sraw | mul | mulh | mulhsu
  | mulhu | div | divu | rem | remu | mulw | divw | divuw | remw | remuw | cSub | cXor | cOr | cAnd | cSubw | cAddw
  | cAdd => exact opRegReg_veil _ _ _ s

theorem execute_veil {s : State} (hs : s.CallsHeapAllocate → v.KeepsHeapPtr) :
    execute (s.veil v) = mapNext (·.veil v) (execute s) := by
  cases hE : s.slotE with
  | none => rw [execute_empty hE, execute_empty (s := s.veil v) hE]; rfl
  | some r =>
    rw [execute_holds hE, execute_holds (s := s.veil v) hE]
    exact exec_veil r.op hE fun hop hnum => hs ⟨⟨r, hE, hop⟩, hnum⟩

/-! ## A cycle, as far as a veil lets see -/

/-- One cycle of a machine whose configuration is lawful (R320). -/
def cycle (s : State) : Result :=
  if s.stopped then .next s
  else if (beforeExecute s).stopped then .next (beforeExecute s)
  else mapNext finishCycle (execute (beforeExecute s))

theorem step_eq_cycle {s : State} (h : s.ConfigOk) : step s = cycle s := by
  unfold step cycle
  rw [if_pos h]
  cases execute (beforeExecute s) <;> rfl

/-- What the veil lets see of the state after `f` depends on what it lets see of the state before. -/
def Veil.Blind (v : Veil) (f : State → State) : Prop := ∀ s, (f (s.veil v)).veil v = (f s).veil v

/-- A second veil hides nothing more, and an Access shows nothing of what the veil hides. -/
structure Veil.Opaque (v : Veil) : Prop where
  twice : ∀ s : State, (s.veil v).veil v = s.veil v
  access : ∀ a n isRead, v.Blind (fun s => s.access a n isRead)

theorem Veil.cache_opaque : Veil.cache.Opaque := ⟨fun _ => rfl, fun _ _ _ _ => rfl⟩

theorem Veil.heap_opaque (h : Word) : (Veil.heap h).Opaque := ⟨fun _ => rfl, fun _ _ _ _ => rfl⟩

theorem Veil.Blind.congr {f : State → State} (hf : v.Blind f) {s t : State} (h : s.veil v = t.veil v) :
    (f s).veil v = (f t).veil v := by
  rw [← hf s, h, hf t]

theorem Veil.Blind.comp {f g : State → State} (hg : v.Blind g) (hf : v.Blind f) : v.Blind (fun s => g (f s)) :=
  fun s => hg.congr (hf s)

theorem Veil.Blind.mapNext_veil {f : State → State} (hf : v.Blind f) (x : Result) :
    mapNext (·.veil v) (mapNext f x) = mapNext (·.veil v) (mapNext f (mapNext (·.veil v) x)) := by
  cases x with
  | next s => exact congrArg Host.Outcome.next (hf s).symm
  | fault | refused => rfl

theorem writeBack_veil (s : State) : writeBack (s.veil v) = (writeBack s).veil v := by
  cases hW : s.slotW with
  | none => rw [writeBack_empty hW, writeBack_empty (s := s.veil v) hW]
  | some w =>
    simp only [writeBack, hW, State.veil_slotW, State.setReg]
    split
    · split <;> rfl
    · rfl

theorem decodeStage_veil (s : State) : decodeStage (s.veil v) = (decodeStage s).veil v := by
  cases hD : s.slotD with
  | none => rw [decodeStage_empty hD, decodeStage_empty (s := s.veil v) hD]
  | some f =>
    simp only [decodeStage, hD, State.veil_slotD, State.veil_cfg]
    split <;> rfl

variable (hv : v.Opaque)
include hv

theorem accessLoad_blind (r : Record) : v.Blind (fun s => accessLoad s r) := by
  intro s
  have hacc := hv.access r.addr (accessWidth r.kind) true s
  simp only [accessLoad, State.access_mem, State.veil_mem]
  cases s.mem.read r.addr (accessWidth r.kind) with
  | error k => exact congrArg (·.raiseFatal k) hacc
  | ok x => exact congrArg (fun u => { u with slotW := some { r with wb := loadExt r.kind x }, slotM := none }) hacc

theorem accessStore_blind (r : Record) : v.Blind (fun s => accessStore s r) := by
  intro s
  have hacc := hv.access r.addr (accessWidth r.kind) false s
  simp only [accessStore, State.access_mem, State.access_reg, State.veil_mem, State.veil_reg]
  cases s.mem.write r.addr (accessWidth r.kind) (s.reg r.rs2) with
  | error k => exact congrArg (·.raiseFatal k) hacc
  | ok m => exact congrArg (fun u => { u with mem := m, slotW := some r, slotM := none }) hacc

theorem accessMemory_blind : v.Blind accessMemory := by
  intro s
  cases hM : s.slotM with
  | none =>
    rw [accessMemory_empty hM, accessMemory_empty (s := s.veil v) hM]
    exact hv.twice s
  | some r =>
    simp only [accessMemory, hM, State.veil_slotM]
    split
    · exact accessLoad_blind hv r s
    · split
      · exact accessStore_blind hv r s
      · exact congrArg (fun u => { u with slotW := some r, slotM := none }) (hv.twice s)

theorem beforeExecute_blind : v.Blind beforeExecute :=
  (accessMemory_blind hv).comp fun s => by
    rw [show (s.veil v).tick = s.tick.veil v from rfl, writeBack_veil, hv.twice]

theorem callsHeapAllocate_veil (s : State) :
    (beforeExecute (s.veil v)).CallsHeapAllocate ↔ (beforeExecute s).CallsHeapAllocate :=
  iff_of_eq (congrArg State.CallsHeapAllocate (beforeExecute_blind hv s) :)

theorem fetchStage_blind : v.Blind fetchStage := by
  intro s
  have hacc := hv.access s.pc 4 true s
  simp only [fetchStage, State.access_mem, State.veil_mem, State.veil_pc]
  cases s.mem.read s.pc 4 with
  | error k => exact congrArg (·.raiseFatal k) hacc
  | ok x =>
    exact congrArg (fun u => { u with
      slotD := some { code := BitVec.ofNat 32 x, pc := s.pc }
      pc := s.pc + BitVec.ofNat 64 (codeLen (BitVec.ofNat 32 x)) }) hacc

theorem finishCycle_blind : v.Blind finishCycle := by
  intro s
  simp only [finishCycle, State.veil_stopped, decodeStage_veil]
  split
  · exact hv.twice s
  · split
    · exact hv.twice _
    · exact fetchStage_blind hv _

/-- A cycle shows nothing of what the veil hides, unless the veil changes the heap pointer and the cycle calls
HEAP_ALLOCATE. -/
theorem cycle_veil {s : State} (hs : (beforeExecute s).CallsHeapAllocate → v.KeepsHeapPtr) :
    mapNext (·.veil v) (cycle (s.veil v)) = mapNext (·.veil v) (cycle s) := by
  have hbefore := beforeExecute_blind hv s
  have hstopped : (beforeExecute (s.veil v)).stopped = (beforeExecute s).stopped := (congrArg State.stopped hbefore :)
  simp only [cycle, State.veil_stopped, hstopped]
  split
  · exact congrArg Host.Outcome.next (hv.twice s)
  · split
    · exact congrArg Host.Outcome.next hbefore
    · rw [(finishCycle_blind hv).mapNext_veil, ← execute_veil (hs ∘ (callsHeapAllocate_veil hv s).1), hbefore,
        execute_veil hs, ← (finishCycle_blind hv).mapNext_veil]

end Sys2Proof.Machine
end

section
/-! No step's outcome depends on the storage levels, nor on the heap pointer where HEAP_ALLOCATE is not called
(spec/00_scope.md R27, spec/10_state.md R14). -/

namespace Sys2Proof.Machine

/-- Settles O59: with the levels and the summed latency hidden, both states are one state, and a cycle shows nothing of
what is hidden. -/
theorem cacheIsInvisible : Obligations.CacheIsInvisible := by
  intro s t hs ht hsame
  have hcycle (u : State) := cycle_veil (s := u) Veil.cache_opaque fun _ _ => rfl
  rw [step_eq_cycle hs, step_eq_cycle ht]
  refine sameButCache_of_veil ?_
  calc mapNext (·.veil .cache) (cycle s)
      = mapNext (·.veil .cache) (cycle s.eraseCache) := (hcycle s).symm
    _ = mapNext (·.veil .cache) (cycle t.eraseCache) := by rw [hsame]
    _ = mapNext (·.veil .cache) (cycle t) := hcycle t

/-- A step that does not call HEAP_ALLOCATE does the same with any other heap pointer (R14). -/
theorem step_withHeapPtr {s t : State} (hstep : step s = .next t) (hcall : ¬ (beforeExecute s).CallsHeapAllocate)
    (h : Word) : step { s with heapPtr := h } = .next { t with heapPtr := h } := by
  obtain ⟨hconfig, -⟩ := step_cases hstep
  have hcycle := cycle_veil (s := s) (Veil.heap_opaque h) fun hcall' => absurd hcall' hcall
  rw [← step_eq_cycle hconfig, ← step_eq_cycle (s := s.veil (.heap h)) hconfig, hstep] at hcycle
  obtain ⟨t', hstep', ht'⟩ := mapNext_eq_next hcycle
  have hcall' : ¬ (beforeExecute (s.veil (.heap h))).CallsHeapAllocate :=
    mt (callsHeapAllocate_veil (Veil.heap_opaque h) s).1 hcall
  have hheap : h = t'.heapPtr := (step_heapPtr hstep' hcall').symm
  have hveil : t'.veil (.heap h) = t' := by rw [hheap, State.veil_heap]
  exact hstep'.trans (congrArg Host.Outcome.next (hveil.symm.trans ht'))

/-- Settles O54: HEAP_ALLOCATE adds whole pages to the heap pointer, and no other part of a cycle writes or reads it. -/
theorem stepKeepsRegisterInvariants : Obligations.StepKeepsRegisterInvariants := by
  refine ⟨fun s t => step_registersOk, fun p hp => ⟨rfl, hp.1⟩, fun s t hstep hcall => ?_, fun _ => rfl⟩
  have hcall' : ¬ (beforeExecute s).CallsHeapAllocate := by
    unfold State.CallsHeapAllocate State.Holds
    rwa [(beforeExecute_effect s).slotE, (beforeExecute_effect s).cfg]
  exact ⟨step_heapPtr hstep hcall', step_withHeapPtr hstep hcall'⟩

end Sys2Proof.Machine
end

section
/-! What one request does to a cache level, said once, and that it keeps the level's invariant; then the chain of levels,
an Access, and the step (spec/10_state.md R23; spec/25_cache.md R63, R65 to R72, R75, R77). -/

namespace Sys2Proof.Machine

/-! ## The address split (R64) -/

theorem indexOf_lt {c : CacheConfig} (hc : c.Ok) (a : Word) : indexOf c a < c.setCount := by
  obtain ⟨-, -, -, hsets, -⟩ := hc
  rw [hsets]
  exact Nat.mod_lt _ (Nat.two_pow_pos _)

/-- A tag has the tag's width (R23). -/
theorem tagOf_lt {c : CacheConfig} (hc : c.Ok) (a : Word) : tagOf c a < 2 ^ (64 - c.offsetBits - c.indexBits) := by
  obtain ⟨-, -, -, -, hbits⟩ := hc
  have hsplit : 2 ^ 64 = 2 ^ (c.offsetBits + c.indexBits) * 2 ^ (64 - c.offsetBits - c.indexBits) := by
    rw [← Nat.pow_add]
    congr 1
    omega
  exact Nat.div_lt_of_lt_mul (hsplit ▸ a.isLt)

/-! ## The way a request writes (R66, R68, R69) -/

/-- The way a miss fills: the first free one, else the oldest. -/
def fillWay (ws : List Block) : Nat := (freeWay ws).getD (oldestWay ws)

theorem fillWay_lt {ws : List Block} (h : ws ≠ []) : fillWay ws < ws.length := by
  unfold fillWay
  cases hfree : freeWay ws with
  | none => exact (oldestWay_spec ws h).1
  | some k =>
    obtain ⟨⟨b, hb, -⟩, -⟩ := freeWay_some hfree
    exact (List.getElem?_eq_some_iff.1 hb).1

variable {σ : Type} (lower : σ → Request → σ × Reply) (l : CacheLevel) (low : σ) (q : Request)

/-- Choosing the way to fill counts at most a replacement. -/
theorem CacheLevel.chooseWay_fst (index : Nat) :
    (l.chooseWay lower low index).1 = l ∨ (l.chooseWay lower low index).1 = l.countReplace := by
  unfold CacheLevel.chooseWay CacheLevel.chooseVictim
  split
  · exact .inl rfl
  · dsimp only
    split <;> exact .inr rfl

theorem CacheLevel.chooseWay_way (index : Nat) :
    (l.chooseWay lower low index).2.2.1 = fillWay (l.ways index) := by
  unfold CacheLevel.chooseWay CacheLevel.chooseVictim fillWay
  split
  · simp [*]
  · dsimp only
    split <;> simp [*]

/-- The block a hit leaves in its way (R66). -/
def CacheLevel.hitBlock (b : Block) : Block :=
  { b with ctr := l.seq, dirty := b.dirty || (!q.isRead && !l.cfg.writeThrough) }

/-- The block a miss puts in the way it fills (R68, R72). -/
def CacheLevel.fillBlock : Block :=
  { valid := true, dirty := !q.isRead && !l.cfg.writeThrough, tag := tagOf l.cfg q.addr, ctr := l.seq }

/-- The table of sets with one way of the request's set replaced. -/
def CacheLevel.setsWith (k : Nat) (b : Block) : List (Nat × List Block) :=
  (l.setWays (indexOf l.cfg q.addr) ((l.ways (indexOf l.cfg q.addr)).set k b)).sets

theorem CacheLevel.onHit_sets (w : Nat) :
    (l.onHit lower low q w).1.sets = l.setsWith q w (l.hitBlock q (wayOf (l.ways (indexOf l.cfg q.addr)) w)) := by
  unfold CacheLevel.onHit CacheLevel.hitBlock CacheLevel.setsWith
  cases hr : q.isRead <;> cases hw : l.cfg.writeThrough <;> simp

theorem CacheLevel.onMissAllocate_sets :
    (l.onMissAllocate lower low q).1.sets =
      l.setsWith q (fillWay (l.ways (indexOf l.cfg q.addr))) (l.fillBlock q) := by
  unfold CacheLevel.onMissAllocate
  dsimp only [prefetchHook]
  rw [CacheLevel.chooseWay_way]
  obtain h | h := l.chooseWay_fst lower low (indexOf l.cfg q.addr) <;> rw [h] <;> split <;> rfl

theorem CacheLevel.onMissBypass_sets : (l.onMissBypass lower low q).1.sets = l.sets := rfl

theorem CacheLevel.onHit_counts (w : Nat) :
    (l.onHit lower low q w).1.stats.accessCount = l.stats.accessCount ∧
    (l.onHit lower low q w).1.stats.missCount = l.stats.missCount := by
  unfold CacheLevel.onHit
  dsimp only
  split
  · exact ⟨rfl, rfl⟩
  · split <;> exact ⟨rfl, rfl⟩

theorem CacheLevel.onMissAllocate_counts :
    (l.onMissAllocate lower low q).1.stats.accessCount = l.stats.accessCount ∧
    (l.onMissAllocate lower low q).1.stats.missCount = l.stats.missCount := by
  unfold CacheLevel.onMissAllocate
  dsimp only [prefetchHook]
  obtain h | h := l.chooseWay_fst lower low (indexOf l.cfg q.addr) <;> rw [h] <;> split <;> exact ⟨rfl, rfl⟩

/-! ## A request, said once (R63 to R72) -/

/-- A valid block with the tag of the request. -/
def CacheLevel.Matches (b : Block) : Prop := b.valid = true ∧ b.tag = tagOf l.cfg q.addr

/-- The request has put the block `b'`, stamped with the next sequence number, in the place of `b` in way `k` of its set:
`b` was the match, or there was none (R66, R68). -/
structure CacheLevel.Replaces (l : CacheLevel) (q : Request) (k : Nat) (b b' : Block) : Prop where
  old : (l.ways (indexOf l.cfg q.addr))[k]? = some b
  found : l.Matches q b ∨ ∀ c ∈ l.ways (indexOf l.cfg q.addr), ¬ l.Matches q c
  valid : b'.valid = true
  tag : b'.tag = tagOf l.cfg q.addr
  ctr : b'.ctr = l.seq + 1
  clean : l.cfg.writeThrough = true → b.dirty = false → b'.dirty = false

/-- What a request can do to a cache level. -/
structure CacheLevel.RequestEffect (l : CacheLevel) (q : Request) (l' : CacheLevel) : Prop where
  cfg : l'.cfg = l.cfg
  seq : l'.seq = l.seq + 1
  accessCount : l'.stats.accessCount = l.stats.accessCount + 1
  missCount : l'.stats.missCount ≤ l.stats.missCount + 1
  sets : l'.sets = l.sets ∨ ∃ k b b', l.Replaces q k b b' ∧ l'.sets = l.setsWith q k b'

/-- The accesses and misses a request counts (R63, R67). -/
theorem CacheLevel.handleRequest_counts :
    (l.handleRequest lower low q).1.stats.accessCount = l.stats.accessCount + 1 ∧
    (l.handleRequest lower low q).1.stats.missCount ≤ l.stats.missCount + 1 := by
  unfold CacheLevel.handleRequest
  dsimp only
  split
  · obtain ⟨haccess, hmiss⟩ := l.count.onHit_counts lower low q _
    exact ⟨haccess, hmiss.trans_le (Nat.le_succ _)⟩
  · split
    · obtain ⟨haccess, hmiss⟩ := l.count.countMiss.onMissAllocate_counts lower low q
      exact ⟨haccess, hmiss.le⟩
    · exact ⟨rfl, le_rfl⟩

/-- What a request does to the table of sets: nothing, or one block is replaced. -/
theorem CacheLevel.handleRequest_sets (hways : l.ways (indexOf l.cfg q.addr) ≠ []) :
    (l.handleRequest lower low q).1.sets = l.sets ∨
    ∃ k b b', l.Replaces q k b b' ∧ (l.handleRequest lower low q).1.sets = l.setsWith q k b' := by
  unfold CacheLevel.handleRequest
  dsimp only [CacheLevel.count_cfg, CacheLevel.count_ways]
  cases hhit : hitWay (l.ways (indexOf l.cfg q.addr)) (tagOf l.cfg q.addr) with
  | some k =>
    obtain ⟨b, hb, hvalid, htag⟩ := hitWay_some hhit
    refine .inr ⟨k, b, l.count.hitBlock q b, ⟨hb, .inl ⟨hvalid, htag⟩, hvalid, htag, rfl, fun hw hd => ?_⟩, ?_⟩
    · simp [CacheLevel.hitBlock, hw, hd]
    · refine (l.count.onHit_sets lower low q k).trans ?_
      rw [CacheLevel.count_ways, CacheLevel.count_cfg, wayOf_eq hb]
      rfl
  | none =>
    dsimp only
    split
    · have hlt := fillWay_lt hways
      refine .inr ⟨fillWay (l.ways (indexOf l.cfg q.addr)), _, l.count.countMiss.fillBlock q,
        ⟨List.getElem?_eq_getElem hlt, .inr fun c hc => hitWay_none hhit hc, rfl, rfl, rfl, fun hw _ => ?_⟩,
        l.count.countMiss.onMissAllocate_sets lower low q⟩
      simp [CacheLevel.fillBlock, hw]
    · exact .inl (l.count.countMiss.onMissBypass_sets lower low q)

theorem CacheLevel.handleRequest_effect (hways : l.ways (indexOf l.cfg q.addr) ≠ []) :
    l.RequestEffect q (l.handleRequest lower low q).1 := by
  obtain ⟨hcfg, hseq⟩ := l.handleRequest_cfg_seq lower low q
  obtain ⟨haccess, hmiss⟩ := l.handleRequest_counts lower low q
  exact ⟨hcfg, hseq, haccess, hmiss, l.handleRequest_sets lower low q hways⟩

end Sys2Proof.Machine
end

section
/-! A request keeps the invariant of a cache level, a chain of levels keeps its levels', and so do an Access and a step
(spec/10_state.md R23; spec/25_cache.md R63, R67, R71, R72, R75, R77). -/

namespace Sys2Proof.Machine

/-! ## The sets of a lawful level -/

/-- Every set of a lawful level has as many ways as the configuration says (R23). -/
theorem CacheLevel.Ok.ways_length {l : CacheLevel} (hl : l.Ok) (j : Nat) : (l.ways j).length = l.cfg.associativity := by
  obtain ⟨-, hsets, -⟩ := hl
  by_cases hlisted : l.ways j = List.replicate l.cfg.associativity Block.invalid
  · rw [hlisted, List.length_replicate]
  · exact (hsets _ (mem_of_sparseGet hlisted)).2

theorem CacheLevel.Ok.ways_ne_nil {l : CacheLevel} (hl : l.Ok) (hcfg : l.cfg.Ok) (j : Nat) : l.ways j ≠ [] := by
  obtain ⟨-, hassoc, -⟩ := hcfg
  exact List.ne_nil_of_length_pos (hl.ways_length j ▸ hassoc)

/-! ## The table after a request -/

section
variable {l l' : CacheLevel} {q : Request}

/-- Levels with one table and one configuration have the same ways. -/
theorem CacheLevel.ways_congr (hcfg : l'.cfg = l.cfg) (hsets : l'.sets = l.sets) (j : Nat) : l'.ways j = l.ways j := by
  rw [CacheLevel.ways, CacheLevel.ways, hcfg, hsets]

/-- The block in a way after a block has been replaced: the new one in its place, the one from before elsewhere. -/
theorem CacheLevel.Ok.block_of_setsWith {k : Nat} {b' : Block} (hl : l.Ok) (hcfg : l'.cfg = l.cfg)
    (hsets : l'.sets = l.setsWith q k b') {j n : Nat} {c : Block} (hc : (l'.ways j)[n]? = some c) :
    (j = indexOf l.cfg q.addr ∧ n = k ∧ c = b') ∨
    (¬ (j = indexOf l.cfg q.addr ∧ n = k) ∧ (l.ways j)[n]? = some c) := by
  obtain ⟨⟨hrising, -⟩, -⟩ := hl
  have hways : l'.ways j = (l.setWays (indexOf l.cfg q.addr) ((l.ways (indexOf l.cfg q.addr)).set k b')).ways j :=
    CacheLevel.ways_congr (l := l.setWays _ _) hcfg hsets j
  rw [hways, CacheLevel.ways_setWays hrising] at hc
  by_cases hj : j = indexOf l.cfg q.addr
  · subst hj
    rw [if_pos rfl, List.getElem?_set] at hc
    by_cases hn : k = n
    · subst hn
      rw [if_pos rfl] at hc
      split at hc
      · exact .inl ⟨rfl, rfl, (Option.some.inj hc).symm⟩
      · cases hc
    · rw [if_neg hn] at hc
      exact .inr ⟨fun h => hn h.2.symm, hc⟩
  · rw [if_neg hj] at hc
    exact .inr ⟨fun h => hj h.1, hc⟩

/-- The block that was replaced had the only tag of the request, if it matched at all (R71). -/
theorem CacheLevel.Replaces.eq_way {k : Nat} {b b' : Block} (hl : l.Ok) (h : l.Replaces q k b b') {n : Nat} {c : Block}
    (hc : (l.ways (indexOf l.cfg q.addr))[n]? = some c) (hmatch : l.Matches q c) : n = k := by
  obtain ⟨-, -, -, -, htags, -⟩ := hl
  obtain ⟨hvalid, htag⟩ | hnone := h.found
  · exact htags _ n k c b hc h.old hmatch.1 hvalid (hmatch.2.trans htag.symm)
  · exact absurd hmatch (hnone c (List.mem_of_getElem? hc))

theorem CacheLevel.Ok.replace {k : Nat} {b b' : Block} (hl : l.Ok) (hlcfg : l.cfg.Ok) (h : l.Replaces q k b b')
    (hcfg : l'.cfg = l.cfg) (hseq : l'.seq = l.seq + 1) (hsets : l'.sets = l.setsWith q k b')
    (hcounts : l'.seq = l'.stats.accessCount ∧ l'.stats.missCount ≤ l'.stats.accessCount) : l'.Ok := by
  have hblock {j n : Nat} {c : Block} := hl.block_of_setsWith hcfg hsets (j := j) (n := n) (c := c)
  have hunique {n : Nat} {c : Block} := h.eq_way hl (n := n) (c := c)
  have hlength := hl.ways_length
  obtain ⟨hwf, hlisted, hstamps, hclean, htags, hdiffer, -, -⟩ := hl
  unfold CacheLevel.Ok
  rw [hcfg, hseq] at *
  refine ⟨?wf, ?listed, ?stamps, ?clean, ?tags, ?differ, hcounts⟩
  case wf =>
    rw [hsets]
    exact sparsePut_wf hwf
  case listed =>
    intro e he
    rw [hsets] at he
    obtain ⟨rfl, -⟩ | he := mem_sparsePut he
    · exact ⟨indexOf_lt hlcfg q.addr, (List.length_set ..).trans (hlength _)⟩
    · exact hlisted e he
  case stamps =>
    intro j n c hc hvalid
    obtain ⟨-, -, rfl⟩ | ⟨-, hc⟩ := hblock hc
    · exact ⟨h.ctr.le, h.tag ▸ tagOf_lt hlcfg q.addr⟩
    · obtain ⟨hctr, htag⟩ := hstamps j n c hc hvalid
      exact ⟨Nat.le_succ_of_le hctr, htag⟩
  case clean =>
    intro j n c hc hthrough
    obtain ⟨-, -, rfl⟩ | ⟨-, hc⟩ := hblock hc
    · exact h.clean hthrough (hclean _ k b h.old hthrough)
    · exact hclean j n c hc hthrough
  case tags =>
    intro j n n' c c' hc hc' hvalid hvalid' htag
    obtain ⟨hj, rfl, rfl⟩ | ⟨hplace, hc⟩ := hblock hc
    · obtain ⟨-, hn', -⟩ | ⟨-, hc'⟩ := hblock hc'
      · exact hn'.symm
      · exact (hunique (hj ▸ hc') ⟨hvalid', htag.symm.trans h.tag⟩).symm
    · obtain ⟨hj, rfl, rfl⟩ | ⟨-, hc'⟩ := hblock hc'
      · exact hunique (hj ▸ hc) ⟨hvalid, htag.trans h.tag⟩
      · exact htags j n n' c c' hc hc' hvalid hvalid' htag
  case differ =>
    have hold {j n : Nat} {c : Block} (hc : (l.ways j)[n]? = some c) (hvalid : c.valid = true) : c.ctr ≠ b'.ctr :=
      fun he => Nat.not_succ_le_self _ (h.ctr ▸ he ▸ (hstamps j n c hc hvalid).1)
    intro j j' n n' c c' hc hc' hvalid hvalid' hctr
    obtain ⟨hj, hn, rfl⟩ | ⟨-, hc⟩ := hblock hc
    · obtain ⟨hj', hn', -⟩ | ⟨-, hc'⟩ := hblock hc'
      · exact ⟨hj.trans hj'.symm, hn.trans hn'.symm⟩
      · exact absurd hctr.symm (hold hc' hvalid')
    · obtain ⟨-, -, rfl⟩ | ⟨-, hc'⟩ := hblock hc'
      · exact absurd hctr (hold hc hvalid)
      · exact hdiffer j j' n n' c c' hc hc' hvalid hvalid' hctr

/-- A request that leaves the table alone only moves the sequence number on. -/
theorem CacheLevel.Ok.sameSets (hl : l.Ok) (hcfg : l'.cfg = l.cfg) (hseq : l'.seq = l.seq + 1)
    (hsets : l'.sets = l.sets)
    (hcounts : l'.seq = l'.stats.accessCount ∧ l'.stats.missCount ≤ l'.stats.accessCount) : l'.Ok := by
  obtain ⟨hwf, hlisted, hstamps, hclean, htags, hdiffer, -, -⟩ := hl
  unfold CacheLevel.Ok
  simp only [CacheLevel.ways_congr hcfg hsets, hcfg, hsets, hseq] at *
  refine ⟨hwf, hlisted, fun j n c hc hvalid => ?_, hclean, htags, hdiffer, hcounts⟩
  obtain ⟨hctr, htag⟩ := hstamps j n c hc hvalid
  exact ⟨Nat.le_succ_of_le hctr, htag⟩

theorem CacheLevel.RequestEffect.ok (h : l.RequestEffect q l') (hl : l.Ok) (hlcfg : l.cfg.Ok) : l'.Ok := by
  obtain ⟨hcfg, hseq, haccess, hmiss, hsets⟩ := h
  have hcounts : l'.seq = l'.stats.accessCount ∧ l'.stats.missCount ≤ l'.stats.accessCount := by
    obtain ⟨-, -, -, -, -, -, hcount, hle⟩ := hl
    omega
  obtain hsets | ⟨k, b, b', hreplaces, hsets⟩ := hsets
  · exact hl.sameSets hcfg hseq hsets hcounts
  · exact hl.replace hlcfg hreplaces hcfg hseq hsets hcounts

end

/-! ## The chain, an Access, a step -/

theorem CacheLevel.Ok.handleRequest {l : CacheLevel} (hl : l.Ok) (hcfg : l.cfg.Ok) {σ : Type}
    (lower : σ → Request → σ × Reply) (low : σ) (q : Request) : (l.handleRequest lower low q).1.Ok :=
  (l.handleRequest_effect lower low q (hl.ways_ne_nil hcfg _)).ok hl hcfg

/-- A chain of lawful levels stays one (R75). -/
theorem chainRequest_ok (n : Nat) : ∀ (p : List CacheLevel × Backing) (q : Request),
    (∀ l ∈ p.1, l.Ok ∧ l.cfg.Ok) → ∀ l ∈ (chainRequest n p q).1.1, l.Ok ∧ l.cfg.Ok := by
  induction n with
  | zero => exact fun _ _ hp => hp
  | succ n ih =>
    rintro ⟨ls, b⟩ q hp
    cases ls with
    | nil => exact hp
    | cons l ls =>
      rw [List.forall_mem_cons] at hp
      obtain ⟨⟨hl, hcfg⟩, hls⟩ := hp
      rw [chainRequest_cons]
      refine List.forall_mem_cons.2 ⟨⟨hl.handleRequest hcfg _ _ q, ?_⟩, ?_⟩
      · rw [(l.handleRequest_cfg_seq (chainRequest n) (ls, b) q).1]
        exact hcfg
      · exact CacheLevel.handleRequest_low (P := fun p : List CacheLevel × Backing => ∀ l ∈ p.1, l.Ok ∧ l.cfg.Ok)
          ih l hls q

/-- The levels of `u` are lawful, with the configurations of the levels of `s`. -/
def State.LevelsKept (s u : State) : Prop := u.LevelsOk ∧ u.levels.map CacheLevel.cfg = s.levels.map CacheLevel.cfg

theorem State.LevelsKept.congr {s u w : State} (h : s.LevelsKept u) (hw : w.levels = u.levels) : s.LevelsKept w := by
  rwa [State.LevelsKept, State.LevelsOk, hw]

theorem State.LevelsKept.access {s u : State} (hs : ∀ l ∈ s.levels, l.cfg.Ok) (h : s.LevelsKept u) (a : Word) (n : Nat)
    (isRead : Bool) : s.LevelsKept (u.access a n isRead) := by
  obtain ⟨hok, hcfg⟩ := h
  have hcfgs : ∀ l ∈ u.levels, l.cfg.Ok :=
    List.forall_mem_map.1 (hcfg ▸ List.forall_mem_map.2 hs)
  have hchain := chainRequest_ok u.levels.length (u.levels, u.backing) ⟨a, n, isRead⟩ fun l hl => ⟨hok l hl, hcfgs l hl⟩
  exact ⟨fun l hl => (hchain l hl).1,
    (chainRequest_cfg u.levels.length (u.levels, u.backing) ⟨a, n, isRead⟩).1.trans hcfg⟩

/-- Settles O56: a level changes by requests only, and a request replaces at most one block, by one with the tag it looked
for and a stamp above all others. -/
theorem stepKeepsTheCacheInvariants : Obligations.StepKeepsTheCacheInvariants := by
  intro s t hs hstep
  obtain ⟨⟨hlevels, -⟩, -⟩ := step_cases hstep
  suffices h : s.LevelsKept t ∧ t.cfg = s.cfg from ⟨h.1.1, h.1.2, h.2⟩
  have hself : s.LevelsKept s := ⟨hs, rfl⟩
  refine step_keeps (P := fun u => s.LevelsKept u ∧ u.cfg = s.cfg) hstep ⟨hself, rfl⟩ ?before ?exec ?decode ?fetch
  case before =>
    refine ⟨?_, (beforeExecute_effect s).cfg⟩
    obtain hb | ⟨a, n, isRead, hb⟩ := (beforeExecute_effect s).levels
    · exact hself.congr hb
    · exact (hself.access hlevels a n isRead).congr hb
  case exec =>
    rintro e he ⟨hkept, hcfg⟩
    exact ⟨hkept.congr (execute_effect he).levels, (execute_effect he).cfg.trans hcfg⟩
  case decode =>
    rintro u ⟨hkept, hcfg⟩
    obtain ⟨-, -, -, hu, hucfg⟩ := decodeStage_frame u
    exact ⟨hkept.congr hu, hucfg.trans hcfg⟩
  case fetch =>
    rintro u - ⟨hkept, hcfg⟩
    obtain ⟨-, -, -, hu, hucfg⟩ := fetchStage_frame u
    exact ⟨(hkept.access hlevels u.pc 4 true).congr hu, hucfg.trans hcfg⟩

end Sys2Proof.Machine
end

section
/-! MemRead and MemWrite byte by byte: their fatal conditions, the bytes a write stores, and what a read of any part of
them gives (spec/20_memory.md R41 to R44). -/

namespace Sys2Proof.Machine

/-! ## The check, and where a read and a write succeed (R41) -/

theorem accessCheck_badSize {a : Word} {n : Nat} (hn : n ∉ [1, 2, 4, 8]) : accessCheck a n = some .badAccessSize :=
  if_pos hn

theorem accessCheck_pageCross {a : Word} {n : Nat} (hn : n ∈ [1, 2, 4, 8]) (ha : offOf a + n > pageSize) :
    accessCheck a n = some .pageCross := by
  rw [accessCheck, if_neg (not_not_intro hn), if_pos ha]

theorem accessCheck_eq_none_iff {a : Word} {n : Nat} :
    accessCheck a n = none ↔ n ∈ [1, 2, 4, 8] ∧ offOf a + n ≤ pageSize := by
  by_cases hn : n ∈ [1, 2, 4, 8]
  · by_cases ha : offOf a + n > pageSize
    · simp [accessCheck_pageCross hn ha, Nat.not_le.2 ha]
    · simp [accessCheck, hn, ha, Nat.not_lt.1 ha]
  · simp [accessCheck_badSize hn, hn]

/-- A read and a write check alike. -/
theorem Memory.access_error {a : Word} {n : Nat} {k : FatalKind} (hc : accessCheck a n = some k) (m : Memory)
    (v : Word) :
    m.read a n = .error k ∧ m.write a n v = .error k := by
  simp [Memory.read, Memory.write, hc]

theorem Memory.read_unmapped {m : Memory} {a : Word} {n : Nat} (hc : accessCheck a n = none) (hm : m.mapped a = false) :
    m.read a n = .error .unmappedRead := by
  simp [Memory.read, hc, hm]

theorem Memory.read_eq_ok_iff {m : Memory} {a : Word} {n x : Nat} :
    m.read a n = .ok x ↔ accessCheck a n = none ∧ m.mapped a = true ∧ m.readLE a n = x := by
  cases hc : accessCheck a n <;> cases hm : m.mapped a <;> simp [Memory.read, hc, hm]

theorem Memory.write_eq_ok_iff {m m' : Memory} {a v : Word} {n : Nat} :
    m.write a n v = .ok m' ↔ accessCheck a n = none ∧ (m.mapPage a).writeLE a n v = m' := by
  cases hc : accessCheck a n <;> simp [Memory.write, hc]

/-- One byte crosses no page. -/
theorem accessCheck_one (a : Word) : accessCheck a 1 = none :=
  accessCheck_eq_none_iff.2 ⟨by simp, Nat.mod_lt a.toNat (by decide : 0 < pageSize)⟩

theorem Memory.read_one {m : Memory} {b : Word} (h : m.mapped b = true) : m.read b 1 = .ok (m.byte b).toNat :=
  Memory.read_eq_ok_iff.2 ⟨accessCheck_one b, h, rfl⟩

/-- A range that wraps past the top of the address space ends a page there (R41). -/
theorem offOf_add_of_wraps {a : Word} {n : Nat} (h : a.toNat + n > 2 ^ 64) : offOf a + n > pageSize := by
  have ha := a.isLt
  unfold offOf pageSize
  omega

/-- Settles O39: size, crossing and mapping are asked in this order, and the result is `Memory.readLE`, whose bytes are
those of the memory. -/
theorem memoryRead : Obligations.MemoryRead := by
  intro m a n v
  refine ⟨?size, ?cross, ?unmapped, ?mapped, offOf_add_of_wraps⟩
  case size => exact fun hn => Memory.access_error (accessCheck_badSize hn) m v
  case cross => exact fun hn ha => Memory.access_error (accessCheck_pageCross hn ha) m v
  case unmapped => exact fun hn ha => Memory.read_unmapped (accessCheck_eq_none_iff.2 ⟨hn, ha⟩)
  case mapped =>
    exact fun hn ha hm => ⟨m.readLE a n, Memory.read_eq_ok_iff.2 ⟨accessCheck_eq_none_iff.2 ⟨hn, ha⟩, hm, rfl⟩,
      m.readLE_lt n a, m.readLE_byte n a⟩

/-! ## The bytes of a write (R42, R44) -/

theorem add_one_add_ofNat (a : Word) (k : Nat) : a + 1 + BitVec.ofNat 64 k = a + BitVec.ofNat 64 (k + 1) := by
  rw [Nat.add_comm, BitVec.ofNat_add, ← BitVec.add_assoc]
  rfl

theorem slice_shiftRight_byte (v : Word) (k : Nat) : slice (v >>> 8) (8 * k) 8 = slice v (8 * (k + 1)) 8 := by
  apply BitVec.eq_of_toNat_eq
  simp only [BitVec.extractLsb'_toNat, BitVec.toNat_ushiftRight, ← Nat.shiftRight_add]
  congr 2
  omega

/-- The bytes after a write of consecutive mapped bytes: the distance from the first one says which byte of the value
stands at an address. -/
theorem Memory.byte_writeLE (n : Nat) : ∀ {m : Memory} {a : Word} (v b : Word), m.wf → n < 2 ^ 64 →
    (∀ k < n, m.mapped (a + BitVec.ofNat 64 k) = true) →
    (m.writeLE a n v).byte b = if (b - a).toNat < n then slice v (8 * (b - a).toNat) 8 else m.byte b := by
  induction n with
  | zero => intro m a v b _ _ _; rfl
  | succ n ih =>
    intro m a v b h hn hm
    have ha : m.mapped a = true := by simpa using hm 0 n.succ_pos
    have hnext : ∀ k < n, (m.putByte a (v.setWidth 8)).mapped (a + 1 + BitVec.ofNat 64 k) = true := fun k hk => by
      rw [Memory.mapped_putByte, add_one_add_ofNat]
      exact hm (k + 1) (Nat.succ_lt_succ hk)
    rw [Memory.writeLE, ih _ _ (Memory.putByte_wf h ha _) (Nat.lt_of_succ_lt hn) hnext, Memory.byte_putByte h]
    by_cases hb : b = a
    · subst hb
      have hlast : ¬ (b - (b + 1)).toNat < n := by bv_omega
      rw [if_neg hlast, if_pos rfl, BitVec.sub_self, if_pos (by simp),
        BitVec.setWidth_eq_extractLsb' (by decide : 8 ≤ 64)]
      rfl
    · have hdist : (b - a).toNat = (b - (a + 1)).toNat + 1 := by bv_omega
      rw [if_neg hb, slice_shiftRight_byte, hdist]
      simp only [Nat.add_lt_add_iff_right]

/-- The bytes after a successful write. -/
theorem Memory.byte_write {m m' : Memory} {a v : Word} {n : Nat} (h : m.wf) (hw : m.write a n v = .ok m') (b : Word) :
    m'.byte b = if (b - a).toNat < n then slice v (8 * (b - a).toNat) 8 else m.byte b := by
  obtain ⟨hc, rfl⟩ := Memory.write_eq_ok_iff.1 hw
  obtain ⟨-, ha⟩ := accessCheck_eq_none_iff.1 hc
  have hn : n ≤ 4096 := Nat.le_of_add_left_le ha
  rw [Memory.byte_writeLE n v b (Memory.mapPage_wf h a) (by omega) ?inPage, Memory.byte_mapPage]
  intro k hk
  simp [pageOf_add (Nat.lt_of_lt_of_le (Nat.add_lt_add_left hk _) ha)]

/-- A successful write maps one page. -/
theorem Memory.mapped_write {m m' : Memory} {a v : Word} {n : Nat} (hw : m.write a n v = .ok m') (b : Word) :
    m'.mapped b = (decide (pageOf b = pageOf a) || m.mapped b) := by
  obtain ⟨-, rfl⟩ := Memory.write_eq_ok_iff.1 hw
  rw [Memory.writeLE_mapped, Memory.mapped_mapPage]

theorem Memory.mapped_write_page {m m' : Memory} {a v : Word} {n : Nat} (hw : m.write a n v = .ok m') {b : Word}
    (hb : pageOf b = pageOf a) : m'.mapped b = true := by
  simp [Memory.mapped_write hw, hb]

/-- An address less than `n` bytes above one of the same access lies in its page. -/
theorem pageOf_of_sub_lt {a b : Word} {n : Nat} (hc : accessCheck a n = none) (hb : (b - a).toNat < n) :
    pageOf b = pageOf a := by
  obtain ⟨-, ha⟩ := accessCheck_eq_none_iff.1 hc
  have hpage := pageOf_add (a := a) (Nat.lt_of_lt_of_le (Nat.add_lt_add_left hb _) ha)
  rwa [BitVec.ofNat_toNat, BitVec.setWidth_eq, add_sub_cancel] at hpage

/-- Mapping a page changes the bytes of that page alone, and only where it was not mapped (R44). -/
theorem Memory.peek_mapPage {m : Memory} (h : m.wf) (a b : Word) :
    (m.mapPage a).peek b = if m.mapped b = false ∧ pageOf b = pageOf a then some 0 else m.peek b := by
  simp only [Memory.peek, Memory.mapped_mapPage, Memory.byte_mapPage]
  cases hb : m.mapped b with
  | true => simp
  | false => simp [Memory.byte_unmapped h hb]

theorem Memory.write_stores {m m' : Memory} {a v : Word} {n : Nat} (h : m.wf) (hw : m.write a n v = .ok m') :
    StoredBytes m m' a n v := by
  obtain ⟨hc, -⟩ := Memory.write_eq_ok_iff.1 hw
  refine ⟨fun b hb => ?stored, fun b hb => ?other⟩
  case stored =>
    rw [Memory.peek, Memory.mapped_write_page hw (pageOf_of_sub_lt hc hb), if_pos rfl, Memory.byte_write h hw,
      if_pos hb]
  case other =>
    rw [← Memory.peek_mapPage h]
    simp only [Memory.peek, Memory.mapped_write hw, Memory.byte_write h hw, if_neg hb, Memory.mapped_mapPage,
      Memory.byte_mapPage]

/-- Settles O40: the page is mapped first, zero-filled, then the bytes are put into it. -/
theorem memoryWrite : Obligations.MemoryWrite := by
  intro m a n v h hn ha
  have hw : m.write a n v = .ok ((m.mapPage a).writeLE a n v) :=
    Memory.write_eq_ok_iff.2 ⟨accessCheck_eq_none_iff.2 ⟨hn, ha⟩, rfl⟩
  exact ⟨_, hw, Memory.write_stores h hw, Memory.write_wf h hw,
    fun b hb => ⟨_, Memory.read_one (Memory.mapped_write_page hw hb)⟩⟩

/-! ## Reading back a part of what was written (R42) -/

/-- The number of `n` bytes is fixed by its bytes. -/
theorem Memory.readLE_eq_of_bytes (m : Memory) (n : Nat) : ∀ (a : Word) (x : Nat),
    (∀ i < n, (m.byte (a + BitVec.ofNat 64 i)).toNat = x / 2 ^ (8 * i) % 256) → m.readLE a n = x % 2 ^ (8 * n) := by
  induction n with
  | zero => intro a x _; simp [Memory.readLE, Nat.mod_one]
  | succ n ih =>
    intro a x hx
    have hfirst : (m.byte a).toNat = x % 256 := by simpa using hx 0 n.succ_pos
    have hrest : m.readLE (a + 1) n = x / 256 % 2 ^ (8 * n) := ih _ _ fun i hi => by
      rw [add_one_add_ofNat, hx (i + 1) (Nat.succ_lt_succ hi), Nat.div_div_eq_div_mul]
      ring_nf
    rw [Memory.readLE, hfirst, hrest, ← Nat.mod_mul, Nat.mul_succ, Nat.add_comm (8 * n), Nat.pow_add]

theorem offOf_add {a : Word} {k : Nat} (h : offOf a + k < pageSize) :
    offOf (a + BitVec.ofNat 64 k) = offOf a + k := by
  have ha := a.isLt
  unfold offOf pageSize at *
  rw [BitVec.toNat_add, BitVec.toNat_ofNat]
  omega

/-- After a write, a read of `j` of its bytes from the `k`-th one on gives the bits of the value from `8 * k` on. -/
theorem Memory.read_part_of_write {m m' : Memory} {a v : Word} {n j k : Nat} (h : m.wf) (hw : m.write a n v = .ok m')
    (hj : j ∈ [1, 2, 4, 8]) (hkj : k + j ≤ n) :
    m'.read (a + BitVec.ofNat 64 k) j = .ok (v.toNat / 2 ^ (8 * k) % 2 ^ (8 * j)) := by
  obtain ⟨hc, -⟩ := Memory.write_eq_ok_iff.1 hw
  obtain ⟨-, ha⟩ := accessCheck_eq_none_iff.1 hc
  have hj0 : 0 < j := Nat.pos_of_ne_zero fun e => by simp [e] at hj
  have hk : offOf a + k < pageSize := by omega
  have hoff : offOf (a + BitVec.ofNat 64 k) + j ≤ pageSize := by rw [offOf_add hk]; omega
  refine Memory.read_eq_ok_iff.2 ⟨accessCheck_eq_none_iff.2 ⟨hj, hoff⟩, ?mapped, m'.readLE_eq_of_bytes j _ _ ?bytes⟩
  case mapped => exact Memory.mapped_write_page hw (pageOf_add hk)
  case bytes =>
    intro i hi
    have hdist : (a + BitVec.ofNat 64 (k + i) - a).toNat = k + i := by
      rw [add_sub_cancel_left, BitVec.toNat_ofNat, Nat.mod_eq_of_lt]
      unfold pageSize at ha
      omega
    rw [BitVec.add_assoc, ← BitVec.ofNat_add, Memory.byte_write h hw, hdist, if_pos (by omega),
      BitVec.extractLsb'_toNat, Nat.shiftRight_eq_div_pow, Nat.div_div_eq_div_mul, ← Nat.pow_add, Nat.mul_add]

/-- A read gives a number of its width. -/
theorem Memory.read_lt {m : Memory} {a : Word} {n x : Nat} (h : m.read a n = .ok x) : x < 2 ^ (8 * n) := by
  obtain ⟨-, -, rfl⟩ := Memory.read_eq_ok_iff.1 h
  exact m.readLE_lt n a

/-- Settles O41: all bytes, one byte and the upper four bytes are parts of the written value; a fetched word is the
four-byte read itself. -/
theorem littleEndian : Obligations.LittleEndian := by
  refine ⟨fun m m' a n v h hw => ?whole, fun m m' a v h hw => ⟨fun k hk => ?byte, ?upper⟩, fun s t f hD ht hf => ?fetch⟩
  case whole =>
    obtain ⟨hn, -⟩ := accessCheck_eq_none_iff.1 (Memory.write_eq_ok_iff.1 hw).1
    simpa using Memory.read_part_of_write (k := 0) h hw hn (by omega)
  case byte =>
    rw [Memory.read_part_of_write h hw (by simp) hk, BitVec.extractLsb'_toNat, Nat.shiftRight_eq_div_pow]
  case upper =>
    rw [BitVec.extractLsb'_toNat, Nat.shiftRight_eq_div_pow]
    exact Memory.read_part_of_write (j := 4) (k := 4) h hw (by simp) le_rfl
  case fetch =>
    subst ht
    obtain ⟨k, -, ht⟩ | ⟨x, hx, ht⟩ := fetchStage_cases s <;> rw [ht] at hf
    · rw [State.raiseFatal_slotD, State.access_slotD, hD] at hf
      cases hf
    · cases hf
      rw [hx, BitVec.toNat_ofNat, Nat.mod_eq_of_lt (Memory.read_lt hx)]

end Sys2Proof.Machine
end

section
/-! Allocating and deallocating a page, and what a cycle can do to the memory: no step removes a page
(spec/20_memory.md R44, R45). -/

namespace Sys2Proof.Machine

/-! ## Allocating and deallocating (R45) -/

theorem Memory.mapped_congr {m : Memory} {a b : Word} (h : pageOf b = pageOf a) : m.mapped b = m.mapped a := by
  rw [Memory.mapped, h, Memory.mapped]

theorem Memory.allocate_mapped {m : Memory} {a : Word} (h : m.mapped a = true) :
    m.allocate a = .error .doubleAllocation :=
  if_pos h

theorem Memory.allocate_unmapped {m : Memory} {a : Word} (h : m.mapped a = false) :
    m.allocate a = .ok (m.mapPage a) :=
  if_neg (by simp [h])

/-- Mapping a page that was not mapped makes its bytes zero and changes no other. -/
theorem Memory.peek_mapPage_new {m : Memory} (h : m.wf) {a : Word} (ha : m.mapped a = false) (b : Word) :
    (m.mapPage a).peek b = if pageOf b = pageOf a then some 0 else m.peek b := by
  rw [Memory.peek_mapPage h]
  by_cases hb : pageOf b = pageOf a
  · rw [if_pos ⟨(Memory.mapped_congr hb).trans ha, hb⟩, if_pos hb]
  · rw [if_neg fun hc => hb hc.2, if_neg hb]

/-- The memory after its page of `a` has been removed. -/
def Memory.unmapPage (m : Memory) (a : Word) : Memory :=
  { pages := keyErase (pageOf a) m.pages
    cells := m.cells.filter (fun c => c.1 - c.1 % pageSize != pageOf a) }

theorem Memory.deallocate_unmapped {m : Memory} {a : Word} (h : m.mapped a = false) :
    m.deallocate a = .error .missingPage :=
  if_neg (by simp [h])

theorem Memory.deallocate_mapped {m : Memory} {a : Word} (h : m.mapped a = true) :
    m.deallocate a = .ok (m.unmapPage a) :=
  if_pos h

/-- Removing entries by their keys leaves the values of the other keys. -/
theorem sparseGet_filter {β : Type} {d : β} {keep : Nat → Bool} {k : Nat} (hk : keep k = true) (t : List (Nat × β)) :
    sparseGet d k (t.filter fun e => keep e.1) = sparseGet d k t := by
  induction t with
  | nil => rfl
  | cons e t ih =>
    obtain ⟨j, v⟩ := e
    by_cases hj : j = k
    · subst hj
      simp [hk, sparseGet]
    · cases hkeep : keep j <;> simp [hkeep, sparseGet, hj, ih]

theorem Memory.mapped_unmapPage (m : Memory) (a b : Word) :
    (m.unmapPage a).mapped b = (m.mapped b && pageOf b != pageOf a) := by
  rw [Bool.eq_iff_iff]
  simp [Memory.mapped, Memory.unmapPage, keyErase]

theorem Memory.byte_unmapPage {m : Memory} {a b : Word} (h : pageOf b ≠ pageOf a) :
    (m.unmapPage a).byte b = m.byte b :=
  sparseGet_filter (keep := fun k => k - k % pageSize != pageOf a) (bne_iff_ne.2 h) m.cells

theorem Memory.peek_unmapPage (m : Memory) (a b : Word) :
    (m.unmapPage a).peek b = if pageOf b = pageOf a then none else m.peek b := by
  by_cases hb : pageOf b = pageOf a
  · simp [Memory.peek, Memory.mapped_unmapPage, hb]
  · simp [Memory.peek, Memory.mapped_unmapPage, Memory.byte_unmapPage hb, hb]

/-! ## What a cycle can do to the memory -/

/-- Every page of `m` is mapped in `m'`. -/
def Memory.KeepsPages (m m' : Memory) : Prop := ∀ a, m.mapped a = true → m'.mapped a = true

theorem Memory.KeepsPages.refl (m : Memory) : m.KeepsPages m := fun _ h => h

theorem Memory.KeepsPages.trans {m m' m'' : Memory} (h : m.KeepsPages m') (h' : m'.KeepsPages m'') :
    m.KeepsPages m'' :=
  fun a ha => h' a (h a ha)

theorem Memory.keepsPages_mapPage (m : Memory) (a : Word) : m.KeepsPages (m.mapPage a) := fun b hb => by simp [hb]

theorem Memory.keepsPages_write {m m' : Memory} {a v : Word} {n : Nat} (hw : m.write a n v = .ok m') :
    m.KeepsPages m' := fun b hb => by
  simp [Memory.mapped_write hw, hb]

theorem Memory.keepsPages_write1 (m : Memory) (a : Word) (b : Byte) : m.KeepsPages (m.write1 a b) :=
  m.keepsPages_mapPage a

theorem Memory.keepsPages_putString (text : List Byte) :
    ∀ (m : Memory) (a : Word), m.KeepsPages (m.putString a text) := by
  induction text with
  | nil => exact fun m a => m.keepsPages_write1 a 0
  | cons b t ih => exact fun m a => (m.keepsPages_write1 a b).trans (ih _ (a + 1))

theorem keepsPages_allocatePages (n : Nat) (a : Word) (m : Memory) : m.KeepsPages (allocatePages n a m).1 := by
  intro b hb
  obtain ⟨-, hpages⟩ := allocatePages_keeps n a m
  rw [Memory.mapped, List.contains_iff_mem] at hb ⊢
  exact hpages _ hb

/-- AccessMemory changes the memory by one MemWrite at most (R323 to R326). -/
theorem accessMemory_mem (s : State) :
    (accessMemory s).mem = s.mem ∨ ∃ a n v, s.mem.write a n v = .ok (accessMemory s).mem := by
  cases hM : s.slotM with
  | none => exact .inl (by rw [accessMemory_empty hM])
  | some r =>
    cases hl : r.kind.isLoad with
    | true =>
      obtain ⟨k, -, ht⟩ | ⟨x, -, ht⟩ := accessMemory_load hM hl <;> exact .inl (by rw [ht]; rfl)
    | false =>
      cases hs : r.kind.isStore with
      | true =>
        obtain ⟨k, -, ht⟩ | ⟨m, hm, ht⟩ := accessMemory_store hM hl hs
        · exact .inl (by rw [ht]; rfl)
        · exact .inr ⟨_, _, _, by rw [ht]; exact hm⟩
      | false => exact .inl (by rw [accessMemory_other hM hl hs])

theorem beforeExecute_mem (s : State) :
    (beforeExecute s).mem = s.mem ∨ ∃ a n v, s.mem.write a n v = .ok (beforeExecute s).mem := by
  obtain ⟨-, -, -, -, -, -, -, -, -, hmem, -⟩ := writeBack_frame s.tick
  have h := accessMemory_mem (writeBack s.tick)
  rwa [hmem] at h

/-- A service writes a string, or allocates pages, or leaves the memory as it is (R225 to R238). -/
def ServiceMemory (s t : State) : Prop :=
  t.mem = s.mem ∨ (∃ a text, t.mem = s.mem.putString a text) ∨ ∃ n a, t.mem = (allocatePages n a s.mem).1

theorem performService_mem {v : Service} {s t : State} {r : Record} {arg : Word}
    (ht : performService v s r arg = .next t) : ServiceMemory s t := by
  cases v with
  | printString =>
    rw [performService, servicePrintString] at ht
    split at ht <;> cases ht <;> exact .inl rfl
  | heapAllocate =>
    cases ht
    refine .inr (.inr ⟨(roundToPages arg).toNat / pageSize, s.heapPtr, ?_⟩)
    rw [serviceHeapAllocate]
    split <;> rename_i hm <;> rw [hm] <;> rfl
  | readString => cases ht; exact .inr (.inl ⟨_, _, rfl⟩)
  | exit | printChar | printInt | printLong | seedRandom | readChar | readInt | readLong | random | wallClockTime =>
    cases ht; exact .inl rfl

theorem execEcall_mem {s t : State} {r : Record} (hE : s.slotE = some r) (ht : execEcall s = .next t) :
    ServiceMemory s t := by
  rw [execEcall_holds hE] at ht
  split at ht
  · cases ht
    exact .inl (State.detectLoadUse_mem s _)
  · simpa only [ServiceMemory, State.detectLoadUse_mem] using performService_mem ht

/-- Only the services of ECALL change the memory in Execute (R331). -/
theorem execute_mem {s t : State} (ht : execute s = .next t) : ServiceMemory s t := by
  cases hE : s.slotE with
  | none =>
    rw [execute_empty hE] at ht
    cases ht
    exact .inl rfl
  | some r =>
    rw [execute_holds hE] at ht
    by_cases hop : r.op = .ecall
    · exact execEcall_mem hE (by rwa [hop] at ht)
    · obtain ⟨-, -, hmem, -⟩ := (ht ▸ exec_handsOn r.op hop hE : HandsOn s r (.next t)).record
      exact .inl hmem

theorem beforeExecute_keepsPages (s : State) : s.mem.KeepsPages (beforeExecute s).mem := by
  obtain hmem | ⟨a, n, v, hw⟩ := beforeExecute_mem s
  · exact hmem ▸ .refl _
  · exact Memory.keepsPages_write hw

theorem execute_keepsPages {s t : State} (ht : execute s = .next t) : s.mem.KeepsPages t.mem := by
  obtain hmem | ⟨a, text, hmem⟩ | ⟨n, a, hmem⟩ := execute_mem ht <;> rw [hmem]
  · exact .refl _
  · exact Memory.keepsPages_putString text _ a
  · exact keepsPages_allocatePages n a _

/-- No step removes a page (R45): a cycle writes, stores strings and allocates. -/
theorem step_keepsPages {s t : State} (hstep : step s = .next t) : s.mem.KeepsPages t.mem := by
  refine step_keeps (P := fun u => s.mem.KeepsPages u.mem) hstep (.refl _) (beforeExecute_keepsPages s)
    ?exec ?decode ?fetch
  case exec => exact fun e he hb => hb.trans (execute_keepsPages he)
  case decode =>
    intro u hu
    obtain ⟨-, -, hmem, -⟩ := decodeStage_frame u
    rwa [hmem]
  case fetch =>
    intro u _ hu
    obtain ⟨-, -, hmem, -⟩ := fetchStage_frame u
    rwa [hmem]

/-- Settles O42: both operations ask whether the page is mapped; no stage of a cycle removes a page. -/
theorem allocateDeallocate : Obligations.AllocateDeallocate := by
  refine ⟨fun m a h => ⟨Memory.allocate_mapped, ?allocates, Memory.deallocate_unmapped, ?deallocates⟩,
    fun s t a hstep => step_keepsPages hstep a⟩
  case allocates =>
    intro ha
    have hok := Memory.allocate_unmapped ha
    exact ⟨_, hok, Memory.allocate_wf h hok, Memory.peek_mapPage_new h ha⟩
  case deallocates =>
    intro ha
    have hok := Memory.deallocate_mapped ha
    exact ⟨_, hok, Memory.deallocate_wf h hok, m.peek_unmapPage a⟩

end Sys2Proof.Machine
end

section
/-! What a cache level answers to a request, sends down and counts, path by path: a hit, a miss that allocates, a miss
that passes by (spec/25_cache.md R65 to R70, R72, R73, R76). -/

namespace Sys2Proof.Machine

/-! ## Which path a request takes (R65, R67) -/

theorem hitWay_eq_none {ws : List Block} {tag : Nat} (h : ∀ b ∈ ws, ¬ (b.valid = true ∧ b.tag = tag)) :
    hitWay ws tag = none := by
  simpa [hitWay] using h

theorem hitWay_eq_none_of_not_exists {ws : List Block} {tag : Nat}
    (h : ¬ ∃ (k : Nat) (b : Block), ws[k]? = some b ∧ b.valid = true ∧ b.tag = tag) : hitWay ws tag = none := by
  refine hitWay_eq_none fun b hb hmatch => h ?_
  obtain ⟨k, hk⟩ := List.mem_iff_getElem?.1 hb
  exact ⟨k, b, hk, hmatch⟩

/-- In a lawful level the search for a tag finds the one way that holds it (R71). -/
theorem CacheLevel.Ok.hitWay_eq {l : CacheLevel} (hl : l.Ok) {j k tag : Nat} {b : Block}
    (hb : (l.ways j)[k]? = some b) (hvalid : b.valid = true) (htag : b.tag = tag) :
    hitWay (l.ways j) tag = some k := by
  obtain ⟨-, -, -, -, htags, -⟩ := hl
  cases hhit : hitWay (l.ways j) tag with
  | none => exact absurd ⟨hvalid, htag⟩ (hitWay_none hhit (List.mem_of_getElem? hb))
  | some k' =>
    obtain ⟨b', hb', hvalid', htag'⟩ := hitWay_some hhit
    rw [htags j k' k b' b hb' hb hvalid' hvalid (htag'.trans htag.symm)]

section
variable {σ : Type} (lower : σ → Request → σ × Reply) {l : CacheLevel} (low : σ) {q : Request}

theorem CacheLevel.handleRequest_hit {k : Nat}
    (h : hitWay (l.ways (indexOf l.cfg q.addr)) (tagOf l.cfg q.addr) = some k) :
    l.handleRequest lower low q = l.count.onHit lower low q k := by
  simp [CacheLevel.handleRequest, h]

theorem CacheLevel.handleRequest_allocate
    (h : hitWay (l.ways (indexOf l.cfg q.addr)) (tagOf l.cfg q.addr) = none)
    (halloc : q.isRead = true ∨ l.cfg.writeAllocate = true) :
    l.handleRequest lower low q = l.count.countMiss.onMissAllocate lower low q := by
  simp [CacheLevel.handleRequest, h, halloc]

theorem CacheLevel.handleRequest_bypass
    (h : hitWay (l.ways (indexOf l.cfg q.addr)) (tagOf l.cfg q.addr) = none)
    (hwrite : q.isRead = false) (halloc : l.cfg.writeAllocate = false) :
    l.handleRequest lower low q = l.count.countMiss.onMissBypass lower low q := by
  simp [CacheLevel.handleRequest, h, hwrite, halloc]

end

/-! ## The requests a level sends down (R68, R69) -/

/-- The read of the full block that fills a way (R68). -/
def CacheLevel.fillRequest (l : CacheLevel) (q : Request) : Request :=
  { addr := blockBase l.cfg q.addr, size := l.cfg.blockSize, isRead := true }

/-- The write of a full victim block of a set (R69). -/
def CacheLevel.writeBackRequest (l : CacheLevel) (index : Nat) (v : Block) : Request :=
  { addr := blockAddress l.cfg v.tag index, size := l.cfg.blockSize, isRead := false }

/-- A write goes through to the lower level (R66, R72). -/
def CacheLevel.sendsWrite (l : CacheLevel) (q : Request) : Bool := !q.isRead && l.cfg.writeThrough

@[simp] theorem CacheLevel.count_sendsWrite (l : CacheLevel) (q : Request) : l.count.sendsWrite q = l.sendsWrite q := rfl

theorem CacheLevel.sendsWrite_eq_true {l : CacheLevel} {q : Request} (hwrite : q.isRead = false)
    (hthrough : l.cfg.writeThrough = true) : l.sendsWrite q = true := by
  simp [CacheLevel.sendsWrite, hwrite, hthrough]

theorem CacheLevel.sendsWrite_eq_false {l : CacheLevel} {q : Request}
    (h : q.isRead = true ∨ l.cfg.writeThrough = false) : l.sendsWrite q = false := by
  rcases h with h | h <;> simp [CacheLevel.sendsWrite, h]

/-- The block a miss would have to write back: the oldest of a full set, when it is dirty and the level is write-back
(R69). -/
def CacheLevel.DirtyVictim (l : CacheLevel) (index : Nat) (v : Block) : Prop :=
  l.cfg.writeThrough = false ∧ (∀ b ∈ l.ways index, b.valid = true) ∧ v ∈ l.ways index ∧
  (∀ b ∈ l.ways index, v.ctr ≤ b.ctr) ∧ v.dirty = true

theorem freeWay_eq_none {ws : List Block} (hfull : ∀ b ∈ ws, b.valid = true) : freeWay ws = none := by
  simpa [freeWay] using hfull

theorem getElem?_oldestWay {ws : List Block} (h : ws ≠ []) : ws[oldestWay ws]? = some (wayOf ws (oldestWay ws)) := by
  have hway := List.getElem?_eq_getElem (oldestWay_spec ws h).1
  rw [wayOf_eq hway]
  exact hway

/-- In a full set of a lawful level one block has the smallest stamp (R63, R69). -/
theorem CacheLevel.Ok.wayOf_oldestWay_eq {l : CacheLevel} (hl : l.Ok) {j : Nat} {v : Block}
    (hfull : ∀ b ∈ l.ways j, b.valid = true) (hv : v ∈ l.ways j) (holdest : ∀ b ∈ l.ways j, v.ctr ≤ b.ctr) :
    wayOf (l.ways j) (oldestWay (l.ways j)) = v := by
  obtain ⟨-, -, -, -, -, hstamps, -⟩ := hl
  have hway := getElem?_oldestWay (List.ne_nil_of_mem hv)
  have hmem := List.mem_of_getElem? hway
  have hctr := Nat.le_antisymm ((oldestWay_spec _ (List.ne_nil_of_mem hv)).2 v hv) (holdest _ hmem)
  obtain ⟨k, hk⟩ := List.mem_iff_getElem?.1 hv
  obtain ⟨-, hplace⟩ := hstamps j j _ k _ v hway hk (hfull _ hmem) (hfull v hv) hctr
  exact wayOf_eq (hplace ▸ hk)

section
variable {σ : Type} (lower : σ → Request → σ × Reply) (l : CacheLevel) (low : σ) (q : Request)

/-! ## The way a miss fills: its cost and its count (R68, R69) -/

theorem CacheLevel.chooseWay_free {index k : Nat} (h : freeWay (l.ways index) = some k) :
    l.chooseWay lower low index = (l, low, k, 0) := by
  simp [CacheLevel.chooseWay, h]

theorem CacheLevel.chooseWay_full {index : Nat} (h : freeWay (l.ways index) = none) :
    l.chooseWay lower low index = l.chooseVictim lower low index := by
  simp [CacheLevel.chooseWay, h]

theorem CacheLevel.chooseVictim_level (index : Nat) : (l.chooseVictim lower low index).1 = l.countReplace := by
  unfold CacheLevel.chooseVictim
  dsimp only
  split <;> rfl

/-- Choosing the way counts a replacement when no way is free. -/
theorem CacheLevel.chooseWay_level (index : Nat) :
    (l.chooseWay lower low index).1 = if freeWay (l.ways index) = none then l.countReplace else l := by
  cases hfree : freeWay (l.ways index) with
  | some k => rw [l.chooseWay_free lower low hfree]; rfl
  | none => rw [l.chooseWay_full lower low hfree, CacheLevel.chooseVictim_level]; rfl

/-- The counts of the level play no part in the choice. -/
theorem CacheLevel.chooseWay_congr {l l' : CacheLevel} (hcfg : l'.cfg = l.cfg) (hsets : l'.sets = l.sets) (index : Nat) :
    (l'.chooseWay lower low index).2 = (l.chooseWay lower low index).2 := by
  simp only [CacheLevel.chooseWay, CacheLevel.chooseVictim, CacheLevel.ways_congr hcfg hsets, hcfg]
  split
  · rfl
  · split <;> rfl

/-- Without a dirty victim the choice sends nothing down. -/
theorem CacheLevel.chooseWay_clean {index : Nat} (hways : l.ways index ≠ []) (h : ∀ v, ¬ l.DirtyVictim index v) :
    (l.chooseWay lower low index).2 = (low, fillWay (l.ways index), 0) := by
  cases hfree : freeWay (l.ways index) with
  | some k => simp [l.chooseWay_free lower low hfree, fillWay, hfree]
  | none =>
    rw [l.chooseWay_full lower low hfree, CacheLevel.chooseVictim]
    dsimp only
    rw [if_neg]
    · simp [fillWay, hfree]
    · simp only [Bool.and_eq_true, Bool.not_eq_true']
      rintro ⟨⟨-, hdirty⟩, hback⟩
      exact h _ ⟨hback, fun b => freeWay_none hfree, List.mem_of_getElem? (getElem?_oldestWay hways),
        (oldestWay_spec _ hways).2, hdirty⟩

/-- With a dirty victim the choice writes it back. -/
theorem CacheLevel.Ok.chooseWay_dirty {l : CacheLevel} (hl : l.Ok) {index : Nat} {v : Block}
    (h : l.DirtyVictim index v) :
    (l.chooseWay lower low index).2 = ((lower low (l.writeBackRequest index v)).1, fillWay (l.ways index),
      (lower low (l.writeBackRequest index v)).2.latency) := by
  obtain ⟨hback, hfull, hv, holdest, hdirty⟩ := h
  have hfree : freeWay (l.ways index) = none := freeWay_eq_none hfull
  rw [l.chooseWay_full lower low hfree, CacheLevel.chooseVictim, hl.wayOf_oldestWay_eq hfull hv holdest]
  simp [hfull v hv, hdirty, hback, CacheLevel.writeBackRequest, fillWay, hfree]

/-! ## The answer of a path: the lower level after it, and the reply (R66, R68, R70, R76) -/

theorem CacheLevel.onHit_answer (w : Nat) :
    (l.onHit lower low q w).2 =
      if l.sendsWrite q then
        ((lower low q).1,
          ⟨true, l.cfg.busLatency + l.cfg.hitLatency + (lower low q).2.latency + l.cfg.busLatency⟩)
      else (low, ⟨true, l.cfg.busLatency + l.cfg.hitLatency⟩) := by
  unfold CacheLevel.onHit CacheLevel.sendsWrite
  cases hr : q.isRead <;> cases hw : l.cfg.writeThrough <;> simp

/-- The answer, from what choosing the way and filling it have cost the lower level. -/
theorem CacheLevel.onMissAllocate_answer {low1 low2 : σ} {k back : Nat} {fill : Reply}
    (hchoose : (l.chooseWay lower low (indexOf l.cfg q.addr)).2 = (low1, k, back))
    (hfill : lower low1 (l.fillRequest q) = (low2, fill)) :
    (l.onMissAllocate lower low q).2 =
      if l.sendsWrite q then
        ((lower low2 q).1,
          ⟨false, back + fill.latency + l.cfg.busLatency + (lower low2 q).2.latency + l.cfg.busLatency⟩)
      else (low2, ⟨false, back + fill.latency + l.cfg.busLatency⟩) := by
  rcases hl1 : l.chooseWay lower low (indexOf l.cfg q.addr) with ⟨l1, choice⟩
  obtain rfl : choice = (low1, k, back) := by rw [← hchoose, hl1]
  unfold CacheLevel.fillRequest at hfill
  simp only [CacheLevel.onMissAllocate, CacheLevel.sendsWrite, hl1, hfill, prefetchHook]
  exact apply_ite Prod.snd _ _ _

theorem CacheLevel.onMissBypass_answer :
    (l.onMissBypass lower low q).2 =
      ((lower low q).1, ⟨false, (lower low q).2.latency + l.cfg.busLatency⟩) := rfl

/-! ## The statistics of a path (R66 to R70, R73) -/

theorem CacheLevel.onHit_stats (w : Nat) :
    (l.onHit lower low q w).1.stats =
      { l.stats with
        latencyTotal := l.stats.latencyTotal +
          (l.cfg.busLatency + l.cfg.hitLatency + if l.sendsWrite q then l.cfg.busLatency else 0) } := by
  unfold CacheLevel.onHit CacheLevel.sendsWrite
  cases hr : q.isRead <;> cases hw : l.cfg.writeThrough <;> rfl

theorem CacheLevel.onMissAllocate_stats :
    (l.onMissAllocate lower low q).1.stats =
      { l.stats with
        latencyTotal := l.stats.latencyTotal +
          (l.cfg.busLatency + if l.sendsWrite q then l.cfg.busLatency else 0)
        replaceCount := l.stats.replaceCount +
          if freeWay (l.ways (indexOf l.cfg q.addr)) = none then 1 else 0
        fetchCount := l.stats.fetchCount + 1 } := by
  unfold CacheLevel.onMissAllocate CacheLevel.sendsWrite
  dsimp only [prefetchHook]
  rw [CacheLevel.chooseWay_level]
  split <;> split <;> rfl

theorem CacheLevel.onMissBypass_stats :
    (l.onMissBypass lower low q).1.stats =
      { l.stats with latencyTotal := l.stats.latencyTotal + l.cfg.busLatency } := rfl

end

end Sys2Proof.Machine
end

section
/-! The request's set after it; the latency of a request and the requests it sends down, case by case
(spec/25_cache.md R66, R68, R70, R76). -/

namespace Sys2Proof.Machine

section
variable {σ : Type} (lower : σ → Request → σ × Reply) {l : CacheLevel} (low : σ) {q : Request}

/-! ## The ways of the request's set after it (R66, R68, R70) -/

theorem CacheLevel.Ok.ways_of_setsWith (hl : l.Ok) {l' : CacheLevel} {k : Nat} {b : Block} (hcfg : l'.cfg = l.cfg)
    (hsets : l'.sets = l.setsWith q k b) (j : Nat) :
    l'.ways j = if j = indexOf l.cfg q.addr then (l.ways (indexOf l.cfg q.addr)).set k b else l.ways j := by
  obtain ⟨⟨hrising, -⟩, -⟩ := hl
  exact (CacheLevel.ways_congr (l := l.setWays _ _) hcfg hsets j).trans (CacheLevel.ways_setWays hrising _ _ _)

theorem CacheLevel.Ok.handleRequest_hit_ways (hl : l.Ok) {k : Nat} {b : Block}
    (hhit : hitWay (l.ways (indexOf l.cfg q.addr)) (tagOf l.cfg q.addr) = some k)
    (hb : (l.ways (indexOf l.cfg q.addr))[k]? = some b) :
    (l.handleRequest lower low q).1.ways (indexOf l.cfg q.addr) =
      (l.ways (indexOf l.cfg q.addr)).set k (l.count.hitBlock q b) := by
  have hsets := l.count.onHit_sets lower low q k
  rw [← CacheLevel.handleRequest_hit lower low hhit, CacheLevel.count_ways, CacheLevel.count_cfg, wayOf_eq hb] at hsets
  rw [hl.ways_of_setsWith (l.handleRequest_cfg_seq lower low q).1 hsets, if_pos rfl]

theorem CacheLevel.Ok.handleRequest_allocate_ways (hl : l.Ok)
    (hmiss : hitWay (l.ways (indexOf l.cfg q.addr)) (tagOf l.cfg q.addr) = none)
    (halloc : q.isRead = true ∨ l.cfg.writeAllocate = true) :
    (l.handleRequest lower low q).1.ways (indexOf l.cfg q.addr) =
      (l.ways (indexOf l.cfg q.addr)).set (fillWay (l.ways (indexOf l.cfg q.addr))) (l.count.fillBlock q) := by
  have hsets := l.count.countMiss.onMissAllocate_sets lower low q
  rw [← CacheLevel.handleRequest_allocate lower low hmiss halloc] at hsets
  rw [hl.ways_of_setsWith (l.handleRequest_cfg_seq lower low q).1 hsets]
  exact if_pos rfl

theorem CacheLevel.handleRequest_bypass_ways
    (hmiss : hitWay (l.ways (indexOf l.cfg q.addr)) (tagOf l.cfg q.addr) = none)
    (hwrite : q.isRead = false) (halloc : l.cfg.writeAllocate = false) (j : Nat) :
    (l.handleRequest lower low q).1.ways j = l.ways j := by
  have hsets := l.count.countMiss.onMissBypass_sets lower low q
  rw [← CacheLevel.handleRequest_bypass lower low hmiss hwrite halloc] at hsets
  exact CacheLevel.ways_congr (l.handleRequest_cfg_seq lower low q).1 hsets j

/-- An allocating miss leaves the new block in the request's set. -/
theorem CacheLevel.Ok.fillBlock_mem (hl : l.Ok) (hways : l.ways (indexOf l.cfg q.addr) ≠ [])
    (hmiss : hitWay (l.ways (indexOf l.cfg q.addr)) (tagOf l.cfg q.addr) = none)
    (halloc : q.isRead = true ∨ l.cfg.writeAllocate = true) :
    l.count.fillBlock q ∈ (l.handleRequest lower low q).1.ways (indexOf l.cfg q.addr) := by
  rw [hl.handleRequest_allocate_ways lower low hmiss halloc]
  exact List.mem_set (fillWay_lt hways) _

/-! ## The answer to a request (R66, R68, R70, R76) -/

theorem CacheLevel.handleRequest_hit_answer {k : Nat}
    (hhit : hitWay (l.ways (indexOf l.cfg q.addr)) (tagOf l.cfg q.addr) = some k) :
    (l.handleRequest lower low q).2 =
      if l.sendsWrite q then
        ((lower low q).1,
          ⟨true, l.cfg.busLatency + l.cfg.hitLatency + (lower low q).2.latency + l.cfg.busLatency⟩)
      else (low, ⟨true, l.cfg.busLatency + l.cfg.hitLatency⟩) := by
  rw [CacheLevel.handleRequest_hit lower low hhit, CacheLevel.onHit_answer, CacheLevel.count_sendsWrite,
    CacheLevel.count_cfg]

theorem CacheLevel.handleRequest_allocate_answer {low1 low2 : σ} {k back : Nat} {fill : Reply}
    (hmiss : hitWay (l.ways (indexOf l.cfg q.addr)) (tagOf l.cfg q.addr) = none)
    (halloc : q.isRead = true ∨ l.cfg.writeAllocate = true)
    (hchoose : (l.chooseWay lower low (indexOf l.cfg q.addr)).2 = (low1, k, back))
    (hfill : lower low1 (l.fillRequest q) = (low2, fill)) :
    (l.handleRequest lower low q).2 =
      if l.sendsWrite q then
        ((lower low2 q).1,
          ⟨false, back + fill.latency + l.cfg.busLatency + (lower low2 q).2.latency + l.cfg.busLatency⟩)
      else (low2, ⟨false, back + fill.latency + l.cfg.busLatency⟩) := by
  rw [CacheLevel.handleRequest_allocate lower low hmiss halloc]
  exact l.count.countMiss.onMissAllocate_answer lower low q
    ((CacheLevel.chooseWay_congr (l := l) (l' := l.count.countMiss) lower low rfl rfl _).trans hchoose) hfill

theorem CacheLevel.handleRequest_bypass_answer
    (hmiss : hitWay (l.ways (indexOf l.cfg q.addr)) (tagOf l.cfg q.addr) = none)
    (hwrite : q.isRead = false) (halloc : l.cfg.writeAllocate = false) :
    (l.handleRequest lower low q).2 = ((lower low q).1, ⟨false, (lower low q).2.latency + l.cfg.busLatency⟩) := by
  rw [CacheLevel.handleRequest_bypass lower low hmiss hwrite halloc, CacheLevel.onMissBypass_answer]
  rfl

end

/-- Settles O48: the request takes the path its hypotheses name, and the path's answer is the row's. -/
theorem latencyAndRequestsByCase : Obligations.LatencyAndRequestsByCase := by
  intro l latency q hl hcfg
  have hways := hl.ways_ne_nil hcfg (indexOf l.cfg q.addr)
  dsimp only
  refine ⟨?hit, ?hitThrough, ?missClean, ?missDirty, ?missThrough, ?bypass, ?leftDirty⟩
  case hit =>
    rintro ⟨k, b, hb, hvalid, htag⟩ hquiet
    rw [CacheLevel.handleRequest_hit_answer _ _ (hl.hitWay_eq hb hvalid htag), CacheLevel.sendsWrite_eq_false hquiet]
    rfl
  case hitThrough =>
    rintro ⟨k, b, hb, hvalid, htag⟩ hwrite hthrough
    rw [CacheLevel.handleRequest_hit_answer _ _ (hl.hitWay_eq hb hvalid htag),
      CacheLevel.sendsWrite_eq_true hwrite hthrough]
    rfl
  case missClean =>
    intro hmiss hquiet hclean
    replace hmiss := hitWay_eq_none_of_not_exists hmiss
    rw [CacheLevel.handleRequest_allocate_answer _ _ hmiss (hquiet.imp_right And.left)
      (l.chooseWay_clean _ _ hways hclean) rfl, CacheLevel.sendsWrite_eq_false (hquiet.imp_right And.right), Nat.zero_add]
    rfl
  case missDirty =>
    intro hmiss hquiet v hdirty
    replace hmiss := hitWay_eq_none_of_not_exists hmiss
    rw [CacheLevel.handleRequest_allocate_answer _ _ hmiss (hquiet.imp_right And.left)
      (hl.chooseWay_dirty _ _ hdirty) rfl, CacheLevel.sendsWrite_eq_false (hquiet.imp_right And.right)]
    rfl
  case missThrough =>
    intro hmiss hwrite halloc hthrough
    replace hmiss := hitWay_eq_none_of_not_exists hmiss
    have hclean : ∀ v, ¬ l.DirtyVictim (indexOf l.cfg q.addr) v :=
      fun _ hdirty => absurd (hthrough.symm.trans hdirty.1) (by decide)
    rw [CacheLevel.handleRequest_allocate_answer _ _ hmiss (.inr halloc)
      (l.chooseWay_clean _ _ hways hclean) rfl, CacheLevel.sendsWrite_eq_true hwrite hthrough, Nat.zero_add]
    rfl
  case bypass =>
    intro hmiss hwrite halloc
    replace hmiss := hitWay_eq_none_of_not_exists hmiss
    rw [CacheLevel.handleRequest_bypass_answer _ _ hmiss hwrite halloc]
    rfl
  case leftDirty =>
    intro hmiss hwrite halloc hback
    replace hmiss := hitWay_eq_none_of_not_exists hmiss
    refine ⟨_, hl.fillBlock_mem _ _ hways hmiss (.inr halloc), rfl, rfl, ?_⟩
    simp [CacheLevel.fillBlock, hwrite, hback]

end Sys2Proof.Machine
end

section
/-! What a request changes in a cache level (spec/25_cache.md R63, R65 to R71). -/

namespace Sys2Proof.Machine

/-- The way a miss fills is the first free one, or the oldest of a full set (R68, R69). -/
theorem fillWay_spec {ws : List Block} (h : ws ≠ []) : ∃ b, ws[fillWay ws]? = some b ∧
    (b.valid = false → freeWay ws ≠ none ∧ ∀ j < fillWay ws, ∀ c, ws[j]? = some c → c.valid = true) ∧
    (b.valid = true → freeWay ws = none ∧ ∀ c ∈ ws, c.valid = true ∧ b.ctr ≤ c.ctr) := by
  unfold fillWay
  cases hfree : freeWay ws with
  | some k =>
    obtain ⟨⟨b, hb, hinvalid⟩, hbelow⟩ := freeWay_some hfree
    exact ⟨b, hb, fun _ => ⟨Option.some_ne_none k, hbelow⟩, fun hvalid => absurd hvalid (by simp [hinvalid])⟩
  | none =>
    have hway := getElem?_oldestWay h
    refine ⟨_, hway, fun hinvalid => ?_,
      fun _ => ⟨rfl, fun c hc => ⟨freeWay_none hfree hc, (oldestWay_spec ws h).2 c hc⟩⟩⟩
    exact absurd (freeWay_none hfree (List.mem_of_getElem? hway)) (by simp [hinvalid])

section
variable {σ : Type} (lower : σ → Request → σ × Reply) {l : CacheLevel} (low : σ) {q : Request}

theorem CacheLevel.Ok.handleRequest_other_ways (hl : l.Ok) (hcfg : l.cfg.Ok) {j : Nat} (hj : j ≠ indexOf l.cfg q.addr) :
    (l.handleRequest lower low q).1.ways j = l.ways j := by
  obtain ⟨hcfg', -, -, -, hsets⟩ := l.handleRequest_effect lower low q (hl.ways_ne_nil hcfg _)
  obtain hsets | ⟨k, b, b', -, hsets⟩ := hsets
  · exact CacheLevel.ways_congr hcfg' hsets j
  · rw [hl.ways_of_setsWith hcfg' hsets, if_neg hj]

/-- Every request without a matching way counts as a miss (R67). -/
theorem CacheLevel.handleRequest_missCount
    (hmiss : hitWay (l.ways (indexOf l.cfg q.addr)) (tagOf l.cfg q.addr) = none) :
    (l.handleRequest lower low q).1.stats.missCount = l.stats.missCount + 1 := by
  by_cases halloc : q.isRead = true ∨ l.cfg.writeAllocate = true
  · rw [CacheLevel.handleRequest_allocate lower low hmiss halloc, CacheLevel.onMissAllocate_stats]
    rfl
  · rw [not_or, Bool.not_eq_true, Bool.not_eq_true] at halloc
    rw [CacheLevel.handleRequest_bypass lower low hmiss halloc.1 halloc.2, CacheLevel.onMissBypass_stats]
    rfl

end

/-- Settles O49: a request takes one of three paths; each path's set and events are known. -/
theorem requestChangesOneWay : Obligations.RequestChangesOneWay := by
  intro σ lower l low q hl hcfg
  have hways := hl.ways_ne_nil hcfg (indexOf l.cfg q.addr)
  obtain ⟨hcfg', hseq, haccess, -⟩ := l.handleRequest_effect lower low q hways
  refine ⟨hcfg', hseq, haccess, fun j hj => hl.handleRequest_other_ways lower low hcfg hj, ?hit, fun hnone => ?miss⟩
  case hit =>
    intro k b hb hvalid htag
    have hhit := hl.hitWay_eq hb hvalid htag
    have hstats := l.count.onHit_stats lower low q k
    rw [← CacheLevel.handleRequest_hit lower low hhit] at hstats
    exact ⟨hl.handleRequest_hit_ways lower low hhit hb, congrArg (·.missCount) hstats, congrArg (·.fetchCount) hstats,
      congrArg (·.replaceCount) hstats⟩
  case miss =>
    have hmiss := hitWay_eq_none hnone
    refine ⟨CacheLevel.handleRequest_missCount lower low hmiss, fun halloc => ?allocate, fun hwrite halloc => ?bypass⟩
    case allocate =>
      have hstats := l.count.countMiss.onMissAllocate_stats lower low q
      rw [← CacheLevel.handleRequest_allocate lower low hmiss halloc] at hstats
      have hreplace : (l.handleRequest lower low q).1.stats.replaceCount =
          l.stats.replaceCount + if freeWay (l.ways (indexOf l.cfg q.addr)) = none then 1 else 0 :=
        congrArg (·.replaceCount) hstats
      obtain ⟨b, hb, hfree, hfull⟩ := fillWay_spec hways
      refine ⟨congrArg (·.fetchCount) hstats, _, b, hb, hl.handleRequest_allocate_ways lower low hmiss halloc,
        fun hinvalid => ⟨?_, (hfree hinvalid).2⟩, fun hvalid => ⟨?_, (hfull hvalid).2⟩⟩
      · rw [hreplace, if_neg (hfree hinvalid).1, Nat.add_zero]
      · rw [hreplace, if_pos (hfull hvalid).1]
    case bypass =>
      have hstats := l.count.countMiss.onMissBypass_stats lower low q
      rw [← CacheLevel.handleRequest_bypass lower low hmiss hwrite halloc] at hstats
      exact ⟨CacheLevel.handleRequest_bypass_ways lower low hmiss hwrite halloc _, congrArg (·.fetchCount) hstats,
        congrArg (·.replaceCount) hstats⟩

end Sys2Proof.Machine
end

section
/-! Every cycle of a request's latency is counted at one level (spec/25_cache.md R61, R73, R75). -/

namespace Sys2Proof.Machine

section
variable {σ : Type} {lower : σ → Request → σ × Reply} {total : σ → Nat}

/-- The latency of an answer is what a level and the lower levels, whose count is `total`, have counted in giving it. -/
def CacheLevel.Balanced (total : σ → Nat) (l : CacheLevel) (low : σ) (answer : CacheLevel × σ × Reply) : Prop :=
  answer.1.stats.latencyTotal + total answer.2.1 = l.stats.latencyTotal + total low + answer.2.2.latency

variable (hlower : ∀ low q, total (lower low q).1 = total low + (lower low q).2.latency)
include hlower

theorem CacheLevel.chooseWay_latency (l : CacheLevel) (low : σ) (index : Nat) :
    total (l.chooseWay lower low index).2.1 = total low + (l.chooseWay lower low index).2.2.2 := by
  unfold CacheLevel.chooseWay CacheLevel.chooseVictim
  split
  · rfl
  · dsimp only
    split
    · exact hlower low _
    · rfl

theorem CacheLevel.onHit_balanced (l : CacheLevel) (low : σ) (q : Request) (w : Nat) :
    l.Balanced total low (l.onHit lower low q w) := by
  rw [CacheLevel.Balanced, CacheLevel.onHit_stats, CacheLevel.onHit_answer]
  split
  · simp only [hlower]
    omega
  · dsimp only
    omega

theorem CacheLevel.onMissAllocate_balanced (l : CacheLevel) (low : σ) (q : Request) :
    l.Balanced total low (l.onMissAllocate lower low q) := by
  rcases hchoice : (l.chooseWay lower low (indexOf l.cfg q.addr)).2 with ⟨low1, k, back⟩
  rcases hfill : lower low1 (l.fillRequest q) with ⟨low2, fill⟩
  have hlow1 : total low1 = total low + back := by
    simpa [hchoice] using l.chooseWay_latency hlower low (indexOf l.cfg q.addr)
  have hlow2 : total low2 = total low1 + fill.latency := by
    simpa [hfill] using hlower low1 (l.fillRequest q)
  rw [CacheLevel.Balanced, CacheLevel.onMissAllocate_stats, l.onMissAllocate_answer lower low q hchoice hfill]
  split
  · simp only [hlower]
    omega
  · dsimp only
    omega

theorem CacheLevel.onMissBypass_balanced (l : CacheLevel) (low : σ) (q : Request) :
    l.Balanced total low (l.onMissBypass lower low q) := by
  rw [CacheLevel.Balanced, CacheLevel.onMissBypass_stats, CacheLevel.onMissBypass_answer]
  simp only [hlower]
  omega

theorem CacheLevel.handleRequest_balanced (l : CacheLevel) (low : σ) (q : Request) :
    l.Balanced total low (l.handleRequest lower low q) := by
  unfold CacheLevel.handleRequest
  dsimp only
  split
  · exact l.count.onHit_balanced hlower low q _
  · split
    · exact l.count.countMiss.onMissAllocate_balanced hlower low q
    · exact l.count.countMiss.onMissBypass_balanced hlower low q

end

/-- The sum of the latency statistics of a chain's levels and its backing memory (R73). -/
def chainLatency (p : List CacheLevel × Backing) : Nat :=
  (p.1.map fun l => l.stats.latencyTotal).sum + p.2.stats.latencyTotal

theorem State.totalLatency_eq (s : State) : s.totalLatency = chainLatency (s.levels, s.backing) := rfl

theorem chainLatency_cons (l : CacheLevel) (ls : List CacheLevel) (b : Backing) :
    chainLatency (l :: ls, b) = l.stats.latencyTotal + chainLatency (ls, b) := by
  simp [chainLatency, Nat.add_assoc]

theorem chainLatency_backing (ls : List CacheLevel) (b : Backing) :
    chainLatency (ls, b.handleRequest.1) = chainLatency (ls, b) + b.handleRequest.2.latency :=
  (Nat.add_assoc ..).symm

theorem chainRequest_latency (n : Nat) : ∀ (p : List CacheLevel × Backing) (q : Request),
    chainLatency (chainRequest n p q).1 = chainLatency p + (chainRequest n p q).2.latency := by
  induction n with
  | zero => exact fun p _ => chainLatency_backing p.1 p.2
  | succ n ih =>
    rintro ⟨ls, b⟩ q
    cases ls with
    | nil => exact chainLatency_backing [] b
    | cons l ls =>
      have hlevel := l.handleRequest_balanced ih (ls, b) q
      rw [chainRequest_cons, chainLatency_cons, chainLatency_cons]
      exact hlevel

/-- Settles O50: an Access is one request to the chain, and every level of the chain counts its own share. -/
theorem latencyIsCountedOnce : Obligations.LatencyIsCountedOnce := by
  intro s a n isRead
  have hchain := chainRequest_latency s.levels.length (s.levels, s.backing) ⟨a, n, isRead⟩
  have hdelay : (s.access a n isRead).counters.memDelayCycles = s.counters.memDelayCycles +
    (chainRequest s.levels.length (s.levels, s.backing) ⟨a, n, isRead⟩).2.latency := rfl
  have htotal : (s.access a n isRead).totalLatency =
    chainLatency (chainRequest s.levels.length (s.levels, s.backing) ⟨a, n, isRead⟩).1 := rfl
  rw [State.totalLatency_eq s]
  omega

end Sys2Proof.Machine
end

section
/-! How the fields of an encoding fit together: adjacent slices, and for each format the immediate that its fields carry
and the word they make up (spec/30_encoding.md R93, R94, R110, R112). -/

namespace Sys2Proof

/-! ## Slices side by side -/

/-- Two adjacent slices are one. -/
theorem slice_join {w : Nat} (x : BitVec w) {lo k lo' n : Nat} (h : lo' = lo + k) :
    slice x lo' n ++ slice x lo k = slice x lo (n + k) := by
  subst h
  exact BitVec.extractLsb'_append_extractLsb'_eq_extractLsb' rfl

/-- A part of a known slice. -/
theorem slice_of_slice {w lo k : Nat} {x : BitVec w} {v : BitVec k} (h : slice x lo k = v) (lo' k' : Nat)
    (hle : lo' + k' ≤ k) : slice x (lo + lo') k' = slice v lo' k' := by
  rw [← h, slice_slice _ _ _ _ _ hle]

/-- The low bits of a multiple of `2^k` are a slice of it. -/
theorem zero_eq_slice {n k : Nat} {imm : BitVec n} (h : lowZero imm k = true) : 0#k = slice imm 0 k := by
  have hmod : imm.toNat % 2 ^ k = 0 := by simpa [lowZero] using h
  apply BitVec.eq_of_toNat_eq
  simp [hmod]

/-- What stands above `k` zero bits is a multiple of `2^k`. -/
@[simp] theorem lowZero_append_zero {m : Nat} (x : BitVec m) (k : Nat) : lowZero (x ++ 0#k) k = true := by
  simp [lowZero, BitVec.toNat_append, Nat.shiftLeft_eq]

/-- A concatenation is zero where both its parts are. -/
theorem toNat_append_eq_zero_iff {m n : Nat} {x : BitVec m} {y : BitVec n} :
    (x ++ y).toNat = 0 ↔ x.toNat = 0 ∧ y.toNat = 0 := by
  simp [BitVec.toNat_append, Nat.shiftLeft_eq]

/-! ## The word that the fields of a 32-bit format make up -/

section
variable {code : BitVec 32} {funct7 : BitVec 7} {funct6 : BitVec 6} {funct3 : BitVec 3} {opcode : BitVec 7}

theorem encR_of_fields (h7 : funct7Of code = funct7) (h3 : funct3Of code = funct3) (h : opcodeOf code = opcode) :
    encR funct7 (rs2Of code) (rs1Of code) funct3 (rdOf code) opcode = code := by
  subst h7 h3 h
  simp (disch := omega) only [encR, slice_join, slice_self]

theorem encI_of_fields (h3 : funct3Of code = funct3) (h : opcodeOf code = opcode) :
    encI (immIOf code) (rs1Of code) funct3 (rdOf code) opcode = code := by
  subst h3 h
  simp (disch := omega) only [encI, slice_join, slice_self]

theorem encShift_of_fields (h6 : funct6Of code = funct6) (h3 : funct3Of code = funct3) (h : opcodeOf code = opcode) :
    encShift funct6 (shamt6Of code) (rs1Of code) funct3 (rdOf code) opcode = code := by
  subst h6 h3 h
  simp (disch := omega) only [encShift, slice_join, slice_self]

theorem encS_of_fields (h3 : funct3Of code = funct3) (h : opcodeOf code = opcode) :
    encS (immSOf code) (rs2Of code) (rs1Of code) funct3 opcode = code := by
  subst h3 h
  simp (disch := omega) only [encS, slice_append_low, slice_append_high, Nat.reduceSub, slice_self, slice_join]

theorem encB_of_fields (h3 : funct3Of code = funct3) (h : opcodeOf code = opcode) :
    encB (immBOf code) (rs2Of code) (rs1Of code) funct3 opcode = code := by
  subst h3 h
  simp (disch := omega) only [encB, slice_append_low, slice_append_high, Nat.reduceSub, slice_self, slice_join]

theorem encU_of_fields (h : opcodeOf code = opcode) : encU (immUOf code) (rdOf code) opcode = code := by
  subst h
  simp (disch := omega) only [encU, slice_join, slice_self]

theorem encJ_of_fields (h : opcodeOf code = opcode) : encJ (immJOf code) (rdOf code) opcode = code := by
  subst h
  simp (disch := omega) only [encJ, slice_append_low, slice_append_high, Nat.reduceSub, slice_self, slice_join]

end

/-! ## The immediates of the compressed formats -/

theorem cImm4spnOf_encCIW {imm : BitVec 10} (rdp : CReg) (h : lowZero imm 2 = true) :
    cImm4spnOf (encCIW imm rdp) = imm := by
  simp (disch := omega) only [cImm4spnOf, encCIW, slice_append_low, slice_append_high, Nat.reduceSub, slice_self,
    zero_eq_slice h, slice_join]

theorem cImmWOf_encCLW {imm : BitVec 7} (funct3 : BitVec 3) (rs1p lowp : CReg) (h : lowZero imm 2 = true) :
    cImmWOf (encCLW funct3 imm rs1p lowp) = imm := by
  simp (disch := omega) only [cImmWOf, encCLW, slice_append_low, slice_append_high, Nat.reduceSub, slice_self,
    zero_eq_slice h, slice_join]

theorem cImmDOf_encCLD {imm : BitVec 8} (funct3 : BitVec 3) (rs1p lowp : CReg) (h : lowZero imm 3 = true) :
    cImmDOf (encCLD funct3 imm rs1p lowp) = imm := by
  simp (disch := omega) only [cImmDOf, encCLD, slice_append_low, slice_append_high, Nat.reduceSub, slice_self,
    zero_eq_slice h, slice_join]

@[simp] theorem cImm6Of_encCI (funct3 : BitVec 3) (imm : BitVec 6) (rd : Reg) (op : BitVec 2) :
    cImm6Of (encCI funct3 imm rd op) = imm := by
  simp (disch := omega) only [cImm6Of, encCI, slice_append_low, slice_append_high, Nat.reduceSub, slice_self,
    slice_join]

@[simp] theorem cImm6Of_encCBi (funct2 : BitVec 2) (imm : BitVec 6) (rdp : CReg) :
    cImm6Of (encCBi funct2 imm rdp) = imm := by
  simp (disch := omega) only [cImm6Of, encCBi, slice_append_low, slice_append_high, Nat.reduceSub, slice_self,
    slice_join]

theorem cImm16spOf_encC16sp {imm : BitVec 10} (h : lowZero imm 4 = true) : cImm16spOf (encC16sp imm) = imm := by
  simp (disch := omega) only [cImm16spOf, encC16sp, slice_append_low, slice_append_high, Nat.reduceSub, slice_self,
    zero_eq_slice h, slice_join]

theorem cImmLuiOf_encCLui {imm : BitVec 18} (rd : Reg) (h : lowZero imm 12 = true) :
    cImmLuiOf (encCLui imm rd) = imm := by
  simp (disch := omega) only [cImmLuiOf, encCLui, slice_append_low, slice_append_high, Nat.reduceSub, slice_self,
    zero_eq_slice h, slice_join]

theorem cImmJOf_encCJ {imm : BitVec 12} (h : lowZero imm 1 = true) : cImmJOf (encCJ imm) = imm := by
  simp (disch := omega) only [cImmJOf, encCJ, slice_append_low, slice_append_high, Nat.reduceSub, slice_self,
    zero_eq_slice h, slice_join]

theorem cImmBOf_encCB {imm : BitVec 9} (funct3 : BitVec 3) (rs1p : CReg) (h : lowZero imm 1 = true) :
    cImmBOf (encCB funct3 imm rs1p) = imm := by
  simp (disch := omega) only [cImmBOf, encCB, slice_append_low, slice_append_high, Nat.reduceSub, slice_self,
    zero_eq_slice h, slice_join]

theorem cImmLwspOf_encCLwsp {imm : BitVec 8} (rd : Reg) (h : lowZero imm 2 = true) :
    cImmLwspOf (encCLwsp imm rd) = imm := by
  simp (disch := omega) only [cImmLwspOf, encCLwsp, slice_append_low, slice_append_high, Nat.reduceSub, slice_self,
    zero_eq_slice h, slice_join]

theorem cImmLdspOf_encCLdsp {imm : BitVec 9} (rd : Reg) (h : lowZero imm 3 = true) :
    cImmLdspOf (encCLdsp imm rd) = imm := by
  simp (disch := omega) only [cImmLdspOf, encCLdsp, slice_append_low, slice_append_high, Nat.reduceSub, slice_self,
    zero_eq_slice h, slice_join]

theorem cImmSwspOf_encCSwsp {imm : BitVec 8} (rs2 : Reg) (h : lowZero imm 2 = true) :
    cImmSwspOf (encCSwsp imm rs2) = imm := by
  simp (disch := omega) only [cImmSwspOf, encCSwsp, slice_append_low, slice_append_high, Nat.reduceSub, slice_self,
    zero_eq_slice h, slice_join]

theorem cImmSdspOf_encCSdsp {imm : BitVec 9} (rs2 : Reg) (h : lowZero imm 3 = true) :
    cImmSdspOf (encCSdsp imm rs2) = imm := by
  simp (disch := omega) only [cImmSdspOf, encCSdsp, slice_append_low, slice_append_high, Nat.reduceSub, slice_self,
    zero_eq_slice h, slice_join]

/-! ## The other fields of the compressed formats -/

section
variable (funct2 : BitVec 2) (funct3 : BitVec 3) (rd rs2 : Reg) (rdp rs1p rs2p lowp : CReg)

@[simp] theorem encCR_fields (funct4 : BitVec 4) :
    slice (encCR funct4 rd rs2) 0 2 = 0b10#2 ∧ slice (encCR funct4 rd rs2) 13 3 = slice funct4 1 3 ∧
    slice (encCR funct4 rd rs2) 12 1 = slice funct4 0 1 ∧ cRdOf (encCR funct4 rd rs2) = rd ∧
    cRs2Of (encCR funct4 rd rs2) = rs2 := by
  simp (disch := omega) only [encCR, slice_append_low, slice_append_high, Nat.reduceSub, slice_self, and_self]

@[simp] theorem encCI_fields (imm : BitVec 6) (op : BitVec 2) :
    slice (encCI funct3 imm rd op) 0 2 = op ∧ slice (encCI funct3 imm rd op) 13 3 = funct3 ∧
    cRdOf (encCI funct3 imm rd op) = rd := by
  simp (disch := omega) only [encCI, slice_append_low, slice_append_high, Nat.reduceSub, slice_self, and_self]

@[simp] theorem encCBi_fields (imm : BitVec 6) :
    slice (encCBi funct2 imm rdp) 0 2 = 0b01#2 ∧ slice (encCBi funct2 imm rdp) 13 3 = 0b100#3 ∧
    slice (encCBi funct2 imm rdp) 10 2 = funct2 ∧ cHighpOf (encCBi funct2 imm rdp) = rdp := by
  simp (disch := omega) only [encCBi, slice_append_low, slice_append_high, Nat.reduceSub, slice_self, and_self]

@[simp] theorem encCA_fields (funct6 : BitVec 6) :
    slice (encCA funct6 funct2 rdp rs2p) 0 2 = 0b01#2 ∧ slice (encCA funct6 funct2 rdp rs2p) 13 3 = slice funct6 3 3 ∧
    slice (encCA funct6 funct2 rdp rs2p) 12 1 = slice funct6 2 1 ∧
    slice (encCA funct6 funct2 rdp rs2p) 10 2 = slice funct6 0 2 ∧ slice (encCA funct6 funct2 rdp rs2p) 5 2 = funct2 ∧
    cHighpOf (encCA funct6 funct2 rdp rs2p) = rdp ∧ cLowpOf (encCA funct6 funct2 rdp rs2p) = rs2p := by
  simp (disch := omega) only [encCA, slice_append_low, slice_append_high, Nat.reduceSub, slice_self, and_self]

@[simp] theorem encCLW_fields (imm : BitVec 7) :
    slice (encCLW funct3 imm rs1p lowp) 0 2 = 0b00#2 ∧ slice (encCLW funct3 imm rs1p lowp) 13 3 = funct3 ∧
    cHighpOf (encCLW funct3 imm rs1p lowp) = rs1p ∧ cLowpOf (encCLW funct3 imm rs1p lowp) = lowp := by
  simp (disch := omega) only [encCLW, slice_append_low, slice_append_high, Nat.reduceSub, slice_self, and_self]

@[simp] theorem encCLD_fields (imm : BitVec 8) :
    slice (encCLD funct3 imm rs1p lowp) 0 2 = 0b00#2 ∧ slice (encCLD funct3 imm rs1p lowp) 13 3 = funct3 ∧
    cHighpOf (encCLD funct3 imm rs1p lowp) = rs1p ∧ cLowpOf (encCLD funct3 imm rs1p lowp) = lowp := by
  simp (disch := omega) only [encCLD, slice_append_low, slice_append_high, Nat.reduceSub, slice_self, and_self]

@[simp] theorem encCB_fields (imm : BitVec 9) :
    slice (encCB funct3 imm rs1p) 0 2 = 0b01#2 ∧ slice (encCB funct3 imm rs1p) 13 3 = funct3 ∧
    cHighpOf (encCB funct3 imm rs1p) = rs1p := by
  simp (disch := omega) only [encCB, slice_append_low, slice_append_high, Nat.reduceSub, slice_self, and_self]

@[simp] theorem encCIW_fields (imm : BitVec 10) :
    slice (encCIW imm rdp) 0 2 = 0b00#2 ∧ slice (encCIW imm rdp) 13 3 = 0b000#3 ∧ cLowpOf (encCIW imm rdp) = rdp := by
  simp (disch := omega) only [encCIW, slice_append_low, slice_append_high, Nat.reduceSub, slice_self, and_self]

@[simp] theorem encCJ_fields (imm : BitVec 12) :
    slice (encCJ imm) 0 2 = 0b01#2 ∧ slice (encCJ imm) 13 3 = 0b101#3 := by
  simp (disch := omega) only [encCJ, slice_append_low, slice_append_high, Nat.reduceSub, slice_self, and_self]

@[simp] theorem encC16sp_fields (imm : BitVec 10) :
    slice (encC16sp imm) 0 2 = 0b01#2 ∧ slice (encC16sp imm) 13 3 = 0b011#3 ∧ cRdOf (encC16sp imm) = 2#5 := by
  simp (disch := omega) only [encC16sp, slice_append_low, slice_append_high, Nat.reduceSub, slice_self, and_self]

@[simp] theorem encCLui_fields (imm : BitVec 18) :
    slice (encCLui imm rd) 0 2 = 0b01#2 ∧ slice (encCLui imm rd) 13 3 = 0b011#3 ∧ cRdOf (encCLui imm rd) = rd := by
  simp (disch := omega) only [encCLui, slice_append_low, slice_append_high, Nat.reduceSub, slice_self, and_self]

@[simp] theorem encCLwsp_fields (imm : BitVec 8) :
    slice (encCLwsp imm rd) 0 2 = 0b10#2 ∧ slice (encCLwsp imm rd) 13 3 = 0b010#3 ∧ cRdOf (encCLwsp imm rd) = rd := by
  simp (disch := omega) only [encCLwsp, slice_append_low, slice_append_high, Nat.reduceSub, slice_self, and_self]

@[simp] theorem encCLdsp_fields (imm : BitVec 9) :
    slice (encCLdsp imm rd) 0 2 = 0b10#2 ∧ slice (encCLdsp imm rd) 13 3 = 0b011#3 ∧ cRdOf (encCLdsp imm rd) = rd := by
  simp (disch := omega) only [encCLdsp, slice_append_low, slice_append_high, Nat.reduceSub, slice_self, and_self]

@[simp] theorem encCSwsp_fields (imm : BitVec 8) :
    slice (encCSwsp imm rs2) 0 2 = 0b10#2 ∧ slice (encCSwsp imm rs2) 13 3 = 0b110#3 ∧
    cRs2Of (encCSwsp imm rs2) = rs2 := by
  simp (disch := omega) only [encCSwsp, slice_append_low, slice_append_high, Nat.reduceSub, slice_self, and_self]

@[simp] theorem encCSdsp_fields (imm : BitVec 9) :
    slice (encCSdsp imm rs2) 0 2 = 0b10#2 ∧ slice (encCSdsp imm rs2) 13 3 = 0b111#3 ∧
    cRs2Of (encCSdsp imm rs2) = rs2 := by
  simp (disch := omega) only [encCSdsp, slice_append_low, slice_append_high, Nat.reduceSub, slice_self, and_self]

end

/-! ## The halfword that the fields of a compressed format make up -/

section
variable {c : BitVec 16} {funct2 : BitVec 2} {funct3 : BitVec 3} {rd : Reg} {op : BitVec 2}

theorem encCR_of_fields {funct4 : BitVec 4} (h4 : slice c 12 4 = funct4) (hop : slice c 0 2 = 0b10#2) :
    encCR funct4 (cRdOf c) (cRs2Of c) = c := by
  subst h4
  simp (disch := omega) only [encCR, ← hop, slice_join, slice_self]

theorem encCI_of_fields (h3 : slice c 13 3 = funct3) (hrd : cRdOf c = rd) (hop : slice c 0 2 = op) :
    encCI funct3 (cImm6Of c) rd op = c := by
  subst h3 hrd hop
  simp (disch := omega) only [encCI, slice_append_low, slice_append_high, Nat.reduceSub, slice_self, slice_join]

theorem encCBi_of_fields (h3 : slice c 13 3 = 0b100#3) (h2 : slice c 10 2 = funct2) (hop : slice c 0 2 = 0b01#2) :
    encCBi funct2 (cImm6Of c) (cHighpOf c) = c := by
  subst h2
  simp (disch := omega) only [encCBi, ← h3, ← hop, slice_append_low, slice_append_high, Nat.reduceSub, slice_self,
    slice_join]

theorem encCA_of_fields {funct6 : BitVec 6} (h6 : slice c 10 6 = funct6) (h2 : slice c 5 2 = funct2)
    (hop : slice c 0 2 = 0b01#2) :
    encCA funct6 funct2 (cHighpOf c) (cLowpOf c) = c := by
  subst h6 h2
  simp (disch := omega) only [encCA, ← hop, slice_join, slice_self]

theorem encCLW_of_fields (h3 : slice c 13 3 = funct3) (hop : slice c 0 2 = 0b00#2) :
    encCLW funct3 (cImmWOf c) (cHighpOf c) (cLowpOf c) = c := by
  subst h3
  simp (disch := omega) only [encCLW, ← hop, slice_append_low, slice_append_high, Nat.reduceSub, slice_self, slice_join]

theorem encCLD_of_fields (h3 : slice c 13 3 = funct3) (hop : slice c 0 2 = 0b00#2) :
    encCLD funct3 (cImmDOf c) (cHighpOf c) (cLowpOf c) = c := by
  subst h3
  simp (disch := omega) only [encCLD, ← hop, slice_append_low, slice_append_high, Nat.reduceSub, slice_self, slice_join]

theorem encCB_of_fields (h3 : slice c 13 3 = funct3) (hop : slice c 0 2 = 0b01#2) :
    encCB funct3 (cImmBOf c) (cHighpOf c) = c := by
  subst h3
  simp (disch := omega) only [encCB, ← hop, slice_append_low, slice_append_high, Nat.reduceSub, slice_self, slice_join]

theorem encCIW_of_fields (h3 : slice c 13 3 = 0b000#3) (hop : slice c 0 2 = 0b00#2) :
    encCIW (cImm4spnOf c) (cLowpOf c) = c := by
  simp (disch := omega) only [encCIW, ← h3, ← hop, slice_append_low, slice_append_high, Nat.reduceSub, slice_self,
    slice_join]

theorem encCJ_of_fields (h3 : slice c 13 3 = 0b101#3) (hop : slice c 0 2 = 0b01#2) : encCJ (cImmJOf c) = c := by
  simp (disch := omega) only [encCJ, ← h3, ← hop, slice_append_low, slice_append_high, Nat.reduceSub, slice_self,
    slice_join]

theorem encC16sp_of_fields (h3 : slice c 13 3 = 0b011#3) (hrd : cRdOf c = 2#5) (hop : slice c 0 2 = 0b01#2) :
    encC16sp (cImm16spOf c) = c := by
  simp (disch := omega) only [encC16sp, ← h3, ← hrd, ← hop, slice_append_low, slice_append_high, Nat.reduceSub,
    slice_self, slice_join]

theorem encCLui_of_fields (h3 : slice c 13 3 = 0b011#3) (hop : slice c 0 2 = 0b01#2) :
    encCLui (cImmLuiOf c) (cRdOf c) = c := by
  simp (disch := omega) only [encCLui, ← h3, ← hop, slice_append_low, slice_append_high, Nat.reduceSub, slice_self,
    slice_join]

theorem encCLwsp_of_fields (h3 : slice c 13 3 = 0b010#3) (hop : slice c 0 2 = 0b10#2) :
    encCLwsp (cImmLwspOf c) (cRdOf c) = c := by
  simp (disch := omega) only [encCLwsp, ← h3, ← hop, slice_append_low, slice_append_high, Nat.reduceSub, slice_self,
    slice_join]

theorem encCLdsp_of_fields (h3 : slice c 13 3 = 0b011#3) (hop : slice c 0 2 = 0b10#2) :
    encCLdsp (cImmLdspOf c) (cRdOf c) = c := by
  simp (disch := omega) only [encCLdsp, ← h3, ← hop, slice_append_low, slice_append_high, Nat.reduceSub, slice_self,
    slice_join]

theorem encCSwsp_of_fields (h3 : slice c 13 3 = 0b110#3) (hop : slice c 0 2 = 0b10#2) :
    encCSwsp (cImmSwspOf c) (cRs2Of c) = c := by
  simp (disch := omega) only [encCSwsp, ← h3, ← hop, slice_append_low, slice_append_high, Nat.reduceSub, slice_self,
    slice_join]

theorem encCSdsp_of_fields (h3 : slice c 13 3 = 0b111#3) (hop : slice c 0 2 = 0b10#2) :
    encCSdsp (cImmSdspOf c) (cRs2Of c) = c := by
  simp (disch := omega) only [encCSdsp, ← h3, ← hop, slice_append_low, slice_append_high, Nat.reduceSub, slice_self,
    slice_join]

end

end Sys2Proof
end

section
/-! Which part of the decoder answers for a code word (spec/30_encoding.md R91, R92, R100, R110). -/

namespace Sys2Proof

/-! ## The length of a code word (R91) -/

theorem decode_full {code : BitVec 32} (hasM : Bool) (h : slice code 0 2 = 0b11#2) :
    decode hasM code = decode32 hasM code :=
  if_pos h

theorem decode_compressed {code : BitVec 32} (hasM : Bool) (h : slice code 0 2 ≠ 0b11#2) :
    decode hasM code = decode16 (slice code 0 16) :=
  if_neg h

/-! ## The major opcode of a full word (R100) -/

section
variable {hasM : Bool} {code : BitVec 32}

/-- The low two bits of a major opcode are those of the word. -/
theorem lowBits_of_opcode {opcode : BitVec 7} (h : opcodeOf code = opcode) : slice code 0 2 = slice opcode 0 2 :=
  slice_of_slice h 0 2 (by omega)

theorem decode_lui (h : opcodeOf code = 0b0110111#7) : decode hasM code = .instr (.lui (rdOf code) (immUOf code)) := by
  simp [decode_full hasM (lowBits_of_opcode h), decode32, h]

theorem decode_auipc (h : opcodeOf code = 0b0010111#7) :
    decode hasM code = .instr (.auipc (rdOf code) (immUOf code)) := by
  simp [decode_full hasM (lowBits_of_opcode h), decode32, h]

theorem decode_jal (h : opcodeOf code = 0b1101111#7) : decode hasM code = .instr (.jal (rdOf code) (immJOf code)) := by
  simp [decode_full hasM (lowBits_of_opcode h), decode32, h]

theorem decode_jalr (h : opcodeOf code = 0b1100111#7) :
    decode hasM code =
      if funct3Of code = 0b000#3 then .instr (.jalr (rdOf code) (rs1Of code) (immIOf code))
      else .failure .unlistedFunct := by
  simp [decode_full hasM (lowBits_of_opcode h), decode32, h]

theorem decode_branch (h : opcodeOf code = 0b1100011#7) : decode hasM code = decodeBranch code := by
  simp [decode_full hasM (lowBits_of_opcode h), decode32, h]

theorem decode_load (h : opcodeOf code = 0b0000011#7) : decode hasM code = decodeLoad code := by
  simp [decode_full hasM (lowBits_of_opcode h), decode32, h]

theorem decode_store (h : opcodeOf code = 0b0100011#7) : decode hasM code = decodeStore code := by
  simp [decode_full hasM (lowBits_of_opcode h), decode32, h]

theorem decode_opImm (h : opcodeOf code = 0b0010011#7) : decode hasM code = decodeOpImm code := by
  simp [decode_full hasM (lowBits_of_opcode h), decode32, h]

theorem decode_opImm32 (h : opcodeOf code = 0b0011011#7) : decode hasM code = decodeOpImm32 code := by
  simp [decode_full hasM (lowBits_of_opcode h), decode32, h]

theorem decode_op (h : opcodeOf code = 0b0110011#7) : decode hasM code = decodeOp hasM code := by
  simp [decode_full hasM (lowBits_of_opcode h), decode32, h]

theorem decode_op32 (h : opcodeOf code = 0b0111011#7) : decode hasM code = decodeOp32 hasM code := by
  simp [decode_full hasM (lowBits_of_opcode h), decode32, h]

theorem decode_system (h : opcodeOf code = 0b1110011#7) :
    decode hasM code = if code = 0x00000073#32 then .instr .ecall else .failure .systemNotEcall := by
  simp [decode_full hasM (lowBits_of_opcode h), decode32, h]

end

/-! ## The quadrant of a compressed word (R92, R110) -/

section
variable {hasM : Bool} {code : BitVec 32} {c : BitVec 16}

theorem decode16_q0 (h : slice c 0 2 = 0b00#2) : decode16 c = decodeQ0 c := by simp [decode16, h]

theorem decode16_q1 (h : slice c 0 2 = 0b01#2) : decode16 c = decodeQ1 c := by simp [decode16, h]

theorem decode16_q2 (h : slice c 0 2 = 0b10#2) : decode16 c = decodeQ2 c := by simp [decode16, h]

theorem decode_q0 (h : slice code 0 2 = 0b00#2) : decode hasM code = decodeQ0 (slice code 0 16) := by
  rw [decode_compressed hasM (by simp [h]), decode16_q0 (by rw [slice_slice _ _ _ _ _ (by omega), h])]

theorem decode_q1 (h : slice code 0 2 = 0b01#2) : decode hasM code = decodeQ1 (slice code 0 16) := by
  rw [decode_compressed hasM (by simp [h]), decode16_q1 (by rw [slice_slice _ _ _ _ _ (by omega), h])]

theorem decode_q2 (h : slice code 0 2 = 0b10#2) : decode hasM code = decodeQ2 (slice code 0 16) := by
  rw [decode_compressed hasM (by simp [h]), decode16_q2 (by rw [slice_slice _ _ _ _ _ (by omega), h])]

/-- A halfword that decodes lies in a quadrant: its low bits are not those of a full word. -/
theorem quadrant_of_decode16 {i : Instr} (h : decode16 c = .instr i) : slice c 0 2 ≠ 0b11#2 := by
  intro hfull
  simp [decode16, hfull] at h

end

/-- A word whose low halfword decodes is compressed and decodes so, whatever its upper halfword is. -/
theorem decode_of_decode16 (hasM : Bool) {code : BitVec 32} {i : Instr} (h : decode16 (slice code 0 16) = .instr i) :
    decode hasM code = .instr i := by
  have hquadrant := quadrant_of_decode16 h
  rw [slice_slice _ _ _ _ _ (by omega)] at hquadrant
  rw [decode_compressed hasM hquadrant, h]

end Sys2Proof
end

section
/-! Decoding an encoded instruction (spec/30_encoding.md R90 to R94, R100 to R102, R110 to R112). -/

namespace Sys2Proof

/-! ## Where the checks of the decoder agree with well-formedness -/

/-- A multiple of two has a clear lowest bit. -/
theorem lowBit_of_lowZero {n : Nat} {imm : BitVec n} (h : lowZero imm 1 = true) : imm.getLsbD 0 = false := by
  have heven : imm.toNat % 2 = 0 := by simpa [lowZero] using h
  rw [← BitVec.testBit_toNat, Nat.testBit_zero]
  simp [heven]

/-- The bits the decoder tests for C.ADDI16SP are those of its immediate. -/
theorem cImm6Of_eq_zero_iff_cImm16spOf (c : BitVec 16) : cImm6Of c = 0#6 ↔ cImm16spOf c = 0#10 := by
  have hlow : slice c 2 5 = slice c 6 1 ++ slice c 5 1 ++ slice c 3 2 ++ slice c 2 1 := by
    simp (disch := omega) only [slice_join]
  simp only [BitVec.toNat_eq, BitVec.toNat_ofNat, Nat.zero_mod, cImm6Of, cImm16spOf, hlow, toNat_append_eq_zero_iff]
  tauto

/-- The bits the decoder tests for C.LUI are those of its immediate. -/
theorem cImm6Of_eq_zero_iff_cImmLuiOf (c : BitVec 16) : cImm6Of c = 0#6 ↔ cImmLuiOf c = 0#18 := by
  simp only [BitVec.toNat_eq, BitVec.toNat_ofNat, Nat.zero_mod, cImm6Of, cImmLuiOf, toNat_append_eq_zero_iff]
  tauto

/-! ## The full words -/

theorem decode_encode_full {i : Instr} {hasM : Bool} (hwf : i.wf = true) (hM : i.isM = true → hasM = true)
    (hlen : i.len = 4) : decode hasM (encode i) = .instr i := by
  cases i
  case lui | auipc => simp [encode, decode_lui, decode_auipc]
  case jal => simp [encode, decode_jal, immJOf_encJ _ _ _ (lowBit_of_lowZero hwf)]
  case jalr => simp [encode, decode_jalr]
  case beq | bne | blt | bge | bltu | bgeu =>
    simp [encode, decode_branch, decodeBranch, immBOf_encB _ _ _ _ _ (lowBit_of_lowZero hwf)]
  case lb | lh | lw | ld | lbu | lhu | lwu => simp [encode, decode_load, decodeLoad]
  case sb | sh | sw | sd => simp [encode, decode_store, decodeStore, immSOf_encS]
  case addi | slti | sltiu | xori | ori | andi | slli | srli | srai => simp [encode, decode_opImm, decodeOpImm]
  case addiw | slliw | srliw | sraiw => simp [encode, decode_opImm32, decodeOpImm32]
  case add | sub | sll | slt | sltu | xor | srl | sra | or | and => simp [encode, decode_op, decodeOp]
  case addw | subw | sllw | srlw | sraw => simp [encode, decode_op32, decodeOp32]
  case ecall => exact (decode_system rfl).trans (if_pos rfl)
  case mul | mulh | mulhsu | mulhu | div | divu | rem | remu =>
    simp [encode, decode_op, decodeOp, hM rfl]
  case mulw | divw | divuw | remw | remuw => simp [encode, decode_op32, decodeOp32, hM rfl]
  all_goals simp [Instr.len] at hlen

theorem decode16_encode {i : Instr} (hwf : i.wf = true) (hlen : i.len = 2) :
    decode16 (slice (encode i) 0 16) = .instr i := by
  cases i
  case cAddi4spn rdp imm =>
    simp only [Instr.wf, Bool.and_eq_true, bne_iff_ne, ne_eq, BitVec.ofNat_eq_ofNat] at hwf
    simp [encode, decode16_q0, decodeQ0, cImm4spnOf_encCIW, hwf]
  case cLw | cSw => simp [encode, decode16_q0, decodeQ0, cImmWOf_encCLW _ _ _ hwf]
  case cLd | cSd => simp [encode, decode16_q0, decodeQ0, cImmDOf_encCLD _ _ _ hwf]
  case cNop | cLi => simp [encode, decode16_q1, decodeQ1]
  case cAddi rd imm | cAddiw rd imm =>
    simp only [Instr.wf, bne_iff_ne, ne_eq, BitVec.ofNat_eq_ofNat] at hwf
    simp [encode, decode16_q1, decodeQ1, hwf]
  case cAddi16sp imm =>
    simp only [Instr.wf, Bool.and_eq_true, bne_iff_ne, ne_eq, BitVec.ofNat_eq_ofNat] at hwf
    simp [encode, decode16_q1, decodeQ1, cImm6Of_eq_zero_iff_cImm16spOf, cImm16spOf_encC16sp, hwf]
  case cLui rd imm =>
    simp only [Instr.wf, Bool.and_eq_true, bne_iff_ne, ne_eq, BitVec.ofNat_eq_ofNat] at hwf
    simp [encode, decode16_q1, decodeQ1, cImm6Of_eq_zero_iff_cImmLuiOf, cImmLuiOf_encCLui, hwf]
  case cSrli | cSrai | cAndi | cSub | cXor | cOr | cAnd | cSubw | cAddw =>
    simp [encode, decode16_q1, decodeQ1, decodeQ1Arith, slice]
  case cJ => simp [encode, decode16_q1, decodeQ1, cImmJOf_encCJ hwf]
  case cBeqz | cBnez => simp [encode, decode16_q1, decodeQ1, cImmBOf_encCB _ _ hwf]
  case cSlli => simp [encode, decode16_q2, decodeQ2]
  case cJr | cMv | cAdd | cJalr =>
    simp only [Instr.wf, bne_iff_ne, ne_eq, BitVec.ofNat_eq_ofNat] at hwf
    simp [encode, decode16_q2, decodeQ2, slice, hwf]
  case cLwsp | cLdsp =>
    simp only [Instr.wf, Bool.and_eq_true, bne_iff_ne, ne_eq, BitVec.ofNat_eq_ofNat] at hwf
    simp [encode, decode16_q2, decodeQ2, cImmLwspOf_encCLwsp, cImmLdspOf_encCLdsp, hwf]
  case cSwsp => simp [encode, decode16_q2, decodeQ2, cImmSwspOf_encCSwsp _ hwf]
  case cSdsp => simp [encode, decode16_q2, decodeQ2, cImmSdspOf_encCSdsp _ hwf]
  all_goals simp [Instr.len] at hlen

/-- An instruction is as long as a full word or as a halfword (R91). -/
theorem Instr.len_eq (i : Instr) : i.len = 4 ∨ i.len = 2 := by
  cases i <;> simp [Instr.len]

/-- Settles O1: a full word goes to the decoder of its opcode, a halfword to that of its quadrant, and each reads back
the fields its format was put together from. -/
theorem encodeThenDecode : Obligations.EncodeThenDecode := by
  intro i hasM code hwf hM hfull hcompressed
  have hdecode : decode hasM code = .instr i := by
    obtain hlen | hlen := i.len_eq
    · rw [hfull hlen]
      exact decode_encode_full hwf hM hlen
    · apply decode_of_decode16
      rw [hcompressed hlen]
      exact decode16_encode hwf hlen
  exact ⟨(decode_len hdecode).symm, hdecode⟩

end Sys2Proof
end

section
/-! Encoding a decoded instruction (spec/30_encoding.md R90 to R94, R100 to R102, R110 to R112). -/

namespace Sys2Proof

/-- The answer, if it is an instruction, is a well-formed one that this hardware has, and its encoding is `w`. -/
def DecodeResult.Reencodes (hasM : Bool) (w : BitVec 32) : DecodeResult → Prop
  | .instr i => i.wf = true ∧ (i.isM = true → hasM = true) ∧ encode i = w
  | .failure _ => True

section
variable {hasM : Bool} {w : BitVec 32}

theorem reencodes_failure (why : DecodeReject) : (DecodeResult.failure why).Reencodes hasM w := trivial

theorem reencodes_base {i : Instr} (hwf : i.wf = true) (hM : i.isM = false) (he : encode i = w) :
    (DecodeResult.instr i).Reencodes hasM w :=
  ⟨hwf, fun h => Bool.noConfusion (hM.symm.trans h), he⟩

theorem reencodes_multiply {i : Instr} (hwf : i.wf = true) (hM : hasM = true) (he : encode i = w) :
    (DecodeResult.instr i).Reencodes hasM w :=
  ⟨hwf, fun _ => hM, he⟩

theorem reencodes_ite {p : Prop} [Decidable p] {a b : DecodeResult} (ha : p → a.Reencodes hasM w)
    (hb : ¬ p → b.Reencodes hasM w) : (if p then a else b).Reencodes hasM w := by
  split
  · exact ha ‹_›
  · exact hb ‹_›

end

/-! ## The field value that the last arm of a match stands for -/

theorem eq_five_of_others {x : BitVec 3} (h0 : x ≠ 0b000#3) (h2 : x ≠ 0b010#3) (h3 : x ≠ 0b011#3) (h4 : x ≠ 0b100#3)
    (h6 : x ≠ 0b110#3) (h7 : x ≠ 0b111#3) (h1 : x ≠ 0b001#3) : x = 0b101#3 := by
  bv_omega

theorem eq_seven_of_others {x : BitVec 3} (h0 : x ≠ 0b000#3) (h1 : x ≠ 0b001#3) (h2 : x ≠ 0b010#3) (h3 : x ≠ 0b011#3)
    (h4 : x ≠ 0b100#3) (h5 : x ≠ 0b101#3) (h6 : x ≠ 0b110#3) : x = 0b111#3 := by
  bv_omega

theorem eq_three_of_others {x : BitVec 2} (h0 : x ≠ 0b00#2) (h1 : x ≠ 0b01#2) (h2 : x ≠ 0b10#2) : x = 0b11#2 := by
  bv_omega

theorem eq_one_of_ne_zero {x : BitVec 1} (h0 : x ≠ 0b0#1) : x = 0b1#1 := by
  bv_omega

/-! ## The function codes of the compressed register forms, in their parts (R111) -/

theorem slice_funct4 {w : Nat} (c : BitVec w) : slice c 12 4 = slice c 13 3 ++ slice c 12 1 := by
  simp (disch := omega) only [slice_join]

theorem slice_funct6 {w : Nat} (c : BitVec w) : slice c 10 6 = slice c 13 3 ++ slice c 12 1 ++ slice c 10 2 := by
  simp (disch := omega) only [slice_join]

/-! ## The full words, by major opcode -/

section
variable {hasM : Bool} {code : BitVec 32}

theorem decodeBranch_reencodes (hop : opcodeOf code = 0b1100011#7) : (decodeBranch code).Reencodes hasM code := by
  unfold decodeBranch
  split
  case h_7 => exact reencodes_failure _
  all_goals exact reencodes_base (lowZero_append_zero _ 1) rfl (encB_of_fields (by assumption) hop)

theorem decodeLoad_reencodes (hop : opcodeOf code = 0b0000011#7) : (decodeLoad code).Reencodes hasM code := by
  unfold decodeLoad
  split
  case h_8 => exact reencodes_failure _
  all_goals exact reencodes_base rfl rfl (encI_of_fields (by assumption) hop)

theorem decodeStore_reencodes (hop : opcodeOf code = 0b0100011#7) : (decodeStore code).Reencodes hasM code := by
  unfold decodeStore
  split
  case h_5 => exact reencodes_failure _
  all_goals exact reencodes_base rfl rfl (encS_of_fields (by assumption) hop)

theorem decodeOpImm_reencodes (hop : opcodeOf code = 0b0010011#7) : (decodeOpImm code).Reencodes hasM code := by
  unfold decodeOpImm
  split
  case h_7 h1 =>
    exact reencodes_ite (fun h6 => reencodes_base rfl rfl (encShift_of_fields h6 h1 hop)) fun _ => reencodes_failure _
  case h_8 h0 h2 h3 h4 h6 h7 h1 =>
    have h5 := eq_five_of_others h0 h2 h3 h4 h6 h7 h1
    exact reencodes_ite (fun hlogical => reencodes_base rfl rfl (encShift_of_fields hlogical h5 hop)) fun _ =>
      reencodes_ite (fun harith => reencodes_base rfl rfl (encShift_of_fields harith h5 hop)) fun _ =>
      reencodes_failure _
  all_goals exact reencodes_base rfl rfl (encI_of_fields (by assumption) hop)

theorem decodeOpImm32_reencodes (hop : opcodeOf code = 0b0011011#7) : (decodeOpImm32 code).Reencodes hasM code := by
  unfold decodeOpImm32
  split
  case h_1 h0 => exact reencodes_base rfl rfl (encI_of_fields h0 hop)
  case h_2 h1 =>
    exact reencodes_ite (fun h7 => reencodes_base rfl rfl (encR_of_fields h7 h1 hop)) fun _ => reencodes_failure _
  case h_3 h5 =>
    exact reencodes_ite (fun hlogical => reencodes_base rfl rfl (encR_of_fields hlogical h5 hop)) fun _ =>
      reencodes_ite (fun harith => reencodes_base rfl rfl (encR_of_fields harith h5 hop)) fun _ =>
      reencodes_failure _
  case h_4 => exact reencodes_failure _

theorem decodeOp_reencodes (hop : opcodeOf code = 0b0110011#7) : (decodeOp hasM code).Reencodes hasM code := by
  unfold decodeOp
  refine reencodes_ite (fun hbase => ?_) fun _ => reencodes_ite (fun halternate => ?_) fun _ =>
    reencodes_ite (fun hmultiply => reencodes_ite (fun hM => ?_) fun _ => reencodes_failure _) fun _ =>
    reencodes_failure _
  · split
    case h_8 h0 h1 h2 h3 h4 h5 h6 =>
      exact reencodes_base rfl rfl (encR_of_fields hbase (eq_seven_of_others h0 h1 h2 h3 h4 h5 h6) hop)
    all_goals exact reencodes_base rfl rfl (encR_of_fields hbase (by assumption) hop)
  · split
    case h_3 => exact reencodes_failure _
    all_goals exact reencodes_base rfl rfl (encR_of_fields halternate (by assumption) hop)
  · split
    case h_8 h0 h1 h2 h3 h4 h5 h6 =>
      exact reencodes_multiply rfl hM (encR_of_fields hmultiply (eq_seven_of_others h0 h1 h2 h3 h4 h5 h6) hop)
    all_goals exact reencodes_multiply rfl hM (encR_of_fields hmultiply (by assumption) hop)

theorem decodeOp32_reencodes (hop : opcodeOf code = 0b0111011#7) : (decodeOp32 hasM code).Reencodes hasM code := by
  unfold decodeOp32
  refine reencodes_ite (fun hbase => ?_) fun _ => reencodes_ite (fun halternate => ?_) fun _ =>
    reencodes_ite (fun hmultiply => reencodes_ite (fun hM => ?_) fun _ => reencodes_failure _) fun _ =>
    reencodes_failure _
  · split
    case h_4 => exact reencodes_failure _
    all_goals exact reencodes_base rfl rfl (encR_of_fields hbase (by assumption) hop)
  · split
    case h_3 => exact reencodes_failure _
    all_goals exact reencodes_base rfl rfl (encR_of_fields halternate (by assumption) hop)
  · split
    case h_6 => exact reencodes_failure _
    all_goals exact reencodes_multiply rfl hM (encR_of_fields hmultiply (by assumption) hop)

theorem decode32_reencodes : (decode32 hasM code).Reencodes hasM code := by
  unfold decode32
  exact reencodes_ite (fun h => reencodes_base rfl rfl (encU_of_fields h)) fun _ =>
    reencodes_ite (fun h => reencodes_base rfl rfl (encU_of_fields h)) fun _ =>
    reencodes_ite (fun h => reencodes_base (lowZero_append_zero _ 1) rfl (encJ_of_fields h)) fun _ =>
    reencodes_ite (fun h => reencodes_ite (fun h3 => reencodes_base rfl rfl (encI_of_fields h3 h)) fun _ =>
      reencodes_failure _) fun _ =>
    reencodes_ite decodeBranch_reencodes fun _ =>
    reencodes_ite decodeLoad_reencodes fun _ =>
    reencodes_ite decodeStore_reencodes fun _ =>
    reencodes_ite decodeOpImm_reencodes fun _ =>
    reencodes_ite decodeOpImm32_reencodes fun _ =>
    reencodes_ite decodeOp_reencodes fun _ =>
    reencodes_ite decodeOp32_reencodes fun _ =>
    reencodes_ite (fun _ =>
      reencodes_ite (fun h => reencodes_base rfl rfl h.symm) fun _ => reencodes_failure _) fun _ =>
    reencodes_failure _

end

/-! ## The compressed words, by quadrant -/

section
variable {hasM : Bool} {c : BitVec 16}

theorem decodeQ0_reencodes (hop : slice c 0 2 = 0b00#2) : (decodeQ0 c).Reencodes hasM (halfword c) := by
  unfold decodeQ0
  split
  case h_1 h3 =>
    exact reencodes_ite (fun _ => reencodes_failure _) fun himm =>
      reencodes_base (Bool.and_eq_true_iff.mpr ⟨lowZero_append_zero _ 2, bne_iff_ne.mpr himm⟩) rfl
        (congrArg halfword (encCIW_of_fields h3 hop))
  case h_2 h3 | h_4 h3 =>
    exact reencodes_base (lowZero_append_zero _ 2) rfl (congrArg halfword (encCLW_of_fields h3 hop))
  case h_3 h3 | h_5 h3 =>
    exact reencodes_base (lowZero_append_zero _ 3) rfl (congrArg halfword (encCLD_of_fields h3 hop))
  case h_6 | h_7 => exact reencodes_failure _

theorem decodeQ1Arith_reencodes (hop : slice c 0 2 = 0b01#2) (h3 : slice c 13 3 = 0b100#3) :
    (decodeQ1Arith c).Reencodes hasM (halfword c) := by
  unfold decodeQ1Arith
  split
  case h_4 h00 h01 h10 =>
    have hregs : slice c 10 2 = 0b11#2 := eq_three_of_others h00 h01 h10
    refine reencodes_ite (fun hdouble => ?_) fun hnot => ?_
    · have h6 : slice c 10 6 = 0b100011#6 := by rw [slice_funct6, h3, hdouble, hregs]; rfl
      split
      case h_4 h00 h01 h10 =>
        exact reencodes_base rfl rfl (congrArg halfword (encCA_of_fields h6 (eq_three_of_others h00 h01 h10) hop))
      all_goals exact reencodes_base rfl rfl (congrArg halfword (encCA_of_fields h6 (by assumption) hop))
    · have h6 : slice c 10 6 = 0b100111#6 := by rw [slice_funct6, h3, eq_one_of_ne_zero hnot, hregs]; rfl
      split
      case h_3 => exact reencodes_failure _
      all_goals exact reencodes_base rfl rfl (congrArg halfword (encCA_of_fields h6 (by assumption) hop))
  all_goals exact reencodes_base rfl rfl (congrArg halfword (encCBi_of_fields h3 (by assumption) hop))

theorem decodeQ1_reencodes (hop : slice c 0 2 = 0b01#2) : (decodeQ1 c).Reencodes hasM (halfword c) := by
  unfold decodeQ1
  split
  case h_1 h3 =>
    exact reencodes_ite (fun hrd => reencodes_base rfl rfl (congrArg halfword (encCI_of_fields h3 hrd hop)))
      fun hrd => reencodes_base (bne_iff_ne.mpr hrd) rfl (congrArg halfword (encCI_of_fields h3 rfl hop))
  case h_2 h3 =>
    exact reencodes_ite (fun _ => reencodes_failure _) fun hrd =>
      reencodes_base (bne_iff_ne.mpr hrd) rfl (congrArg halfword (encCI_of_fields h3 rfl hop))
  case h_3 h3 => exact reencodes_base rfl rfl (congrArg halfword (encCI_of_fields h3 rfl hop))
  case h_4 h3 =>
    refine reencodes_ite (fun _ => reencodes_failure _) fun himm => reencodes_ite (fun hrd => ?_) fun hrd => ?_
    · have hne : cImm16spOf c ≠ 0 := mt (cImm6Of_eq_zero_iff_cImm16spOf c).mpr himm
      exact reencodes_base (Bool.and_eq_true_iff.mpr ⟨lowZero_append_zero _ 4, bne_iff_ne.mpr hne⟩) rfl
        (congrArg halfword (encC16sp_of_fields h3 hrd hop))
    · have hne : cImmLuiOf c ≠ 0 := mt (cImm6Of_eq_zero_iff_cImmLuiOf c).mpr himm
      have hwf : (lowZero (cImmLuiOf c) 12 && cImmLuiOf c != 0) = true :=
        Bool.and_eq_true_iff.mpr ⟨lowZero_append_zero _ 12, bne_iff_ne.mpr hne⟩
      exact reencodes_base (Bool.and_eq_true_iff.mpr ⟨hwf, bne_iff_ne.mpr hrd⟩) rfl
        (congrArg halfword (encCLui_of_fields h3 hop))
  case h_5 h3 => exact decodeQ1Arith_reencodes hop h3
  case h_6 h3 => exact reencodes_base (lowZero_append_zero _ 1) rfl (congrArg halfword (encCJ_of_fields h3 hop))
  case h_7 h3 => exact reencodes_base (lowZero_append_zero _ 1) rfl (congrArg halfword (encCB_of_fields h3 hop))
  case h_8 h0 h1 h2 h3 h4 h5 h6 =>
    exact reencodes_base (lowZero_append_zero _ 1) rfl
      (congrArg halfword (encCB_of_fields (eq_seven_of_others h0 h1 h2 h3 h4 h5 h6) hop))

theorem decodeQ2_reencodes (hop : slice c 0 2 = 0b10#2) : (decodeQ2 c).Reencodes hasM (halfword c) := by
  unfold decodeQ2
  split
  case h_1 h3 => exact reencodes_base rfl rfl (congrArg halfword (encCI_of_fields h3 rfl hop))
  case h_2 h3 =>
    exact reencodes_ite (fun _ => reencodes_failure _) fun hrd =>
      reencodes_base (Bool.and_eq_true_iff.mpr ⟨lowZero_append_zero _ 2, bne_iff_ne.mpr hrd⟩) rfl
        (congrArg halfword (encCLwsp_of_fields h3 hop))
  case h_3 h3 =>
    exact reencodes_ite (fun _ => reencodes_failure _) fun hrd =>
      reencodes_base (Bool.and_eq_true_iff.mpr ⟨lowZero_append_zero _ 3, bne_iff_ne.mpr hrd⟩) rfl
        (congrArg halfword (encCLdsp_of_fields h3 hop))
  case h_4 h3 =>
    refine reencodes_ite (fun hlow => ?_) fun hnot => ?_
    · have h4 : slice c 12 4 = 0b1000#4 := by rw [slice_funct4, h3, hlow]; rfl
      exact reencodes_ite
        (fun hrs2 => reencodes_ite (fun _ => reencodes_failure _) fun hrd =>
          reencodes_base (bne_iff_ne.mpr hrd) rfl (congrArg halfword (hrs2 ▸ encCR_of_fields h4 hop)))
        fun hrs2 => reencodes_base (bne_iff_ne.mpr hrs2) rfl (congrArg halfword (encCR_of_fields h4 hop))
    · have h4 : slice c 12 4 = 0b1001#4 := by rw [slice_funct4, h3, eq_one_of_ne_zero hnot]; rfl
      exact reencodes_ite
        (fun hrs2 => reencodes_ite (fun _ => reencodes_failure _) fun hrd =>
          reencodes_base (bne_iff_ne.mpr hrd) rfl (congrArg halfword (hrs2 ▸ encCR_of_fields h4 hop)))
        fun hrs2 => reencodes_base (bne_iff_ne.mpr hrs2) rfl (congrArg halfword (encCR_of_fields h4 hop))
  case h_5 h3 =>
    exact reencodes_base (lowZero_append_zero _ 2) rfl (congrArg halfword (encCSwsp_of_fields h3 hop))
  case h_6 h3 =>
    exact reencodes_base (lowZero_append_zero _ 3) rfl (congrArg halfword (encCSdsp_of_fields h3 hop))
  case h_7 => exact reencodes_failure _

theorem decode16_reencodes : (decode16 c).Reencodes hasM (halfword c) :=
  reencodes_ite decodeQ0_reencodes fun _ => reencodes_ite decodeQ1_reencodes fun _ =>
    reencodes_ite decodeQ2_reencodes fun _ => reencodes_failure _

end

/-! ## The decoder -/

/-- Settles O2: each arm of the decoder answers with the fields of the word, which put together again are the word. -/
theorem decodeThenEncode : Obligations.DecodeThenEncode := by
  intro hasM code i h
  have hlen := decode_len h
  by_cases hfull : slice code 0 2 = 0b11#2
  · have hre : (decode hasM code).Reencodes hasM code := by
      rw [decode_full hasM hfull]
      exact decode32_reencodes
    rw [h] at hre
    obtain ⟨hwf, hM, hencode⟩ := hre
    rw [codeLen_full hfull] at hlen
    exact ⟨hwf, hM, hlen.trans (codeLen_full hfull).symm, fun _ => hencode, fun h2 => by omega⟩
  · have hre : (decode hasM code).Reencodes hasM (halfword (slice code 0 16)) := by
      rw [decode_compressed hasM hfull]
      exact decode16_reencodes
    rw [h] at hre
    obtain ⟨hwf, hM, hencode⟩ := hre
    rw [codeLen_compressed hfull] at hlen
    exact ⟨hwf, hM, hlen.trans (codeLen_compressed hfull).symm, fun h4 => by omega,
      fun _ => by rw [hencode, slice_halfword]⟩

end Sys2Proof
end

section
/-! The words that are decode failures (spec/30_encoding.md R103, R104, R114). -/

namespace Sys2Proof.Machine

section
variable {hasM : Bool} {code : BitVec 32}

/-! ## The full words (R103, R104) -/

theorem undecodable_majorOpcode (hfull : slice code 0 2 = 0b11#2)
    (h : slice code 0 7 ∉
      [0x37#7, 0x17#7, 0x6F#7, 0x67#7, 0x63#7, 0x03#7, 0x23#7, 0x13#7, 0x1B#7, 0x33#7, 0x3B#7, 0x73#7]) :
    Undecodable hasM code := by
  simp only [List.mem_cons, List.not_mem_nil, or_false, not_or] at h
  simp [Undecodable, decode_full hasM hfull, decode32, h]

theorem undecodable_system (hop : slice code 0 7 = 0x73#7) (h : code ≠ 0x00000073#32) : Undecodable hasM code := by
  simp [Undecodable, decode_system hop, h]

theorem undecodable_jalr (hop : slice code 0 7 = 0x67#7) (h3 : slice code 12 3 ≠ 0b000#3) : Undecodable hasM code := by
  simp [Undecodable, decode_jalr hop, h3]

theorem undecodable_branch (hop : slice code 0 7 = 0x63#7) (h3 : slice code 12 3 ∈ [0b010#3, 0b011#3]) :
    Undecodable hasM code := by
  simp only [List.mem_cons, List.not_mem_nil, or_false] at h3
  obtain h3 | h3 := h3 <;> simp [Undecodable, decode_branch hop, decodeBranch, h3]

theorem undecodable_load (hop : slice code 0 7 = 0x03#7) (h3 : slice code 12 3 = 0b111#3) : Undecodable hasM code := by
  simp [Undecodable, decode_load hop, decodeLoad, h3]

theorem undecodable_store (hop : slice code 0 7 = 0x23#7)
    (h3 : slice code 12 3 ∈ [0b100#3, 0b101#3, 0b110#3, 0b111#3]) : Undecodable hasM code := by
  simp only [List.mem_cons, List.not_mem_nil, or_false] at h3
  obtain h3 | h3 | h3 | h3 := h3 <;> simp [Undecodable, decode_store hop, decodeStore, h3]

theorem undecodable_slli (hop : slice code 0 7 = 0x13#7) (h3 : slice code 12 3 = 0b001#3)
    (h6 : slice code 26 6 ≠ 0b000000#6) : Undecodable hasM code := by
  simp [Undecodable, decode_opImm hop, decodeOpImm, h3, h6]

theorem undecodable_shiftRight (hop : slice code 0 7 = 0x13#7) (h3 : slice code 12 3 = 0b101#3)
    (h6 : slice code 26 6 ∉ [0b000000#6, 0b010000#6]) : Undecodable hasM code := by
  simp only [List.mem_cons, List.not_mem_nil, or_false, not_or] at h6
  simp [Undecodable, decode_opImm hop, decodeOpImm, h3, h6]

theorem undecodable_opImm32 (hop : slice code 0 7 = 0x1B#7) (h3 : slice code 12 3 ∉ [0b000#3, 0b001#3, 0b101#3]) :
    Undecodable hasM code := by
  simp only [List.mem_cons, List.not_mem_nil, or_false, not_or] at h3
  simp [Undecodable, decode_opImm32 hop, decodeOpImm32, h3]

theorem undecodable_slliw (hop : slice code 0 7 = 0x1B#7) (h3 : slice code 12 3 = 0b001#3)
    (h7 : slice code 25 7 ≠ 0b0000000#7) : Undecodable hasM code := by
  simp [Undecodable, decode_opImm32 hop, decodeOpImm32, h3, h7]

theorem undecodable_shiftRightw (hop : slice code 0 7 = 0x1B#7) (h3 : slice code 12 3 = 0b101#3)
    (h7 : slice code 25 7 ∉ [0b0000000#7, 0b0100000#7]) : Undecodable hasM code := by
  simp only [List.mem_cons, List.not_mem_nil, or_false, not_or] at h7
  simp [Undecodable, decode_opImm32 hop, decodeOpImm32, h3, h7]

/-- The register-register opcodes, OP and OP-32. -/
theorem decode_registerRegister (hop : slice code 0 7 ∈ [0x33#7, 0x3B#7]) :
    decode hasM code = decodeOp hasM code ∨ decode hasM code = decodeOp32 hasM code := by
  simp only [List.mem_cons, List.not_mem_nil, or_false] at hop
  exact hop.imp decode_op decode_op32

theorem undecodable_funct7 (hop : slice code 0 7 ∈ [0x33#7, 0x3B#7])
    (h7 : slice code 25 7 ∉ [0b0000000#7, 0b0100000#7, 0b0000001#7]) : Undecodable hasM code := by
  simp only [List.mem_cons, List.not_mem_nil, or_false, not_or] at h7
  obtain h | h := decode_registerRegister (hasM := hasM) hop <;> simp [Undecodable, h, decodeOp, decodeOp32, h7]

theorem undecodable_alternate (hop : slice code 0 7 ∈ [0x33#7, 0x3B#7]) (h7 : slice code 25 7 = 0b0100000#7)
    (h3 : slice code 12 3 ∉ [0b000#3, 0b101#3]) : Undecodable hasM code := by
  simp only [List.mem_cons, List.not_mem_nil, or_false, not_or] at h3
  obtain h | h := decode_registerRegister (hasM := hasM) hop <;> simp [Undecodable, h, decodeOp, decodeOp32, h7, h3]

theorem undecodable_op32 (hop : slice code 0 7 = 0x3B#7) (h7 : slice code 25 7 = 0b0000000#7)
    (h3 : slice code 12 3 ∉ [0b000#3, 0b001#3, 0b101#3]) : Undecodable hasM code := by
  simp only [List.mem_cons, List.not_mem_nil, or_false, not_or] at h3
  simp [Undecodable, decode_op32 hop, decodeOp32, h7, h3]

theorem undecodable_multiply32 (hop : slice code 0 7 = 0x3B#7) (h7 : slice code 25 7 = 0b0000001#7)
    (h3 : slice code 12 3 ∈ [0b001#3, 0b010#3, 0b011#3]) : Undecodable hasM code := by
  simp only [List.mem_cons, List.not_mem_nil, or_false] at h3
  cases hasM
  · simp [Undecodable, decode_op32 hop, decodeOp32, h7]
  · obtain h3 | h3 | h3 := h3 <;> simp [Undecodable, decode_op32 hop, decodeOp32, h7, h3]

theorem undecodable_multiplyAbsent (hop : slice code 0 7 ∈ [0x33#7, 0x3B#7]) (h7 : slice code 25 7 = 0b0000001#7)
    (hM : hasM = false) : Undecodable hasM code := by
  subst hM
  obtain h | h := decode_registerRegister (hasM := false) hop <;> simp [Undecodable, h, decodeOp, decodeOp32, h7]

/-! ## The compressed words (R114) -/

/-- The bits that make up the immediate of C.ADDI4SPN. -/
theorem cImm4spnOf_eq_zero_iff (c : BitVec 16) : cImm4spnOf c = 0#10 ↔ slice c 5 8 = 0#8 := by
  have hbits : slice c 5 8 = slice c 11 2 ++ slice c 7 4 ++ slice c 6 1 ++ slice c 5 1 := by
    simp (disch := omega) only [slice_join]
  simp only [BitVec.toNat_eq, BitVec.toNat_ofNat, Nat.zero_mod, cImm4spnOf, hbits, toNat_append_eq_zero_iff]
  tauto

/-- The bits that make up the immediate of the CI format. -/
theorem cImm6Of_eq_zero_iff (c : BitVec 16) : cImm6Of c = 0#6 ↔ slice c 12 1 = 0#1 ∧ slice c 2 5 = 0#5 := by
  simp only [BitVec.toNat_eq, BitVec.toNat_ofNat, Nat.zero_mod, cImm6Of, toNat_append_eq_zero_iff]

theorem undecodable_cAddi4spn (hq : slice code 0 2 = 0b00#2) (h3 : slice code 13 3 = 0b000#3)
    (himm : slice code 5 8 = 0#8) : Undecodable hasM code := by
  simp [Undecodable, decode_q0 hq, decodeQ0, slice_slice, cImm4spnOf_eq_zero_iff, h3, himm]

theorem undecodable_q0 (hq : slice code 0 2 = 0b00#2) (h3 : slice code 13 3 ∈ [0b001#3, 0b100#3, 0b101#3]) :
    Undecodable hasM code := by
  simp only [List.mem_cons, List.not_mem_nil, or_false] at h3
  obtain h3 | h3 | h3 := h3 <;> simp [Undecodable, decode_q0 hq, decodeQ0, slice_slice, h3]

theorem undecodable_cAddiw (hq : slice code 0 2 = 0b01#2) (h3 : slice code 13 3 = 0b001#3)
    (hrd : slice code 7 5 = 0#5) : Undecodable hasM code := by
  simp [Undecodable, decode_q1 hq, decodeQ1, slice_slice, h3, hrd]

/-- Quadrant 1 with funct3 001 is C.ADDIW: there is no C.JAL (R114). -/
theorem decode_cAddiw (hq : slice code 0 2 = 0b01#2) (h3 : slice code 13 3 = 0b001#3) (hrd : slice code 7 5 ≠ 0#5) :
    decode hasM code = .instr (.cAddiw (slice code 7 5) (cImm6Of (slice code 0 16))) := by
  simp [decode_q1 hq, decodeQ1, slice_slice, h3, hrd]

theorem undecodable_cLui (hq : slice code 0 2 = 0b01#2) (h3 : slice code 13 3 = 0b011#3)
    (hhigh : slice code 12 1 = 0#1) (hlow : slice code 2 5 = 0#5) : Undecodable hasM code := by
  simp [Undecodable, decode_q1 hq, decodeQ1, cImm6Of_eq_zero_iff, slice_slice, h3, hhigh, hlow]

theorem undecodable_arith (hq : slice code 0 2 = 0b01#2) (h6 : slice code 10 6 = 0b100111#6)
    (h2 : slice code 5 2 ∈ [0b10#2, 0b11#2]) : Undecodable hasM code := by
  have h3 : slice code 13 3 = 0b100#3 := slice_of_slice h6 3 3 (by omega)
  have h12 : slice code 12 1 = 0b1#1 := slice_of_slice h6 2 1 (by omega)
  have h10 : slice code 10 2 = 0b11#2 := slice_of_slice h6 0 2 (by omega)
  simp only [List.mem_cons, List.not_mem_nil, or_false] at h2
  obtain h2 | h2 := h2 <;>
    simp [Undecodable, decode_q1 hq, decodeQ1, decodeQ1Arith, slice_slice, h3, h12, h10, h2]

theorem undecodable_q2 (hq : slice code 0 2 = 0b10#2) (h3 : slice code 13 3 ∈ [0b001#3, 0b101#3]) :
    Undecodable hasM code := by
  simp only [List.mem_cons, List.not_mem_nil, or_false] at h3
  obtain h3 | h3 := h3 <;> simp [Undecodable, decode_q2 hq, decodeQ2, slice_slice, h3]

/-- C.LWSP and C.LDSP with rd 0. -/
theorem undecodable_stackLoad (hq : slice code 0 2 = 0b10#2) (h3 : slice code 13 3 ∈ [0b010#3, 0b011#3])
    (hrd : slice code 7 5 = 0#5) : Undecodable hasM code := by
  simp only [List.mem_cons, List.not_mem_nil, or_false] at h3
  obtain h3 | h3 := h3 <;> simp [Undecodable, decode_q2 hq, decodeQ2, slice_slice, h3, hrd]

/-- C.JR and C.JALR with rs1 0, the latter being C.EBREAK. -/
theorem undecodable_registerJump (hq : slice code 0 2 = 0b10#2) (h4 : slice code 12 4 ∈ [0b1000#4, 0b1001#4])
    (hrs2 : slice code 2 5 = 0#5) (hrs1 : slice code 7 5 = 0#5) : Undecodable hasM code := by
  simp only [List.mem_cons, List.not_mem_nil, or_false] at h4
  have h3 : slice code 13 3 = 0b100#3 := by
    obtain h4 | h4 := h4 <;> exact slice_of_slice h4 1 3 (by omega)
  by_cases h12 : slice code 12 1 = 0b0#1 <;>
    simp [Undecodable, decode_q2 hq, decodeQ2, slice_slice, h3, h12, hrs2, hrs1]

theorem undecodable_zeroHalfword (h : slice code 0 16 = 0x0000#16) : Undecodable hasM code :=
  undecodable_cAddi4spn (slice_of_slice h 0 2 (by omega)) (slice_of_slice h 13 3 (by omega))
    (slice_of_slice h 5 8 (by omega))

theorem undecodable_cEbreak (h : slice code 0 16 = 0x9002#16) : Undecodable hasM code := by
  have h4 : slice code 12 4 = 0b1001#4 := slice_of_slice h 12 4 (by omega)
  exact undecodable_registerJump (slice_of_slice h 0 2 (by omega)) (by simp [h4]) (slice_of_slice h 2 5 (by omega))
    (slice_of_slice h 7 5 (by omega))

theorem undecodable_ones : Undecodable hasM 0xFFFFFFFF#32 :=
  undecodable_majorOpcode (by decide) (by decide)

theorem decodeStage_undecodable {s : State} {f : Fetched} (hf : s.slotD = some f)
    (h : Undecodable s.cfg.hasM f.code) : decodeStage s = { s with fatal := some .decodeFailure } :=
  h.elim fun _ hwhy => decodeStage_failure hf hwhy

end

/-! ## The obligations -/

/-- Settles O6: each clause names the test of its quadrant's decoder that fails. -/
theorem compressedWordsThatFail : Obligations.CompressedWordsThatFail := by
  intro hasM code
  refine ⟨fun hq => ⟨undecodable_cAddi4spn hq, fun h3 => ?_, fun h3 => ?_, fun h3 => ?_⟩,
    fun hq => ⟨undecodable_cAddiw hq, undecodable_cLui hq, undecodable_arith hq, fun h3 hrd => ?_⟩,
    fun hq => ⟨fun h3 => ?_, fun h3 => ?_, fun h3 => ?_, fun h4 => ?_, fun h4 => ?_, fun h3 => ?_⟩⟩
  · exact undecodable_q0 hq (by simp [h3])
  · exact undecodable_q0 hq (by simp [h3])
  · exact undecodable_q0 hq (by simp [h3])
  · exact ⟨_, decode_cAddiw hq h3 hrd⟩
  · exact undecodable_q2 hq (by simp [h3])
  · exact undecodable_stackLoad hq (by simp [h3])
  · exact undecodable_stackLoad hq (by simp [h3])
  · exact undecodable_registerJump hq (by simp [h4])
  · exact undecodable_registerJump hq (by simp [h4])
  · exact undecodable_q2 hq (by simp [h3])

/-- Settles O5: each clause names the test of its opcode's decoder that fails. -/
theorem fullWordsThatFail : Obligations.FullWordsThatFail := by
  refine ⟨fun hasM code hfull h => ?_, fun hasM code h => ?_, fun s f => decodeStage_undecodable⟩
  · obtain h | ⟨hop, h⟩ | ⟨hop, h3⟩ | ⟨hop, h3⟩ | ⟨hop, h3⟩ | ⟨hop, h3⟩ | ⟨hop, h3, h6⟩ | ⟨hop, h3, h6⟩ | ⟨hop, h3⟩ |
      ⟨hop, h3, h7⟩ | ⟨hop, h3, h7⟩ | ⟨hop, h7⟩ | ⟨hop, h7, h3⟩ | ⟨hop, h7, h3⟩ | ⟨hop, h7, h3⟩ | ⟨hop, h7, hM⟩ := h
    · exact undecodable_majorOpcode hfull h
    · exact undecodable_system hop h
    · exact undecodable_jalr hop h3
    · exact undecodable_branch hop h3
    · exact undecodable_load hop h3
    · exact undecodable_store hop h3
    · exact undecodable_slli hop h3 h6
    · exact undecodable_shiftRight hop h3 h6
    · exact undecodable_opImm32 hop h3
    · exact undecodable_slliw hop h3 h7
    · exact undecodable_shiftRightw hop h3 h7
    · exact undecodable_funct7 hop h7
    · exact undecodable_alternate hop h7 h3
    · exact undecodable_op32 hop h7 h3
    · exact undecodable_multiply32 hop h7 h3
    · exact undecodable_multiplyAbsent hop h7 hM
  · obtain ⟨hq, h3⟩ | ⟨hq, h3⟩ | h | h | rfl := h
    · exact undecodable_q0 hq h3
    · exact undecodable_q2 hq h3
    · exact undecodable_zeroHalfword h
    · exact undecodable_cEbreak h
    · exact undecodable_ones

/-- Settles O4: the decoder of the SYSTEM opcode compares the whole word. -/
theorem systemWords : Obligations.SystemWords := fun _ _ hop =>
  ⟨fun h => (decode_system hop).trans (if_pos h), undecodable_system hop, rfl, rfl, rfl, rfl, rfl, rfl, rfl⟩

end Sys2Proof.Machine
end

section
/-! The writes-register flag (spec/30_encoding.md R106), and the words of R107 and of every major opcode and compressed
format. -/

namespace Sys2Proof

/-- The kinds that set no writes flag: the stores, the branches and ECALL (R106). -/
theorem Instr.writes_iff (i : Instr) :
    i.writes = true ↔ i.kind ∉ [.sb, .sh, .sw, .sd, .beq, .bne, .blt, .bge, .bltu, .bgeu, .ecall] := by
  unfold Instr.writes
  cases i.kind <;> simp [Kind.isStore, Kind.isBranch]

end Sys2Proof

namespace Sys2Proof.Machine

/-- Register 0 is never forwarded, so a record that writes it forwards nothing (R330). -/
theorem State.fwd_of_rd_zero {s : State} {w : Record} (hw : s.slotW = some w) (hrd : w.rd = 0) (x : Reg) :
    s.fwd x = s.reg x := by
  unfold State.fwd
  split
  case isTrue hx => exact (if_pos hx).symm
  case isFalse hx =>
    have hne : ¬ (w.writes = true ∧ w.rd = x) := fun h => hx (h.2.symm.trans hrd)
    simp only [hw, if_neg hne]

/-- A write to index 0 changes no register (R11). -/
theorem writeBack_reg_of_rd_zero {s : State} {w : Record} (hw : s.slotW = some w) (hrd : w.rd = 0) (x : Reg) :
    (writeBack s).reg x = s.reg x := by
  have hregs : (if w.writes then s.setReg w.rd w.wb else s) = s := by simp [hrd, State.setReg]
  rw [writeBack_holds hw, hregs]
  rfl

/-- Settles O7: the flag is a function of the kind, and forwarding and write-back ask for index 0. -/
theorem writesFlag : Obligations.WritesFlag := by
  refine ⟨fun s f i hf hdecode => ?_, fun s w hw hrd => ?_⟩
  · rw [decodeStage_instr hf hdecode]
    exact ⟨Record.decoded f i, rfl, i.writes_iff⟩
  · exact ⟨State.fwd_of_rd_zero hw hrd, writeBack_reg_of_rd_zero hw hrd⟩

/-- Settles O3: the decoder evaluates each written word. -/
theorem writtenWordsDecode : Obligations.WrittenWordsDecode := by
  unfold Obligations.WrittenWordsDecode
  decide

end Sys2Proof.Machine
end

section
/-! The computing instructions of RV64I (spec/40_rv64i_compute.md R131 to R161): their values, the decoding of their
words, and what they do in Execute. -/

namespace Sys2Proof.Machine

/-! ## The values (R131) -/

theorem sltVal_eq (a b : Word) : sltVal a b = if a.toInt < b.toInt then 1 else 0 := by
  simp [sltVal, boolWord, ltSigned]

theorem sltuVal_eq (a b : Word) : sltuVal a b = if a.toNat < b.toNat then 1 else 0 := by
  simp [sltuVal, boolWord, ltUnsigned]

/-- Sign extension keeps the signed number, so SLTI may compare with the unextended immediate (R135). -/
theorem sltVal_sext {n : Nat} (a : Word) (imm : BitVec n) (h : n ≤ 64) :
    sltVal a (sext imm) = if a.toInt < imm.toInt then 1 else 0 := by
  rw [sltVal_eq, sext, BitVec.toInt_signExtend_of_le h]

theorem low32_eq_slice (a : Word) : low32 a = slice a 0 32 := by
  simp [low32, BitVec.setWidth_eq_extractLsb']

theorem shift6_eq (a : Word) : shift6 a = a.toNat % 64 := by
  simp [shift6]

theorem shift5_eq (a : Word) : shift5 a = a.toNat % 32 := by
  simp [shift5]

/-- A shift amount in the instruction word is the whole of its six bits (R140 to R142). -/
theorem shift6_zext (shamt : BitVec 6) : shift6 (zext shamt) = shamt.toNat := by
  simp [shift6, zext]

/-- A shift amount in the instruction word is the whole of its five bits (R154 to R156). -/
theorem shift5_zext (shamt : BitVec 5) : shift5 (zext shamt) = shamt.toNat := by
  simp [shift5, zext]

theorem addwVal_eq (a b : Word) : addwVal a b = (slice (a + b) 0 32).signExtend 64 := by
  rw [addwVal, low32_eq_slice, sext]

theorem subwVal_eq (a b : Word) : subwVal a b = (slice (a - b) 0 32).signExtend 64 := by
  rw [subwVal, low32_eq_slice, sext]

theorem sllwVal_eq (a b : Word) : sllwVal a b = (slice a 0 32 <<< shift5 b).signExtend 64 := by
  rw [sllwVal, low32_eq_slice, sext]

theorem srlwVal_eq (a b : Word) : srlwVal a b = (slice a 0 32 >>> shift5 b).signExtend 64 := by
  rw [srlwVal, low32_eq_slice, sext]

theorem srawVal_eq (a b : Word) : srawVal a b = ((slice a 0 32).sshiftRight (shift5 b)).signExtend 64 := by
  rw [srawVal, low32_eq_slice, sext]

/-! ## What Execute does (R130) -/

section
variable {i : Instr} {rs1 rs2 : Reg} {value : State → Record → Word}

theorem computes_computeValue {reads : List Reg} (hexec : exec i = computeValue reads value)
    (hv : ∀ (s : State) (r : Record), value (s.detectLoadUse reads) r = value s r) : Computes i reads value :=
  fun s r h => (congrFun hexec s).trans (computeValue_holds h.1 (hv s r))

theorem computes_opRegImm {f : Word → Word → Word} {imm : Word} (hexec : exec i = opRegImm f rs1 imm)
    (hf : ∀ s r, f (s.fwd rs1) imm = value s r) : Computes i [rs1] value :=
  fun s r h => by rw [hexec, opRegImm_holds h.1, hf s r]

theorem computes_opRegReg {f : Word → Word → Word} (hexec : exec i = opRegReg f rs1 rs2)
    (hf : ∀ s r, f (s.fwd rs1) (s.fwd rs2) = value s r) : Computes i [rs1, rs2] value :=
  fun s r h => by rw [hexec, opRegReg_holds h.1, hf s r]

end

/-! ## The words, by major opcode (R100 to R102) -/

section
variable {code : BitVec 32} {i : Instr}

theorem decodesTo_opImm (hop : opcodeOf code = 0b0010011#7) (hi : decodeOpImm code = .instr i)
    (hw : i.writes = true) : DecodesTo code i i.rd true :=
  ⟨fun _ => (decode_opImm hop).trans hi, rfl, hw⟩

theorem decodesTo_opImm32 (hop : opcodeOf code = 0b0011011#7) (hi : decodeOpImm32 code = .instr i)
    (hw : i.writes = true) : DecodesTo code i i.rd true :=
  ⟨fun _ => (decode_opImm32 hop).trans hi, rfl, hw⟩

theorem decodesTo_op (hop : opcodeOf code = 0b0110011#7) (hi : ∀ hasM, decodeOp hasM code = .instr i)
    (hw : i.writes = true) : DecodesTo code i i.rd true :=
  ⟨fun hasM => (decode_op hop).trans (hi hasM), rfl, hw⟩

theorem decodesTo_op32 (hop : opcodeOf code = 0b0111011#7) (hi : ∀ hasM, decodeOp32 hasM code = .instr i)
    (hw : i.writes = true) : DecodesTo code i i.rd true :=
  ⟨fun hasM => (decode_op32 hop).trans (hi hasM), rfl, hw⟩

end

/-! ## The obligations -/

/-- Settles O8: each opcode decodes alone, and the value reads no part of the state. -/
theorem upperImmediates : Obligations.UpperImmediates := fun _ =>
  ⟨fun hop => ⟨⟨fun _ => decode_lui hop, rfl, rfl⟩, computes_computeValue rfl fun _ _ => rfl⟩,
    fun hop => ⟨⟨fun _ => decode_auipc hop, rfl, rfl⟩, computes_computeValue rfl fun _ _ => rfl⟩⟩

/-- Settles O9: funct3, and for the shifts funct6, choose the arm of the decoder; each value is that of the register
form on the extended immediate. -/
theorem registerImmediate : Obligations.RegisterImmediate := by
  intro code hop
  refine ⟨fun h3 => ⟨?addi, computes_opRegImm rfl fun _ _ => rfl⟩,
    fun h3 => ⟨?slti, computes_opRegImm rfl fun _ _ => sltVal_sext _ _ (by omega)⟩,
    fun h3 => ⟨?sltiu, computes_opRegImm rfl fun _ _ => sltuVal_eq _ _⟩,
    fun h3 => ⟨?xori, computes_opRegImm rfl fun _ _ => rfl⟩,
    fun h3 => ⟨?ori, computes_opRegImm rfl fun _ _ => rfl⟩,
    fun h3 => ⟨?andi, computes_opRegImm rfl fun _ _ => rfl⟩,
    fun h3 h6 => ⟨?slli, computes_opRegImm rfl fun _ _ => by rw [sllVal, shift6_zext]⟩,
    fun h3 h6 => ⟨?srli, computes_opRegImm rfl fun _ _ => by rw [srlVal, shift6_zext]⟩,
    fun h3 h6 => ⟨?srai, computes_opRegImm rfl fun _ _ => by rw [sraVal, shift6_zext]⟩⟩
  case slli | srli | srai => exact decodesTo_opImm hop (by simp [decodeOpImm, h3, h6]) rfl
  all_goals exact decodesTo_opImm hop (by simp [decodeOpImm, h3]) rfl

/-- Settles O10: funct7 and funct3 choose the arm of the decoder, before HAS_M is looked at; a shift by register counts
modulo 64. -/
theorem registerRegister : Obligations.RegisterRegister := by
  intro code hop
  refine ⟨fun h7 h3 => ⟨?add, computes_opRegReg rfl fun _ _ => rfl⟩,
    fun h7 h3 => ⟨?sub, computes_opRegReg rfl fun _ _ => rfl⟩,
    fun h7 h3 => ⟨?sll, computes_opRegReg rfl fun _ _ => by rw [sllVal, shift6_eq]⟩,
    fun h7 h3 => ⟨?slt, computes_opRegReg rfl fun _ _ => sltVal_eq _ _⟩,
    fun h7 h3 => ⟨?sltu, computes_opRegReg rfl fun _ _ => sltuVal_eq _ _⟩,
    fun h7 h3 => ⟨?xor, computes_opRegReg rfl fun _ _ => rfl⟩,
    fun h7 h3 => ⟨?srl, computes_opRegReg rfl fun _ _ => by rw [srlVal, shift6_eq]⟩,
    fun h7 h3 => ⟨?sra, computes_opRegReg rfl fun _ _ => by rw [sraVal, shift6_eq]⟩,
    fun h7 h3 => ⟨?or, computes_opRegReg rfl fun _ _ => rfl⟩,
    fun h7 h3 => ⟨?and, computes_opRegReg rfl fun _ _ => rfl⟩⟩
  all_goals exact decodesTo_op hop (fun _ => by simp [decodeOp, h7, h3]) rfl

/-- Settles O11: as for the 64-bit forms, with the values of the low words; a shift by register counts modulo 32. -/
theorem wordForms : Obligations.WordForms := by
  refine ⟨fun code hop => ?immediate, fun code hop => ?register⟩
  case immediate =>
    refine ⟨fun h3 => ⟨?addiw, computes_opRegImm rfl fun _ _ => addwVal_eq _ _⟩,
      fun h3 h7 => ⟨?slliw, computes_opRegImm rfl fun _ _ => by rw [sllwVal_eq, shift5_zext]⟩,
      fun h3 h7 => ⟨?srliw, computes_opRegImm rfl fun _ _ => by rw [srlwVal_eq, shift5_zext]⟩,
      fun h3 h7 => ⟨?sraiw, computes_opRegImm rfl fun _ _ => by rw [srawVal_eq, shift5_zext]⟩⟩
    case addiw => exact decodesTo_opImm32 hop (by simp [decodeOpImm32, h3]) rfl
    all_goals exact decodesTo_opImm32 hop (by simp [decodeOpImm32, h3, h7]) rfl
  case register =>
    refine ⟨fun h7 h3 => ⟨?addw, computes_opRegReg rfl fun _ _ => addwVal_eq _ _⟩,
      fun h7 h3 => ⟨?subw, computes_opRegReg rfl fun _ _ => subwVal_eq _ _⟩,
      fun h7 h3 => ⟨?sllw, computes_opRegReg rfl fun _ _ => by rw [sllwVal_eq, shift5_eq]⟩,
      fun h7 h3 => ⟨?srlw, computes_opRegReg rfl fun _ _ => by rw [srlwVal_eq, shift5_eq]⟩,
      fun h7 h3 => ⟨?sraw, computes_opRegReg rfl fun _ _ => by rw [srawVal_eq, shift5_eq]⟩⟩
    all_goals exact decodesTo_op32 hop (fun _ => by simp [decodeOp32, h7, h3]) rfl

end Sys2Proof.Machine
end

section
/-! The control transfers of RV64I (spec/41_rv64i_control.md R180 to R190): the immediates of their words, the conditions
of the branches, and what they do in Execute. -/

namespace Sys2Proof.Machine

/-! ## The immediates (R93) -/

section
variable {code : BitVec 32}

/-- The jump immediate is the one number whose bits stand where format UJ puts them. -/
theorem immJOf_of_fields {imm : BitVec 21} (h20 : slice imm 20 1 = slice code 31 1)
    (h12 : slice imm 12 8 = slice code 12 8) (h11 : slice imm 11 1 = slice code 20 1)
    (h1 : slice imm 1 10 = slice code 21 10) (h0 : slice imm 0 1 = 0#1) : immJOf code = imm := by
  simp (disch := omega) only [immJOf, ← h20, ← h12, ← h11, ← h1, ← h0, slice_join, slice_self]

/-- The branch immediate is the one number whose bits stand where format SB puts them. -/
theorem immBOf_of_fields {imm : BitVec 13} (h12 : slice imm 12 1 = slice code 31 1)
    (h11 : slice imm 11 1 = slice code 7 1) (h5 : slice imm 5 6 = slice code 25 6)
    (h1 : slice imm 1 4 = slice code 8 4) (h0 : slice imm 0 1 = 0#1) : immBOf code = imm := by
  simp (disch := omega) only [immBOf, ← h12, ← h11, ← h5, ← h1, ← h0, slice_join, slice_self]

/-- A branch has no destination and writes no register (R106, R184). -/
theorem decodesTo_branch {i : Instr} (hop : opcodeOf code = 0b1100011#7) (hi : decodeBranch code = .instr i)
    (hrd : i.rd = 0) (hw : i.writes = false) : DecodesTo code i 0 false :=
  ⟨fun _ => (decode_branch hop).trans hi, hrd, hw⟩

end

/-! ## The conditions (R185 to R190) -/

section
variable {a b : Word}

theorem condEq_iff : condEq a b = true ↔ a = b := beq_iff_eq

theorem condNe_iff : condNe a b = true ↔ a ≠ b := bne_iff_ne

theorem condLt_iff : condLt a b = true ↔ a.toInt < b.toInt := decide_eq_true_iff

theorem condGe_iff : condGe a b = true ↔ a.toInt ≥ b.toInt := decide_eq_true_iff

theorem condLtu_iff : condLtu a b = true ↔ a.toNat < b.toNat := decide_eq_true_iff

theorem condGeu_iff : condGeu a b = true ↔ a.toNat ≥ b.toNat := decide_eq_true_iff

end

/-! ## What Execute does (R181, R184) -/

/-- A jump links to the instruction after it, by its own length, and is always taken. -/
theorem jumps_opJump {i : Instr} {reads : List Reg} {target : State → Record → Word}
    (hexec : exec i = opJump reads target)
    (ht : ∀ (s : State) (r : Record), target (s.detectLoadUse reads) r = target s r) :
    Jumps i reads (BitVec.ofNat 64 i.len) target := by
  rintro s r ⟨hE, rfl⟩
  rw [hexec, opJump_holds hE (ht s r), Record.len]

/-- A branch redirects where its condition holds and only moves on where it does not. -/
theorem branches_opBranch {i : Instr} {cond : Word → Word → Bool} {rs1 rs2 : Reg} {imm : Word} {taken : State → Prop}
    (hexec : exec i = opBranch cond rs1 rs2 imm) (hc : ∀ s, cond (s.fwd rs1) (s.fwd rs2) = true ↔ taken s) :
    Branches i [rs1, rs2] taken imm := by
  intro s r h
  rw [hexec, opBranch_holds h.1]
  exact ⟨fun htaken => by rw [if_pos ((hc s).2 htaken)], fun hnot => by rw [if_neg (mt (hc s).1 hnot)]⟩

/-! ## The obligations -/

/-- Settles O12: the opcode, and for JALR funct3, choose the instruction; both are the shared jump, four bytes long. -/
theorem jumpInstructions : Obligations.JumpInstructions := by
  intro code
  refine ⟨fun hop imm h20 h12 h11 h1 h0 => ⟨?jalWord, ?jal⟩, fun hop h3 => ⟨?jalrWord, ?jalr⟩,
    fun hop h3 _ => undecodable_jalr hop h3⟩
  case jalWord =>
    rw [← immJOf_of_fields h20 h12 h11 h1 h0]
    exact ⟨fun _ => decode_jal hop, rfl, rfl⟩
  case jal => exact jumps_opJump rfl fun _ _ => rfl
  case jalrWord => exact ⟨fun _ => (decode_jalr hop).trans (if_pos h3), rfl, rfl⟩
  case jalr => exact jumps_opJump rfl fun s r => by rw [State.detectLoadUse_fwd]

/-- Settles O13: funct3 chooses the branch, with the immediate that the fields of the word carry; each is the shared
branch on its own condition. -/
theorem branchInstructions : Obligations.BranchInstructions := by
  intro code imm hop h12 h11 h5 h1 h0
  obtain rfl := immBOf_of_fields h12 h11 h5 h1 h0
  refine ⟨fun h3 => ⟨?beq, branches_opBranch rfl fun _ => condEq_iff⟩,
    fun h3 => ⟨?bne, branches_opBranch rfl fun _ => condNe_iff⟩,
    fun h3 => ⟨?blt, branches_opBranch rfl fun _ => condLt_iff⟩,
    fun h3 => ⟨?bge, branches_opBranch rfl fun _ => condGe_iff⟩,
    fun h3 => ⟨?bltu, branches_opBranch rfl fun _ => condLtu_iff⟩,
    fun h3 => ⟨?bgeu, branches_opBranch rfl fun _ => condGeu_iff⟩, fun h3 _ => undecodable_branch hop h3⟩
  all_goals exact decodesTo_branch hop (by simp [decodeBranch, h3]) rfl rfl

end Sys2Proof.Machine
end

section
/-! The loads and stores of RV64I (spec/42_rv64i_loadstore.md R200 to R214): the decoding of their words, the address
that Execute computes, and the access that AccessMemory makes. -/

namespace Sys2Proof

/-- No kind both loads and stores. -/
theorem Kind.isLoad_eq_false_of_isStore {k : Kind} (h : k.isStore = true) : k.isLoad = false := by
  cases k <;> simp_all [Kind.isLoad, Kind.isStore]

end Sys2Proof

namespace Sys2Proof.Machine

/-! ## The words (R93, R106) -/

section
variable {code : BitVec 32} {i : Instr}

theorem decodesTo_load (hop : opcodeOf code = 0b0000011#7) (hi : decodeLoad code = .instr i)
    (hw : i.writes = true) : DecodesTo code i i.rd true :=
  ⟨fun _ => (decode_load hop).trans hi, rfl, hw⟩

/-- A store has no destination and writes no register (R106). -/
theorem decodesTo_store (hop : opcodeOf code = 0b0100011#7) (hi : decodeStore code = .instr i) (hrd : i.rd = 0)
    (hw : i.writes = false) : DecodesTo code i 0 false :=
  ⟨fun _ => (decode_store hop).trans hi, hrd, hw⟩

/-- The store immediate is the one number whose bits stand where format S puts them. -/
theorem immSOf_of_fields {imm : BitVec 12} (h5 : slice imm 5 7 = slice code 25 7)
    (h0 : slice imm 0 5 = slice code 7 5) : immSOf code = imm := by
  simp (disch := omega) only [immSOf, ← h5, ← h0, slice_join, slice_self]

end

/-! ## What Execute does (R200) -/

theorem addresses_opAddress {i : Instr} {reads : List Reg} {rs1 : Reg} {imm : Word}
    (hexec : exec i = opAddress reads rs1 imm) : Addresses i reads (fun s => s.fwd rs1 + imm) :=
  fun s _ h => (congrFun hexec s).trans (opAddress_holds h.1 reads rs1 imm)

/-! ## What AccessMemory does (R201, R202) -/

section
variable {s : State} {r : Record} {k : FatalKind}

theorem accessMemory_load_error (h : s.slotM = some r) (hl : r.kind.isLoad = true)
    (hr : s.mem.read r.addr (accessWidth r.kind) = .error k) :
    accessMemory s = { s.access r.addr (accessWidth r.kind) true with fatal := some k } := by
  obtain ⟨k', hr', ht⟩ | ⟨v, hr', -⟩ := accessMemory_load h hl <;> cases hr.symm.trans hr'
  exact ht

theorem accessMemory_load_ok {v : Nat} (h : s.slotM = some r) (hl : r.kind.isLoad = true)
    (hr : s.mem.read r.addr (accessWidth r.kind) = .ok v) :
    accessMemory s = { s.access r.addr (accessWidth r.kind) true with
      slotM := none, slotW := some { r with wb := loadExt r.kind v } } := by
  obtain ⟨k, hr', -⟩ | ⟨v', hr', ht⟩ := accessMemory_load h hl <;> cases hr.symm.trans hr'
  exact ht

theorem accessMemory_store_error (h : s.slotM = some r) (hs : r.kind.isStore = true)
    (hw : s.mem.write r.addr (accessWidth r.kind) (s.reg r.rs2) = .error k) :
    accessMemory s = { s.access r.addr (accessWidth r.kind) false with fatal := some k } := by
  obtain ⟨k', hw', ht⟩ | ⟨m, hw', -⟩ := accessMemory_store h (Kind.isLoad_eq_false_of_isStore hs) hs <;>
    cases hw.symm.trans hw'
  exact ht

theorem accessMemory_store_ok {m : Memory} (h : s.slotM = some r) (hs : r.kind.isStore = true)
    (hw : s.mem.write r.addr (accessWidth r.kind) (s.reg r.rs2) = .ok m) :
    accessMemory s = { s.access r.addr (accessWidth r.kind) false with mem := m, slotM := none, slotW := some r } := by
  obtain ⟨k, hw', -⟩ | ⟨m', hw', ht⟩ := accessMemory_store h (Kind.isLoad_eq_false_of_isStore hs) hs <;>
    cases hw.symm.trans hw'
  exact ht

end

/-- A load is given by its kind: its width, and its extension of the numbers of that width (R201). -/
theorem loadsFromMemory_of_kind {i : Instr} {n : Nat} {ext : Nat → Word} (hl : i.kind.isLoad = true)
    (hn : accessWidth i.kind = n) (hext : ∀ v < 2 ^ (8 * n), loadExt i.kind v = ext v) : LoadsFromMemory i n ext := by
  subst hn
  rintro s r hM rfl
  have hsize := accessWidth_size (.inl hl)
  refine ⟨fun hcross => ?cross, fun hfits hmapped => ?unmapped, fun hfits hmapped => ?mapped⟩
  case cross => exact accessMemory_load_error hM hl (Memory.access_error (accessCheck_pageCross hsize hcross) s.mem 0).1
  case unmapped =>
    exact accessMemory_load_error hM hl (Memory.read_unmapped (accessCheck_eq_none_iff.2 ⟨hsize, hfits⟩) hmapped)
  case mapped =>
    have hread : s.mem.read r.addr (accessWidth r.kind) = .ok (s.mem.readLE r.addr (accessWidth r.kind)) :=
      Memory.read_eq_ok_iff.2 ⟨accessCheck_eq_none_iff.2 ⟨hsize, hfits⟩, hmapped, rfl⟩
    refine ⟨_, ⟨Memory.read_lt hread, s.mem.readLE_byte _ r.addr⟩, ?_⟩
    rw [← hext _ (Memory.read_lt hread)]
    exact accessMemory_load_ok hM hl hread

/-- A store is given by its kind and its data register (R202). -/
theorem storesToMemory_of_kind {i : Instr} {rs2 : Reg} {n : Nat} (hs : i.kind.isStore = true)
    (hn : accessWidth i.kind = n) (hrs2 : i.rs2 = rs2) : StoresToMemory i rs2 n := by
  subst hn hrs2
  rintro s r hwf hM rfl
  have hsize := accessWidth_size (.inr hs)
  refine ⟨fun hcross => ?cross, fun hfits => ?fits⟩
  case cross =>
    exact accessMemory_store_error hM hs (Memory.access_error (accessCheck_pageCross hsize hcross) s.mem _).2
  case fits =>
    have hwrite : s.mem.write r.addr (accessWidth r.kind) (s.reg r.rs2) = .ok _ :=
      Memory.write_eq_ok_iff.2 ⟨accessCheck_eq_none_iff.2 ⟨hsize, hfits⟩, rfl⟩
    exact ⟨_, Memory.write_stores hwf hwrite, accessMemory_store_ok hM hs hwrite⟩

/-- Zero extension keeps a number that fits the width (R49). -/
theorem zext_ofNat {n v : Nat} (h : v < 2 ^ n) : zext (BitVec.ofNat n v) = BitVec.ofNat 64 v := by
  apply BitVec.eq_of_toNat_eq
  simp [zext, Nat.mod_eq_of_lt h]

/-! ## The obligations -/

/-- Settles O14: funct3 chooses the load; Execute is the shared address computation, AccessMemory the shared load at the
width and with the extension of the kind. -/
theorem loadInstructions : Obligations.LoadInstructions := by
  intro code hop
  refine ⟨fun h3 => ⟨?lb, addresses_opAddress rfl, loadsFromMemory_of_kind rfl rfl fun _ _ => rfl⟩,
    fun h3 => ⟨?lh, addresses_opAddress rfl, loadsFromMemory_of_kind rfl rfl fun _ _ => rfl⟩,
    fun h3 => ⟨?lw, addresses_opAddress rfl, loadsFromMemory_of_kind rfl rfl fun _ _ => rfl⟩,
    fun h3 => ⟨?ld, addresses_opAddress rfl, loadsFromMemory_of_kind rfl rfl fun _ _ => rfl⟩,
    fun h3 => ⟨?lbu, addresses_opAddress rfl, loadsFromMemory_of_kind rfl rfl fun _ => zext_ofNat⟩,
    fun h3 => ⟨?lhu, addresses_opAddress rfl, loadsFromMemory_of_kind rfl rfl fun _ => zext_ofNat⟩,
    fun h3 => ⟨?lwu, addresses_opAddress rfl, loadsFromMemory_of_kind rfl rfl fun _ => zext_ofNat⟩⟩
  all_goals exact decodesTo_load hop (by simp [decodeLoad, h3]) rfl

/-- Settles O15: funct3 chooses the store, with the immediate that the fields of the word carry; Execute is the shared
address computation, AccessMemory the shared store at the width of the kind. -/
theorem storeInstructions : Obligations.StoreInstructions := by
  intro code imm hop h5 h0
  obtain rfl := immSOf_of_fields h5 h0
  refine ⟨fun h3 => ⟨?sb, addresses_opAddress rfl, storesToMemory_of_kind rfl rfl rfl⟩,
    fun h3 => ⟨?sh, addresses_opAddress rfl, storesToMemory_of_kind rfl rfl rfl⟩,
    fun h3 => ⟨?sw, addresses_opAddress rfl, storesToMemory_of_kind rfl rfl rfl⟩,
    fun h3 => ⟨?sd, addresses_opAddress rfl, storesToMemory_of_kind rfl rfl rfl⟩⟩
  all_goals exact decodesTo_store hop (by simp [decodeStore, h3]) rfl rfl

end Sys2Proof.Machine
end

section
/-! How ECALL finds its service, and the services that touch neither memory nor heap (spec/43_system.md R220 to R228,
R231 to R233, R235, R237 to R239). -/

namespace Sys2Proof.Machine

/-! ## The service of a number (R221, R224) -/

/-- An ECALL performs the service whose number stands in a7, on the argument in a0 (R220). -/
theorem exec_ecall_of_num {s : State} {r : Record} {v : Service} (h : s.Holds .ecall r)
    (hinj : s.cfg.sysnum.Injective) (hv : s.fwd 17 = s.cfg.sysnum.num v) :
    exec .ecall s = performService v (s.detectLoadUse [17, 10]) r (s.fwd 10) := by
  obtain ⟨hE, -⟩ := h
  refine (execEcall_holds hE).trans ?_
  rw [hv, serviceOf_num hinj]

/-- A service that only tells the host something: the event is logged, the record moves on (R226). -/
theorem emit_toMemory_eq (s : State) (reads : List Reg) (e : HostEvent) (r : Record) :
    ((s.detectLoadUse reads).emit e).toMemory r = { s.moved r reads with output := s.output ++ [e] } := by
  rw [State.detectLoadUse_eq]
  rfl

/-- Settles O27: each number finds its service, and each of the four services logs one event. -/
theorem ecallOutputServices : Obligations.EcallOutputServices := by
  intro s r h hinj
  have logs : ∀ (v : Service) (e : HostEvent),
      (∀ u, performService v u r (s.fwd 10) = .next ((u.emit e).toMemory r)) → s.fwd 17 = s.cfg.sysnum.num v →
      exec .ecall s = .next { s.moved r [17, 10] with output := s.output ++ [e] } := fun v e hperform hv => by
    rw [exec_ecall_of_num h hinj hv, hperform, emit_toMemory_eq]
  exact ⟨logs .printChar _ fun _ => rfl, logs .printInt _ fun _ => rfl, logs .printLong _ fun _ => rfl,
    logs .seedRandom _ fun _ => rfl⟩

/-- The five services that answer with a word of the host do the same (R231, R232, R233, R237, R238). -/
theorem performService_reading {v : Service} (hv : v ∈ [.readChar, .readInt, .readLong, .random, .wallClockTime])
    (s : State) (r : Record) (arg : Word) : performService v s r arg = .next (serviceReadWord s r) := by
  simp only [List.mem_cons, List.not_mem_nil, or_false] at hv
  obtain rfl | rfl | rfl | rfl | rfl := hv <;> rfl

/-- Settles O28: the answer is `State.nextWord`, which is the next listed word, if one is listed. -/
theorem ecallReadingServices : Obligations.EcallReadingServices := by
  intro s r v h hinj hv hnum
  refine ⟨s.nextWord, ?_, fun word rest hinput => by rw [State.nextWord, hinput, answerWord]⟩
  rw [exec_ecall_of_num h hinj hnum, performService_reading hv, State.detectLoadUse_eq]
  rfl

/-- Settles O32: no service is found, and the load-use count has been made before the search. -/
theorem ecallUnknownNumber : Obligations.EcallUnknownNumber := by
  rintro s r ⟨hE, -⟩ hunknown
  refine (execEcall_holds hE).trans ?_
  rw [serviceOf_unknown hunknown, State.detectLoadUse_eq]
  rfl

/-! ## EXIT (R225, R335) -/

/-- EXIT logs its argument, sets the flag and leaves the record in slot E. -/
theorem exec_ecall_exit {s : State} {r : Record} (h : s.Holds .ecall r) (hinj : s.cfg.sysnum.Injective)
    (hv : s.fwd 17 = s.cfg.sysnum.exit) :
    exec .ecall s = .next { s with
      exit := true
      output := s.output ++ [.exit (s.fwd 10)]
      counters := { s.counters with loadUseStalls := s.counters.loadUseStalls + s.stallsOn [17, 10] } } := by
  rw [exec_ecall_of_num (v := .exit) h hinj hv, State.detectLoadUse_eq]
  rfl

/-- AccessMemory tells the host nothing (R222). -/
theorem accessMemory_output (s : State) : (accessMemory s).output = s.output := by
  cases hM : s.slotM with
  | none => rw [accessMemory_empty hM]
  | some r =>
    cases hl : r.kind.isLoad with
    | true => obtain ⟨k, -, ht⟩ | ⟨v, -, ht⟩ := accessMemory_load hM hl <;> rw [ht] <;> rfl
    | false =>
      cases hs : r.kind.isStore with
      | true => obtain ⟨k, -, ht⟩ | ⟨m, -, ht⟩ := accessMemory_store hM hl hs <;> rw [ht] <;> rfl
      | false => rw [accessMemory_other hM hl hs]

theorem beforeExecute_output (s : State) : (beforeExecute s).output = s.output := by
  obtain ⟨-, -, -, -, -, -, -, -, -, -, -, -, -, houtput⟩ := writeBack_frame s.tick
  exact (accessMemory_output _).trans houtput

/-- The stages before Execute change no configuration (R6, R22). -/
theorem beforeExecute_configOk {s : State} (h : s.ConfigOk) : (beforeExecute s).ConfigOk := by
  obtain ⟨hlevels, hinj⟩ := h
  refine ⟨?_, (beforeExecute_effect s).cfg ▸ hinj⟩
  obtain hb | ⟨a, n, isRead, hb⟩ := (beforeExecute_effect s).levels <;> rw [hb]
  · exact hlevels
  · have hcfg := (chainRequest_cfg s.levels.length (s.levels, s.backing) ⟨a, n, isRead⟩).1
    exact List.forall_mem_map.1 (hcfg.symm ▸ List.forall_mem_map.2 hlevels)

/-- The record that AccessMemory has passed on stands in slot W, with its address and instruction (R323). -/
theorem beforeExecute_passed {s : State} {m : Record} (hm : s.slotM = some m) (hM : (beforeExecute s).slotM = none) :
    ∃ w, (beforeExecute s).slotW = some w ∧ w.pc = m.pc ∧ w.op = m.op := by
  obtain ⟨hM', -⟩ | ⟨q, x, hq, -, hW⟩ := (beforeExecute_effect s).record
  · cases hM.symm.trans (hM'.trans hm)
  · obtain rfl := Option.some.inj (hm.symm.trans hq)
    exact ⟨_, hW, rfl, rfl⟩

/-- A machine that has stopped does not change (R320). -/
theorem step_of_stopped {s : State} (hc : s.ConfigOk) (hs : s.stopped = true) : step s = .next s := by
  rw [step, if_pos hc, if_pos hs]

/-- A cycle in which Execute stops the machine ends there: Decode and Fetch do not run (R320, R335). -/
theorem step_of_execute_stops {s t : State} (hc : s.ConfigOk) (hs : s.stopped = false)
    (hb : (beforeExecute s).stopped = false) (ht : execute (beforeExecute s) = .next t) (hstop : t.stopped = true) :
    step s = .next t := by
  simp [step_eq_cycle hc, cycle, hs, hb, ht, mapNext, finishCycle, hstop]

/-- Settles O33: Execute sets the exit flag, so the cycle ends there, and a stopped machine does not change. -/
theorem exitEndsTheRun : Obligations.ExitEndsTheRun := by
  intro s r hc hs hb h hv b t
  obtain ⟨hE, hD, hpc, -, hregs, hpassed, -⟩ := beforeExecute_cases hs
  obtain ⟨-, hfatal⟩ := State.running_iff.1 hb
  obtain ⟨hM, -⟩ := hpassed hfatal
  have hcb : b.ConfigOk := beforeExecute_configOk hc
  have hexec : exec .ecall b = .next t := by
    have := exec_ecall_exit (s := b) ⟨hE.trans h.1, h.2⟩ hcb.2
      (hv.trans (congrArg (·.sysnum.exit) (beforeExecute_effect s).cfg.symm))
    rwa [beforeExecute_output] at this
  have hexecute : execute b = .next t := by
    rw [execute_holds (hE.trans h.1), h.2, hexec]
  exact ⟨hexec, step_of_execute_stops hc hs hb hexecute rfl, step_of_stopped hcb rfl, hE.trans h.1, hD, hpc, hM, hregs,
    rfl, fun m hm => beforeExecute_passed hm hM⟩

end Sys2Proof.Machine
end

section
/-! PRINT_STRING: what a read of one byte can give, the scan, and why it has reads enough (spec/43_system.md R230). -/

namespace Sys2Proof.Machine

/-! ## One read of the scan -/

theorem Memory.peek_eq_some_iff {m : Memory} {a : Word} {b : Byte} :
    m.peek a = some b ↔ m.mapped a = true ∧ m.byte a = b := by
  cases ha : m.mapped a <;> simp [Memory.peek, ha]

theorem Memory.peek_eq_none_iff {m : Memory} {a : Word} : m.peek a = none ↔ m.mapped a = false := by
  cases ha : m.mapped a <;> simp [Memory.peek, ha]

/-- What a scan finds whose first byte is not zero, from what the rest of it finds. -/
def Scan.prepend (b : Byte) : Scan → Scan
  | .text t => .text (b :: t)
  | .failed k => .failed k
  | .endless => .endless

theorem Scan.foldr_prepend_text (bytes t : List Byte) : bytes.foldr Scan.prepend (.text t) = .text (bytes ++ t) := by
  induction bytes with
  | nil => rfl
  | cons b bytes ih => rw [List.foldr_cons, ih, Scan.prepend, List.cons_append]

theorem Scan.foldr_prepend_failed (bytes : List Byte) (k : FatalKind) :
    bytes.foldr Scan.prepend (.failed k) = .failed k := by
  induction bytes with
  | nil => rfl
  | cons b bytes ih => rw [List.foldr_cons, ih, Scan.prepend]

section
variable {m : Memory} {a : Word}

theorem scanString_unmapped (h : m.peek a = none) (n : Nat) : scanString m (n + 1) a = .failed .unmappedRead := by
  rw [scanString, Memory.read_unmapped (accessCheck_one a) (Memory.peek_eq_none_iff.1 h)]

theorem scanString_zero (h : m.peek a = some 0) (n : Nat) : scanString m (n + 1) a = .text [] := by
  obtain ⟨hmapped, hbyte⟩ := Memory.peek_eq_some_iff.1 h
  simp [scanString, Memory.read_one hmapped, hbyte]

theorem scanString_nonzero {b : Byte} (h : m.peek a = some b) (hb : b ≠ 0) (n : Nat) :
    scanString m (n + 1) a = (scanString m n (a + 1)).prepend b := by
  obtain ⟨hmapped, rfl⟩ := Memory.peek_eq_some_iff.1 h
  have hb' : (m.byte a).toNat ≠ 0 := fun he => hb (BitVec.eq_of_toNat_eq he)
  simp only [scanString, Memory.read_one hmapped, if_neg hb', BitVec.ofNat_toNat, BitVec.setWidth_eq]
  cases scanString m n (a + 1) <;> rfl

end

/-! ## A run of reads -/

/-- The `n` bytes from `a` upward. -/
def Memory.bytesFrom (m : Memory) (a : Word) (n : Nat) : List Byte :=
  (List.range n).map fun j => m.byte (a + BitVec.ofNat 64 j)

/-- The `n` bytes from `a` upward are mapped and none of them is zero. -/
def Memory.NonzeroRun (m : Memory) (a : Word) (n : Nat) : Prop :=
  ∀ j < n, ∃ b, m.peek (a + BitVec.ofNat 64 j) = some b ∧ b ≠ 0

/-- A scan takes a run of bytes that are not zero, and goes on behind it. -/
theorem scanString_run {m : Memory} {a : Word} (k : Nat) : ∀ n : Nat, m.NonzeroRun a k →
    scanString m (k + n) a = (m.bytesFrom a k).foldr Scan.prepend (scanString m n (a + BitVec.ofNat 64 k)) := by
  induction k with
  | zero => intro n _; simp [Memory.bytesFrom]
  | succ k ih =>
    intro n h
    obtain ⟨b, hb, hb0⟩ := h k k.lt_succ_self
    obtain ⟨-, hbyte⟩ := Memory.peek_eq_some_iff.1 hb
    rw [Nat.add_right_comm, Nat.add_assoc, ih (n + 1) fun j hj => h j (Nat.lt_succ_of_lt hj), scanString_nonzero hb hb0,
      BitVec.add_assoc, Memory.bytesFrom, Memory.bytesFrom, List.range_succ, List.map_append, List.foldr_append,
      BitVec.ofNat_add]
    simp [hbyte]

/-- A scan with reads enough finds the bytes before the first zero byte. -/
theorem scanString_text {m : Memory} {a : Word} {k n : Nat} (h : m.NonzeroRun a k)
    (hend : m.peek (a + BitVec.ofNat 64 k) = some 0) (hn : k < n) : scanString m n a = .text (m.bytesFrom a k) := by
  obtain ⟨i, rfl⟩ := Nat.exists_eq_add_of_lt hn
  rw [Nat.add_assoc, scanString_run k (i + 1) h, scanString_zero hend, Scan.foldr_prepend_text, List.append_nil]

/-- A scan with reads enough fails where an unmapped page comes before a zero byte. -/
theorem scanString_fails {m : Memory} {a : Word} {k n : Nat} (h : m.NonzeroRun a k)
    (hend : m.peek (a + BitVec.ofNat 64 k) = none) (hn : k < n) : scanString m n a = .failed .unmappedRead := by
  obtain ⟨i, rfl⟩ := Nat.exists_eq_add_of_lt hn
  rw [Nat.add_assoc, scanString_run k (i + 1) h, scanString_unmapped hend, Scan.foldr_prepend_failed]

/-! ## The bound of the scan (log entry 9) -/

theorem ofNat_add_injOn (a : Word) : Set.InjOn (fun j => a + BitVec.ofNat 64 j) {j | j < 2 ^ 64} := by
  intro i hi j hj h
  have h' := congrArg BitVec.toNat (add_left_cancel (h : a + BitVec.ofNat 64 i = a + BitVec.ofNat 64 j))
  rwa [BitVec.toNat_ofNat, BitVec.toNat_ofNat, Nat.mod_eq_of_lt hi, Nat.mod_eq_of_lt hj] at h'

/-- An address is fixed by its page and its offset there (R40). -/
theorem eq_of_pageOf_offOf {a b : Word} (hpage : pageOf a = pageOf b) (hoff : offOf a = offOf b) : a = b := by
  unfold pageOf offOf pageSize at *
  exact BitVec.eq_of_toNat_eq (by omega)

/-- A run of mapped addresses is no longer than the mapped pages have addresses. -/
theorem Memory.mapped_run_le {m : Memory} {a : Word} {n : Nat} (hn : n ≤ 2 ^ 64)
    (h : ∀ j < n, m.mapped (a + BitVec.ofNat 64 j) = true) : n ≤ pageSize * m.pages.length := by
  have hcard : (Finset.range n).card ≤ (m.pages.toFinset ×ˢ Finset.range pageSize).card := by
    refine Finset.card_le_card_of_injOn
      (fun j => (pageOf (a + BitVec.ofNat 64 j), offOf (a + BitVec.ofNat 64 j))) (fun j hj => ?inPages)
      fun i hi j hj hij => ?injective
    case inPages =>
      have hmapped := h j (Finset.mem_range.1 hj)
      rw [Memory.mapped, List.contains_iff_mem] at hmapped
      exact Finset.mem_product.2
        ⟨List.mem_toFinset.2 hmapped, Finset.mem_range.2 (Nat.mod_lt _ (by decide))⟩
    case injective =>
      obtain ⟨hpage, hoff⟩ := Prod.mk.inj hij
      exact ofNat_add_injOn a ((Finset.mem_range.1 hi).trans_le hn) ((Finset.mem_range.1 hj).trans_le hn)
        (eq_of_pageOf_offOf hpage hoff)
  calc n = (Finset.range n).card := (Finset.card_range n).symm
    _ ≤ m.pages.toFinset.card * pageSize := by rwa [Finset.card_product, Finset.card_range pageSize] at hcard
    _ ≤ pageSize * m.pages.length := by
      rw [Nat.mul_comm]
      exact Nat.mul_le_mul_left _ m.pages.toFinset_card_le

/-- A run of bytes that are not zero, once it has ended, is shorter than the scan's bound: it has not gone round the
address space. -/
theorem Memory.NonzeroRun.lt_scanBound {m : Memory} {a : Word} {n : Nat} (h : m.NonzeroRun a n)
    (hend : ∀ b, m.peek (a + BitVec.ofNat 64 n) = some b → b = 0) : n < scanBound m := by
  have hn : n ≤ 2 ^ 64 := by
    by_contra hlong
    obtain ⟨b, hb, hb0⟩ := h (n % 2 ^ 64) (by omega)
    have hround : BitVec.ofNat 64 (n % 2 ^ 64) = BitVec.ofNat 64 n := BitVec.eq_of_toNat_eq (by simp)
    exact hb0 (hend b (hround ▸ hb))
  refine Nat.lt_succ_of_le (Memory.mapped_run_le (a := a) hn fun j hj => ?_)
  obtain ⟨b, hb, -⟩ := h j hj
  exact (Memory.peek_eq_some_iff.1 hb).1

/-! ## The obligation -/

/-- Settles O29: the scan has reads enough on both paths, so it ends where the bytes say. -/
theorem ecallPrintString : Obligations.EcallPrintString := by
  intro s r h hinj hv
  rw [exec_ecall_of_num (v := .printString) h hinj hv, performService, servicePrintString, State.detectLoadUse_mem]
  refine ⟨fun bytes hnonzero hbytes hend => ?text, fun n (hrun : s.mem.NonzeroRun (s.fwd 10) n) hend => ?unmapped⟩
  case text =>
    have hrun : s.mem.NonzeroRun (s.fwd 10) bytes.length := fun j hj =>
      ⟨_, hbytes j hj, hnonzero _ (List.getElem_mem hj)⟩
    have hread : s.mem.bytesFrom (s.fwd 10) bytes.length = bytes :=
      List.ext_getElem (by simp [Memory.bytesFrom]) fun j _ hj => by
        simpa [Memory.bytesFrom] using (Memory.peek_eq_some_iff.1 (hbytes j hj)).2
    rw [scanString_text hrun hend (hrun.lt_scanBound fun b hb => Option.some.inj (hb.symm.trans hend)), hread]
    exact congrArg Host.Outcome.next (emit_toMemory_eq s _ _ r)
  case unmapped =>
    rw [scanString_fails hrun hend (hrun.lt_scanBound fun b hb => nomatch hend.symm.trans hb), State.detectLoadUse_eq]
    rfl

end Sys2Proof.Machine
end

section
/-! READ_STRING: the answer of the host, and the bytes and pages after it has been stored (spec/43_system.md R222,
R234). -/

namespace Sys2Proof.Machine

/-! ## Pages and bytes after the string has been stored (R234) -/

/-- The string and the zero byte after it take the pages of their addresses. -/
theorem Memory.mapped_putString (text : List Byte) : ∀ (m : Memory) (a b : Word),
    (m.putString a text).mapped b = true ↔
      m.mapped b = true ∨ ∃ j ≤ text.length, pageOf b = pageOf (a + BitVec.ofNat 64 j) := by
  simp only [← Nat.lt_succ_iff]
  induction text with
  | nil => intro m a b; simp [Memory.putString, Memory.write1, or_comm]
  | cons x t ih =>
    intro m a b
    have hfirst : a + BitVec.ofNat 64 0 = a := by simp
    rw [List.length_cons, Nat.exists_lt_succ_left, hfirst, Memory.putString, ih, Memory.write1, Memory.mapped_putByte,
      Memory.mapped_mapPage, Bool.or_eq_true, decide_eq_true_eq, or_assoc, or_left_comm]
    simp only [add_one_add_ofNat]

/-- The bytes after the string has been stored: the distance from the first one says which byte of it stands at an
address, the one past its end being zero. -/
theorem Memory.byte_putString (text : List Byte) : ∀ {m : Memory} (a b : Word), m.wf → text.length < 2 ^ 64 →
    (m.putString a text).byte b =
      if (b - a).toNat ≤ text.length then text.getD (b - a).toNat 0 else m.byte b := by
  induction text with
  | nil =>
    intro m a b h _
    have hzero : (b - a).toNat ≤ 0 ↔ b = a := by bv_omega
    simp only [Memory.putString, Memory.write1, Memory.byte_putByte (Memory.mapPage_wf h a), Memory.byte_mapPage,
      List.length_nil, hzero, List.getD_nil]
  | cons x t ih =>
    intro m a b h hlen
    rw [List.length_cons] at hlen ⊢
    rw [Memory.putString, ih (a + 1) b (Memory.write1_wf h a x) (Nat.lt_of_succ_lt hlen), Memory.write1,
      Memory.byte_putByte (Memory.mapPage_wf h a), Memory.byte_mapPage]
    by_cases hb : b = a
    · subst hb
      have hlast : ¬ (b - (b + 1)).toNat ≤ t.length := by bv_omega
      rw [if_neg hlast, if_pos rfl, BitVec.sub_self, if_pos (by simp)]
      rfl
    · have hdist : (b - a).toNat = (b - (a + 1)).toNat + 1 := by bv_omega
      rw [if_neg hb, hdist, List.getD_cons_succ]
      simp only [Nat.add_le_add_iff_right]

section
variable {m : Memory} {text : List Byte} {a b : Word}

/-- Every byte of the string and the zero byte after it stand in memory. -/
theorem Memory.peek_putString_stored (h : m.wf) (hlen : text.length < 2 ^ 64) {j : Nat} (hj : j ≤ text.length) :
    (m.putString a text).peek (a + BitVec.ofNat 64 j) = some (text.getD j 0) := by
  have hdist : (a + BitVec.ofNat 64 j - a).toNat = j := by
    rw [add_sub_cancel_left, BitVec.toNat_ofNat, Nat.mod_eq_of_lt (hj.trans_lt hlen)]
  refine Memory.peek_eq_some_iff.2 ⟨(m.mapped_putString text a _).2 (.inr ⟨j, hj, rfl⟩), ?_⟩
  rw [Memory.byte_putString text a _ h hlen, hdist, if_pos hj]

/-- A byte beyond the string is as it was, in a page that was mapped. -/
theorem Memory.peek_putString_mapped (h : m.wf) (hlen : text.length < 2 ^ 64) (hb : text.length < (b - a).toNat)
    (hm : m.mapped b = true) : (m.putString a text).peek b = m.peek b := by
  rw [Memory.peek, (m.mapped_putString text a b).2 (.inl hm), Memory.peek, hm,
    Memory.byte_putString text a b h hlen, if_neg hb.not_ge]

/-- A byte beyond the string is zero, in a page that the string takes anew. -/
theorem Memory.peek_putString_new (h : m.wf) (hlen : text.length < 2 ^ 64) (hb : text.length < (b - a).toNat)
    (hm : m.mapped b = false) (hpage : ∃ j ≤ text.length, pageOf b = pageOf (a + BitVec.ofNat 64 j)) :
    (m.putString a text).peek b = some 0 := by
  refine Memory.peek_eq_some_iff.2 ⟨(m.mapped_putString text a b).2 (.inr hpage), ?_⟩
  rw [Memory.byte_putString text a b h hlen, if_neg hb.not_ge, Memory.byte_unmapped h hm]

/-- A page that the string does not take stays unmapped. -/
theorem Memory.peek_putString_unmapped (hm : m.mapped b = false)
    (hpage : ∀ j ≤ text.length, pageOf b ≠ pageOf (a + BitVec.ofNat 64 j)) :
    (m.putString a text).peek b = none := by
  rw [Memory.peek_eq_none_iff, ← Bool.not_eq_true, Memory.mapped_putString, not_or, Bool.not_eq_true]
  exact ⟨hm, fun ⟨j, hj, he⟩ => hpage j hj he⟩

end

/-! ## The answer of the host (R222) -/

/-- An answer to READ_STRING holds no zero byte (R222). -/
theorem answerBytes_nonzero (input : List HostAnswer) (n : Nat) : ∀ b ∈ answerBytes input n, b ≠ 0 :=
  fun _ hb => bne_iff_ne.1 (List.mem_takeWhile_imp (p := (· != 0)) hb)

/-- A listed string without zero bytes is the answer, whole. -/
theorem answerBytes_listed {listed : List Byte} (h : ∀ b ∈ listed, b ≠ 0) (rest : List HostAnswer) (n : Nat) :
    answerBytes (.bytes listed :: rest) n = listed :=
  List.takeWhile_eq_self_iff.2 fun b hb => bne_iff_ne.2 (h b hb)

/-! ## The obligation -/

/-- Settles O30: the text is the host's next byte string, and the memory is `Memory.putString` of it. -/
theorem ecallReadString : Obligations.EcallReadString := by
  intro s r h hinj hwf hv
  refine ⟨s.nextBytes, s.mem.putString (s.fwd 10) s.nextBytes, answerBytes_nonzero _ _, ?listed, ?exec, fun hlen =>
    ⟨fun j hj => ?byte, ?zero, fun b hb hm => Memory.peek_putString_mapped hwf hlen hb hm, fun b hb hm =>
      ⟨Memory.peek_putString_new hwf hlen hb hm, Memory.peek_putString_unmapped hm⟩⟩⟩
  case listed =>
    intro listed rest hinput hnonzero
    rw [State.nextBytes, hinput, answerBytes_listed hnonzero]
  case exec =>
    rw [exec_ecall_of_num (v := .readString) h hinj hv, State.detectLoadUse_eq]
    rfl
  case byte => rw [Memory.peek_putString_stored hwf hlen hj.le, List.getD_eq_getElem _ _ hj]
  case zero => rw [Memory.peek_putString_stored hwf hlen le_rfl, List.getD_eq_default _ _ le_rfl]

end Sys2Proof.Machine
end

section
/-! HEAP_ALLOCATE: the pages it maps, and where it stops (spec/43_system.md R236). -/

namespace Sys2Proof.Machine

/-! ## Mapping pages one after another -/

/-- The memory after `n` pages from `a` upward have been mapped. -/
def Memory.mapPages (m : Memory) (a : Word) : Nat → Memory
  | 0 => m
  | n + 1 => (m.mapPages a n).mapPage (a + BitVec.ofNat 64 (4096 * n))

theorem Memory.mapped_mapPages (m : Memory) (a b : Word) (n : Nat) :
    (m.mapPages a n).mapped b = true ↔
      m.mapped b = true ∨ ∃ j < n, pageOf b = pageOf (a + BitVec.ofNat 64 (4096 * j)) := by
  induction n with
  | zero => simp [Memory.mapPages]
  | succ n ih =>
    rw [Memory.mapPages, Memory.mapped_mapPage, Bool.or_eq_true, decide_eq_true_eq, ih, Nat.exists_lt_succ_right,
      or_comm, or_assoc]

theorem Memory.byte_mapPages (m : Memory) (a b : Word) (n : Nat) : (m.mapPages a n).byte b = m.byte b := by
  induction n with
  | zero => rfl
  | succ n ih => rw [Memory.mapPages, Memory.byte_mapPage, ih]

/-- Mapping pages that were not mapped makes their bytes zero and changes no other. -/
theorem Memory.peek_mapPages {m : Memory} (h : m.wf) {a : Word} {n : Nat}
    (hfree : ∀ j < n, m.mapped (a + BitVec.ofNat 64 (4096 * j)) = false) (b : Word) :
    ((∃ j < n, pageOf b = pageOf (a + BitVec.ofNat 64 (4096 * j))) → (m.mapPages a n).peek b = some 0) ∧
    ((∀ j < n, pageOf b ≠ pageOf (a + BitVec.ofNat 64 (4096 * j))) → (m.mapPages a n).peek b = m.peek b) := by
  refine ⟨fun hnew => ?new, fun hother => ?other⟩
  case new =>
    refine Memory.peek_eq_some_iff.2 ⟨(m.mapped_mapPages a b n).2 (.inr hnew), ?_⟩
    obtain ⟨j, hj, hpage⟩ := hnew
    rw [Memory.byte_mapPages, Memory.byte_unmapped h ((Memory.mapped_congr hpage).trans (hfree j hj))]
  case other =>
    have hmapped : (m.mapPages a n).mapped b = m.mapped b := by
      rw [Bool.eq_iff_iff, Memory.mapped_mapPages, or_iff_left]
      exact fun ⟨j, hj, hpage⟩ => hother j hj hpage
    rw [Memory.peek, Memory.peek, hmapped, Memory.byte_mapPages]

/-- Addresses that lie a number of pages apart have different pages, unless they lie a whole address space apart. -/
theorem pageOf_add_pages_ne (a : Word) {i j : Nat} (hij : i < j) (hj : j < 2 ^ 52) :
    pageOf (a + BitVec.ofNat 64 (4096 * j)) ≠ pageOf (a + BitVec.ofNat 64 (4096 * i)) := by
  unfold pageOf pageSize
  rw [BitVec.toNat_add, BitVec.toNat_add, BitVec.toNat_ofNat, BitVec.toNat_ofNat]
  omega

/-- `allocate` on pages that are not mapped maps one after another. -/
theorem allocatePages_free {m : Memory} {a : Word} (k : Nat) : ∀ n : Nat, k ≤ 2 ^ 52 →
    (∀ j < k, m.mapped (a + BitVec.ofNat 64 (4096 * j)) = false) →
    allocatePages (k + n) a m = allocatePages n (a + BitVec.ofNat 64 (4096 * k)) (m.mapPages a k) := by
  induction k with
  | zero => intro n _ _; simp [Memory.mapPages]
  | succ k ih =>
    intro n hk hfree
    have hnext : (m.mapPages a k).mapped (a + BitVec.ofNat 64 (4096 * k)) = false := by
      rw [← Bool.not_eq_true, Memory.mapped_mapPages, not_or, Bool.not_eq_true]
      exact ⟨hfree k k.lt_succ_self, fun ⟨j, hj, hpage⟩ => pageOf_add_pages_ne a hj hk hpage⟩
    rw [Nat.add_right_comm, Nat.add_assoc, ih (n + 1) (Nat.le_of_succ_le hk) fun j hj => hfree j (Nat.lt_succ_of_lt hj),
      allocatePages, Memory.allocate_unmapped hnext, BitVec.add_assoc, ← BitVec.ofNat_add]
    rfl

/-! ## The service -/

section
variable {s : State} {arg : Word} {m : Memory}

theorem serviceHeapAllocate_ok (h : allocatePages ((roundToPages arg).toNat / pageSize) s.heapPtr s.mem = (m, none))
    (r : Record) (reads : List Reg) :
    serviceHeapAllocate (s.detectLoadUse reads) r arg =
      { s.moved { r with rd := 17, writes := true, wb := s.heapPtr } reads with
        mem := m, heapPtr := s.heapPtr + roundToPages arg } := by
  simp only [State.detectLoadUse_eq, serviceHeapAllocate, h]
  rfl

theorem serviceHeapAllocate_error {k : FatalKind}
    (h : allocatePages ((roundToPages arg).toNat / pageSize) s.heapPtr s.mem = (m, some k)) (r : Record)
    (reads : List Reg) :
    serviceHeapAllocate (s.detectLoadUse reads) r arg = { s.stuck k reads with mem := m } := by
  simp only [State.detectLoadUse_eq, serviceHeapAllocate, h]
  rfl

end

/-- Settles O31: the pages below the first mapped one are mapped one after another; there, if it comes before the end
of the range, the allocation fails. -/
theorem ecallHeapAllocate : Obligations.EcallHeapAllocate := by
  intro s r h hinj hwf hv size page
  rw [exec_ecall_of_num (v := .heapAllocate) h hinj hv, performService]
  have hsize : size.toNat / 4096 ≤ 2 ^ 52 := by have := size.isLt; omega
  refine ⟨fun hfree => ?allocated, fun n hn hmapped hfree => ?failed⟩
  case allocated =>
    refine ⟨s.mem.mapPages s.heapPtr (size.toNat / 4096), ?_, Memory.peek_mapPages hwf hfree⟩
    exact congrArg Host.Outcome.next (serviceHeapAllocate_ok (allocatePages_free _ 0 hsize hfree) r _)
  case failed =>
    refine ⟨s.mem.mapPages s.heapPtr n, ?_, Memory.peek_mapPages hwf hfree⟩
    refine congrArg Host.Outcome.next (serviceHeapAllocate_error ?_ r _)
    obtain ⟨k, hk⟩ := Nat.exists_eq_add_of_lt hn
    have hstop : (s.mem.mapPages s.heapPtr n).mapped (page n) = true := (s.mem.mapped_mapPages _ _ n).2 (.inl hmapped)
    calc allocatePages (size.toNat / 4096) s.heapPtr s.mem
        = allocatePages (k + 1) (page n) (s.mem.mapPages s.heapPtr n) := by
          rw [hk, Nat.add_assoc]
          exact allocatePages_free n (k + 1) (hn.le.trans hsize) hfree
      _ = (s.mem.mapPages s.heapPtr n, some .doubleAllocation) := by
          rw [allocatePages, Memory.allocate_mapped hstop]

end Sys2Proof.Machine
end

section
/-! The words of the compressed instructions (spec/44_rvc.md R250 to R283; spec/30_encoding.md R110 to R112): their
register fields, their immediates, and their decoding by quadrant. -/

namespace Sys2Proof.Machine

/-! ## The register fields (R110, R251) -/

/-- Eight plus a three-bit field: the field below the bits 01. -/
theorem cReg_eq_primed (field : CReg) : cReg field = primed field := by
  revert field
  decide

/-! ## The immediates (R112) -/

section
variable {code : BitVec 32}

/-- A field of a compressed instruction is a field of the word it starts. -/
theorem slice_halfword (code : BitVec 32) {lo n : Nat} (h : lo + n ≤ 16) :
    slice (slice code 0 16) lo n = slice code lo n := by
  rw [slice_slice _ _ _ _ _ h, Nat.zero_add]

theorem cImm4spnOf_of_fields {imm : BitVec 10} (h4 : slice imm 4 2 = slice code 11 2)
    (h6 : slice imm 6 4 = slice code 7 4) (h2 : slice imm 2 1 = slice code 6 1) (h3 : slice imm 3 1 = slice code 5 1)
    (h0 : slice imm 0 2 = 0#2) : cImm4spnOf (slice code 0 16) = imm := by
  simp (disch := omega) only [cImm4spnOf, slice_halfword, ← h4, ← h6, ← h2, ← h3, ← h0, slice_join, slice_self]

theorem cImmWOf_of_fields {imm : BitVec 7} (h3 : slice imm 3 3 = slice code 10 3) (h2 : slice imm 2 1 = slice code 6 1)
    (h6 : slice imm 6 1 = slice code 5 1) (h0 : slice imm 0 2 = 0#2) : cImmWOf (slice code 0 16) = imm := by
  simp (disch := omega) only [cImmWOf, slice_halfword, ← h3, ← h2, ← h6, ← h0, slice_join, slice_self]

theorem cImmDOf_of_fields {imm : BitVec 8} (h3 : slice imm 3 3 = slice code 10 3) (h6 : slice imm 6 2 = slice code 5 2)
    (h0 : slice imm 0 3 = 0#3) : cImmDOf (slice code 0 16) = imm := by
  simp (disch := omega) only [cImmDOf, slice_halfword, ← h3, ← h6, ← h0, slice_join, slice_self]

theorem cImm6Of_of_fields {imm : BitVec 6} (h5 : slice imm 5 1 = slice code 12 1) (h0 : slice imm 0 5 = slice code 2 5) :
    cImm6Of (slice code 0 16) = imm := by
  simp (disch := omega) only [cImm6Of, slice_halfword, ← h5, ← h0, slice_join, slice_self]

theorem cImm16spOf_of_fields {imm : BitVec 10} (h9 : slice imm 9 1 = slice code 12 1)
    (h4 : slice imm 4 1 = slice code 6 1) (h6 : slice imm 6 1 = slice code 5 1) (h7 : slice imm 7 2 = slice code 3 2)
    (h5 : slice imm 5 1 = slice code 2 1) (h0 : slice imm 0 4 = 0#4) : cImm16spOf (slice code 0 16) = imm := by
  simp (disch := omega) only [cImm16spOf, slice_halfword, ← h9, ← h4, ← h6, ← h7, ← h5, ← h0, slice_join, slice_self]

theorem cImmLuiOf_of_fields {imm : BitVec 18} (h17 : slice imm 17 1 = slice code 12 1)
    (h12 : slice imm 12 5 = slice code 2 5) (h0 : slice imm 0 12 = 0#12) : cImmLuiOf (slice code 0 16) = imm := by
  simp (disch := omega) only [cImmLuiOf, slice_halfword, ← h17, ← h12, ← h0, slice_join, slice_self]

theorem cImmJOf_of_fields {imm : BitVec 12} (h11 : slice imm 11 1 = slice code 12 1)
    (h4 : slice imm 4 1 = slice code 11 1) (h8 : slice imm 8 2 = slice code 9 2) (h10 : slice imm 10 1 = slice code 8 1)
    (h6 : slice imm 6 1 = slice code 7 1) (h7 : slice imm 7 1 = slice code 6 1) (h1 : slice imm 1 3 = slice code 3 3)
    (h5 : slice imm 5 1 = slice code 2 1) (h0 : slice imm 0 1 = 0#1) : cImmJOf (slice code 0 16) = imm := by
  simp (disch := omega) only [cImmJOf, slice_halfword, ← h11, ← h4, ← h8, ← h10, ← h6, ← h7, ← h1, ← h5, ← h0,
    slice_join, slice_self]

theorem cImmBOf_of_fields {imm : BitVec 9} (h8 : slice imm 8 1 = slice code 12 1) (h3 : slice imm 3 2 = slice code 10 2)
    (h6 : slice imm 6 2 = slice code 5 2) (h1 : slice imm 1 2 = slice code 3 2) (h5 : slice imm 5 1 = slice code 2 1)
    (h0 : slice imm 0 1 = 0#1) : cImmBOf (slice code 0 16) = imm := by
  simp (disch := omega) only [cImmBOf, slice_halfword, ← h8, ← h3, ← h6, ← h1, ← h5, ← h0, slice_join, slice_self]

theorem cImmLwspOf_of_fields {imm : BitVec 8} (h5 : slice imm 5 1 = slice code 12 1)
    (h2 : slice imm 2 3 = slice code 4 3) (h6 : slice imm 6 2 = slice code 2 2) (h0 : slice imm 0 2 = 0#2) :
    cImmLwspOf (slice code 0 16) = imm := by
  simp (disch := omega) only [cImmLwspOf, slice_halfword, ← h5, ← h2, ← h6, ← h0, slice_join, slice_self]

theorem cImmLdspOf_of_fields {imm : BitVec 9} (h5 : slice imm 5 1 = slice code 12 1)
    (h3 : slice imm 3 2 = slice code 5 2) (h6 : slice imm 6 3 = slice code 2 3) (h0 : slice imm 0 3 = 0#3) :
    cImmLdspOf (slice code 0 16) = imm := by
  simp (disch := omega) only [cImmLdspOf, slice_halfword, ← h5, ← h3, ← h6, ← h0, slice_join, slice_self]

theorem cImmSwspOf_of_fields {imm : BitVec 8} (h2 : slice imm 2 4 = slice code 9 4)
    (h6 : slice imm 6 2 = slice code 7 2) (h0 : slice imm 0 2 = 0#2) : cImmSwspOf (slice code 0 16) = imm := by
  simp (disch := omega) only [cImmSwspOf, slice_halfword, ← h2, ← h6, ← h0, slice_join, slice_self]

theorem cImmSdspOf_of_fields {imm : BitVec 9} (h3 : slice imm 3 3 = slice code 10 3)
    (h6 : slice imm 6 3 = slice code 7 3) (h0 : slice imm 0 3 = 0#3) : cImmSdspOf (slice code 0 16) = imm := by
  simp (disch := omega) only [cImmSdspOf, slice_halfword, ← h3, ← h6, ← h0, slice_join, slice_self]

end

/-- The immediate of C.ADDI16SP is made of the bits of the six-bit one, so the decoder's one test is for both. -/
theorem cImm16spOf_eq_zero_iff (c : BitVec 16) : cImm16spOf c = 0#10 ↔ cImm6Of c = 0#6 := by
  have hbits : slice c 2 5 = slice c 6 1 ++ slice c 5 1 ++ slice c 3 2 ++ slice c 2 1 := by
    simp (disch := omega) only [slice_join]
  simp only [BitVec.toNat_eq, BitVec.toNat_ofNat, Nat.zero_mod, cImm16spOf, cImm6Of, hbits, toNat_append_eq_zero_iff]
  tauto

/-- The immediate of C.LUI is the six-bit one above twelve zeros. -/
theorem cImmLuiOf_eq_zero_iff (c : BitVec 16) : cImmLuiOf c = 0#18 ↔ cImm6Of c = 0#6 := by
  simp only [BitVec.toNat_eq, BitVec.toNat_ofNat, Nat.zero_mod, cImmLuiOf, cImm6Of, toNat_append_eq_zero_iff, and_true]

/-! ## The words, by quadrant (R92, R110) -/

section
variable {code : BitVec 32} {i : Instr} {rd : Reg} {writes : Bool}

theorem decodesTo_q0 (hq : slice code 0 2 = 0b00#2) (hi : decodeQ0 (slice code 0 16) = .instr i) (hrd : i.rd = rd)
    (hw : i.writes = writes) : DecodesTo code i rd writes :=
  ⟨fun _ => (decode_q0 hq).trans hi, hrd, hw⟩

theorem decodesTo_q1 (hq : slice code 0 2 = 0b01#2) (hi : decodeQ1 (slice code 0 16) = .instr i) (hrd : i.rd = rd)
    (hw : i.writes = writes) : DecodesTo code i rd writes :=
  ⟨fun _ => (decode_q1 hq).trans hi, hrd, hw⟩

theorem decodesTo_q2 (hq : slice code 0 2 = 0b10#2) (hi : decodeQ2 (slice code 0 16) = .instr i) (hrd : i.rd = rd)
    (hw : i.writes = writes) : DecodesTo code i rd writes :=
  ⟨fun _ => (decode_q2 hq).trans hi, hrd, hw⟩

/-- The CR words with funct4 1000: C.JR and C.MV, or reserved (R111, R114). -/
theorem decodeQ2_jrMv (h4 : slice code 12 4 = 0b1000#4) :
    decodeQ2 (slice code 0 16) =
      if slice code 2 5 = 0#5 then
        if slice code 7 5 = 0#5 then .failure .reservedCompressed else .instr (.cJr (slice code 7 5))
      else .instr (.cMv (slice code 7 5) (slice code 2 5)) := by
  have h3 : slice code 13 3 = 0b100#3 := slice_of_slice h4 1 3 (by omega)
  have h12 : slice code 12 1 = 0b0#1 := slice_of_slice h4 0 1 (by omega)
  simp [decodeQ2, h3, h12]

/-- The CR words with funct4 1001: C.JALR and C.ADD, or C.EBREAK (R111, R114). -/
theorem decodeQ2_jalrAdd (h4 : slice code 12 4 = 0b1001#4) :
    decodeQ2 (slice code 0 16) =
      if slice code 2 5 = 0#5 then
        if slice code 7 5 = 0#5 then .failure .compressedEbreak else .instr (.cJalr (slice code 7 5))
      else .instr (.cAdd (slice code 7 5) (slice code 2 5)) := by
  have h3 : slice code 13 3 = 0b100#3 := slice_of_slice h4 1 3 (by omega)
  have h12 : slice code 12 1 = 0b1#1 := slice_of_slice h4 0 1 (by omega)
  simp [decodeQ2, h3, h12]

end

/-! ## What Execute does (R276, R279) -/

/-- The register jumps of the compressed formats have no offset. -/
theorem jumps_register {i : Instr} {rs1 : Reg}
    (hexec : exec i = opJump [rs1] (fun s _ => jalrTarget (s.fwd rs1) 0)) :
    Jumps i [rs1] (BitVec.ofNat 64 i.len) (fun s _ => s.fwd rs1 &&& ~~~1) := by
  have hbase : ∀ base : Word, jalrTarget base 0 = base &&& ~~~1 := fun base => by
    rw [jalrTarget, BitVec.ofNat_eq_ofNat, BitVec.add_zero]
  simp only [hbase] at hexec
  exact jumps_opJump hexec fun s r => by rw [State.detectLoadUse_fwd]

/-! ## The obligations -/

/-- Settles O19: funct3 chooses the instruction, with the immediate that the fields of the halfword carry; Execute and
AccessMemory do what the 32-bit forms do. -/
theorem compressedQuadrant0 : Obligations.CompressedQuadrant0 := by
  intro code hq
  simp only [← cReg_eq_primed, BitVec.ofNat_eq_ofNat]
  refine ⟨fun h3 imm h4 h6 h2 h5 h0 => ?addi4spn, fun h3 imm hhigh h2 h6 h0 => ?lw, fun h3 imm hhigh h6 h0 => ?ld,
    fun h3 imm hhigh h2 h6 h0 => ?sw, fun h3 imm hhigh h6 h0 => ?sd⟩
  case addi4spn =>
    obtain rfl := cImm4spnOf_of_fields h4 h6 h2 h5 h0
    exact ⟨fun hzero _ => by simp [Undecodable, decode_q0 hq, decodeQ0, h3, hzero],
      fun hne => ⟨decodesTo_q0 hq (by simp [decodeQ0, h3, hne]) rfl rfl, computes_opRegImm rfl fun _ _ => rfl⟩⟩
  case lw =>
    obtain rfl := cImmWOf_of_fields hhigh h2 h6 h0
    exact ⟨decodesTo_q0 hq (by simp [decodeQ0, h3]) rfl rfl, addresses_opAddress rfl,
      loadsFromMemory_of_kind rfl rfl fun _ _ => rfl⟩
  case ld =>
    obtain rfl := cImmDOf_of_fields hhigh h6 h0
    exact ⟨decodesTo_q0 hq (by simp [decodeQ0, h3]) rfl rfl, addresses_opAddress rfl,
      loadsFromMemory_of_kind rfl rfl fun _ _ => rfl⟩
  case sw =>
    obtain rfl := cImmWOf_of_fields hhigh h2 h6 h0
    exact ⟨decodesTo_q0 hq (by simp [decodeQ0, h3]) rfl rfl, addresses_opAddress rfl,
      storesToMemory_of_kind rfl rfl rfl⟩
  case sd =>
    obtain rfl := cImmDOf_of_fields hhigh h6 h0
    exact ⟨decodesTo_q0 hq (by simp [decodeQ0, h3]) rfl rfl, addresses_opAddress rfl,
      storesToMemory_of_kind rfl rfl rfl⟩

/-- Settles O20: funct3 and rd choose the instruction; the immediates of C.ADDI16SP and C.LUI are zero where the six-bit
immediate that the decoder tests is zero. -/
theorem compressedImmediates : Obligations.CompressedImmediates := by
  intro code hq
  simp only [BitVec.ofNat_eq_ofNat]
  refine ⟨fun imm h5 h0 => ?six, fun h3 hrd imm h9 h4 h6 h7 h5 h0 => ?addi16sp, fun h3 hrd imm h17 h12 h0 => ?lui⟩
  case six =>
    obtain rfl := cImm6Of_of_fields h5 h0
    refine ⟨fun h3 hrd => ⟨?nop, computes_opRegImm rfl fun s _ => BitVec.zero_add _⟩,
      fun h3 hrd => ⟨?addi, computes_opRegImm rfl fun _ _ => rfl⟩, fun h3 hrd _ => undecodable_cAddiw hq h3 hrd,
      fun h3 hrd => ⟨⟨fun _ => decode_cAddiw hq h3 hrd, rfl, rfl⟩, computes_opRegImm rfl fun _ _ => addwVal_eq _ _⟩,
      fun h3 => ⟨?li, computes_opRegImm rfl fun s _ => BitVec.zero_add _⟩⟩
    case nop | addi => exact decodesTo_q1 hq (by simp [decodeQ1, h3, hrd]) rfl rfl
    case li => exact decodesTo_q1 hq (by simp [decodeQ1, h3]) rfl rfl
  case addi16sp =>
    obtain rfl := cImm16spOf_of_fields h9 h4 h6 h7 h5 h0
    simp only [ne_eq, cImm16spOf_eq_zero_iff]
    exact ⟨fun hzero _ => by simp [Undecodable, decode_q1 hq, decodeQ1, h3, hzero],
      fun hne => ⟨decodesTo_q1 hq (by simp [decodeQ1, h3, hrd, hne]) rfl rfl, computes_opRegImm rfl fun _ _ => rfl⟩⟩
  case lui =>
    obtain rfl := cImmLuiOf_of_fields h17 h12 h0
    simp only [ne_eq, cImmLuiOf_eq_zero_iff]
    exact ⟨fun hzero _ => by simp [Undecodable, decode_q1 hq, decodeQ1, h3, hzero],
      fun hne => ⟨decodesTo_q1 hq (by simp [decodeQ1, h3, hrd, hne]) rfl rfl, computes_computeValue rfl fun _ _ => rfl⟩⟩

/-- Settles O21: funct2, and for the register forms bit 12 and c[6:5], choose the arm of the decoder; the values are
those of the 32-bit forms. -/
theorem compressedArithmetic : Obligations.CompressedArithmetic := by
  intro code hq h3
  simp only [← cReg_eq_primed]
  refine ⟨fun imm h5 h0 => ?immediate, fun h10 h5 => ⟨?sub, computes_opRegReg rfl fun _ _ => rfl⟩,
    fun h10 h5 => ⟨?xor, computes_opRegReg rfl fun _ _ => rfl⟩,
    fun h10 h5 => ⟨?or, computes_opRegReg rfl fun _ _ => rfl⟩,
    fun h10 h5 => ⟨?and, computes_opRegReg rfl fun _ _ => rfl⟩,
    fun h10 h5 => ⟨?subw, computes_opRegReg rfl fun _ _ => subwVal_eq _ _⟩,
    fun h10 h5 => ⟨?addw, computes_opRegReg rfl fun _ _ => addwVal_eq _ _⟩, fun h10 h5 hasM => ?reserved⟩
  case immediate =>
    obtain rfl := cImm6Of_of_fields h5 h0
    refine ⟨fun h10 => ⟨?srli, computes_opRegImm rfl fun _ _ => by rw [srlVal, shift6_zext]⟩,
      fun h10 => ⟨?srai, computes_opRegImm rfl fun _ _ => by rw [sraVal, shift6_zext]⟩,
      fun h10 => ⟨?andi, computes_opRegImm rfl fun _ _ => rfl⟩⟩
    all_goals exact decodesTo_q1 hq (by simp [decodeQ1, decodeQ1Arith, h3, h10]) rfl rfl
  case reserved =>
    refine undecodable_arith hq ?_ h5
    have hjoin : slice code 10 6 = slice code 13 3 ++ slice code 10 3 := (slice_join (k := 3) code rfl).symm
    rw [hjoin, h3, h10]
    rfl
  all_goals
    have h2 : slice code 10 2 = 0b11#2 := slice_of_slice h10 0 2 (by omega)
  case sub | xor | or | and =>
    have h12 : slice code 12 1 = 0b0#1 := slice_of_slice h10 2 1 (by omega)
    exact decodesTo_q1 hq (by simp [decodeQ1, decodeQ1Arith, h3, h2, h12, h5]) rfl rfl
  case subw | addw =>
    have h12 : slice code 12 1 = 0b1#1 := slice_of_slice h10 2 1 (by omega)
    exact decodesTo_q1 hq (by simp [decodeQ1, decodeQ1Arith, h3, h2, h12, h5]) rfl rfl

/-- Settles O22: the target and the condition are those of the shared jump and branch, with the immediate that the fields
of the halfword carry; the link length is the instruction's own, two. -/
theorem compressedTransfers : Obligations.CompressedTransfers := by
  intro code
  simp only [← cReg_eq_primed, BitVec.ofNat_eq_ofNat]
  refine ⟨fun hq h3 imm h11 h4 h8 h10 h6 h7 h1 h5 h0 => ?j, fun hq imm h8 h3 h6 h1 h5 h0 => ?branch,
    fun hq hrs2 => ?register⟩
  case j =>
    obtain rfl := cImmJOf_of_fields h11 h4 h8 h10 h6 h7 h1 h5 h0
    exact ⟨decodesTo_q1 hq (by simp [decodeQ1, h3]) rfl rfl, jumps_opJump rfl fun _ _ => rfl⟩
  case branch =>
    obtain rfl := cImmBOf_of_fields h8 h3 h6 h1 h5 h0
    exact ⟨fun h3 => ⟨decodesTo_q1 hq (by simp [decodeQ1, h3]) rfl rfl, branches_opBranch rfl fun _ => condEq_iff⟩,
      fun h3 => ⟨decodesTo_q1 hq (by simp [decodeQ1, h3]) rfl rfl, branches_opBranch rfl fun _ => condNe_iff⟩⟩
  case register =>
    refine ⟨fun h4 hrs1 _ => undecodable_registerJump hq (by simp [h4]) hrs2 hrs1, fun h4 hrs1 => ⟨?jrWord, ?jr⟩,
      fun h4 hrs1 _ => undecodable_registerJump hq (by simp [h4]) hrs2 hrs1, fun h4 hrs1 => ⟨?jalrWord, ?jalr⟩⟩
    case jrWord => exact decodesTo_q2 hq (by rw [decodeQ2_jrMv h4, if_pos hrs2, if_neg hrs1]) rfl rfl
    case jalrWord => exact decodesTo_q2 hq (by rw [decodeQ2_jalrAdd h4, if_pos hrs2, if_neg hrs1]) rfl rfl
    case jr | jalr => exact jumps_register rfl

/-- Settles O23: funct3, for the register forms funct4, chooses the instruction; the loads and stores are those of LW, LD,
SW and SD on x2. -/
theorem compressedQuadrant2 : Obligations.CompressedQuadrant2 := by
  intro code hq
  simp only [BitVec.ofNat_eq_ofNat]
  refine ⟨fun h3 imm h5 h0 => ?slli, fun h4 hrs2 => ⟨?mv, computes_computeValue rfl fun s _ => s.detectLoadUse_fwd _ _⟩,
    fun h4 hrs2 => ⟨?add, computes_opRegReg rfl fun _ _ => rfl⟩, fun h3 imm h5 h2 h6 h0 => ?lwsp,
    fun h3 imm h5 hlow h6 h0 => ?ldsp, fun h3 imm h2 h6 h0 => ?swsp, fun h3 imm hlow h6 h0 => ?sdsp⟩
  case slli =>
    obtain rfl := cImm6Of_of_fields h5 h0
    exact ⟨decodesTo_q2 hq (by simp [decodeQ2, h3]) rfl rfl,
      computes_opRegImm rfl fun _ _ => by rw [sllVal, shift6_zext]⟩
  case mv => exact decodesTo_q2 hq (by rw [decodeQ2_jrMv h4, if_neg hrs2]) rfl rfl
  case add => exact decodesTo_q2 hq (by rw [decodeQ2_jalrAdd h4, if_neg hrs2]) rfl rfl
  case lwsp =>
    obtain rfl := cImmLwspOf_of_fields h5 h2 h6 h0
    exact ⟨fun hrd _ => undecodable_stackLoad hq (by simp [h3]) hrd,
      fun hrd => ⟨decodesTo_q2 hq (by simp [decodeQ2, h3, hrd]) rfl rfl, addresses_opAddress rfl,
        loadsFromMemory_of_kind rfl rfl fun _ _ => rfl⟩⟩
  case ldsp =>
    obtain rfl := cImmLdspOf_of_fields h5 hlow h6 h0
    exact ⟨fun hrd _ => undecodable_stackLoad hq (by simp [h3]) hrd,
      fun hrd => ⟨decodesTo_q2 hq (by simp [decodeQ2, h3, hrd]) rfl rfl, addresses_opAddress rfl,
        loadsFromMemory_of_kind rfl rfl fun _ _ => rfl⟩⟩
  case swsp =>
    obtain rfl := cImmSwspOf_of_fields h2 h6 h0
    exact ⟨decodesTo_q2 hq (by simp [decodeQ2, h3]) rfl rfl, addresses_opAddress rfl,
      storesToMemory_of_kind rfl rfl rfl⟩
  case sdsp =>
    obtain rfl := cImmSdspOf_of_fields hlow h6 h0
    exact ⟨decodesTo_q2 hq (by simp [decodeQ2, h3]) rfl rfl, addresses_opAddress rfl,
      storesToMemory_of_kind rfl rfl rfl⟩

end Sys2Proof.Machine
end

section
/-! A compressed instruction is its 32-bit equivalent (spec/44_rvc.md R250): its record fields, Execute as a function of
these, and what the stages from Execute on see of a record's instruction. -/

namespace Sys2Proof

/-! ## The immediates of the equivalents (R94, R112) -/

/-- A sign extension on the way to 64 bits changes nothing. -/
theorem sext_signExtend {n m : Nat} (x : BitVec n) (h : n ≤ m) : sext (x.signExtend m) = sext x := by
  unfold sext
  grind

/-- A number that a wider field holds without its sign bit is extended with zeros. -/
theorem sext_setWidth {n m : Nat} (x : BitVec n) (h : n < m) (hm : m ≤ 64) : sext (x.setWidth m) = zext x := by
  have hmsb : (x.setWidth m).msb = false := by
    rw [BitVec.msb_setWidth, BitVec.getLsbD_of_ge _ _ (by omega), Bool.and_false]
  rw [sext, BitVec.signExtend_eq_setWidth_of_msb_false hmsb, zext, BitVec.setWidth_setWidth (by omega)]

/-- The immediate of C.LUI as the upper immediate of LUI. -/
theorem immUExt_signExtend {imm : BitVec 18} (h : lowZero imm 12 = true) :
    immUExt ((slice imm 12 6).signExtend 20) = sext imm := by
  have himm : slice imm 12 6 ++ 0#12 = imm := by
    simp (disch := omega) only [zero_eq_slice h, slice_join, slice_self]
  have hfields : (slice imm 12 6).signExtend 20 ++ 0#12 = (slice imm 12 6 ++ 0#12).signExtend 32 := by
    apply BitVec.eq_of_getLsbD_eq
    grind
  rw [immUExt, hfields, himm, sext_signExtend imm (by omega)]

/-! ## The fields of the equivalent (R250) -/

section
variable {i j : Instr}

theorem Instr.expansion_len (h : i.expansion = some j) : i.len = 2 ∧ j.len = 4 := by
  cases i <;> cases h <;> exact ⟨rfl, rfl⟩

theorem Instr.expansion_kind (h : i.expansion = some j) : i.kind = j.kind := by
  cases i <;> cases h <;> rfl

/-- The writes flag follows the kind (R106). -/
theorem Instr.expansion_writes (h : i.expansion = some j) : i.writes = j.writes := by
  rw [Instr.writes, Instr.writes, Instr.expansion_kind h]

theorem Instr.expansion_registers (h : i.expansion = some j) : i.rd = j.rd ∧ i.rs1 = j.rs1 ∧ i.rs2 = j.rs2 := by
  cases i <;> cases h <;> exact ⟨rfl, rfl, rfl⟩

/-- The immediate of the equivalent is wider, and is extended to the same 64 bits. -/
theorem Instr.expansion_imm (hwf : i.wf = true) (h : i.expansion = some j) : i.imm = j.imm := by
  cases i with
  | cAddi4spn | cLw | cLd | cSw | cSd | cLwsp | cLdsp | cSwsp | cSdsp =>
    cases h
    exact (sext_setWidth _ (by omega) (by omega)).symm
  | cNop | cAddi | cAddiw | cLi | cAddi16sp | cAndi | cJ | cBeqz | cBnez =>
    cases h
    exact (sext_signExtend _ (by omega)).symm
  | cLui rd imm =>
    cases h
    simp only [Instr.wf, Bool.and_eq_true] at hwf
    obtain ⟨⟨hlow, -⟩, -⟩ := hwf
    exact (immUExt_signExtend hlow).symm
  | _ => cases h <;> rfl

end

/-! ## C.MV and the formats (R110, R162, R277) -/

/-- C.MV alone has no equivalent. -/
theorem Instr.kind_of_no_expansion {i : Instr} (hlen : i.len = 2) (h : i.expansion = none) : i.kind = .mv := by
  cases i with
  | cMv => rfl
  | _ => simp [Instr.len, Instr.expansion] at hlen h

theorem Instr.kind_ne_mv_of_full {i : Instr} (hlen : i.len = 4) : i.kind ≠ .mv := by
  cases i with
  | cMv => simp [Instr.len] at hlen
  | _ => simp [Instr.kind]

theorem Instr.format_of_compressed {i : Instr} (hlen : i.len = 2) :
    i.format ∈ [.CR, .CI, .CSS, .CIW, .CL, .CS, .CB, .CJ] := by
  cases i <;> simp [Instr.len, Instr.format] at hlen ⊢

end Sys2Proof

namespace Sys2Proof.Machine

/-! ## Execute by the record fields (R331) -/

/-- Execute by the operation kind and the record fields of an instruction. The default of `getD` is never taken: the
kinds of that arm all compute a value. -/
def execByKind (i : Instr) (s : State) : Result :=
  match i.kind with
  | .ecall => execEcall s
  | .jal => opJump i.readSet (fun _ r => r.pc + i.imm) s
  | .jalr => opJump i.readSet (fun s _ => jalrTarget (s.fwd i.rs1) i.imm) s
  | .beq => opBranch condEq i.rs1 i.rs2 i.imm s
  | .bne => opBranch condNe i.rs1 i.rs2 i.imm s
  | .blt => opBranch condLt i.rs1 i.rs2 i.imm s
  | .bge => opBranch condGe i.rs1 i.rs2 i.imm s
  | .bltu => opBranch condLtu i.rs1 i.rs2 i.imm s
  | .bgeu => opBranch condGeu i.rs1 i.rs2 i.imm s
  | .lb | .lh | .lw | .ld | .lbu | .lhu | .lwu | .sb | .sh | .sw | .sd => opAddress i.readSet i.rs1 i.imm s
  | k => computeValue i.readSet (fun s r => (kindValue k (s.fwd i.rs1) (s.fwd i.rs2) i.imm r.pc).getD 0) s

theorem exec_eq_execByKind (i : Instr) (s : State) : exec i s = execByKind i s := by
  cases i <;> rfl

theorem exec_congr {i j : Instr} (hkind : i.kind = j.kind) (hrs1 : i.rs1 = j.rs1) (hrs2 : i.rs2 = j.rs2)
    (himm : i.imm = j.imm) (s : State) : exec i s = exec j s := by
  have hreads : i.readSet = j.readSet := by simp only [Instr.readSet, hkind, hrs1, hrs2]
  rw [exec_eq_execByKind, exec_eq_execByKind, execByKind, execByKind, hkind, hrs1, hrs2, himm, hreads]

/-! ## A record with another instruction of the same kind -/

/-- The record with another instruction, its destination, flag, value and address kept. -/
def Record.withOp (r : Record) (j : Instr) : Record := { r with op := j }

/-- The state with a record put into slot W. -/
def State.putW (s : State) (q : Record) : State := { s with slotW := some q }

/-- The state in which the records in slots M and W, if there are any, carry the instruction `j`. -/
def State.withOp (s : State) (j : Instr) : State :=
  { s with slotM := s.slotM.map (·.withOp j), slotW := s.slotW.map (·.withOp j) }

@[simp] theorem Record.withOp_addr (r : Record) (j : Instr) : (r.withOp j).addr = r.addr := rfl
@[simp] theorem State.putW_cfg (s : State) (q : Record) : (s.putW q).cfg = s.cfg := rfl
@[simp] theorem State.withOp_mem (s : State) (j : Instr) : (s.withOp j).mem = s.mem := rfl
@[simp] theorem State.withOp_reg (s : State) (j : Instr) (x : Reg) : (s.withOp j).reg x = s.reg x := rfl

/-! ## What Execute sees of slot W (R330, R332) -/

section
variable {s : State} {w : Record} {j : Instr} (hW : s.slotW = some w)
include hW

/-- Forwarding does not look at the instruction. -/
theorem State.putW_fwd (x : Reg) : (s.putW (w.withOp j)).fwd x = s.fwd x := by
  simp only [State.fwd, hW]
  rfl

variable (hkind : (w.withOp j).kind = w.kind)
include hkind

/-- Load-use detection looks at the kind alone. -/
theorem State.putW_stallsOn (reads : List Reg) : (s.putW (w.withOp j)).stallsOn reads = s.stallsOn reads := by
  simp only [State.stallsOn, State.putW, hW, hkind]
  rfl

theorem State.putW_moved (r : Record) (reads : List Reg) :
    (s.putW (w.withOp j)).moved r reads = (s.moved r reads).putW (w.withOp j) := by
  simp only [State.moved, State.putW_stallsOn hW hkind]
  rfl

theorem State.putW_detectLoadUse (reads : List Reg) :
    (s.putW (w.withOp j)).detectLoadUse reads = (s.detectLoadUse reads).putW (w.withOp j) := by
  simp only [State.detectLoadUse_eq, State.putW_stallsOn hW hkind]
  rfl

end

/-- The services do not look at slot W. -/
theorem performService_putW (service : Service) (s : State) (q r : Record) (arg : Word) :
    performService service (s.putW q) r arg = mapNext (·.putW q) (performService service s r arg) := by
  cases service with
  | printString =>
    simp only [performService, servicePrintString, State.putW]
    cases scanString s.mem (scanBound s.mem) arg <;> rfl
  | heapAllocate =>
    simp only [performService, serviceHeapAllocate, State.putW]
    obtain ⟨m, _ | k⟩ := allocatePages ((roundToPages arg).toNat / pageSize) s.heapPtr s.mem <;> rfl
  | exit | printChar | printInt | printLong | readChar | readInt | readLong | readString | seedRandom | random
  | wallClockTime => rfl

/-- What Execute does is the same before and after the exchange, for the instruction of every kind. -/
theorem exec_putW (i : Instr) {s : State} {w : Record} {j : Instr} (hW : s.slotW = some w)
    (hkind : (w.withOp j).kind = w.kind) :
    exec i (s.putW (w.withOp j)) = mapNext (·.putW (w.withOp j)) (exec i s) := by
  cases hE : s.slotE with
  | none => rw [exec_empty i hE, exec_empty i (s := s.putW _) hE]; rfl
  | some r =>
    have hE' : (s.putW (w.withOp j)).slotE = some r := hE
    have hfwd := State.putW_fwd (j := j) hW
    have hmoved := State.putW_moved hW hkind
    rw [exec_eq_execByKind, exec_eq_execByKind, execByKind, execByKind]
    cases i.kind with dsimp only
    | ecall =>
      rw [execEcall_holds hE, execEcall_holds hE', hfwd, hfwd, State.putW_cfg,
        State.putW_detectLoadUse hW hkind]
      cases serviceOf s.cfg.sysnum (s.fwd 17) with
      | none => rfl
      | some service => exact performService_putW service _ _ r _
    | jal => rw [opJump_holds hE rfl, opJump_holds hE' rfl, hmoved]; rfl
    | jalr => rw [opJump_holds hE (by simp), opJump_holds hE' (by simp), hfwd, hmoved]; rfl
    | beq | bne | blt | bge | bltu | bgeu =>
      rw [opBranch_holds hE, opBranch_holds hE', hfwd, hfwd, hmoved]
      split <;> rfl
    | lb | lh | lw | ld | lbu | lhu | lwu | sb | sh | sw | sd =>
      rw [opAddress_holds hE, opAddress_holds hE', hfwd, hmoved]; rfl
    | _ => rw [computeValue_holds hE (by simp), computeValue_holds hE' (by simp), hfwd, hfwd, hmoved]; rfl

/-- WriteBack looks at the destination, the writes flag and the value (R322). -/
theorem writeBack_putW {s : State} {w : Record} (hW : s.slotW = some w) (j : Instr) :
    writeBack (s.putW (w.withOp j)) = writeBack s := by
  have hregs : (if w.writes then (s.putW (w.withOp j)).setReg w.rd w.wb else s.putW (w.withOp j)).regs =
      (if w.writes then s.setReg w.rd w.wb else s).regs := by
    unfold State.setReg
    split_ifs <;> rfl
  rw [writeBack_holds hW, writeBack_holds (s := s.putW (w.withOp j)) rfl, ← hregs]
  rfl

/-! ## What AccessMemory sees of slot M (R323 to R326) -/

section
variable {s : State} {r : Record} {j : Instr} (hkind : (r.withOp j).kind = r.kind)
include hkind

theorem accessLoad_withOp : accessLoad (s.withOp j) (r.withOp j) = (accessLoad s r).withOp j := by
  simp only [accessLoad, hkind, State.access_mem, State.withOp_mem, Record.withOp_addr]
  cases s.mem.read r.addr (accessWidth r.kind) <;> rfl

theorem accessStore_withOp (hrs2 : (r.withOp j).rs2 = r.rs2) :
    accessStore (s.withOp j) (r.withOp j) = (accessStore s r).withOp j := by
  simp only [accessStore, hkind, hrs2, State.access_mem, State.access_reg, State.withOp_mem, State.withOp_reg,
    Record.withOp_addr]
  cases s.mem.write r.addr (accessWidth r.kind) (s.reg r.rs2) <;> rfl

theorem accessMemory_withOp (hM : s.slotM = some r) (hrs2 : (r.withOp j).rs2 = r.rs2) :
    accessMemory (s.withOp j) = (accessMemory s).withOp j := by
  have hM' : (s.withOp j).slotM = some (r.withOp j) := by rw [State.withOp, hM, Option.map_some]
  simp only [accessMemory, hM, hM', hkind]
  split
  · exact accessLoad_withOp hkind
  · split
    · exact accessStore_withOp hkind hrs2
    · rfl

end

/-! ## The obligation -/

/-- Settles O24: the equivalent has the same kind and record fields, and each stage looks at these alone. -/
theorem compressedExecutesAsItsExpansion : Obligations.CompressedExecutesAsItsExpansion := by
  refine ⟨fun i j hwf h => ?equivalent, fun i => Instr.kind_of_no_expansion, fun i => Instr.kind_ne_mv_of_full,
    fun i => Instr.format_of_compressed, fun s r j _ h => ?later⟩
  case equivalent =>
    obtain ⟨hleni, hlenj⟩ := Instr.expansion_len h
    obtain ⟨hrd, hrs1, hrs2⟩ := Instr.expansion_registers h
    have hkind := Instr.expansion_kind h
    have himm := Instr.expansion_imm hwf h
    exact ⟨hleni, hlenj, hkind, hrd, hrs1, hrs2, himm, Instr.expansion_writes h, exec_congr hkind hrs1 hrs2 himm⟩
  case later =>
    have hkind : (r.withOp j).kind = r.kind := (Instr.expansion_kind h).symm
    have hrs2 : (r.withOp j).rs2 = r.rs2 := (Instr.expansion_registers h).2.2.symm
    refine ⟨fun hW => ⟨writeBack_putW hW j, fun k t ht => ?execute⟩, fun hM hW => ?accessMemory⟩
    case execute => exact (exec_putW k hW hkind).trans (congrArg _ ht)
    case accessMemory =>
      have hs : { s with slotM := some (r.withOp j) } = s.withOp j := by simp only [State.withOp, hM, hW]; rfl
      exact (congrArg accessMemory hs).trans (accessMemory_withOp hkind hM hrs2)

end Sys2Proof.Machine
end

section
/-! The M extension (spec/45_m_extension.md R300 to R314): its products, quotients and remainders at any width, the
decoding of its words under HAS_M, and what they do in Execute. -/

namespace Sys2Proof.Machine

/-! ## The quotient and the remainder (R314) -/

section
variable {n : Nat} {a b : BitVec n}

/-- The truncated exact quotient narrows to the library's signed division, the overflow included. -/
theorem ofInt_tdiv (a b : BitVec n) : BitVec.ofInt n (a.toInt.tdiv b.toInt) = a.sdiv b :=
  BitVec.eq_of_toInt_eq (by rw [BitVec.toInt_ofInt, BitVec.toInt_sdiv])

/-- The truncated exact remainder fits the width: it is the library's signed remainder. -/
theorem ofInt_tmod (a b : BitVec n) : BitVec.ofInt n (a.toInt.tmod b.toInt) = a.srem b := by
  rw [← BitVec.toInt_srem, BitVec.ofInt_toInt]

@[simp] theorem divSigned_zero (a : BitVec n) : divSigned a 0 = BitVec.allOnes n := if_pos rfl
@[simp] theorem divUnsigned_zero (a : BitVec n) : divUnsigned a 0 = BitVec.allOnes n := if_pos rfl
@[simp] theorem remSigned_zero (a : BitVec n) : remSigned a 0 = a := if_pos rfl
@[simp] theorem remUnsigned_zero (a : BitVec n) : remUnsigned a 0 = a := if_pos rfl

theorem divSigned_of_ne_zero (hb : b ≠ 0) : divSigned a b = a.sdiv b := (if_neg hb).trans (ofInt_tdiv a b)

theorem remSigned_of_ne_zero (hb : b ≠ 0) : remSigned a b = a.srem b := (if_neg hb).trans (ofInt_tmod a b)

theorem divUnsigned_of_ne_zero (hb : b ≠ 0) : divUnsigned a b = a / b := (if_neg hb).trans BitVec.udiv_def.symm

theorem remUnsigned_of_ne_zero (hb : b ≠ 0) : remUnsigned a b = a % b := (if_neg hb).trans BitVec.umod_def.symm

theorem allOnes_ne_zero (hn : 0 < n) : BitVec.allOnes n ≠ 0 := fun h => hn.ne' (BitVec.allOnes_eq_zero_iff.mp h)

theorem divSigned_overflow (hn : 0 < n) : divSigned (BitVec.intMin n) (BitVec.allOnes n) = BitVec.intMin n := by
  rw [divSigned_of_ne_zero (allOnes_ne_zero hn), ← BitVec.neg_one_eq_allOnes, BitVec.intMin_sdiv_neg_one]

/-- Minus one divides every number, so the overflow is no special case of the remainder. -/
theorem remSigned_allOnes (hn : 0 < n) (a : BitVec n) : remSigned a (BitVec.allOnes n) = 0 := by
  rw [remSigned_of_ne_zero (allOnes_ne_zero hn)]
  refine BitVec.srem_zero_of_dvd ?_
  rw [BitVec.toInt_allOnes, if_pos hn]
  exact Int.neg_dvd.mpr (one_dvd _)

theorem toInt_divSigned (hb : b ≠ 0) (hov : ¬ (a = BitVec.intMin n ∧ b = BitVec.allOnes n)) :
    (divSigned a b).toInt = a.toInt.tdiv b.toInt := by
  rw [divSigned_of_ne_zero hb]
  exact BitVec.toInt_sdiv_of_ne_or_ne a b (BitVec.neg_one_eq_allOnes ▸ not_and_or.mp hov)

theorem toInt_remSigned (hb : b ≠ 0) : (remSigned a b).toInt = a.toInt.tmod b.toInt := by
  rw [remSigned_of_ne_zero hb, BitVec.toInt_srem]

/-- What a zero divisor gives, in place of a fault. -/
theorem division_by_zero (hb : b = 0) :
    divSigned a b = BitVec.allOnes n ∧ divUnsigned a b = BitVec.allOnes n ∧
      remSigned a b = a ∧ remUnsigned a b = a := by
  subst hb
  exact ⟨divSigned_zero a, divUnsigned_zero a, remSigned_zero a, remUnsigned_zero a⟩

theorem division_overflow (hn : 0 < n) (ha : a = BitVec.intMin n) (hb : b = BitVec.allOnes n) :
    divSigned a b = a ∧ remSigned a b = 0 := by
  subst ha hb
  exact ⟨divSigned_overflow hn, remSigned_allOnes hn _⟩

/-- A truncated remainder that is not zero has the sign of the dividend. -/
theorem tmod_eq_zero_or_neg_iff (x y : Int) : x.tmod y = 0 ∨ (x.tmod y < 0 ↔ x < 0) := by
  by_cases hdvd : y ∣ x
  · exact .inl (Int.tmod_eq_zero_of_dvd hdvd)
  · have hsign : (x.tmod y).sign = x.sign := by rw [Int.sign_tmod, if_neg hdvd]
    exact .inr (by rw [← Int.sign_eq_neg_one_iff_neg, hsign, Int.sign_eq_neg_one_iff_neg])

/-- The law of signed division: exact, rounded toward zero, the remainder smaller than the divisor and with the sign of
the dividend. -/
theorem signed_division_law (hb : b ≠ 0) (hov : ¬ (a = BitVec.intMin n ∧ b = BitVec.allOnes n)) :
    a.toInt = b.toInt * (divSigned a b).toInt + (remSigned a b).toInt ∧
    (b.toInt * (divSigned a b).toInt).natAbs ≤ a.toInt.natAbs ∧
    (remSigned a b).toInt.natAbs < b.toInt.natAbs ∧
    ((remSigned a b).toInt = 0 ∨ ((remSigned a b).toInt < 0 ↔ a.toInt < 0)) := by
  rw [toInt_divSigned hb hov, toInt_remSigned hb]
  refine ⟨(Int.mul_tdiv_add_tmod _ _).symm, ?rounding, ?bound, tmod_eq_zero_or_neg_iff _ _⟩
  case rounding =>
    rw [Int.natAbs_mul, Int.natAbs_tdiv]
    exact Nat.mul_div_le _ _
  case bound =>
    have hpos : 0 < b.toInt.natAbs := Int.natAbs_pos.mpr (BitVec.toInt_zero (w := n) ▸ BitVec.toInt_ne.mpr hb)
    exact Int.natAbs_tmod _ _ ▸ Nat.mod_lt _ hpos

theorem unsigned_division_law (hb : b ≠ 0) :
    a.toNat = b.toNat * (divUnsigned a b).toNat + (remUnsigned a b).toNat ∧ (remUnsigned a b).toNat < b.toNat := by
  rw [divUnsigned_of_ne_zero hb, remUnsigned_of_ne_zero hb, BitVec.toNat_udiv, BitVec.toNat_umod]
  have hpos : 0 < b.toNat := BitVec.toNat_pos_of_ne_zero hb
  exact ⟨(Nat.div_add_mod _ _).symm, Nat.mod_lt _ hpos⟩

/-! ## The values of the divisions, with the overflow written out (R305, R307) -/

theorem divSigned_eq (hn : 0 < n) (a b : BitVec n) :
    divSigned a b = if b = 0 then BitVec.allOnes n
      else if a = BitVec.intMin n ∧ b = BitVec.allOnes n then BitVec.intMin n
      else BitVec.ofInt n (a.toInt.tdiv b.toInt) := by
  split_ifs with hb hov
  · rw [hb, divSigned_zero]
  · rw [hov.1, hov.2, divSigned_overflow hn]
  · exact if_neg hb

theorem remSigned_eq (hn : 0 < n) (a b : BitVec n) :
    remSigned a b = if b = 0 then a
      else if a = BitVec.intMin n ∧ b = BitVec.allOnes n then 0
      else BitVec.ofInt n (a.toInt - b.toInt * a.toInt.tdiv b.toInt) := by
  split_ifs with hb hov
  · rw [hb, remSigned_zero]
  · rw [hov.2, remSigned_allOnes hn]
  · rw [← Int.tmod_def]
    exact if_neg hb

end

theorem divwVal_eq (a b : Word) : divwVal a b = (divSigned (slice a 0 32) (slice b 0 32)).signExtend 64 := by
  rw [divwVal, low32_eq_slice, low32_eq_slice, sext]

theorem divuwVal_eq (a b : Word) : divuwVal a b = (divUnsigned (slice a 0 32) (slice b 0 32)).signExtend 64 := by
  rw [divuwVal, low32_eq_slice, low32_eq_slice, sext]

theorem remwVal_eq (a b : Word) : remwVal a b = (remSigned (slice a 0 32) (slice b 0 32)).signExtend 64 := by
  rw [remwVal, low32_eq_slice, low32_eq_slice, sext]

theorem remuwVal_eq (a b : Word) : remuwVal a b = (remUnsigned (slice a 0 32) (slice b 0 32)).signExtend 64 := by
  rw [remuwVal, low32_eq_slice, low32_eq_slice, sext]

/-! ## The values of the products (R301 to R304, R309) -/

/-- Bits 127 to 64 of a number are its floor quotient by 2^64, modulo 2^64. -/
theorem high64_eq (p : Int) : high64 p = BitVec.ofInt 64 (p / 2 ^ 64) := by
  apply BitVec.eq_of_toNat_eq
  rw [high64, BitVec.extractLsb'_toNat, BitVec.toNat_ofInt, BitVec.toNat_ofInt, Nat.shiftRight_eq_div_pow]
  omega

theorem mulVal_eq (a b : Word) : mulVal a b = BitVec.ofInt 64 (a.toInt * b.toInt) := by
  rw [BitVec.ofInt_mul, BitVec.ofInt_toInt, BitVec.ofInt_toInt, mulVal]

theorem mulhuVal_eq (a b : Word) : mulhuVal a b = BitVec.ofNat 64 (a.toNat * b.toNat / 2 ^ 64) := by
  rw [mulhuVal, high64_eq, ← BitVec.ofInt_natCast]
  push_cast
  rfl

theorem mulwVal_eq (a b : Word) : mulwVal a b = (BitVec.ofNat 32 (a.toNat * b.toNat)).signExtend 64 := by
  rw [mulwVal, BitVec.ofNat_mul, BitVec.ofNat_toNat, BitVec.ofNat_toNat, sext, low32, low32]

/-! ## The words (R102, R300) -/

section
variable {code : BitVec 32} {i : Instr}

theorem decodesWithM_op (hop : opcodeOf code = 0b0110011#7) (h7 : funct7Of code = 0b0000001#7)
    (hi : decodeOp true code = .instr i) (hw : i.writes = true) : DecodesWithM code i i.rd :=
  ⟨(decode_op hop).trans hi, ⟨.multiplyDivideAbsent, by simp [decode_op hop, decodeOp, h7]⟩, rfl, hw⟩

theorem decodesWithM_op32 (hop : opcodeOf code = 0b0111011#7) (h7 : funct7Of code = 0b0000001#7)
    (hi : decodeOp32 true code = .instr i) (hw : i.writes = true) : DecodesWithM code i i.rd :=
  ⟨(decode_op32 hop).trans hi, ⟨.multiplyDivideAbsent, by simp [decode_op32 hop, decodeOp32, h7]⟩, rfl, hw⟩

end

/-! ## The obligations -/

/-- Settles O16: funct7 1 and funct3 choose the arm of the decoder, behind HAS_M; a high half is the exact product's
floor quotient by 2^64. -/
theorem multiplyInstructions : Obligations.MultiplyInstructions := by
  refine ⟨fun code hop h7 => ?full, fun code hop h7 h3 => ⟨?mulw, computes_opRegReg rfl fun _ _ => mulwVal_eq _ _⟩⟩
  case mulw => exact decodesWithM_op32 hop h7 (by simp [decodeOp32, h7, h3]) rfl
  case full =>
    refine ⟨fun h3 => ⟨?mul, computes_opRegReg rfl fun _ _ => mulVal_eq _ _⟩,
      fun h3 => ⟨?mulh, computes_opRegReg rfl fun _ _ => high64_eq _⟩,
      fun h3 => ⟨?mulhsu, computes_opRegReg rfl fun _ _ => high64_eq _⟩,
      fun h3 => ⟨?mulhu, computes_opRegReg rfl fun _ _ => mulhuVal_eq _ _⟩⟩
    all_goals exact decodesWithM_op hop h7 (by simp [decodeOp, h7, h3]) rfl

/-- Settles O17: decoded as the multiplies are; each value is the operation at its width, the signed overflow written
out. -/
theorem divideInstructions : Obligations.DivideInstructions := by
  refine ⟨fun code hop h7 => ?full, fun code hop h7 => ?word⟩
  case full =>
    refine ⟨fun h3 => ⟨?div, computes_opRegReg rfl fun _ _ => divSigned_eq (by decide) _ _⟩,
      fun h3 => ⟨?divu, computes_opRegReg rfl fun _ _ => rfl⟩,
      fun h3 => ⟨?rem, computes_opRegReg rfl fun _ _ => remSigned_eq (by decide) _ _⟩,
      fun h3 => ⟨?remu, computes_opRegReg rfl fun _ _ => rfl⟩⟩
    all_goals exact decodesWithM_op hop h7 (by simp [decodeOp, h7, h3]) rfl
  case word =>
    refine ⟨fun h3 => ⟨?divw, computes_opRegReg rfl fun _ _ => by rw [divwVal_eq, divSigned_eq (by decide)]⟩,
      fun h3 => ⟨?divuw, computes_opRegReg rfl fun _ _ => divuwVal_eq _ _⟩,
      fun h3 => ⟨?remw, computes_opRegReg rfl fun _ _ => by rw [remwVal_eq, remSigned_eq (by decide)]⟩,
      fun h3 => ⟨?remuw, computes_opRegReg rfl fun _ _ => remuwVal_eq _ _⟩⟩
    all_goals exact decodesWithM_op32 hop h7 (by simp [decodeOp32, h7, h3]) rfl

/-- Settles O18: every clause holds at any positive width. -/
theorem divisionLaws : Obligations.DivisionLaws :=
  ⟨fun _ _ => ⟨division_by_zero, division_overflow (by decide), signed_division_law, unsigned_division_law⟩,
    fun _ _ => ⟨division_by_zero, division_overflow (by decide), signed_division_law, unsigned_division_law⟩⟩

end Sys2Proof.Machine
end

section
/-! WriteBack, forwarding, Decode and Fetch, each stage by itself (spec/50_pipeline.md R322, R330, R336, R340, R341). -/

namespace Sys2Proof.Machine

/-! ## WriteBack and forwarding (R322, R330) -/

theorem State.fwd_zero (s : State) : s.fwd 0 = s.reg 0 := rfl

theorem State.fwd_of_empty {s : State} (hW : s.slotW = none) (x : Reg) : s.fwd x = s.reg x := by
  by_cases hx : x = 0
  · rw [hx, State.fwd_zero]
  · simp only [State.fwd, if_neg hx, hW]

theorem State.fwd_of_written {s : State} {w : Record} (hW : s.slotW = some w) {x : Reg} (hx : x ≠ 0)
    (hw : w.writes = true ∧ w.rd = x) : s.fwd x = w.wb := by
  simp only [State.fwd, if_neg hx, hW, if_pos hw]

theorem State.fwd_of_not_written {s : State} {w : Record} (hW : s.slotW = some w) {x : Reg}
    (hw : ¬ (w.writes = true ∧ w.rd = x)) : s.fwd x = s.reg x := by
  by_cases hx : x = 0
  · rw [hx, State.fwd_zero]
  · simp only [State.fwd, if_neg hx, hW, if_neg hw]

/-- The registers after WriteBack (R322). -/
theorem writeBack_reg_holds {s : State} {w : Record} (hW : s.slotW = some w) (x : Reg) :
    (writeBack s).reg x = if w.writes = true ∧ w.rd = x ∧ x ≠ 0 then w.wb else s.reg x := by
  have hregs : (writeBack s).reg x = (if w.writes then s.setReg w.rd w.wb else s).reg x := by
    rw [writeBack_holds hW]
    rfl
  rw [hregs]
  cases w.writes <;> simp [State.setReg_reg]

/-- Forwarding reads a register as WriteBack will leave it (R330). -/
theorem writeBack_reg (s : State) (x : Reg) : (writeBack s).reg x = s.fwd x := by
  cases hW : s.slotW with
  | none => rw [writeBack_empty hW, State.fwd_of_empty hW]
  | some w =>
    rw [writeBack_reg_holds hW]
    split_ifs with h
    · obtain ⟨hwrites, hrd, hx⟩ := h
      exact (State.fwd_of_written hW hx ⟨hwrites, hrd⟩).symm
    · by_cases hx : x = 0
      · rw [hx, State.fwd_zero]
      · exact (State.fwd_of_not_written hW fun ⟨hwrites, hrd⟩ => h ⟨hwrites, hrd, hx⟩).symm

/-- Settles O36: each of the three sources of the value is what WriteBack leaves in the register. -/
theorem forwardingGivesTheCommittedValue : Obligations.ForwardingGivesTheCommittedValue := fun s x =>
  ⟨fun hx => if_pos hx, fun _ hx hW hwrites hrd => State.fwd_of_written hW hx ⟨hwrites, hrd⟩,
    fun _ _ hW hw => State.fwd_of_not_written hW hw, fun hW => State.fwd_of_empty hW x, (writeBack_reg s x).symm⟩

/-- Settles O35: WriteBack sets one register, and every other stage keeps the register file. -/
theorem writeBackCommits : Obligations.WriteBackCommits := by
  refine ⟨fun s => writeBack_empty, fun s w hW => ⟨writeBack_reg_holds hW, ?frame⟩, fun s t hstep => ?step⟩
  case frame => rw [writeBack_holds hW]
  case step =>
    refine step_keeps (P := fun u => u.regs = s.regs ∨ u.regs = (writeBack s).regs) hstep (.inl rfl) ?before ?exec
      ?decode ?fetch
    case before => exact .inr ((accessMemory_effect _).regs.trans (writeBack_tick_regs s))
    case exec => exact fun e he hb => (execute_effect he).regs ▸ hb
    case decode => exact fun u hu => (decodeStage_frame u).1 ▸ hu
    case fetch => exact fun u _ hu => (fetchStage_frame u).1 ▸ hu

/-! ## Decode (R336) -/

/-- Settles O37: the record is the one Decode makes of the word. -/
theorem decodeStageFillsTheRecord : Obligations.DecodeStage := by
  refine fun s => ⟨decodeStage_empty, fun f i hD hi => ?instr, fun f hD ⟨_, hwhy⟩ => decodeStage_failure hD hwhy⟩
  case instr =>
    exact ⟨Record.decoded f i, rfl, rfl, rfl, rfl, rfl, rfl, rfl, rfl, rfl, rfl, decodeStage_instr hD hi⟩

/-! ## Fetch (R340, R341) -/

theorem fetchStage_of_error {s : State} {k : FatalKind} (h : s.mem.read s.pc 4 = .error k) :
    fetchStage s = { s.access s.pc 4 true with fatal := some k } := by
  obtain ⟨k', h', ht⟩ | ⟨v, h', -⟩ := fetchStage_cases s <;> cases h.symm.trans h'
  exact ht

theorem fetchStage_of_ok {s : State} {v : Nat} (h : s.mem.read s.pc 4 = .ok v) :
    fetchStage s = { s.access s.pc 4 true with
      slotD := some { code := BitVec.ofNat 32 v, pc := s.pc }
      pc := s.pc + BitVec.ofNat 64 (codeLen (BitVec.ofNat 32 v)) } := by
  obtain ⟨k, h', -⟩ | ⟨v', h', ht⟩ := fetchStage_cases s <;> cases h.symm.trans h'
  exact ht

/-- The bytes of a word that has been read are the bytes of memory (R42, R48). -/
theorem slice_word_of_read {m : Memory} {a : Word} {v k : Nat} (h : m.read a 4 = .ok v) (hk : k < 4) :
    slice (BitVec.ofNat 32 v) (8 * k) 8 = m.byte (a + BitVec.ofNat 64 k) := by
  have hlt := Memory.read_lt h
  obtain ⟨-, -, rfl⟩ := Memory.read_eq_ok_iff.1 h
  apply BitVec.eq_of_toNat_eq
  rw [← m.readLE_byte 4 a k hk, BitVec.extractLsb'_toNat, Nat.shiftRight_eq_div_pow, BitVec.toNat_ofNat,
    Nat.mod_eq_of_lt hlt]

/-- The fetch pointer moves on by the length of the word (R91, R341). -/
theorem ofNat_codeLen (code : BitVec 32) :
    BitVec.ofNat 64 (codeLen code) = if slice code 0 2 = 0b11#2 then 4 else 2 :=
  apply_ite (BitVec.ofNat 64) (slice code 0 2 = 0b11#2) 4 2

/-- Settles O38: the read of four bytes asks for the page offset first, then for the mapping. -/
theorem fetchStageReadsTheWord : Obligations.FetchStage := by
  have hsize : 4 ∈ [1, 2, 4, 8] := by decide
  refine fun s => ⟨fun hcross => ?cross, fun hfits hmapped => ?unmapped, fun hfits hmapped => ?mapped⟩
  case cross =>
    have hcheck := accessCheck_pageCross hsize (show offOf s.pc + 4 > 4096 by omega)
    exact fetchStage_of_error (Memory.access_error hcheck s.mem 0).1
  all_goals
    have hcheck := accessCheck_eq_none_iff.2 ⟨hsize, show offOf s.pc + 4 ≤ 4096 by omega⟩
  case unmapped => exact fetchStage_of_error (Memory.read_unmapped hcheck hmapped)
  case mapped =>
    have hread : s.mem.read s.pc 4 = .ok (s.mem.readLE s.pc 4) := Memory.read_eq_ok_iff.2 ⟨hcheck, hmapped, rfl⟩
    refine ⟨_, fun k => slice_word_of_read hread, ?_⟩
    rw [fetchStage_of_ok hread, ofNat_codeLen]

end Sys2Proof.Machine
end

section
/-! What Execute does for each sort of kind, from the record fields alone, and load-use detection (spec/50_pipeline.md
R331, R332). -/

namespace Sys2Proof

/-! ## The sorts of kinds (R331) -/

/-- A kind with a condition reads both registers (R332). -/
theorem Instr.readSet_of_kindCond {i : Instr} {a b : Word} {c : Bool} (h : Machine.kindCond i.kind a b = some c) :
    i.readSet = [i.rs1, i.rs2] := by
  unfold Instr.readSet
  generalize i.kind = k at h ⊢
  cases k with
  | beq | bne | blt | bge | bltu | bgeu => rfl
  | _ => cases h

end Sys2Proof

namespace Sys2Proof.Machine

/-! ## Execute, sort by sort (R331) -/

section
variable {s : State} {r : Record} {i : Instr}

/-- A kind that computes a value does nothing else. -/
theorem exec_of_kindValue (hE : s.slotE = some r) {v : Word}
    (h : kindValue i.kind (s.fwd i.rs1) (s.fwd i.rs2) i.imm r.pc = some v) :
    exec i s = .next (s.moved { r with wb := v } i.readSet) := by
  have hvalue := computeValue_holds (reads := i.readSet)
    (value := fun s r => (kindValue i.kind (s.fwd i.rs1) (s.fwd i.rs2) i.imm r.pc).getD 0) hE (by simp)
  rw [h, Option.getD_some] at hvalue
  rw [exec_eq_execByKind, ← hvalue, execByKind]
  generalize i.kind = k at h ⊢
  cases k with
  | jal | jalr | beq | bne | blt | bge | bltu | bgeu | lb | lh | lw | ld | lbu | lhu | lwu | sb | sh | sw | sd
  | ecall => cases h
  | _ => rfl

theorem exec_of_access (hE : s.slotE = some r) (h : i.kind.isLoad = true ∨ i.kind.isStore = true) :
    exec i s = .next (s.moved { r with addr := s.fwd i.rs1 + i.imm } i.readSet) := by
  rw [exec_eq_execByKind, ← opAddress_holds hE, execByKind]
  generalize i.kind = k at h ⊢
  cases k with
  | lb | lh | lw | ld | lbu | lhu | lwu | sb | sh | sw | sd => rfl
  | _ => simp [Kind.isLoad, Kind.isStore] at h

theorem exec_of_kindCond (hE : s.slotE = some r) {c : Bool} (h : kindCond i.kind (s.fwd i.rs1) (s.fwd i.rs2) = some c) :
    exec i s = .next (if c then (s.moved r i.readSet).redirected (r.pc + i.imm) else s.moved r i.readSet) := by
  rw [Instr.readSet_of_kindCond h, exec_eq_execByKind, execByKind]
  generalize i.kind = k at h ⊢
  cases k with
  | beq | bne | blt | bge | bltu | bgeu =>
    cases h
    exact opBranch_holds hE _ _ _ _
  | _ => cases h

theorem exec_of_jal (h : s.Holds i r) (hk : i.kind = .jal) :
    exec i s = .next
      ((s.moved { r with wb := r.pc + BitVec.ofNat 64 i.len } i.readSet).redirected (r.pc + i.imm)) := by
  obtain ⟨hE, rfl⟩ := h
  rw [exec_eq_execByKind, execByKind, hk]
  exact opJump_holds hE rfl

theorem exec_of_jalr (h : s.Holds i r) (hk : i.kind = .jalr) :
    exec i s = .next
      ((s.moved { r with wb := r.pc + BitVec.ofNat 64 i.len } i.readSet).redirected
        ((s.fwd i.rs1 + i.imm) &&& ~~~1)) := by
  obtain ⟨hE, rfl⟩ := h
  rw [exec_eq_execByKind, execByKind, hk]
  exact opJump_holds hE (by simp)

theorem exec_of_ecall (h : i.kind = .ecall) (s : State) : exec i s = execEcall s := by
  rw [exec_eq_execByKind, execByKind, h]

end

/-- Settles O25: Execute is a function of the kind and the record fields, one operation for each sort of kind. -/
theorem executeFollowsTheKind : Obligations.ExecuteFollowsTheKind := by
  refine ⟨fun s => execute_empty, fun i s r h => ⟨?_, fun v => exec_of_kindValue h.1, exec_of_access h.1,
    exec_of_kindCond h.1, exec_of_kindCond h.1, exec_of_jal h, exec_of_jalr h, fun hk => exec_of_ecall hk s⟩⟩
  rw [execute_holds h.1, h.2]

/-! ## Load-use detection (R332) -/

/-- The state with another count of load-use stalls. -/
def State.withStalls (s : State) (n : Nat) : State := { s with counters := { s.counters with loadUseStalls := n } }

@[simp] theorem State.withStalls_withStalls (s : State) (m n : Nat) :
    (s.withStalls m).withStalls n = s.withStalls n := rfl
@[simp] theorem State.withStalls_slotE (s : State) (n : Nat) : (s.withStalls n).slotE = s.slotE := rfl
@[simp] theorem State.withStalls_stallsOn (s : State) (n : Nat) (reads : List Reg) :
    (s.withStalls n).stallsOn reads = s.stallsOn reads := rfl

theorem State.detectLoadUse_withStalls (s : State) (n : Nat) (reads : List Reg) :
    (s.withStalls n).detectLoadUse reads = s.withStalls (n + s.stallsOn reads) := by
  rw [State.detectLoadUse_eq]
  rfl

/-- An action on the record in slot E that neither looks at nor changes the count of load-use stalls. -/
def IgnoresStalls (act : State → Record → Result) : Prop :=
  ∀ s r n, act (s.withStalls n) r = mapNext (·.withStalls n) (act s r)

/-- A meaning that is load-use detection on these registers and then such an action. -/
def CountsStallsOnce (reads : List Reg) (f : State → Result) : Prop :=
  ∃ act, IgnoresStalls act ∧ ∀ s, f s = inExecute reads s act

theorem performService_ignoresStalls (v : Service) (arg : Word) :
    IgnoresStalls (fun s r => performService v s r arg) := by
  intro s r n
  cases v with
  | printString =>
    simp only [performService, servicePrintString, State.withStalls]
    cases scanString s.mem (scanBound s.mem) arg <;> rfl
  | heapAllocate =>
    simp only [performService, serviceHeapAllocate, State.withStalls]
    obtain ⟨m, _ | k⟩ := allocatePages ((roundToPages arg).toNat / pageSize) s.heapPtr s.mem <;> rfl
  | exit | printChar | printInt | printLong | readChar | readInt | readLong | readString | seedRandom | random
  | wallClockTime => rfl

theorem execEcall_countsStallsOnce : CountsStallsOnce [17, 10] execEcall := by
  refine ⟨_, fun s r n => ?_, fun s => rfl⟩
  have hservice : serviceOf (s.withStalls n).cfg.sysnum ((s.withStalls n).fwd 17) =
      serviceOf s.cfg.sysnum (s.fwd 17) := rfl
  rw [hservice]
  cases serviceOf s.cfg.sysnum (s.fwd 17) with
  | none => rfl
  | some v => exact performService_ignoresStalls v (s.fwd 10) s r n

theorem opBranch_countsStallsOnce (cond : Word → Word → Bool) (rs1 rs2 : Reg) (imm : Word) :
    CountsStallsOnce [rs1, rs2] (opBranch cond rs1 rs2 imm) := by
  refine ⟨_, fun s r n => ?_, fun s => rfl⟩
  exact (congrArg Host.Outcome.next (apply_ite (State.withStalls · n) (cond (s.fwd rs1) (s.fwd rs2) = true)
    ((s.toMemory r).squash (r.pc + imm)) (s.toMemory r))).symm

/-- Every instruction counts once, on the registers that its kind reads. -/
theorem exec_countsStallsOnce (i : Instr) : CountsStallsOnce i.readSet (exec i) := by
  have heq : exec i = execByKind i := funext (exec_eq_execByKind i)
  have hreads := Instr.readSet.eq_def i
  rw [heq, CountsStallsOnce]
  unfold execByKind
  cases hk : i.kind <;> rw [hk] at hreads <;> dsimp only at hreads ⊢
  case ecall => exact hreads ▸ execEcall_countsStallsOnce
  case beq | bne | blt | bge | bltu | bgeu =>
    rw [hreads]
    exact opBranch_countsStallsOnce _ _ _ _
  all_goals exact ⟨_, fun s r n => rfl, fun s => rfl⟩

/-- The count after Execute, and that nothing else depends on the count before it. -/
theorem CountsStallsOnce.stalls {reads : List Reg} {f : State → Result} (hf : CountsStallsOnce reads f) {s t : State}
    {r : Record} (hE : s.slotE = some r) (ht : f s = .next t) :
    t.counters.loadUseStalls = s.counters.loadUseStalls + s.stallsOn reads ∧
    ∀ n, f (s.withStalls n) = .next (t.withStalls (n + s.stallsOn reads)) := by
  obtain ⟨act, hact, hf⟩ := hf
  have hrun (n : Nat) : f (s.withStalls n) = mapNext (·.withStalls (n + s.stallsOn reads)) (act s r) := by
    rw [hf, inExecute_holds (s := s.withStalls n) hE, State.detectLoadUse_withStalls, hact]
  obtain ⟨u, hu, rfl⟩ := mapNext_eq_next ((hrun s.counters.loadUseStalls).symm.trans ht)
  exact ⟨rfl, fun n => by rw [hrun, hu]; rfl⟩

theorem State.stallsOn_of_hit {s : State} {reads : List Reg}
    (h : ∃ w, s.slotW = some w ∧ w.kind.isLoad = true ∧ w.writes = true ∧ w.rd ≠ 0 ∧ w.rd ∈ reads) :
    s.stallsOn reads = 1 := by
  obtain ⟨w, hW, hhit⟩ := h
  simp only [State.stallsOn, hW, if_pos hhit]

theorem State.stallsOn_of_no_hit {s : State} {reads : List Reg}
    (h : ¬ ∃ w, s.slotW = some w ∧ w.kind.isLoad = true ∧ w.writes = true ∧ w.rd ≠ 0 ∧ w.rd ∈ reads) :
    s.stallsOn reads = 0 := by
  unfold State.stallsOn
  split
  · rename_i w hW
    exact if_neg fun hhit => h ⟨w, hW, hhit⟩
  · rfl

/-- Settles O26: every instruction is load-use detection and then an action that leaves the count alone. -/
theorem loadUseIsCounted : Obligations.LoadUseIsCounted := by
  intro i s t r h ht
  obtain ⟨hcount, hrun⟩ := (exec_countsStallsOnce i).stalls h.1 ht
  refine ⟨fun hhit => by rw [hcount, State.stallsOn_of_hit hhit], fun hno => by
    rw [hcount, State.stallsOn_of_no_hit hno, Nat.add_zero], fun n => ?_⟩
  rw [hcount, Nat.add_sub_cancel_left]
  exact hrun n

end Sys2Proof.Machine
end

section
/-! What a cycle does as a whole: how Execute ends, and the cycle after which the machine runs on (spec/50_pipeline.md
R320, R331, R333, R334). -/

namespace Sys2Proof.Machine

/-! ## Fields that Decode and Fetch keep (R336, R340) -/

/-- Decode changes slots D and E, and `fatal`. -/
theorem decodeStage_later (s : State) :
    (decodeStage s).pc = s.pc ∧ (decodeStage s).slotM = s.slotM ∧ (decodeStage s).slotW = s.slotW ∧
    (decodeStage s).exit = s.exit ∧ (decodeStage s).counters = s.counters := by
  obtain h | ⟨f, i, -, -, h⟩ | h := decodeStage_cases s <;> rw [h] <;> exact ⟨rfl, rfl, rfl, rfl, rfl⟩

/-- Fetch changes slot D, the fetch pointer, the storage levels, the summed latency, and `fatal`. -/
theorem fetchStage_later (s : State) :
    (fetchStage s).slotE = s.slotE ∧ (fetchStage s).slotM = s.slotM ∧ (fetchStage s).slotW = s.slotW ∧
    (fetchStage s).exit = s.exit ∧ (fetchStage s).counters.controlStalls = s.counters.controlStalls := by
  obtain ⟨k, -, h⟩ | ⟨v, -, h⟩ := fetchStage_cases s <;> rw [h] <;> exact ⟨rfl, rfl, rfl, rfl, rfl⟩

/-! ## How Execute ends (R331 to R335) -/

/-- Execute of a machine that runs on: the record, if there is one, has moved to slot M, and the fetch pointer is
redirected exactly where the record is taken. -/
structure RunsOn (s t : State) : Prop where
  running : t.stopped = false
  regs : t.regs = s.regs
  slotW : t.slotW = s.slotW
  slotE : t.slotE = none
  slotM : s.slotM = none → t.slotM.map Record.pc = s.slotE.map Record.pc
  taken : ∀ r, s.slotE = some r → s.Takes r → t.slotD = none ∧ t.pc = s.targetOf r
  notTaken : (∀ r, s.slotE = some r → ¬ s.Takes r) → t.slotD = s.slotD ∧ t.pc = s.pc
  mem : (∀ r, s.slotE = some r → r.op ≠ .ecall) → t.mem = s.mem

/-- An ECALL that ends the run, by EXIT or by one of its fatal conditions: the record stays in slot E. -/
structure EcallStops (s t : State) : Prop where
  holds : ∃ r, s.Holds .ecall r
  regs : t.regs = s.regs
  slotW : t.slotW = s.slotW
  slotM : t.slotM = s.slotM
  slotE : t.slotE = s.slotE
  slotD : t.slotD = s.slotD
  pc : t.pc = s.pc
  cause : (t.exit = true ∧ t.fatal = none ∧ t.mem = s.mem) ∨
    (t.exit = false ∧ ∃ k, t.fatal = some k ∧
      (k ∈ [.unknownSyscall, .unmappedRead] ∧ t.mem = s.mem ∨
       k = .doubleAllocation ∧ ∀ a, s.mem.mapped a = true → t.mem.peek a = s.mem.peek a))

theorem EcallStops.stopped {s t : State} (h : EcallStops s t) : t.stopped = true := by
  obtain ⟨hx, -⟩ | ⟨-, k, hk, -⟩ := h.cause
  · simp [State.stopped, hx]
  · simp [State.stopped, hk]

/-- An ECALL is never taken. -/
theorem not_takes_ecall {s : State} {r : Record} (h : r.op = .ecall) : ¬ s.Takes r :=
  not_takes (congrArg Instr.kind h) nofun nofun fun _ _ => rfl

theorem execEcall_ends {s t : State} {r : Record} (hE : s.slotE = some r) (hop : r.op = .ecall)
    (hs : s.stopped = false) (ht : execEcall s = .next t) : RunsOn s t ∨ EcallStops s t := by
  have hholds : ∃ r, s.Holds .ecall r := ⟨r, hE, hop⟩
  obtain ⟨hD, hpc, hW, hregs, ⟨hx, hf, hE', hM⟩ | ⟨hx, hf, hE', hM, hmem⟩ | ⟨hx, hE', hM, hk⟩⟩ :=
    execEcall_cases hE hs ht
  · refine .inl ⟨State.running_iff.2 ⟨hx, hf⟩, hregs, hW, hE', fun _ => by rw [hM, hE]; rfl, fun q hq htakes => ?_,
      fun _ => ⟨hD, hpc⟩, fun hno => absurd hop (hno r hE)⟩
    obtain rfl := Option.some.inj (hE.symm.trans hq)
    exact absurd htakes (not_takes_ecall hop)
  · exact .inr ⟨hholds, hregs, hW, hM, hE', hD, hpc, .inl ⟨hx, hf, hmem⟩⟩
  · exact .inr ⟨hholds, hregs, hW, hM, hE', hD, hpc, .inr ⟨hx, hk⟩⟩

/-- A record that is handed on by an instruction that redirects exactly where it is taken. -/
theorem Redirects.runsOn {s t : State} {r : Record} (hE : s.slotE = some r) (hs : s.stopped = false)
    (h : Redirects s r (.next t)) : RunsOn s t := by
  have hone : ∀ q, s.slotE = some q → q = r := fun q hq => Option.some.inj (hq.symm.trans hE)
  obtain ⟨r', reads, hpc, ⟨htakes, ht⟩ | ⟨hnot, ht⟩⟩ := h <;> cases ht
  · refine ⟨hs, rfl, rfl, rfl, fun _ => by rw [hE, Option.map_some, ← hpc]; rfl, fun q hq _ => ?_,
      fun hnot => absurd htakes (hnot r hE), fun _ => rfl⟩
    rw [hone q hq]
    exact ⟨rfl, rfl⟩
  · refine ⟨hs, rfl, rfl, rfl, fun _ => by rw [hE, Option.map_some, ← hpc]; rfl, fun q hq htakes => ?_,
      fun _ => ⟨rfl, rfl⟩, fun _ => rfl⟩
    exact absurd (hone q hq ▸ htakes) hnot

theorem execute_ends {s t : State} (hs : s.stopped = false) (ht : execute s = .next t) :
    RunsOn s t ∨ EcallStops s t := by
  cases hE : s.slotE with
  | none =>
    rw [execute_empty hE] at ht
    cases ht
    exact .inl ⟨hs, rfl, rfl, hE, fun hM => by rw [hM, hE], slot_of_empty hE, fun _ => ⟨rfl, rfl⟩,
      fun _ => rfl⟩
  | some r =>
    rw [execute_holds hE] at ht
    by_cases hop : r.op = .ecall
    · exact execEcall_ends hE hop hs (by rwa [hop] at ht)
    · exact .inl (Redirects.runsOn hE hs (ht ▸ exec_redirects r.op hop hE rfl))

theorem execute_runsOn {s t : State} (hs : s.stopped = false) (ht : execute s = .next t) (hrun : t.stopped = false) :
    RunsOn s t :=
  (execute_ends hs ht).resolve_right fun h => by cases hrun.symm.trans h.stopped

/-! ## How a cycle ends (R320) -/

theorem decodeStage_stops {s : State} (hs : s.stopped = false) (h : (decodeStage s).stopped = true) :
    s.slotD ≠ none ∧ decodeStage s = s.raiseFatal .decodeFailure := by
  obtain ht | ⟨f, i, -, -, ht⟩ | ht := decodeStage_cases s
  · cases hs.symm.trans (ht ▸ h)
  · rw [ht] at h
    cases hs.symm.trans h
  · refine ⟨fun hD => ?_, ht⟩
    rw [decodeStage_empty hD] at h
    cases hs.symm.trans h

/-- A machine that has stopped does not run again (R320). -/
theorem step_stopped {s t : State} (hs : s.stopped = true) (hstep : step s = .next t) : t = s := by
  obtain ⟨-, ⟨-, rfl⟩ | ⟨hs', -⟩ | ⟨hs', -⟩⟩ := step_cases hstep
  · rfl
  · cases hs.symm.trans hs'
  · cases hs.symm.trans hs'

/-- A cycle ends with AccessMemory, if that stops; with an ECALL that ends the run; with a Decode that fails; or with
Fetch. -/
theorem step_ends {s t : State} (hstep : step s = .next t) (hs : s.stopped = false) :
    ((beforeExecute s).stopped = true ∧ t = beforeExecute s) ∨
    (beforeExecute s).stopped = false ∧
      (execute (beforeExecute s) = .next t ∧ EcallStops (beforeExecute s) t ∨
       ∃ e, execute (beforeExecute s) = .next e ∧ RunsOn (beforeExecute s) e ∧
         (e.slotD ≠ none ∧ t = e.raiseFatal .decodeFailure ∨
          (decodeStage e).stopped = false ∧ t = fetchStage (decodeStage e))) := by
  obtain ⟨-, ⟨hs', -⟩ | ⟨-, hb, rfl⟩ | ⟨-, hb, e, he, hfinish⟩⟩ := step_cases hstep
  · cases hs.symm.trans hs'
  · exact .inl ⟨hb, rfl⟩
  · refine .inr ⟨hb, ?_⟩
    obtain ⟨hstop, rfl⟩ | ⟨hrun, hstop, rfl⟩ | ⟨hrun, hdecode, rfl⟩ := hfinish
    · exact .inl ⟨he, (execute_ends hb he).resolve_left fun h => by cases h.running.symm.trans hstop⟩
    · exact .inr ⟨e, he, execute_runsOn hb he hrun, .inl (decodeStage_stops hrun hstop)⟩
    · exact .inr ⟨e, he, execute_runsOn hb he hrun, .inr ⟨hdecode, rfl⟩⟩

/-- A cycle after which the machine runs has run all five stages. -/
theorem step_running {s t : State} (hstep : step s = .next t) (ht : t.stopped = false) :
    s.ConfigOk ∧ s.stopped = false ∧ (beforeExecute s).stopped = false ∧
    ∃ e, execute (beforeExecute s) = .next e ∧ RunsOn (beforeExecute s) e ∧ (decodeStage e).stopped = false ∧
      t = fetchStage (decodeStage e) := by
  have hs : s.stopped = false := by
    by_contra h
    have hstop : s.stopped = true := by simpa using h
    rw [step_stopped hstop hstep] at ht
    exact h ht
  refine ⟨(step_cases hstep).1, hs, ?_⟩
  obtain ⟨hb, rfl⟩ | ⟨hb, ⟨-, hends⟩ | ⟨e, he, hruns, ⟨-, rfl⟩ | ⟨hdecode, rfl⟩⟩⟩ := step_ends hstep hs
  · cases ht.symm.trans hb
  · cases ht.symm.trans hends.stopped
  · simp [State.stopped] at ht
  · exact ⟨hb, e, he, hruns, hdecode, rfl⟩

/-- The stages before Execute, where they do not stop, have emptied slot M (R323). -/
theorem beforeExecute_slotM {s : State} (hs : s.stopped = false) (hb : (beforeExecute s).stopped = false) :
    (beforeExecute s).slotM = none ∧ (beforeExecute s).slotW.map Record.pc = s.slotM.map Record.pc := by
  obtain ⟨-, -, -, -, -, hpassed, -⟩ := beforeExecute_cases hs
  exact hpassed (State.running_iff.1 hb).2

theorem step_cfg {s t : State} (hstep : step s = .next t) : t.cfg = s.cfg := by
  refine step_keeps (P := fun u => u.cfg = s.cfg) hstep rfl (beforeExecute_effect s).cfg ?exec ?decode ?fetch
  case exec => exact fun e he hb => (execute_effect he).cfg.trans hb
  case decode =>
    intro u hu
    obtain ⟨-, -, -, -, hcfg⟩ := decodeStage_frame u
    exact hcfg.trans hu
  case fetch =>
    intro u _ hu
    obtain ⟨-, -, -, -, hcfg⟩ := fetchStage_frame u
    exact hcfg.trans hu

theorem State.ConfigOk.congr {s t : State} (h : s.ConfigOk) (hlevels : t.levels = s.levels) (hcfg : t.cfg = s.cfg) :
    t.ConfigOk := by
  rwa [State.ConfigOk, hlevels, hcfg]

theorem State.ConfigOk.access {s : State} (h : s.ConfigOk) (a : Word) (n : Nat) (isRead : Bool) :
    (s.access a n isRead).ConfigOk := by
  have hcfg := (chainRequest_cfg s.levels.length (s.levels, s.backing) ⟨a, n, isRead⟩).1
  exact ⟨List.forall_mem_map.1 (hcfg.symm ▸ List.forall_mem_map.2 h.1), h.2⟩

/-- No step changes the configuration (R6, R22). -/
theorem step_configOk {s t : State} (hstep : step s = .next t) : t.ConfigOk := by
  obtain ⟨hc, -⟩ := step_cases hstep
  refine step_keeps (P := State.ConfigOk) hstep hc (beforeExecute_configOk hc) ?exec ?decode ?fetch
  case exec => exact fun e he hb => hb.congr (execute_effect he).levels (execute_effect he).cfg
  case decode =>
    intro u hu
    obtain ⟨-, -, -, hlevels, hcfg⟩ := decodeStage_frame u
    exact hu.congr hlevels hcfg
  case fetch =>
    intro u _ hu
    obtain ⟨-, -, -, hlevels, hcfg⟩ := fetchStage_frame u
    exact (hu.access u.pc 4 true).congr hlevels hcfg

end Sys2Proof.Machine
end

section
/-! The pipeline against the sequential interpreter (spec/50_pipeline.md R343): what each stage does to the state that
is left when slots W and M are drained, and to the next address of the path. -/

namespace Sys2Proof.Machine

/-! ## The state with slot W drained -/

/-- What the interpreter keeps, after the register write of slot W. -/
def State.drained (s : State) : Arch := (writeBack s).arch

theorem State.drained_eq (s : State) : s.drained = { s.arch with regs := s.drained.regs } := by
  obtain ⟨-, hheap, -, -, -, -, -, -, -, hmem, -, hinput, hreads, houtput⟩ := writeBack_frame s
  simp only [State.drained, State.arch, hheap, hmem, hinput, hreads, houtput]

/-- WriteBack makes the register write that the comparison retires. -/
theorem State.drained_holds {s : State} {w : Record} (hW : s.slotW = some w) : s.drained = s.arch.retire w := by
  simp only [State.drained, writeBack_holds hW, State.arch, State.setReg, Arch.retire, Arch.setReg]
  split_ifs <;> rfl

theorem State.drained_empty {s : State} (hW : s.slotW = none) : s.drained = s.arch := by
  rw [State.drained, writeBack_empty hW]

/-- Forwarding reads the registers of the drained state (R330). -/
theorem State.drained_reg (s : State) (x : Reg) : s.drained.reg x = s.fwd x := writeBack_reg s x

/-- A stage that keeps the register file and slot W keeps the drained registers. -/
theorem State.drained_congr {s t : State} (hregs : t.regs = s.regs) (hW : t.slotW = s.slotW) :
    t.drained = { t.arch with regs := s.drained.regs } := by
  cases h : s.slotW with
  | none =>
    rw [State.drained_empty h, State.drained_empty (hW.trans h)]
    simp only [State.arch, hregs]
  | some w =>
    rw [State.drained_holds h, State.drained_holds (hW.trans h)]
    simp only [Arch.retire, Arch.setReg, State.arch, hregs]
    split_ifs <;> rfl

theorem State.drained_eq_of_arch {s t : State} (harch : t.arch = s.arch) (hW : t.slotW = s.slotW) :
    t.drained = s.drained := by
  rw [State.drained_congr (congrArg Arch.regs harch) hW, harch, ← s.drained_eq]

theorem State.commit_holds {s : State} {r : Record} (hM : s.slotM = some r) : s.commit = s.drained.finish r := by
  cases hW : s.slotW with
  | none => simp only [State.commit, hM, hW, State.drained_empty hW]
  | some w => simp only [State.commit, hM, hW, State.drained_holds hW]

theorem State.commit_empty {s : State} (hM : s.slotM = none) : s.commit = some s.drained := by
  cases hW : s.slotW with
  | none => simp only [State.commit, hM, hW, State.drained_empty hW]
  | some w => simp only [State.commit, hM, hW, State.drained_holds hW]

/-- What the drained state does not look at: slots D and E, the fetch pointer, the storage levels, the counters. -/
theorem State.commit_congr {s t : State} (harch : t.arch = s.arch) (hW : t.slotW = s.slotW) (hM : t.slotM = s.slotM) :
    t.commit = s.commit := by
  simp only [State.commit, harch, hW, hM]

/-! ## The stages before Execute (R322 to R326) -/

/-- WriteBack only does a part of the draining. -/
theorem writeBack_commit (s : State) : (writeBack s).commit = s.commit := by
  obtain ⟨-, -, -, -, hM, -⟩ := writeBack_frame s
  have hdrained : (writeBack s).drained = s.drained := State.drained_empty (writeBack_slotW s)
  cases h : s.slotM with
  | none => rw [State.commit_empty h, State.commit_empty (hM.trans h), hdrained]
  | some r => rw [State.commit_holds h, State.commit_holds (hM.trans h), hdrained]

/-- AccessMemory does what the comparison finishes, if it does not stop. -/
theorem accessMemory_commit {s : State} (hW : s.slotW = none) (hrun : (accessMemory s).stopped = false) :
    (accessMemory s).commit = s.commit := by
  obtain ⟨-, hfatal⟩ := State.running_iff.1 hrun
  cases hM : s.slotM with
  | none => rw [accessMemory_empty hM]
  | some r =>
    rw [State.commit_holds hM, State.drained_empty hW, Arch.finish]
    cases hl : r.kind.isLoad with
    | true =>
      obtain ⟨k, -, ht⟩ | ⟨v, hv, ht⟩ := accessMemory_load hM hl <;> rw [ht] at hfatal ⊢
      · cases hfatal
      · rw [State.commit_empty rfl, State.drained_holds rfl, if_pos rfl, show s.arch.mem = s.mem from rfl, hv]
        rfl
    | false =>
      rw [if_neg Bool.false_ne_true]
      cases hs : r.kind.isStore with
      | true =>
        obtain ⟨k, -, ht⟩ | ⟨m, hm, ht⟩ := accessMemory_store hM hl hs <;> rw [ht] at hfatal ⊢
        · cases hfatal
        · rw [State.commit_empty rfl, State.drained_holds rfl, if_pos rfl, show s.arch.mem = s.mem from rfl,
            show s.arch.reg r.rs2 = s.reg r.rs2 from rfl, hm]
          rfl
      | false =>
        rw [accessMemory_other hM hl hs, State.commit_empty rfl, State.drained_holds rfl, if_neg Bool.false_ne_true]
        rfl

theorem beforeExecute_commit {s : State} (hrun : (beforeExecute s).stopped = false) :
    (beforeExecute s).commit = s.commit :=
  calc (beforeExecute s).commit
      = (writeBack s.tick).commit := accessMemory_commit (writeBack_slotW _) hrun
    _ = s.tick.commit := writeBack_commit _
    _ = s.commit := rfl

theorem beforeExecute_pathPc (s : State) : (beforeExecute s).pathPc = s.pathPc := by
  have hb := beforeExecute_effect s
  simp only [State.pathPc, hb.slotE, hb.slotD, hb.pc]

/-! ## Decode and Fetch (R336, R340) -/

/-- Decode takes the next word of the path out of slot D. -/
theorem decodeStage_commit {s : State} (hE : s.slotE = none) (hrun : (decodeStage s).stopped = false) :
    (decodeStage s).commit = s.commit ∧ (decodeStage s).pathPc = s.pathPc := by
  obtain h | ⟨f, i, hD, -, h⟩ | h := decodeStage_cases s <;> rw [h] at hrun ⊢
  · exact ⟨rfl, rfl⟩
  · refine ⟨State.commit_congr rfl rfl rfl, ?_⟩
    simp only [State.pathPc, hE, hD]
    rfl
  · simp [State.stopped] at hrun

/-- Fetch takes the word at the fetch pointer, which is the next one of the path if slot E is empty. -/
theorem fetchStage_commit {s : State} (hD : s.slotD = none) (hrun : (fetchStage s).stopped = false) :
    (fetchStage s).commit = s.commit ∧ (fetchStage s).pathPc = s.pathPc := by
  obtain ⟨k, -, h⟩ | ⟨v, -, h⟩ := fetchStage_cases s <;> rw [h] at hrun ⊢
  · simp [State.stopped] at hrun
  · refine ⟨State.commit_congr rfl rfl rfl, ?_⟩
    simp only [State.pathPc, hD, State.access_slotE]

/-! ## The next address of the path (R19) -/

section
variable {s t : State} {r : Record}

/-- Without a redirection the path goes on behind the record of slot E. -/
theorem pathPc_next (hpath : s.PathOk) (hE : s.slotE = some r) (hE' : t.slotE = none) (hD : t.slotD = s.slotD)
    (hpc : t.pc = s.pc) : t.pathPc = r.pc + BitVec.ofNat 64 r.len := by
  obtain ⟨-, hDE, hPE⟩ := hpath
  simp only [State.pathPc, hE', hD, hpc]
  cases hf : s.slotD with
  | none => exact hPE r hE hf
  | some f => exact hDE r f hE hf

theorem pathPc_moved (hpath : s.PathOk) (hE : s.slotE = some r) (r' : Record) (reads : List Reg) :
    (s.moved r' reads).pathPc = r.pc + BitVec.ofNat 64 r.len :=
  pathPc_next hpath hE rfl rfl rfl

theorem pathPc_redirected (s : State) (r' : Record) (reads : List Reg) (target : Word) :
    ((s.moved r' reads).redirected target).pathPc = target := rfl

end

/-! ## What the record in slot M still does (R323 to R326) -/

section
variable {r : Record} (a : Arch)

/-- A record that makes no access only waits for its register write. -/
theorem Arch.finish_written (hl : r.kind.isLoad = false) (hs : r.kind.isStore = false) (hw : r.writes = true) :
    a.finish r = some (a.setReg r.rd r.wb) := by
  simp [Arch.finish, Arch.retire, hl, hs, hw]

theorem Arch.finish_unwritten (hl : r.kind.isLoad = false) (hs : r.kind.isStore = false) (hw : r.writes = false) :
    a.finish r = some a := by
  simp [Arch.finish, Arch.retire, hl, hs, hw]

theorem Arch.finish_load_ok {v : Nat} (hl : r.kind.isLoad = true)
    (hv : a.mem.read r.addr (accessWidth r.kind) = .ok v) (hw : r.writes = true) :
    a.finish r = some (a.setReg r.rd (loadExt r.kind v)) := by
  simp [Arch.finish, Arch.retire, hl, hv, hw]

theorem Arch.finish_load_error {k : FatalKind} (hl : r.kind.isLoad = true)
    (hk : a.mem.read r.addr (accessWidth r.kind) = .error k) : a.finish r = none := by
  simp [Arch.finish, hl, hk]

theorem Arch.finish_store_ok {m : Memory} (hs : r.kind.isStore = true)
    (hm : a.mem.write r.addr (accessWidth r.kind) (a.reg r.rs2) = .ok m) (hw : r.writes = false) :
    a.finish r = some { a with mem := m } := by
  simp [Arch.finish, Arch.retire, Kind.isLoad_eq_false_of_isStore hs, hs, hm, hw]

theorem Arch.finish_store_error {k : FatalKind} (hs : r.kind.isStore = true)
    (hk : a.mem.write r.addr (accessWidth r.kind) (a.reg r.rs2) = .error k) : a.finish r = none := by
  simp [Arch.finish, Kind.isLoad_eq_false_of_isStore hs, hs, hk]

end

/-! ## What the interpreter does, sort by sort (R331) -/

/-- Every kind computes a value, has a condition, or is one of the rest. -/
theorem kind_sorts (k : Kind) (x y imm pc : Word) :
    (∃ v, kindValue k x y imm pc = some v) ∨ (∃ c, kindCond k x y = some c) ∨ k.isLoad = true ∨ k.isStore = true ∨
    k = .jal ∨ k = .jalr ∨ k = .ecall := by
  cases k with
  | beq | bne | blt | bge | bltu | bgeu => exact .inr (.inl ⟨_, rfl⟩)
  | lb | lh | lw | ld | lbu | lhu | lwu => exact .inr (.inr (.inl rfl))
  | sb | sh | sw | sd => exact .inr (.inr (.inr (.inl rfl)))
  | jal | jalr | ecall => simp
  | _ => exact .inl ⟨_, rfl⟩

section
variable {k : Kind}

/-- A computing kind makes no access and writes its register (R106). -/
theorem kind_of_kindValue {x y imm pc v : Word} (h : kindValue k x y imm pc = some v) :
    k.isLoad = false ∧ k.isStore = false ∧ k.isBranch = false ∧ k ≠ .ecall := by
  cases k with
  | jal | jalr | beq | bne | blt | bge | bltu | bgeu | lb | lh | lw | ld | lbu | lhu | lwu | sb | sh | sw | sd
  | ecall => cases h
  | _ => exact ⟨rfl, rfl, rfl, nofun⟩

/-- A branch makes no access, and computes no value. -/
theorem kind_of_kindCond {x y : Word} {c : Bool} (h : kindCond k x y = some c) :
    k.isLoad = false ∧ k.isStore = false ∧ k.isBranch = true ∧ ∀ x y imm pc, kindValue k x y imm pc = none := by
  cases k with
  | beq | bne | blt | bge | bltu | bgeu => exact ⟨rfl, rfl, rfl, fun _ _ _ _ => rfl⟩
  | _ => cases h

theorem kind_of_isLoad (h : k.isLoad = true) :
    (∀ x y imm pc, kindValue k x y imm pc = none) ∧ (∀ x y, kindCond k x y = none) ∧ k.isStore = false ∧
    k.isBranch = false ∧ k ≠ .jal ∧ k ≠ .jalr ∧ k ≠ .ecall := by
  cases k with
  | lb | lh | lw | ld | lbu | lhu | lwu =>
    exact ⟨fun _ _ _ _ => rfl, fun _ _ => rfl, rfl, rfl, nofun, nofun, nofun⟩
  | _ => cases h

theorem kind_of_isStore (h : k.isStore = true) :
    (∀ x y imm pc, kindValue k x y imm pc = none) ∧ (∀ x y, kindCond k x y = none) ∧ k.isLoad = false ∧ k ≠ .jal ∧
    k ≠ .jalr := by
  cases k with
  | sb | sh | sw | sd => exact ⟨fun _ _ _ _ => rfl, fun _ _ => rfl, rfl, nofun, nofun⟩
  | _ => cases h

end

section
variable {t : SysNum} {i : Instr} {pc : Word} {a : Arch}

theorem seqStep_value {v : Word} (h : kindValue i.kind (a.reg i.rs1) (a.reg i.rs2) i.imm pc = some v) :
    seqStep t i pc a = some (a.setReg i.rd v, pc + BitVec.ofNat 64 i.len) := by
  simp only [seqStep, h]

theorem seqStep_cond {c : Bool} (h : kindCond i.kind (a.reg i.rs1) (a.reg i.rs2) = some c) :
    seqStep t i pc a = some (a, if c then pc + i.imm else pc + BitVec.ofNat 64 i.len) := by
  obtain ⟨-, -, -, hvalue⟩ := kind_of_kindCond h
  simp only [seqStep, hvalue, h]

theorem seqStep_jal (h : i.kind = .jal) :
    seqStep t i pc a = some (a.setReg i.rd (pc + BitVec.ofNat 64 i.len), pc + i.imm) := by
  simp only [seqStep, h]
  rfl

theorem seqStep_jalr (h : i.kind = .jalr) :
    seqStep t i pc a = some (a.setReg i.rd (pc + BitVec.ofNat 64 i.len), (a.reg i.rs1 + i.imm) &&& ~~~1) := by
  simp only [seqStep, h]
  rfl

theorem seqStep_load_ok {v : Nat} (h : i.kind.isLoad = true)
    (hv : a.mem.read (a.reg i.rs1 + i.imm) (accessWidth i.kind) = .ok v) :
    seqStep t i pc a = some (a.setReg i.rd (loadExt i.kind v), pc + BitVec.ofNat 64 i.len) := by
  obtain ⟨hvalue, hcond, -, -, hjal, hjalr, -⟩ := kind_of_isLoad h
  simp only [seqStep, hvalue, hcond, if_neg hjal, if_neg hjalr, if_pos h, hv]

theorem seqStep_load_error {k : FatalKind} (h : i.kind.isLoad = true)
    (hk : a.mem.read (a.reg i.rs1 + i.imm) (accessWidth i.kind) = .error k) : seqStep t i pc a = none := by
  obtain ⟨hvalue, hcond, -, -, hjal, hjalr, -⟩ := kind_of_isLoad h
  simp only [seqStep, hvalue, hcond, if_neg hjal, if_neg hjalr, if_pos h, hk]

theorem seqStep_store_ok {m : Memory} (h : i.kind.isStore = true)
    (hm : a.mem.write (a.reg i.rs1 + i.imm) (accessWidth i.kind) (a.reg i.rs2) = .ok m) :
    seqStep t i pc a = some ({ a with mem := m }, pc + BitVec.ofNat 64 i.len) := by
  obtain ⟨hvalue, hcond, hload, hjal, hjalr⟩ := kind_of_isStore h
  simp only [seqStep, hvalue, hcond, if_neg hjal, if_neg hjalr, hload, if_neg Bool.false_ne_true, if_pos h, hm]

theorem seqStep_store_error {k : FatalKind} (h : i.kind.isStore = true)
    (hk : a.mem.write (a.reg i.rs1 + i.imm) (accessWidth i.kind) (a.reg i.rs2) = .error k) :
    seqStep t i pc a = none := by
  obtain ⟨hvalue, hcond, hload, hjal, hjalr⟩ := kind_of_isStore h
  simp only [seqStep, hvalue, hcond, if_neg hjal, if_neg hjalr, hload, if_neg Bool.false_ne_true, if_pos h, hk]

theorem seqStep_ecall {v : Service} (h : i.kind = .ecall) (hv : serviceOf t (a.reg 17) = some v) :
    seqStep t i pc a = (seqService v (a.reg 10) a).map (·, pc + BitVec.ofNat 64 i.len) := by
  simp only [seqStep, h, kindValue, kindCond, hv]
  rfl

end

/-! ## Execute, every instruction but ECALL (R331) -/

theorem commit_moved (s : State) (r' : Record) (reads : List Reg) :
    (s.moved r' reads).commit = s.drained.finish r' := by
  rw [State.commit_holds (r := r') rfl, State.drained_eq_of_arch (t := s.moved r' reads) (s := s) rfl rfl]

theorem commit_redirected (s : State) (r' : Record) (reads : List Reg) (target : Word) :
    ((s.moved r' reads).redirected target).commit = s.drained.finish r' :=
  (State.commit_congr rfl rfl rfl).trans (commit_moved s r' reads)

section
variable {s t : State} {f : Fetched} {i : Instr} {num : SysNum} (hE : s.slotE = some (Record.decoded f i))

/-- A jump's record waits for the write of its link. -/
theorem finish_jump (a : Arch) (hk : i.kind = .jal ∨ i.kind = .jalr) (link : Word) :
    a.finish { Record.decoded f i with wb := link } = some (a.setReg i.rd link) := by
  refine a.finish_written (r := { Record.decoded f i with wb := link }) ?_ ?_ ?_ <;>
    obtain hk | hk := hk <;>
      simp [Record.kind, Record.decoded, Instr.writes, hk, Kind.isLoad, Kind.isStore, Kind.isBranch]

theorem refines_redirected {r' : Record} {reads : List Reg} {target : Word}
    (ht : t = (s.moved r' reads).redirected target) :
    t.commit.map (·, t.pathPc) = (s.drained.finish r').map (·, target) := by
  rw [ht, commit_redirected, pathPc_redirected]

include hE

theorem refines_jal (hk : i.kind = .jal) (ht : exec i s = .next t) :
    t.commit.map (·, t.pathPc) = seqStep num i f.pc s.drained := by
  cases (exec_of_jal ⟨hE, rfl⟩ hk).symm.trans ht
  rw [refines_redirected rfl, finish_jump _ (.inl hk), seqStep_jal hk]
  rfl

theorem refines_jalr (hk : i.kind = .jalr) (ht : exec i s = .next t) :
    t.commit.map (·, t.pathPc) = seqStep num i f.pc s.drained := by
  cases (exec_of_jalr ⟨hE, rfl⟩ hk).symm.trans ht
  rw [refines_redirected rfl, finish_jump _ (.inr hk), seqStep_jalr hk, State.drained_reg]
  rfl

variable (hpath : s.PathOk)
include hpath

/-- The record that Decode has made of a word goes on to slot M and the path to the next word. -/
theorem refines_moved {r' : Record} {reads : List Reg}
    (ht : t = s.moved r' reads) :
    t.commit.map (·, t.pathPc) = (s.drained.finish r').map (·, f.pc + BitVec.ofNat 64 i.len) := by
  rw [ht, commit_moved, pathPc_moved hpath hE]
  rfl

theorem refines_value {v : Word}
    (hv : kindValue i.kind (s.fwd i.rs1) (s.fwd i.rs2) i.imm f.pc = some v) (ht : exec i s = .next t) :
    t.commit.map (·, t.pathPc) = seqStep num i f.pc s.drained := by
  obtain ⟨hl, hs, hb, hecall⟩ := kind_of_kindValue hv
  have hfinish := s.drained.finish_written (r := { Record.decoded f i with wb := v }) hl hs
    (by simp [Record.decoded, Instr.writes, hs, hb, hecall])
  cases (exec_of_kindValue hE hv).symm.trans ht
  simp only [← State.drained_reg] at hv
  rw [refines_moved hE hpath rfl, hfinish, seqStep_value hv]
  rfl

theorem refines_branch {c : Bool} (hc : kindCond i.kind (s.fwd i.rs1) (s.fwd i.rs2) = some c)
    (ht : exec i s = .next t) : t.commit.map (·, t.pathPc) = seqStep num i f.pc s.drained := by
  obtain ⟨hl, hs, hb, -⟩ := kind_of_kindCond hc
  have hfinish := s.drained.finish_unwritten (r := Record.decoded f i) hl hs
    (by simp [Record.decoded, Instr.writes, hb])
  cases (exec_of_kindCond hE hc).symm.trans ht
  simp only [← State.drained_reg] at hc
  rw [seqStep_cond hc]
  cases c with
  | true =>
    rw [if_pos rfl, refines_redirected rfl, hfinish]
    rfl
  | false =>
    rw [if_neg Bool.false_ne_true, refines_moved hE hpath rfl, hfinish]
    rfl

theorem refines_load (hl : i.kind.isLoad = true) (ht : exec i s = .next t) :
    t.commit.map (·, t.pathPc) = seqStep num i f.pc s.drained := by
  obtain ⟨-, -, hs, hb, -, -, hecall⟩ := kind_of_isLoad hl
  cases (exec_of_access hE (.inl hl)).symm.trans ht
  rw [refines_moved hE hpath rfl, ← State.drained_reg]
  cases hread : s.drained.mem.read (s.drained.reg i.rs1 + i.imm) (accessWidth i.kind) with
  | error k =>
    rw [seqStep_load_error hl hread,
      s.drained.finish_load_error (r := { Record.decoded f i with addr := _ }) hl hread]
    rfl
  | ok v =>
    have hwrites : i.writes = true := by simp [Instr.writes, hs, hb, hecall]
    rw [seqStep_load_ok hl hread,
      s.drained.finish_load_ok (r := { Record.decoded f i with addr := _ }) hl hread hwrites]
    rfl

theorem refines_store (hs : i.kind.isStore = true) (ht : exec i s = .next t) :
    t.commit.map (·, t.pathPc) = seqStep num i f.pc s.drained := by
  cases (exec_of_access hE (.inr hs)).symm.trans ht
  rw [refines_moved hE hpath rfl, ← State.drained_reg]
  cases hwrite : s.drained.mem.write (s.drained.reg i.rs1 + i.imm) (accessWidth i.kind) (s.drained.reg i.rs2) with
  | error k =>
    rw [seqStep_store_error hs hwrite,
      s.drained.finish_store_error (r := { Record.decoded f i with addr := _ }) hs hwrite]
    rfl
  | ok m =>
    have hwrites : i.writes = false := by simp [Instr.writes, hs]
    rw [seqStep_store_ok hs hwrite,
      s.drained.finish_store_ok (r := { Record.decoded f i with addr := _ }) hs hwrite hwrites]
    rfl

end

/-! ## ECALL (R220 to R239) -/

section
variable {s t : State} {r : Record} (hkind : r.kind = .ecall)
include hkind

/-- After a service without a result the record writes nothing (R106). -/
theorem commit_toMemory_unwritten (hwrites : r.writes = false) {u : State} (hregs : u.regs = s.regs)
    (hW : u.slotW = s.slotW) : (u.toMemory r).commit = some { u.arch with regs := s.drained.regs } := by
  rw [State.commit_holds (r := r) rfl, State.drained_congr (t := u.toMemory r) hregs hW,
    Arch.finish_unwritten _ (by rw [hkind]; rfl) (by rw [hkind]; rfl) hwrites]
  rfl

/-- After a service with a result the record writes a7 (R223). -/
theorem commit_finishWith {u : State} (hregs : u.regs = s.regs) (hW : u.slotW = s.slotW) (x : Word) :
    (u.finishWith r x).commit = some (Arch.setReg { u.arch with regs := s.drained.regs } 17 x) := by
  let r' := { r with rd := 17, writes := true, wb := x }
  have hkind' : r'.kind = .ecall := hkind
  rw [State.commit_holds (r := r') rfl, State.drained_congr (t := u.finishWith r x) hregs hW,
    Arch.finish_written _ (by rw [hkind']; rfl) (by rw [hkind']; rfl) rfl]
  rfl

/-- A service does to the drained state what the interpreter's service does. -/
theorem performService_refines {v : Service} {arg : Word} (hwrites : r.writes = false)
    (ht : performService v s r arg = .next t) (hrun : t.stopped = false) : t.commit = seqService v arg s.drained := by
  rw [s.drained_eq]
  cases v with
  | exit => cases ht; cases hrun
  | printChar | printInt | printLong | seedRandom | readString =>
    cases ht
    exact commit_toMemory_unwritten hkind hwrites rfl rfl
  | readChar | readInt | readLong | random | wallClockTime =>
    cases ht
    exact commit_finishWith hkind (s := s) (u := s.answered) rfl rfl _
  | printString =>
    simp only [performService, servicePrintString] at ht
    simp only [seqService, State.arch]
    cases hscan : scanString s.mem (scanBound s.mem) arg <;> rw [hscan] at ht <;> cases ht
    · exact commit_toMemory_unwritten hkind hwrites rfl rfl
    · simp [State.stopped] at hrun
  | heapAllocate =>
    simp only [performService, serviceHeapAllocate] at ht
    simp only [seqService, State.arch]
    rcases halloc : allocatePages ((roundToPages arg).toNat / pageSize) s.heapPtr s.mem with ⟨m, _ | k⟩ <;>
      rw [halloc] at ht <;> cases ht
    · exact commit_finishWith hkind (s := s) (u := { s with mem := m, heapPtr := s.heapPtr + roundToPages arg }) rfl rfl
        _
    · simp [State.stopped] at hrun

end

section
variable {s t : State} {f : Fetched} {i : Instr}

theorem execEcall_refines (hE : s.slotE = some (Record.decoded f i)) (hpath : s.PathOk) (hrun : s.stopped = false)
    (hk : i.kind = .ecall) (ht : exec i s = .next t) (hrun' : t.stopped = false) :
    t.commit.map (·, t.pathPc) = seqStep s.cfg.sysnum i f.pc s.drained := by
  have hwrites : (Record.decoded f i).writes = false := by simp [Record.decoded, Instr.writes, hk]
  have hpathPc : t.pathPc = f.pc + BitVec.ofNat 64 i.len := by
    have hruns := execute_runsOn hrun ((execute_holds hE).trans ht) hrun'
    have hnot : ¬ s.Takes (Record.decoded f i) := not_takes (k := .ecall) hk nofun nofun fun _ _ => rfl
    obtain ⟨hD, hpc⟩ := hruns.notTaken (slot_of_full hE hnot)
    exact pathPc_next hpath hE hruns.slotE hD hpc
  rw [exec_of_ecall hk, execEcall_holds hE] at ht
  cases hv : serviceOf s.cfg.sysnum (s.fwd 17) with
  | none =>
    rw [hv] at ht
    cases ht
    simp [State.stopped] at hrun'
  | some v =>
    rw [hv] at ht
    have hdrained : (s.detectLoadUse [17, 10]).drained = s.drained :=
      State.drained_eq_of_arch (by rw [State.detectLoadUse_eq]; rfl) (by simp)
    rw [performService_refines (r := Record.decoded f i) hk hwrites ht hrun', hdrained, hpathPc,
      seqStep_ecall hk (v := v) (by rw [State.drained_reg, hv]), State.drained_reg]

/-- Execute of the record that Decode has made of a word is the interpreter's step on the drained state. -/
theorem execute_refines (hE : s.slotE = some (Record.decoded f i)) (hpath : s.PathOk) (hrun : s.stopped = false)
    (ht : execute s = .next t) (hrun' : t.stopped = false) :
    t.commit.map (·, t.pathPc) = seqStep s.cfg.sysnum i f.pc s.drained := by
  replace ht : exec i s = .next t := (execute_holds hE).symm.trans ht
  obtain ⟨v, hv⟩ | ⟨c, hc⟩ | hl | hs | hk | hk | hk := kind_sorts i.kind (s.fwd i.rs1) (s.fwd i.rs2) i.imm f.pc
  · exact refines_value hE hpath hv ht
  · exact refines_branch hE hpath hc ht
  · exact refines_load hE hpath hl ht
  · exact refines_store hE hpath hs ht
  · exact refines_jal hE hk ht
  · exact refines_jalr hE hk ht
  · exact execEcall_refines hE hpath hrun hk ht hrun'

end

/-- Decode and Fetch, if they do not stop, change neither what is executed nor where the path goes on. -/
theorem finish_refines {e : State} (hE : e.slotE = none) (hdecode : (decodeStage e).stopped = false)
    (hfetch : (fetchStage (decodeStage e)).stopped = false) :
    (fetchStage (decodeStage e)).commit = e.commit ∧ (fetchStage (decodeStage e)).pathPc = e.pathPc := by
  obtain ⟨hcommitD, hpathD⟩ := decodeStage_commit hE hdecode
  obtain ⟨hcommitF, hpathF⟩ := fetchStage_commit (decodeStage_slotD hdecode) hfetch
  exact ⟨hcommitF.trans hcommitD, hpathF.trans hpathD⟩

/-- Settles O57: draining commutes with the stages before Execute and with Decode and Fetch, and Execute is the
interpreter's step on the drained state, whose registers are the forwarded ones. -/
theorem stepRefinesTheInterpreter : Obligations.StepRefinesTheInterpreter := by
  intro s t hslots hpath hstep ht
  obtain ⟨-, hs, hb, e, he, hruns, hdecode, rfl⟩ := step_running hstep ht
  have hbefore := beforeExecute_effect s
  obtain ⟨hcommit, hpathPc⟩ := finish_refines hruns.slotE hdecode ht
  rw [hcommit, hpathPc]
  refine ⟨fun hE => ?empty, fun r hE => ?full⟩
  case empty =>
    cases (execute_empty (hbefore.slotE.trans hE)).symm.trans he
    exact ⟨beforeExecute_commit hb, beforeExecute_pathPc s⟩
  case full =>
    obtain ⟨f, i, rfl⟩ : ∃ f i, r = Record.decoded f i := ⟨_, _, (hslots.1 r hE).2⟩
    obtain ⟨hM, -⟩ := beforeExecute_slotM hs hb
    have hpc : s.pathPc = f.pc := by
      rw [State.pathPc, hE]
      rfl
    rw [← beforeExecute_commit hb, State.commit_empty hM, hpc, ← hbefore.cfg]
    exact execute_refines (hbefore.slotE.trans hE) (beforeExecute_pathOk hpath) hb he hruns.running

/-! ## Runs (R342, R343) -/

theorem run_succ {n : Nat} {s t : State} (h : Host.Core.run core (n + 1) s = .next t) :
    ∃ u, step s = .next u ∧ Host.Core.run core n u = .next t := by
  simp only [Host.Core.run] at h
  split at h
  case h_1 u hu => exact ⟨u, hu, h⟩
  all_goals cases h

theorem run_stopped (n : Nat) {s t : State} (hs : s.stopped = true) (h : Host.Core.run core n s = .next t) : t = s := by
  induction n with
  | zero => exact (Host.Outcome.next.inj h).symm
  | succ n ih =>
    obtain ⟨u, hu, hrest⟩ := run_succ h
    obtain rfl := step_stopped hs hu
    exact ih hrest

/-- The slots and the path stay lawful (R18, R19). -/
theorem step_slotsOk_pathOk {s t : State} (hslots : s.SlotsOk) (hpath : s.PathOk) (hstep : step s = .next t) :
    t.SlotsOk ∧ t.PathOk := by
  refine step_keeps (P := fun u => u.SlotsOk ∧ u.PathOk) hstep ⟨hslots, hpath⟩
    ⟨beforeExecute_slotsOk hslots, beforeExecute_pathOk hpath⟩ ?exec ?decode ?fetch
  case exec => exact fun e he ⟨bslots, bpath⟩ => ⟨execute_slotsOk he bslots, execute_pathOk he bpath⟩
  case decode => exact fun u ⟨uslots, upath⟩ => ⟨decodeStage_slotsOk uslots, decodeStage_pathOk upath⟩
  case fetch => exact fun u hempty ⟨uslots, upath⟩ => ⟨fetchStage_slotsOk uslots, fetchStage_pathOk hempty upath⟩

theorem seqRun_cons (num : SysNum) (i : Instr) (path : List Instr) (pc : Word) (a : Arch) :
    seqRun num (i :: path) pc a = (seqStep num i pc a).bind (fun p => seqRun num path p.2 p.1) := by
  rw [seqRun]
  cases seqStep num i pc a <;> rfl

/-- Settles O58, by induction on the number of cycles. -/
theorem runRefinesTheInterpreter : Obligations.RunRefinesTheInterpreter := by
  intro n
  induction n with
  | zero =>
    intro s t _ _ h _
    cases h
    cases s.commit <;> rfl
  | succ n ih =>
    intro s t hslots hpath h ht
    obtain ⟨u, hu, h⟩ := run_succ h
    have hrun : u.stopped = false := by
      cases hstop : u.stopped with
      | false => rfl
      | true => rw [run_stopped n hstop h, hstop] at ht; exact ht
    obtain ⟨uslots, upath⟩ := step_slotsOk_pathOk hslots hpath hu
    obtain ⟨hempty, hfull⟩ := stepRefinesTheInterpreter s u hslots hpath hu hrun
    rw [ih u t uslots upath h ht, step_cfg hu]
    cases hE : s.slotE with
    | none =>
      obtain ⟨hcommit, hpathPc⟩ := hempty hE
      simp only [executedPath, hu, hE, hcommit, hpathPc]
    | some r =>
      simp only [executedPath, hu, hE, seqRun_cons]
      rw [← Option.bind_assoc, ← hfull r hE, Option.bind_map]
      rfl

end Sys2Proof.Machine
end

section
/-! The cycle: its order, the instruction it executes, and the bubble behind a taken transfer (spec/50_pipeline.md R320,
R333, R336, R340). -/

namespace Sys2Proof.Machine

/-! ## The order of the stages (R320) -/

theorem State.stopped_iff {s : State} : s.stopped = true ↔ s.exit = true ∨ s.fatal ≠ none := by
  simp [State.stopped, Option.isSome_iff_ne_none]

/-- A cycle that AccessMemory stops ends there. -/
theorem step_of_before_stops {s : State} (hc : s.ConfigOk) (hs : s.stopped = false)
    (hb : (beforeExecute s).stopped = true) : step s = .next (beforeExecute s) := by
  simp [step_eq_cycle hc, cycle, hs, hb]

/-- A cycle whose Execute runs on ends with Decode and Fetch. -/
theorem step_of_execute {s e : State} (hc : s.ConfigOk) (hs : s.stopped = false)
    (hb : (beforeExecute s).stopped = false) (he : execute (beforeExecute s) = .next e) :
    step s = .next (finishCycle e) := by
  simp [step_eq_cycle hc, cycle, hs, hb, he, mapNext]

/-- Settles O43: `step` runs the stages in this order, and neither AccessMemory nor Decode sets the exit flag. -/
theorem stepCycleOrder : Obligations.StepCycleOrder := by
  refine fun s hc => ⟨fun hstop => step_of_stopped hc (State.stopped_iff.2 hstop), fun hx hf => ?_⟩
  have hs : s.stopped = false := State.running_iff.2 ⟨hx, hf⟩
  obtain ⟨-, -, -, hbx, -⟩ := beforeExecute_cases hs
  refine ⟨fun hstop => step_of_before_stops hc hs (State.stopped_iff.2 (.inr hstop)), fun hbf e he => ?_⟩
  have hb : (beforeExecute s).stopped = false := State.running_iff.2 ⟨hbx, hbf⟩
  refine ⟨fun hstop => step_of_execute_stops hc hs hb he (State.stopped_iff.2 hstop), fun hex hef => ?_⟩
  have hrun : e.stopped = false := State.running_iff.2 ⟨hex, hef⟩
  obtain ⟨-, -, -, hdx, -⟩ := decodeStage_later e
  rw [step_of_execute hc hs hb he]
  refine ⟨fun hstop => ?_, fun hdf => ?_⟩
  · have hd : (decodeStage e).stopped = true := State.stopped_iff.2 (.inr hstop)
    simp [finishCycle, hrun, hd]
  · have hd : (decodeStage e).stopped = false := State.running_iff.2 ⟨hdx.trans hex, hdf⟩
    simp [finishCycle, hrun, hd]

/-! ## The instruction a cycle executes (R336, R340, R342) -/

/-- The word in slot D after a cycle is the one that memory holds at its address. -/
theorem fetched_of_step {s t : State} (hstep : step s = .next t) (ht : t.stopped = false) {f : Fetched}
    (hD : t.slotD = some f) : ∃ v, t.mem.read f.pc 4 = .ok v ∧ f.code = BitVec.ofNat 32 v := by
  obtain ⟨-, -, -, e, -, -, -, rfl⟩ := step_running hstep ht
  obtain ⟨k, -, h⟩ | ⟨v, hv, h⟩ := fetchStage_cases (decodeStage e) <;> rw [h] at ht hD ⊢
  · simp [State.stopped] at ht
  · cases hD
    exact ⟨v, hv, rfl⟩

/-- The record in slot E after a cycle is the one that Decode has made of the word in slot D before it. -/
theorem decoded_of_step {s t : State} (hstep : step s = .next t) (ht : t.stopped = false) {r : Record}
    (hE : t.slotE = some r) :
    ∃ f, s.slotD = some f ∧ decode t.cfg.hasM f.code = .instr r.op ∧ r = Record.decoded f r.op := by
  have hcfg := step_cfg hstep
  obtain ⟨-, -, -, e, he, hruns, hdecode, rfl⟩ := step_running hstep ht
  obtain ⟨hEfetch, -⟩ := fetchStage_later (decodeStage e)
  rw [hEfetch] at hE
  rw [hcfg]
  obtain h | ⟨f, i, hD, hi, h⟩ | h := decodeStage_cases e <;> rw [h] at hE hdecode
  · cases hruns.slotE.symm.trans hE
  · cases hE
    have hbefore := beforeExecute_effect s
    refine ⟨f, ?_, by rwa [(execute_effect he).cfg, hbefore.cfg] at hi, rfl⟩
    obtain ⟨hD', -⟩ | ⟨-, -, -, hD', -⟩ := (execute_effect he).path
    · exact hbefore.slotD.symm.trans (hD'.symm.trans hD)
    · cases hD'.symm.trans hD
  · simp [State.stopped] at hdecode

/-- Settles O44: Fetch of the cycle before last has read the word, Decode of the last one has made the record of it, and
the next cycle's Execute works on that record. -/
theorem stepRunsTheDecodedInstruction : Obligations.StepRunsTheDecodedInstruction := by
  intro s0 s1 s2 r hstep1 hstep2 hrun hE
  obtain ⟨-, hrun1, -⟩ := step_running hstep2 hrun
  obtain ⟨f, hD, hdecode, hr⟩ := decoded_of_step hstep2 hrun hE
  obtain ⟨v, hv, hcode⟩ := fetched_of_step hstep1 hrun1 hD
  have hpc : r.pc = f.pc := congrArg Record.pc hr
  have hcode' : r.code = f.code := congrArg Record.code hr
  refine ⟨⟨v, hpc ▸ hv, hcode'.trans hcode, hcode' ▸ hdecode, by rwa [hpc, hcode']⟩, fun hb => ?_⟩
  have hEb : (beforeExecute s2).slotE = some r := (beforeExecute_effect s2).slotE.trans hE
  rw [step_eq_cycle (step_configOk hstep2), cycle, hrun, if_neg Bool.false_ne_true, hb, if_neg Bool.false_ne_true,
    execute_holds hEb]
  cases exec r.op (beforeExecute s2) <;> rfl

/-! ## Control stalls (R333) -/

theorem beforeExecute_controlStalls (s : State) :
    (beforeExecute s).counters.controlStalls = s.counters.controlStalls := by
  have hwrite : (writeBack s.tick).counters.controlStalls = s.counters.controlStalls := by
    cases hW : s.slotW with
    | none => rw [writeBack_empty (s := s.tick) hW, State.tick_counters]
    | some w => rw [writeBack_holds (s := s.tick) hW, State.tick_counters]
  rw [← hwrite, beforeExecute]
  generalize writeBack s.tick = u
  cases hM : u.slotM with
  | none => rw [accessMemory_empty hM]
  | some r =>
    cases hl : r.kind.isLoad with
    | true => obtain ⟨k, -, ht⟩ | ⟨v, -, ht⟩ := accessMemory_load hM hl <;> rw [ht] <;> rfl
    | false =>
      cases hs : r.kind.isStore with
      | true => obtain ⟨k, -, ht⟩ | ⟨m, -, ht⟩ := accessMemory_store hM hl hs <;> rw [ht] <;> rfl
      | false => rw [accessMemory_other hM hl hs]

/-- No service counts anything, and EXIT alone sets the exit flag (R225). -/
theorem performService_keeps {v : Service} {s t : State} {r : Record} {arg : Word}
    (ht : performService v s r arg = .next t) : t.counters = s.counters ∧ (v ≠ .exit → t.exit = s.exit) := by
  cases v with
  | printString =>
    simp only [performService, servicePrintString] at ht
    split at ht <;> cases ht <;> exact ⟨rfl, fun _ => rfl⟩
  | heapAllocate =>
    simp only [performService, serviceHeapAllocate] at ht
    split at ht <;> cases ht <;> exact ⟨rfl, fun _ => rfl⟩
  | exit =>
    cases ht
    exact ⟨rfl, fun hv => absurd rfl hv⟩
  | printChar | printInt | printLong | readChar | readInt | readLong | readString | seedRandom | random
  | wallClockTime =>
    cases ht
    exact ⟨rfl, fun _ => rfl⟩

/-- Execute counts a control stall exactly where the record in slot E is taken. -/
theorem execute_controlStalls {s t : State} {r : Record} (hE : s.slotE = some r) (ht : execute s = .next t) :
    (s.Takes r → t.counters.controlStalls = s.counters.controlStalls + 1) ∧
    (¬ s.Takes r → t.counters.controlStalls = s.counters.controlStalls) := by
  rw [execute_holds hE] at ht
  by_cases hop : r.op = .ecall
  · refine ⟨fun htakes => absurd htakes (not_takes_ecall hop), fun _ => ?_⟩
    replace ht : execEcall s = .next t := by rwa [hop] at ht
    rw [execEcall_holds hE, State.detectLoadUse_eq] at ht
    split at ht
    · cases ht
      rfl
    · rw [(performService_keeps ht).1]
  · obtain ⟨r', reads, -, ⟨htakes, h⟩ | ⟨hnot, h⟩⟩ := exec_redirects r.op hop hE rfl <;> cases h.symm.trans ht
    · exact ⟨fun _ => rfl, fun hnot => absurd htakes hnot⟩
    · exact ⟨fun htakes => absurd htakes hnot, fun _ => rfl⟩

/-! ## A taken transfer (R333) -/

/-- The record that Execute hands on. -/
theorem execute_slotM {s t : State} {r : Record} (hE : s.slotE = some r) (hop : r.op ≠ .ecall)
    (ht : execute s = .next t) : ∃ m, t.slotM = some m ∧ m.pc = r.pc ∧ m.op = r.op := by
  rw [execute_holds hE] at ht
  obtain ⟨r', reads, -, hpc, hop', -, -, h | ⟨target, h⟩⟩ := exec_handsOn r.op hop hE <;> cases h.symm.trans ht <;>
    exact ⟨r', rfl, hpc, hop'⟩

/-- A cycle that starts with slot E empty executes nothing, so slot M is empty after it. -/
theorem step_bubble {s t : State} (hE : s.slotE = none) (hstep : step s = .next t) (ht : t.stopped = false) :
    t.slotM = none := by
  obtain ⟨-, hs, hb, e, he, -, -, rfl⟩ := step_running hstep ht
  obtain ⟨hM, -⟩ := beforeExecute_slotM hs hb
  cases (execute_empty ((beforeExecute_effect s).slotE.trans hE)).symm.trans he
  obtain ⟨-, hMdecode, -⟩ := decodeStage_later (beforeExecute s)
  obtain ⟨-, hMfetch, -⟩ := fetchStage_later (decodeStage (beforeExecute s))
  exact hMfetch.trans (hMdecode.trans hM)

/-- Fetch that does not stop fills slot D with the word at the fetch pointer, which it moves past it. -/
theorem fetchStage_runs {s : State} (h : (fetchStage s).stopped = false) :
    ∃ f, (fetchStage s).slotD = some f ∧ f.pc = s.pc ∧ (fetchStage s).pc = s.pc + BitVec.ofNat 64 f.len := by
  obtain ⟨k, -, ht⟩ | ⟨v, -, ht⟩ := fetchStage_cases s <;> rw [ht] at h ⊢
  · simp [State.stopped] at h
  · exact ⟨_, rfl, rfl, rfl⟩

/-- Settles O45: a taken record leaves slots D and E empty for Decode, so Fetch takes the word at the target and the
next cycle has nothing to execute. -/
theorem takenTransferSquashes : Obligations.TakenTransferSquashes := by
  intro s t r hstep ht hE b target taken
  obtain ⟨-, hs, hb, e, he, hruns, hdecode, rfl⟩ := step_running hstep ht
  have hEb : b.slotE = some r := (beforeExecute_effect s).slotE.trans hE
  obtain ⟨hstall, hnoStall⟩ := execute_controlStalls hEb he
  obtain ⟨-, hMdecode, -, -, hcounters⟩ := decodeStage_later e
  obtain ⟨hEfetch, hMfetch, -, -, hstalls⟩ := fetchStage_later (decodeStage e)
  rw [hcounters] at hstalls
  rw [hstalls]
  refine ⟨fun htakes => ?taken, fun hnot => (hnoStall hnot).trans (beforeExecute_controlStalls s)⟩
  case taken =>
    obtain ⟨hD, hpc⟩ := hruns.taken r hEb htakes
    have hEt : (fetchStage (decodeStage e)).slotE = none := by rw [hEfetch, decodeStage_empty hD, hruns.slotE]
    have hop : r.op ≠ .ecall := fun hop => not_takes_ecall hop htakes
    refine ⟨hEt, (hstall htakes).trans (congrArg (· + 1) (beforeExecute_controlStalls s)), ?word, ?record,
      fun u hu hrun => step_bubble hEt hu hrun⟩
    case word =>
      rw [decodeStage_empty hD] at ht ⊢
      obtain ⟨f, hf, hfpc, hpcFetch⟩ := fetchStage_runs ht
      rw [hpc] at hfpc hpcFetch
      exact ⟨f, hf, hfpc, hpcFetch⟩
    case record =>
      rw [hMfetch, hMdecode]
      exact execute_slotM hEb hop he

end Sys2Proof.Machine
end

section
/-! Where everything stands at a stop, and what the driver sees (spec/60_exceptions.md R362, R371, R372, R373). -/

namespace Sys2Proof.Machine

/-! ## How Decode and Fetch stop (R336, R340) -/

/-- Where slot E was empty, it holds the word of slot D after a Decode that does not stop. -/
theorem decodeStage_slotE {s : State} (hE : s.slotE = none) (h : (decodeStage s).stopped = false) :
    (decodeStage s).slotE.map Record.pc = s.slotD.map Fetched.pc := by
  cases hD : s.slotD with
  | none => rw [decodeStage_empty hD, hE]; rfl
  | some f =>
    cases hd : decode s.cfg.hasM f.code with
    | instr i => rw [decodeStage_instr hD hd]; rfl
    | failure why =>
      rw [decodeStage_failure hD hd] at h
      simp [State.stopped] at h

theorem fetchStage_stops {s : State} {k : FatalKind} (hs : s.stopped = false) (h : (fetchStage s).fatal = some k) :
    (fetchStage s).slotD = s.slotD ∧ (fetchStage s).pc = s.pc ∧
    (k = .pageCross ∧ offOf s.pc > 4092 ∨ k = .unmappedRead ∧ offOf s.pc ≤ 4092 ∧ s.mem.mapped s.pc = false) := by
  obtain ⟨-, hf⟩ := State.running_iff.1 hs
  obtain ⟨k', hk, ht⟩ | ⟨v, -, ht⟩ := fetchStage_cases s <;> rw [ht] at h ⊢
  · cases h
    refine ⟨rfl, rfl, (Memory.read_error (by simp) hk).imp (And.imp_right fun hc => ?_)
      (And.imp_right (And.imp_left fun hc => ?_))⟩ <;> unfold pageSize at hc <;> omega
  · cases hf.symm.trans h

/-! ## How an EXIT ends the cycle (R225, R335) -/

/-- Only an ECALL sets the exit flag, and the run ends with it. -/
theorem ecallStops_of_exit {s t : State} (hstep : step s = .next t) (hs : s.stopped = false) (hx : t.exit = true) :
    (beforeExecute s).stopped = false ∧ execute (beforeExecute s) = .next t ∧ EcallStops (beforeExecute s) t := by
  obtain ⟨-, -, -, hbx, -⟩ := beforeExecute_cases hs
  obtain ⟨-, rfl⟩ | ⟨hb, h | ⟨e, -, hruns, hlast⟩⟩ := step_ends hstep hs
  · cases hbx.symm.trans hx
  · exact ⟨hb, h⟩
  · obtain ⟨hex, -⟩ := State.running_iff.1 hruns.running
    obtain ⟨-, rfl⟩ | ⟨-, rfl⟩ := hlast
    · cases hex.symm.trans hx
    · obtain ⟨-, -, -, hdx, -⟩ := decodeStage_later e
      obtain ⟨-, -, -, hfx, -⟩ := fetchStage_later (decodeStage e)
      cases (hfx.trans (hdx.trans hex)).symm.trans hx

/-! ## The rows of the table (R362) -/

section
variable {s t e : State} {k : FatalKind}

/-- The memory after an Execute that does not stop: the one the ECALL in slot E has left, and no other instruction
changes it. -/
theorem RunsOn.memory (h : RunsOn s e) (he : execute s = .next e) (ht : t.mem = e.mem) :
    (∃ e, execute s = .next e ∧ t.mem = e.mem) ∧
    ((∀ r, s.slotE = some r → r.op ≠ .ecall) → t.mem = s.mem) :=
  ⟨⟨e, he, ht⟩, fun hno => ht.trans (h.mem hno)⟩

/-- Nothing was taken where a word has stayed in slot D. -/
theorem RunsOn.not_taken (h : RunsOn s e) (hD : e.slotD ≠ none) : ∀ r, s.slotE = some r → ¬ s.Takes r :=
  fun r hr htakes => hD (h.taken r hr htakes).1

/-- Decode finds slot D empty behind a taken record, and takes the word of slot D to slot E otherwise. -/
theorem RunsOn.decodes (h : RunsOn s e) (hdecode : (decodeStage e).stopped = false) :
    (∀ r, s.slotE = some r → s.Takes r →
      (decodeStage e).slotE = none ∧ (decodeStage e).pc = s.targetOf r) ∧
    ((∀ r, s.slotE = some r → ¬ s.Takes r) →
      (decodeStage e).slotE.map Record.pc = s.slotD.map Fetched.pc ∧ (decodeStage e).pc = s.pc) := by
  obtain ⟨hpc, -⟩ := decodeStage_later e
  refine ⟨fun r hr htakes => ?_, fun hno => ?_⟩
  · obtain ⟨hD, hpcTarget⟩ := h.taken r hr htakes
    exact ⟨by rw [decodeStage_empty hD, h.slotE], hpc.trans hpcTarget⟩
  · obtain ⟨hD, hpcSame⟩ := h.notTaken hno
    exact ⟨hD ▸ decodeStage_slotE h.slotE hdecode, hpc.trans hpcSame⟩

end

/-- Settles O46: a stop in AccessMemory ends the cycle there; an Execute that stops is an ECALL, which keeps its record
in slot E; a word that Decode fails on stays in slot D, so nothing was taken; and Fetch stops where it was to read. -/
theorem stateAtAStop : Obligations.StateAtAStop := by
  refine ⟨fun s t k hstep hs hk => ?fatal, fun s t hstep hs hx => ?exit⟩
  case fatal =>
    intro b target taken memoryAfterExecute
    obtain ⟨hE, hD, hpc, hbx, hregs, -, hbstop⟩ := beforeExecute_cases hs
    obtain ⟨-, rfl⟩ | ⟨hb, hlast⟩ := step_ends hstep hs
    · obtain ⟨hW, hM, hmem, hr⟩ := hbstop k hk
      exact ⟨hregs, hbx, .inl ⟨rfl, hW, hM, hE, hD, hpc, hmem, hr⟩⟩
    obtain ⟨hM, hpassed⟩ := beforeExecute_slotM hs hb
    obtain ⟨he, hends⟩ | ⟨e, he, hruns, hlast⟩ := hlast
    · obtain ⟨r, hEb, hop⟩ := hends.holds
      obtain ⟨-, hf, -⟩ | ⟨hx, k', hk', hcause⟩ := hends.cause
      · cases hf.symm.trans hk
      · obtain rfl := Option.some.inj (hk.symm.trans hk')
        exact ⟨hends.regs.trans hregs, hx, .inr (.inl ⟨hb, hends.slotW, hends.slotW ▸ hpassed, hends.slotM.trans hM,
          hends.slotE.trans hE, hends.slotD.trans hD, hends.pc.trans hpc, ⟨r, hE.symm.trans hEb, hop⟩,
          hcause.imp_right fun ⟨hkind, hpeek⟩ => ⟨hkind, he, hpeek⟩⟩)⟩
    obtain ⟨hex, -⟩ := State.running_iff.1 hruns.running
    have hMe : e.slotM.map Record.pc = s.slotE.map Record.pc := (hruns.slotM hM).trans (congrArg _ hE)
    obtain ⟨hDe, rfl⟩ | ⟨hdecode, rfl⟩ := hlast
    · have hno := hruns.not_taken hDe
      obtain ⟨hDsame, hpcsame⟩ := hruns.notTaken hno
      have hmem := hruns.memory he (t := e.raiseFatal .decodeFailure) rfl
      rw [hE] at hno hmem
      exact ⟨hruns.regs.trans hregs, hex, .inr (.inr (.inl ⟨hb, hruns.slotW, hruns.slotW ▸ hpassed, hMe, hruns.slotE,
        hDsame.trans hD, hDe, hpcsame.trans hpc, hno, hmem, (Option.some.inj hk).symm⟩))⟩
    · obtain ⟨-, hMd, hWd, hxd, -⟩ := decodeStage_later e
      obtain ⟨hregsd, -, hmemd, -⟩ := decodeStage_frame e
      obtain ⟨hEf, hMf, hWf, hxf, -⟩ := fetchStage_later (decodeStage e)
      obtain ⟨hregsf, -, hmemf, -⟩ := fetchStage_frame (decodeStage e)
      obtain ⟨hDf, hpcf, hkind⟩ := fetchStage_stops hdecode hk
      have hW : (fetchStage (decodeStage e)).slotW = b.slotW := hWf.trans (hWd.trans hruns.slotW)
      have hpath := hruns.decodes hdecode
      have hmem := hruns.memory he (hmemf.trans hmemd)
      rw [← hEf, ← hpcf, hE, hD, hpc] at hpath
      rw [hE] at hmem
      rw [← hpcf, ← hmemf] at hkind
      exact ⟨(hregsf.trans hregsd).trans (hruns.regs.trans hregs), (hxf.trans hxd).trans hex, .inr (.inr (.inr ⟨hb, hW,
        hW ▸ hpassed, (congrArg _ (hMf.trans hMd)).trans hMe, hDf.trans (decodeStage_slotD hdecode), hpath.1, hpath.2,
        hmem, hkind⟩))⟩
  case exit =>
    obtain ⟨hE, hD, hpc, -, hregs, -⟩ := beforeExecute_cases hs
    obtain ⟨hb, he, hends⟩ := ecallStops_of_exit hstep hs hx
    obtain ⟨hM, hpassed⟩ := beforeExecute_slotM hs hb
    obtain ⟨r, hEb, hop⟩ := hends.holds
    obtain ⟨-, hf, hmem⟩ | ⟨hx', -⟩ := hends.cause
    · exact ⟨hf, hb, hends.regs.trans hregs, hends.slotW, hends.slotW ▸ hpassed, hends.slotM.trans hM,
        hends.slotE.trans hE, ⟨r, hE.symm.trans hEb, hop⟩, hends.slotD.trans hD, hends.pc.trans hpc, hmem⟩
    · cases hx'.symm.trans hx

/-! ## What the driver sees (R371, R372, R373) -/

/-- An ECALL that sets the exit flag has the number of EXIT in a7 (R225). -/
theorem num_of_exit {s t : State} {r : Record} (h : s.Holds .ecall r) (ht : execute s = .next t) (hs : s.exit = false)
    (hx : t.exit = true) : s.fwd 17 = s.cfg.sysnum.exit := by
  obtain ⟨hE, hop⟩ := h
  replace ht : execEcall s = .next t := by rwa [execute_holds hE, hop] at ht
  rw [execEcall_holds hE] at ht
  split at ht
  · cases ht
    simp [hs] at hx
  · rename_i v hv
    obtain ⟨-, hkeeps⟩ := performService_keeps ht
    have hexit : v = .exit := by
      by_contra hne
      simp [hkeeps hne, hs] at hx
    rw [← num_of_serviceOf hv, hexit]
    rfl

/-- The exit flag becomes true in the cycle that executes an EXIT, and in no other (R371). -/
theorem step_exit_iff {s t : State} (hstep : step s = .next t) (hs : s.stopped = false) :
    t.exit = true ↔ (beforeExecute s).stopped = false ∧ (∃ r, s.Holds .ecall r) ∧
      (beforeExecute s).fwd 17 = s.cfg.sysnum.exit := by
  have hbefore := beforeExecute_effect s
  constructor
  · intro hx
    obtain ⟨hb, he, hends⟩ := ecallStops_of_exit hstep hs hx
    obtain ⟨r, hE, hop⟩ := hends.holds
    refine ⟨hb, ⟨r, hbefore.slotE.symm.trans hE, hop⟩, ?_⟩
    rw [num_of_exit ⟨hE, hop⟩ he (State.running_iff.1 hb).1 hx, hbefore.cfg]
  · rintro ⟨hb, ⟨r, hholds⟩, hnum⟩
    obtain ⟨hc, -⟩ := step_cases hstep
    obtain ⟨-, hexit, -⟩ := exitEndsTheRun s r hc hs hb hholds hnum
    cases hstep.symm.trans hexit
    rfl

/-- The dump shows every register as an operand reads it from the register file (R372). -/
theorem dumpState_regs (s : State) (x : Reg) : s.dumpState.regs[x.toNat]'(x.isLt) = s.reg x := by
  simp [State.dumpState]

/-- Settles O47: the exit flag follows EXIT, and the two observations are read off the state. -/
theorem driverObservations : Obligations.DriverObservations := by
  refine ⟨fun p => ⟨rfl, rfl⟩, fun s t hstep => ?step, fun s => ?observed⟩
  case step =>
    cases hs : s.stopped with
    | true =>
      obtain rfl := step_stopped hs hstep
      exact ⟨by simp, fun hx _ => hx⟩
    | false =>
      obtain ⟨hx, -⟩ := State.running_iff.1 hs
      refine ⟨?_, fun _ hf => ?_⟩
      · simpa [State.isExit, hx] using step_exit_iff hstep hs
      · obtain ⟨k, hk⟩ := Option.ne_none_iff_exists'.1 hf
        obtain ⟨-, hxt, -⟩ := stateAtAStop.1 s t k hstep hs hk
        exact hxt
  case observed =>
    refine ⟨rfl, rfl, rfl, dumpState_regs s, rfl, rfl, fun r hE => ?_, fun hE => ?_⟩
    · rw [State.nextInstructionPc, hE, Option.map_some]
    · rw [State.nextInstructionPc, hE, Option.map_none]

end Sys2Proof.Machine
end

section
/-! What a launch builds, and the latency of the first access (spec/70_reset_and_hazards.md R391; spec/25_cache.md R68,
R76, R80). -/

namespace Sys2Proof.Machine

/-! ## The first request to a level at launch (R68) -/

/-- No way of a level at launch holds a tag. -/
theorem hitWay_launch (c : CacheConfig) (j tag : Nat) : hitWay ((CacheLevel.launch c).ways j) tag = none := by
  refine hitWay_eq_none fun b hb h => ?_
  obtain ⟨k, hk⟩ := List.getElem?_of_mem hb
  exact CacheLevel.not_valid_of_ways_launch hk h.1

/-- The first way of a level at launch is free. -/
theorem freeWay_launch {c : CacheConfig} (hc : 0 < c.associativity) (j : Nat) :
    freeWay ((CacheLevel.launch c).ways j) = some 0 := by
  obtain ⟨n, hn⟩ := Nat.exists_eq_succ_of_ne_zero hc.ne'
  rw [CacheLevel.ways_launch, hn, List.replicate_succ]
  rfl

/-- A write-back level that allocates, at launch: a request costs one fill from the lower level. -/
theorem launch_answer {σ : Type} (lower : σ → Request → σ × Reply) {c : CacheConfig} (hc : 0 < c.associativity)
    (hthrough : c.writeThrough = false) (halloc : c.writeAllocate = true) (low : σ) (q : Request) :
    ((CacheLevel.launch c).handleRequest lower low q).2.2.latency =
      (lower low ((CacheLevel.launch c).fillRequest q)).2.latency + c.busLatency := by
  have hchoose : (CacheLevel.launch c).chooseWay lower low (indexOf c q.addr) = (CacheLevel.launch c, low, 0, 0) :=
    CacheLevel.chooseWay_free lower _ low (freeWay_launch hc _)
  have hsends : (CacheLevel.launch c).sendsWrite q = false := CacheLevel.sendsWrite_eq_false (.inr hthrough)
  rw [CacheLevel.handleRequest_allocate_answer lower low (hitWay_launch c _ _) (.inr halloc) (congrArg Prod.snd hchoose)
    rfl, hsends, if_neg Bool.false_ne_true, Nat.zero_add]
  rfl

/-- The first request to a chain of such levels goes through all of them to the backing memory (R75). -/
theorem chainRequest_launch {cs : List CacheConfig}
    (hcs : ∀ c ∈ cs, 0 < c.associativity ∧ c.writeThrough = false ∧ c.writeAllocate = true) (b : BackingConfig)
    (q : Request) :
    (chainRequest cs.length (cs.map CacheLevel.launch, Backing.launch b) q).2.latency =
      b.busLatency + b.hitLatency + (cs.map CacheConfig.busLatency).sum := by
  induction cs generalizing q with
  | nil => rfl
  | cons c cs ih =>
    obtain ⟨⟨hc, hthrough, halloc⟩, hcs⟩ := List.forall_mem_cons.1 hcs
    rw [List.length_cons, List.map_cons, chainRequest_cons, launch_answer _ hc hthrough halloc, ih hcs, List.map_cons,
      List.sum_cons]
    omega

/-- With the default levels the first access takes 100 cycles (R80). -/
theorem launch_access_default {p : Launch} (hlevels : p.levels = [.defaultL1, .defaultL2, .defaultL3])
    (hbacking : p.backing = .default) (a : Word) (n : Nat) (isRead : Bool) :
    ((launch p).access a n isRead).counters.memDelayCycles = 100 := by
  have hdefault : ∀ c ∈ p.levels, 0 < c.associativity ∧ c.writeThrough = false ∧ c.writeAllocate = true := by
    rw [hlevels]
    decide
  have hfirst := chainRequest_launch hdefault p.backing { addr := a, size := n, isRead := isRead }
  rw [← List.length_map (f := CacheLevel.launch)] at hfirst
  have hcount : ((launch p).access a n isRead).counters.memDelayCycles = 0 + _ := congrArg (0 + ·) hfirst
  rw [hcount, hlevels, hbacking]
  rfl

/-! ## The registers at launch (R10, R391) -/

theorem launch_reg_sp (p : Launch) : (launch p).reg 2 = p.stackTop := by
  simp [State.reg, launch]

theorem launch_reg_other (p : Launch) {x : Reg} (h0 : x ≠ 0) (h2 : x ≠ 2) :
    (launch p).reg x = p.initX[x.toNat]'(x.isLt) := by
  have h0' : 0 ≠ x.toNat := fun h => h0 (BitVec.eq_of_toNat_eq h.symm)
  have h2' : 2 ≠ x.toNat := fun h => h2 (BitVec.eq_of_toNat_eq h.symm)
  rw [State.reg, if_neg h0]
  simp only [launch]
  rw [Vector.getElem_set_ne _ _ h2', Vector.getElem_set_ne _ _ h0']

/-- Settles O51: each element is read off `launch`; the first access misses in every default level. -/
theorem launchState : Obligations.LaunchState := by
  refine ⟨fun p => ⟨rfl, rfl, launch_reg_sp p, fun x => launch_reg_other p, rfl, fun hp => hp.1, rfl, launch_slotD p,
    launch_slotE p, launch_slotM p, launch_slotW p, rfl, rfl, ?configs, ?levels, rfl, rfl, rfl, rfl, rfl,
    fun hlevels hbacking => launch_access_default hlevels hbacking⟩, rfl⟩
  case configs => exact (List.map_map ..).trans (List.map_id _)
  case levels => exact List.forall_mem_map.2 fun c _ => ⟨rfl, rfl, CacheLevel.ways_launch c⟩

end Sys2Proof.Machine
end
